-- ==== Sys2Proof/Word.lean ====
section
/-! DEFINITION. The word types of the device: 32-bit little-endian registers (00 R12), bytes, and the 10 ns count of the timebase (03 R101). -/

namespace Sys2Proof

/-- A register or memory word (R12). -/
abbrev Word := BitVec 32

/-- A byte of a memory. -/
abbrev Byte := BitVec 8

/-- A timebase value: a 64-bit count of 10 ns ticks (R101). -/
abbrev Time := BitVec 64

/-- Thirty-two ones: what DRAG holds where COPE holds 0 (R119). -/
def Word.ones : Word := 0xFFFFFFFF

end Sys2Proof
end

