-- ==== Sys2Proof/Syntax.lean ====
section
/-! DEFINITION. The commands of the block: one constructor of `Instr` per row of spec/opcode_table.json, with the operands
that the event or the host brings (levels at terminals, results of tests, cells as they arrive). -/

namespace Sys2Proof

/-- A half: C belongs to COPE and lane C, D to DRAG and lane D (R22, R23). -/
inductive Half where
  | c
  | d
  deriving DecidableEq, Repr

/-- A logic-side supply, in the bit order of SUP_STATUS (R629). -/
inductive Rail where
  | core
  | io
  | host
  | bar
  deriving DecidableEq, Repr

/-- The block pages (R41). -/
inductive Page where
  | dev
  | clk
  | sup
  | frm
  | hp (n : Fin 4)
  | own
  | cop
  | drg
  | cmp
  | trp
  | crb
  | img
  | spb (k : Fin 16)
  | spc
  | chk
  | bst
  | fib (b : Fin 8)
  | fob (b : Fin 8)
  | pwl
  | bar (d : Fin 2)
  deriving DecidableEq, Repr

/-- The straps sampled at the release of RESET_N (R34). -/
structure Straps where
  compat : Bool := false
  commission : Bool := false
  bootSel : BitVec 2 := 0
  deriving DecidableEq, Repr

/-- What a supply does on its return (R600, R628): it becomes valid (VDD_HOST with its class), falls back below its OV level,
or rises above its WARN level. -/
inductive SupplyEdge where
  | valid (is3v3 : Bool)
  | belowOv
  | aboveWarn
  deriving DecidableEq, Repr

/-- An ECC error met by a read: corrected or not, in the data or in the check bits (R404, R487). -/
structure EccErr where
  uncorr : Bool
  checkBit : Bool
  /-- The data bits of a scratchpad word that a multi-bit error has changed: the word as stored differs in them (R487). -/
  mask : Word := 0
  deriving DecidableEq, Repr

/-- The header fields, session tag and CRC field of a host cell as received (R452). OP is the command's own. -/
structure CellHead where
  port : Fin 4
  rsv0 : BitVec 6 := 0
  len : BitVec 6 := 0
  priv : Bool := false
  stream : Fin 4 := 0
  tag : Fin 32 := 0
  seq : Byte := 0
  rsv1 : Byte := 0
  addr : BitVec 24 := 0
  sessTag : BitVec 64 := 0
  crc : Word := 0
  deriving DecidableEq, Repr

/-- A bit upset in a channel's local state memory met by a read (R122): the word, and whether several bits are wrong. -/
structure LsmUpset where
  half : Half
  word : Fin 16384
  multi : Bool
  deriving DecidableEq, Repr

/-- A bit upset inside one channel while it evaluates an instance: record word w of what it computes is XORed with mask. -/
structure RegUpset where
  half : Half
  inst : Fin 512
  word : Fin 16
  mask : Word
  deriving DecidableEq, Repr

/-- The physical disturbances of the channels and of the compare path during one command; the default is a healthy device. -/
structure Upset where
  /-- CMP_C's verdict, where its output is stuck (true: MATCH). -/
  stuckC : Option Bool := none
  /-- CMP_D's verdict, where its output is stuck. -/
  stuckD : Option Bool := none
  /-- A parity error on an entry leaving the second delay stage (R133). -/
  parity : Bool := false
  /-- The two retired-instruction counts differ (R155 OFFSET_LOSS). -/
  offset : Bool := false
  /-- The n-th entry that a channel presents in this command is XORed with a mask on its way. -/
  flip : Option (Half × Nat × BitVec 64) := none
  /-- The n-th entry of a channel is not presented (R679). -/
  drop : Option (Half × Nat) := none
  /-- A local state memory word reads with an error (R122). -/
  lsm : Option LsmUpset := none
  /-- A cache line reads with a parity error in a channel (R120): its crucible double-word. -/
  cache : Option (Half × BitVec 17) := none
  /-- Parity error in the function-block unit's tables of a channel (R154 FBU_CHECK). -/
  fbu : Option Half := none
  /-- A channel alone meets an undefined instruction (R155's text). -/
  illegal : Option Half := none
  /-- A channel computes a wrong record word. -/
  reg : Option RegUpset := none
  deriving DecidableEq, Repr

/-- The master of a scratchpad port B access (R486), in the order of LAST_COLLIDE (R513). -/
inductive BMaster where
  | eng
  | chk
  | bst
  | ldr
  deriving DecidableEq, Repr

/-- A port B access that meets a port A access in the same fabric cycle on one word of the cell (R495). -/
structure Tie where
  /-- The word of the bank. -/
  word : BitVec 13
  master : BMaster
  /-- Port B writes. -/
  write : Bool
  /-- For a CHK read, the context whose job reads. -/
  ctx : Fin 8 := 0
  deriving DecidableEq, Repr

/-- The lane errors that a heartbeat meets (R631); a bad trip message is TRIP_MESSAGE's (R187). -/
inductive LaneErr where
  | code
  | check
  deriving DecidableEq, Repr

/-- A configuration copy found corrupt in BACKGROUND (R200, R321, R362, R393). -/
inductive CfgFault where
  | trp (word : BitVec 9) (half : Half)
  | fib (b : Fin 8)
  | fob (b : Fin 8)
  | pwl
  deriving DecidableEq, Repr

/-- The terminal whose senses change: a safety output 0 to 47, an AX output 48 to 63, or a pulse source (R340, R393). -/
inductive Terminal where
  | out (o : Fin 64)
  | ps (k : Fin 16)
  deriving DecidableEq, Repr

/-- What the readback comparators, the current sense and the temperature sense of a terminal show (R340, R344, R350). -/
structure Sense where
  rbC : Bool := false
  rbD : Bool := false
  /-- Source current above the overcurrent level (150 mA; 75 mA on AX, R359). -/
  srcOver : Bool := false
  /-- Source current below 0.5 mA. -/
  srcLow : Bool := false
  /-- Sink current above the overcurrent level. -/
  sinkOver : Bool := false
  /-- Driver above 135 °C. -/
  hot : Bool := false
  /-- CUR and SINK of OUTk_CUR (R374). -/
  sink : Bool := false
  cur : BitVec 12 := 0
  temp : BitVec 9 := 0
  deriving DecidableEq, Repr

/-- Units that a self-test slice reports as failed, in the layout of UNUSABLE0 and UNUSABLE1 (R597). -/
structure Units where
  hp : BitVec 4 := 0
  iob : BitVec 8 := 0
  spb : BitVec 16 := 0
  fd : BitVec 2 := 0
  chk : BitVec 8 := 0
  deriving DecidableEq, Repr

/-- The commands: one constructor per row of the opcode table, in the table's order. An operand with a default is what may go wrong with the
event, or its usual direction. -/
inductive Instr where
  | resetNAssert
  | resetRelease (straps : Straps)
  | supplyLoss (r : Rail)
  | supplyOv (r : Rail)
  | supplyWarn (r : Rail)
  | pwrFailNAssert (secretOk : Bool)
  | pfHoldEnd
  | refLost
  | pllUnlock
  | coreClockLost (h : Half) (deviation : Word) (noEdge : Bool := true)
  | errPin (h : Half) (differs : Bool := true)
  | timebaseTick (upset : Time) (pins : Option Straps := none) (waits : List (Fin 8) := [])
  | barrierTrainingDone
  | trainFail (d : Fin 2)
  | recordReadDone (flashOk cmpOk : Bool)
  | sliceDone (slice : Fin 12) (sig : Word) (patterns : BitVec 24) (failed : Units)
  | sliceBudgetExpiry (slice : Fin 12) (patterns : BitVec 24) (failed : Units)
  | startExit
  | slotCopyDone
  | stagedCopyDone (ecc : List (BitVec 17 × EccErr) := [])
  | verifyDone (ecc : List (BitVec 17 × EccErr))
  | recordStampDone (ok : Bool)
  | stampTimeout
  | frameBoundary
  | syncInEdge (rising : Bool := true)
  | earliestBoundary
  | syncWindowEnd
  | rawVectorArrival
  | exchangeRawTimeout (d : Fin 2) (h : Half) (failed : Bool := false)
  | xchgTimeout (h : Half)
  | exercisePair (u : Upset)
  | agreeCompare (u : Upset)
  | evaluateStart (u : Upset := {})
  | eval (u : Upset)
  | force (u : Upset)
  | pub (u : Upset)
  | endWord (u : Upset)
  | armAck (d : Fin 2) (h : Half)
  | cacheFill (ecc : Option EccErr) (again : Option Half)
  | stallTimeout (h : Half)
  | overrun
  | commitAt
  | strobeApply (d : Fin 2)
  | commitSplit (d : Fin 2)
  | permitLatch (faults : List CfgFault)
  | frameOutEnd
  | inputLevelChange (i : Fin 112) (h : Half) (level : Bool)
  | tripTolExpiry (i : Fin 112) (h : Half)
  | ownMaskEnd (i : Fin 112)
  | tripMessage (src : Fin 2) (h : Half) (code check toDie : Bool)
  | heartbeat (d : Fin 2) (h : Half) (err : Option LaneErr) (rawLate pwrLow clkDiff : Bool)
  | hbMiss (d : Fin 2) (h : Half)
  | chill (d : Fin 2)
  | laneTestEcho (h : Half) (echo : BitVec 12)
  | laneFail (h : Half)
  | darkPulseStart (gateC gateD onC onD openC openD : Bool)
  | darkPulseEnd
  | ownWindowEnd (maskErrs : List (Fin 112 × Half))
  | psShortHi (k : Fin 16)
  | psOverload (k : Fin 16)
  | inputExercise (d : Fin 2)
  | inputExerciseEnd (wrong : BitVec 112)
  | filterExpiry (i : Fin 112) (h : Half)
  | currentMeasure (readings : List (Fin 112 × BitVec 9))
  | openWire (i : Fin 112) (live : Bool)
  | refCheck (b : Fin 8) (bad : Bool)
  | shortHi (o : Fin 64)
  | lsOpenDelay (o : Fin 64)
  | overload (o : Fin 64)
  | openLoad (o : Fin 64)
  | overtemp (o : Fin 64)
  | rbMismatch (o : Fin 64)
  | fvMeasure (b : Fin 8) (fvC fvD : BitVec 16)
  | fvHigh (b : Fin 8)
  | fvMeas (b : Fin 8)
  | fvRecovery (b : Fin 8)
  | fvHighRecovery (b : Fin 8)
  | fvBlankEnd (b : Fin 8)
  | blockResetEnd (n : Fin 4)
  | classificationWindowEnd (p : Page)
  | shadowEnd
  | logEntryWrite
  | cellAborted (n : Fin 4)
  | nop (cell : CellHead)
  | read (cell : CellHead)
  | write (cell : CellHead) (payload : List Word)
  | fetch (cell : CellHead)
  | challenge (cell : CellHead)
  | auth (cell : CellHead) (payload : List Word)
  | close (cell : CellHead)
  | shutdown (cell : CellHead) (secretOk : Bool)
  | takeEffect (port stream : Fin 4) (ties : List Tie) (ecc : List (BitVec 17 × EccErr)) (secretOk : Bool)
  | portBRetry (c : Fin 8) (ecc : Option EccErr := none)
  | tokenRefill (n : Fin 4)
  | handoverDrainDone (p : Page)
  | keyProgramDone (ok : Bool)
  | jobWordRead (c : Fin 8) (ecc : Option EccErr) (parity : Bool := false)
  | bankPowerChange (k : Fin 16)
  | breakpointHit (h : Half)
  | scratchSegmentStart
  | scratchSegmentDone (marchFail : Bool) (ecc : List (Fin 256 × EccErr))
  | arbiterAging
  | cruciblePatrolRead (ecc : Option EccErr)
  | lsmPatrolRead (errC errD : Option Bool)
  | recordWriteDone (ok : Bool)
  | shakeoutAgeTick
  | extest (lands shifted : BitVec 101)
  | samplePreload (lands shifted : BitVec 101)
  | idcode
  | clamp (lands : BitVec 101)
  | highz (lands : BitVec 101) (shifted : BitVec 101 := 0)
  | dbgAccess (h : Half) (off : BitVec 12) (data : Option Word)
  | scanEn (secretOk : Bool)
  | bypass
  | pllLock
  | supplyReturn (r : Rail) (edge : SupplyEdge)
  | refclkReturn (short : Bool)
  | pwrFailNRise (counted : Bool)
  | unusedOp (op : Fin 8) (cell : CellHead)
  | busyNPulseEnd (n : Fin 4)
  | outputSenseChange (t : Terminal) (sense : Sense)
  deriving DecidableEq, Repr

end Sys2Proof
end

