-- ==== Sys2Proof/Config.lean ====
section
/-! DEFINITION. What an implementation fixes and the manual leaves open: free values, opaque, so that no proof can see one.
Every use is named in a log entry (notes/assumptions). -/

namespace Sys2Proof

/-- FREE VALUE. The fresh 128-bit nonce ND of the k-th CHALLENGE (R462: "from the device's random source"). -/
opaque Config.nonce : Nat → BitVec 128

/-- FREE VALUE. A word the manual calls undefined or gives no value for: the k-th such value (R495, R630, R634). -/
opaque Config.freeWord : Nat → Word

/-- FREE VALUE. What register r of a channel's register file holds after its k-th program word (R117; no rule states it). -/
opaque Config.regFile : Nat → Nat → Word

/-- FREE VALUE. The expected signature of slice s in the device's ROM, for shakeout and for the full start-up test (R571). -/
opaque Config.expectedSig : Nat → Bool → Word

end Sys2Proof
end

