-- ==== Sys2Proof/Machine/State.lean ====
section
/-! DEFINITION. The state of the device as plain data: everything the manual gives it, with the reset values of its register
tables as the defaults of the fields. A reset value the manual does not give is marked DESIGN CHOICE with its log entry. -/

namespace Sys2Proof.Machine

/-- A memory: (byte address, byte) pairs in strictly rising addresses, none equal to the memory's fill. -/
abbrev Mem := List Host.Cell

/-- STATE (R33). -/
inductive DevState where
  | off
  | start
  | load
  | verify
  | run
  | safe
  | commission
  | shakeout
  deriving DecidableEq, Repr

/-- The part (R3). -/
inductive Part where
  | slc4896
  | slc2448
  deriving DecidableEq, Repr

/-- Why the device stops: raised by a command that no host can send. -/
inductive Fault where
  /-- Raised by WRITE and AUTH: the payload has not the LEN + 1 words its header states, so no cell carries it (R452). Safe. -/
  | payloadLength
  deriving DecidableEq, Repr

/-- Why a command has no meaning. -/
inductive Refusal where
  /-- Raised by a command whose meaning is not written. Safe. -/
  | notModelled (mnemonic : String)
  deriving DecidableEq, Repr

/-- One entry of HIST (R68). -/
structure HistEntry where
  valid : Bool := false
  merged : Bool := false
  conseq : Bool := false
  overflow : Bool := false
  reaction : BitVec 4 := 0
  origin : BitVec 12 := 0
  cause : BitVec 5 := 0
  seq : BitVec 16 := 0
  lost : BitVec 16 := 0
  frame : Word := 0
  timeLo : Word := 0
  deriving DecidableEq, Repr

/-- INCIDENT (R64), the count of its events (R69) and a serial that tells one incident of the page from the next (R550). -/
structure Incident where
  isOpen : Bool := false
  mergeCount : BitVec 8 := 0
  severity : BitVec 2 := 0
  conseq : Bool := false
  reaction : BitVec 4 := 0
  events : Nat := 0
  serial : Nat := 0
  deriving DecidableEq, Repr

/-- The first-fault record (R65). -/
structure FirstFault where
  cause : Word := 0
  time : Time := 0
  frame : Word := 0
  deriving DecidableEq, Repr

/-- HIST with its write position (R69). -/
structure History where
  entries : List HistEntry := List.replicate 8 {}
  /-- The slot after the newest entry. -/
  next : Nat := 0
  seq : BitVec 16 := 0
  /-- The slot of the open incident's OVERFLOW entry. -/
  overflowSlot : Option Nat := none
  deriving DecidableEq, Repr

/-- OWNER, HANDOVER and LOCK of a page (R52 to R54). -/
structure Ownership where
  flask : BitVec 4 := 0
  draining : Bool := false
  pending : Bool := false
  /-- The drain was started by ASSIGN on OWN (R483). -/
  byAssign : Bool := false
  result : BitVec 3 := 0
  target : BitVec 4 := 0
  /-- The flask that receives the page as the drain in progress ends: TARGET as GO was written, or FLASK of ASSIGN (R72, R483). -/
  dest : BitVec 4 := 0
  locked : Bool := false
  nohand : Bool := false
  deriving DecidableEq, Repr

/-- The common header of a block page (R50 to R70), with the page's fifteen counter words (R67). -/
structure Hdr where
  own : Ownership := {}
  live : Word := 0
  latch : Word := 0
  enable : Word := 0
  irqEn : Word := 0
  total : BitVec 16 := 0
  inWindow : BitVec 8 := 0
  windowOpen : Bool := false
  fltWindow : BitVec 5 := 12
  fltN : BitVec 8 := 1
  reactMinor : BitVec 4 := 1
  reactSevere : BitVec 4 := 0
  incident : Incident := {}
  first : FirstFault := {}
  hist : History := {}
  /-- The words at 0x044 to 0x07C, in order. -/
  counters : List Word := List.replicate 15 0
  deriving DecidableEq, Repr

/-- A consequence shadow (R549): a set of (page, cause, unit) and the reaction that opened it. -/
structure Shadow where
  /-- (page, cause bits, units concerned; none for every unit of the page). -/
  sets : List (Page × Word × Option (List Nat)) := []
  origin : Page := .dev
  /-- The incident of the origin page that took the reaction. -/
  serial : Nat := 0
  /-- Timebase of the cycle in which the reaction took effect. -/
  opened : Time := 0
  deriving DecidableEq, Repr

/-- DEV (chapter 17) and the parts of the device state that no register shows. -/
structure Dev where
  state : DevState := .start
  prev : DevState := .off
  dbgSplit : Bool := false
  stateTime : Time := 0
  startCause : BitVec 4 := 1
  startPage : BitVec 12 := 0
  startCode : BitVec 5 := 0
  stateChg : Bool := false
  irqEn : Bool := false
  straps : Straps := {}
  /-- DESIGN CHOICE 3: the pins as their pull-downs leave them (R643). -/
  pinsNow : Straps := {}
  resetN : Bool := true
  /-- The cause that LAST_START takes when OFF gives way to START (R613). -/
  offCause : BitVec 4 := 1
  /-- Step of the START sequence (R618); step 1 ends at once where none of its waits holds. -/
  startStep : BitVec 3 := 2
  /-- SAFE was entered, or is held, for a cause of R36. -/
  safeR36 : Bool := false
  /-- A frame was evaluated with STATE SAFE since SAFE was entered (R227). -/
  safeFrames : Bool := false
  supervisor : BitVec 2 := 0
  /-- An ingot has entered RUN, or has taken effect in COMMISSION, since START. -/
  ingotRun : Bool := false
  /-- The first entry to RUN after this START has been made (R581). -/
  stamped : Bool := false
  /-- COMMISSION has been entered since a START last led to LOAD (R38). -/
  wasCommission : Bool := false
  /-- The level read back at ERR_A_N (bit 0) or ERR_B_N (bit 1) differs from the level driven (R56, R621). -/
  errDiff : BitVec 2 := 0
  /-- Timebase of the latest SAFE_STOP reaction, and of the first one of its frame (R39, R88, R432). -/
  stopTime : Option Time := none
  stopFirst : Option Time := none
  /-- A fault of the cycle of the entry to SHAKEOUT keeps the record from passing (R39, R578). -/
  shakeFault : Bool := false
  deriving DecidableEq, Repr

/-- What the part is (R3, R499, R624). DESIGN CHOICE 3: one device. -/
structure Ident where
  part : Part := .slc4896
  devNum : BitVec 64 := 0
  deriving DecidableEq, Repr

/-- The one-time-programmable keys (R424, R462, R479, R484). DESIGN CHOICE 3: a device as delivered, no key programmed. -/
structure Otp where
  sess : Option (BitVec 128) := none
  img : Option (BitVec 128) := none
  /-- The stored check of the session key fails (R479). -/
  sessBad : Bool := false
  imgBad : Bool := false
  deriving DecidableEq, Repr

/-- CLK (R627). -/
structure Clk where
  locked : Bool := true
  refOk : Bool := true
  coreCOk : Bool := true
  coreDOk : Bool := true
  ageQuantum : BitVec 11 := 256
  deriving DecidableEq, Repr

/-- SUP (R629). -/
structure Sup where
  valid : BitVec 4 := 0xF
  warnLive : BitVec 4 := 0
  ovLive : BitVec 4 := 0
  /-- DESIGN CHOICE 3. -/
  host3v3 : Bool := false
  /-- The class has been decided since VDD_CORE became valid (R600). -/
  classKnown : Bool := true
  pfLevel : Bool := true
  pfHold : Bool := false
  /-- PWR_FAIL_N has been high for 1 ms (R615). -/
  pfClear : Bool := true
  /-- PWR_FAIL_N has been seen high since the release (R614). -/
  pfSeenHigh : Bool := true
  events : BitVec 5 := 0
  irqEn : BitVec 5 := 0
  /-- The latest measurements (R630). -/
  vCoreIo : Word := 0
  vHostBar : Word := 0
  iCore : Word := 0
  deriving DecidableEq, Repr

/-- The commit strobe of a frame (R88). -/
inductive Strobe where
  | none
  | full
  | offOnly
  deriving DecidableEq, Repr

/-- FRM registers (R107 to R114). -/
structure Frm where
  tb : Time := 0
  /-- The copy in DRAG's clock domain (R102). -/
  tbD : Time := 0
  frameNum : Word := 0
  lastBnd : Time := 0
  running : Bool := false
  synced : Bool := false
  deferred : Bool := false
  phase : BitVec 3 := 0
  period : BitVec 17 := 0
  commitAt : BitVec 17 := 0
  wcet : BitVec 17 := 0
  syncCfg : Word := 0
  frameOutCfg : Word := 0
  result : BitVec 2 := 0
  evalEnd : BitVec 17 := 0
  commitFrame : Word := 0
  syncEvents : BitVec 3 := 0
  syncIrqEn : BitVec 3 := 0
  /-- Captures of TB_HI and of LAST_BND_HI, per port (R104). -/
  tbCap : List (Option Word) := [none, none, none, none]
  bndCap : List (Option Word) := [none, none, none, none]
  /-- FRAME_OUT is at its active level, and since when (R99). -/
  frameOut : Bool := false
  frameOutAt : Time := 0
  deriving DecidableEq, Repr

/-- The progress of the present frame. -/
structure Progress where
  /-- An edge in the sync window has placed, or will place, the next boundary (R96). -/
  edgeSeen : Bool := false
  /-- The next boundary is deferred to E. -/
  defer : Bool := false
  /-- EXCHANGE of this frame has formed the agreed vector. -/
  exchanged : Bool := false
  evaluating : Bool := false
  evalEnded : Bool := false
  /-- End of EVALUATE of this frame, in 10 ns from the boundary. -/
  evalEnd : BitVec 17 := 0
  /-- End of FINGERPRINT of this frame, in core cycles from the end of EVALUATE (R107, R172). -/
  fpCycles : Word := 0
  /-- ENTRIES_LAST has taken this frame's entries (R172). -/
  counted : Bool := false
  overrun : Bool := false
  /-- Timebase of the first comparator or fingerprint mismatch of the frame (R88). -/
  mismatchAt : Option Time := none
  /-- Timebase of the first cause of R154 or R155 latched in the frame (R93, R157). -/
  channelCauseAt : Option Time := none
  /-- Output vectors of COPE and DRAG, armed: 48 SO and 16 AX bits. -/
  armedC : Option (BitVec 64) := none
  armedD : Option (BitVec 64) := none
  /-- Acknowledgments: bit 2d + half (R88). -/
  acks : BitVec 4 := 0
  strobe : Strobe := .none
  /-- Dies to which the strobe was sent, and dies that have applied it or discarded their vector (R90). -/
  strobed : BitVec 2 := 0
  applied : BitVec 2 := 0
  commitDone : Bool := false
  /-- Timebase of the commit decision, and what the switch of PUBLISH replaced in that cycle: FBS, the PUB registers of CHK and PUB_FRAME of
  the banks (R93, R157). -/
  decidedAt : Option Time := none
  replaced : Option (Mem × (Word × Word × BitVec 16) × List Word) := none
  published : Bool := false
  /-- Q0 of the RESETQ instance that carries SAFE_RESET read 1 (R228). -/
  safeReset : Bool := false
  /-- Entries presented in this frame (R172). -/
  entries : Word := 0
  /-- The frame is evaluated (R86). -/
  evalFrame : Bool := false
  /-- STATE as EVALUATE began, and whether this is the first frame evaluated with STATE SAFE (R225, R227, R228). -/
  state : DevState := .off
  safeFirst : Bool := false
  /-- The frame number modulo 4 of the exercise in progress, and the dies that it runs in (R306). -/
  exercise : Option (BitVec 2) := none
  exDies : BitVec 2 := 0
  /-- Timebase at which the exercise of each die began (R307). -/
  exStart : List Time := [0, 0]
  /-- The dies whose exercise of this frame has begun. -/
  exercised : BitVec 2 := 0
  /-- The lane test of this frame has succeeded on a half (R200). -/
  laneOk : BitVec 2 := 0
  deriving DecidableEq, Repr

/-- MODE of CH_STATUS (R165). -/
inductive ChMode where
  | idle
  | evaluating
  | inHandler
  | trapped
  | halted
  | parked
  deriving DecidableEq, Repr

/-- An evaluation channel, COPE or DRAG (R117, R164 to R171). DRAG's memories hold complemented bytes (R119). -/
structure Chan where
  mode : ChMode := .idle
  lockstep : Bool := false
  block : BitVec 9 := 0
  /-- Address of the next program word. -/
  pc : BitVec 20 := 0
  /-- Where the handler returns to (R416). -/
  retPc : Option (BitVec 20) := none
  /-- The handler has begun in this frame (R151). -/
  handlerRun : Bool := false
  stopPc : BitVec 20 := 0
  lsm : Mem := []
  icache : Mem := []
  kcache : Mem := []
  lsmErr : Word := 0
  trapSrc : BitVec 16 := 0
  trapPend : BitVec 16 := 0
  trapFrame : Word := 0
  /-- Timebase at which the stall for `refill` began (R123, R164). -/
  stallSince : Time := 0
  /-- Instances marked by FORCE in the handler run of this frame, and those of the previous frame (R418). -/
  forceNow : BitVec 512 := 0
  forcePrev : BitVec 512 := 0
  /-- Instances evaluated in this frame. -/
  done : BitVec 512 := 0
  /-- A cache line awaiting its refill (R120), and the lines refetched in this frame. -/
  refill : Option (BitVec 17) := none
  refetched : List (BitVec 17) := []
  /-- The channel's copies of what EXCHANGE gives it (R124 to R128, R313, R349). -/
  raw : BitVec 112 := 0
  agreed : BitVec 112 := 0
  qual : BitVec 112 := 0
  oqual : BitVec 48 := 0
  disCount : List (BitVec 8) := List.replicate 112 0
  /-- Output words formed at END (R131). -/
  out : BitVec 64 := 0
  fp : Word := 0
  bpEn : Bool := false
  bp : BitVec 20 := 0
  regSel : BitVec 5 := 0
  memAddr : BitVec 14 := 0
  /-- The model's own: program words executed, the index of the register file's free values (log 8). -/
  regGen : Nat := 0
  deriving DecidableEq, Repr

/-- CMP (R172 to R178). -/
structure Cmp where
  active : Bool := false
  startupPass : Bool := false
  exOk : Bool := false
  exBit : BitVec 6 := 0
  liveCfg : Word := 0
  /-- The live ranges in force: start and length in bytes (R419). -/
  ranges : List (Nat × Nat) := []
  fpFrame : Word := 0
  fpCope : Word := 0
  fpDrag : Word := 0
  mmInfo : Word := 0
  mmCope : BitVec 64 := 0
  mmDrag : BitVec 64 := 0
  rawC : BitVec 112 := 0
  rawD : BitVec 112 := 0
  agreed : BitVec 112 := 0
  disActive : BitVec 112 := 0
  deriving DecidableEq, Repr

/-- TRP (R191 to R213). -/
structure Trp where
  tlC : BitVec 48 := 0xFFFFFFFFFFFF
  tlD : BitVec 48 := 0xFFFFFFFFFFFF
  /-- Lane states as the core die and as the other die hold them, at 2d + half for source die d (R184, R186). -/
  laneCore : List (BitVec 12) := [0, 0, 0, 0]
  laneDest : List (BitVec 12) := [0, 0, 0, 0]
  /-- Lane states that the source die last sent, and the messages that are on the way to the core die and from it to the destination, oldest
  first, at 2d + half (R186). -/
  laneSent : List (BitVec 12) := [0, 0, 0, 0]
  flight : List (List (BitVec 12)) := [[], [], [], []]
  forward : List (List (BitVec 12)) := [[], [], [], []]
  /-- Lanes taken as demand: a bad message at the core die or at the destination (R187), a missed heartbeat (R188). -/
  coreBad : BitVec 4 := 0
  destBad : BitVec 4 := 0
  hbMissed : BitVec 4 := 0
  /-- The destination has still to report a bad message of source die d in its next heartbeat, at 2d + half (R187). -/
  destReport : BitVec 4 := 0
  /-- A lane error known to the core die awaits its SAMPLE (R187). -/
  zeroNext : BitVec 4 := 0
  /-- Demand seen since the previous SAMPLE, per half (R194). -/
  capC : BitVec 112 := 0
  capD : BitVec 112 := 0
  /-- Outputs whose latches differed at the last commit instant (R201). -/
  splitPrev : BitVec 48 := 0
  /-- Outputs whose SPLIT is live (R200). -/
  splitLive : BitVec 48 := 0
  faultInfo : Word := 0
  lastTrip : Word := 0
  lastTripTime : Time := 0
  lastTripFrame : Word := 0
  tset : List Word := List.replicate 144 0
  xsrc : List Word := List.replicate 48 0
  tin : List Word := List.replicate 112 0
  deriving DecidableEq, Repr

/-- One comparator of an input (R304, R311, R316, R317, R384 to R387). -/
structure Comparator where
  level : Bool := false
  y : Bool := false
  /-- The filter input held during the own mask window (R312). -/
  held : Option Bool := none
  lastChange : Time := 0
  /-- How long the level had stood as the timebase started at 0, in ticks (R34, R183). -/
  before : Nat := 0
  /-- Timebase of the latest change of the filter input x (R311, R312). -/
  xAt : Time := 0
  /-- The present 0 has outlasted TRIP_TOL (R183). -/
  tolExpired : Bool := false
  count : Word := 0
  per : Word := 0
  lastRise : Option Time := none
  /-- A rising edge has been seen since boundaries began (R317). -/
  riseSince : Bool := false
  /-- COUNT, PER and AGE latched at SAMPLE (R318). -/
  sample : Word × Word × Word := (0, 0, 0xFFFFFFFF)
  /-- The own window in progress is judged, the gap has been seen (R384). -/
  judged : Bool := false
  seen : Bool := false
  /-- Level at the start of the own window in progress of another slot, and a 0 that began in it (R385). -/
  foreignOne : Bool := false
  foreignZero : Bool := false
  missPend : Bool := false
  forPend : Option (BitVec 6) := none
  /-- The present 0 began outside every own window (R387). -/
  outside : Bool := false
  deriving DecidableEq, Repr

/-- The GAP register of an input or output (R401), but for its F_PEND and M_PEND bits. -/
structure GapReg where
  fValid : Bool := false
  mValid : Bool := false
  fSlot : BitVec 6 := 0
  pSlot : BitVec 6 := 0
  missC : Bool := false
  missD : Bool := false
  deriving DecidableEq, Repr

/-- An input: INk_FLT, INk_CFG, INk_CUR and its GAP register (R332 to R334, R401). -/
structure Input where
  latch : BitVec 5 := 0
  live : BitVec 5 := 0
  cfg : Word := 0
  cur : BitVec 9 := 0
  /-- Since when every measurement is below 0.15 mA, or at 0.30 mA or more (R314). -/
  lowSince : Option Time := none
  highSince : Option Time := none
  gap : GapReg := {}
  /-- The mask of the own window in progress has ended (R182). -/
  maskEnded : Bool := false
  deriving DecidableEq, Repr

/-- The input side of an I/O bank (R327 to R331). -/
structure InBank where
  qual : BitVec 14 := 0
  exFail : Word := 0
  refFails : BitVec 4 := 0
  fenced : Bool := false
  unusable : Bool := false
  deriving DecidableEq, Repr

/-- An output SO0 to SO47 or, from 48, AX0 to AX15 (R340 to R350, R368 to R374). -/
structure Output where
  latch : BitVec 10 := 0
  live : BitVec 10 := 0
  cfg : Word := 0
  /-- The word as the field die holds it: it keeps the safe state and AX_CHILL of the last ingot across START (R28, R360, log 12). -/
  held : Word := 0
  hold : Bool := false
  /-- LS open after SHORT_HI or CONTENTION (R344). -/
  lsOpen : Bool := false
  /-- The 10 µs from SHORT_HI or CONTENTION to the opening of LS run (R344). -/
  lsDue : Bool := false
  cmdC : Bool := false
  cmdD : Bool := false
  sense : Sense := {}
  /-- Since when the source current is above the overcurrent level (R345). -/
  overSince : Option Time := none
  /-- RB_MISMATCH or OPEN_LOAD whose time ended while blanked (R342). -/
  rbDue : Bool := false
  olDue : Bool := false
  /-- A force hold at any time since the previous SAMPLE (R349). -/
  heldSince : Bool := false
  gap : GapReg := {}
  judged : Bool := false
  seenC : Bool := false
  seenD : Bool := false
  foreignOn : Bool := false
  foreignHit : Bool := false
  missPendC : Bool := false
  missPendD : Bool := false
  forPend : Option (BitVec 6) := none
  deriving DecidableEq, Repr

/-- A dip in progress (R353): its first measurement and its lowest value. -/
structure Dip where
  since : Time := 0
  low : BitVec 16 := 0
  /-- FV_SAG has latched in it. -/
  sagged : Bool := false
  deriving DecidableEq, Repr

/-- The output side of an I/O bank (R349 to R355, R366 to R371). -/
structure OutBank where
  oqual : BitVec 6 := 0
  fvC : BitVec 16 := 0
  fvD : BitVec 16 := 0
  minC : BitVec 16 := 0
  minD : BitVec 16 := 0
  /-- FV has been measured since START. -/
  measured : Bool := false
  fvCfg : Word := 0x0C000008
  dip : Option Dip := none
  blank : Bool := false
  lastDip : Word := 0
  /-- FV lockout at any time since the previous SAMPLE (R349). -/
  lockedSince : Bool := false
  /-- The incident of FOBb in which FV_SAG or FV_HIGH first latched, and when (R355). -/
  fvIncident : Option (Nat × Time) := none
  deriving DecidableEq, Repr

/-- A barrier link and its field die (R356, R603, R634). -/
structure Bar where
  trained : Bool := false
  chill : Bool := true
  powered : Bool := true
  fenced : Bool := false
  unusable : Bool := false
  timeout : BitVec 7 := 8
  /-- The BAR_TIMEOUT that the die holds: that of the ingot that last entered RUN (R610). -/
  held : BitVec 7 := 8
  /-- The latest measurements (R634). -/
  fdSupply : Word := 0
  lastLaneErr : Word := 0
  /-- The common headers of the die's four FIB and four FOB pages as they stood at its fence (R555). -/
  frozen : List (List Word) := []
  /-- Latest heartbeat on lanes C and D. -/
  hbC : Option Time := none
  hbD : Option Time := none
  deriving DecidableEq, Repr

/-- PWL (R376, R397 to R400) and the window in progress. -/
structure Pwl where
  /-- Slot and frame-in-slot count of half C and of half D (R376). -/
  slotC : BitVec 6 := 0
  inC : BitVec 6 := 0
  slotD : BitVec 6 := 0
  inD : BitVec 6 := 0
  running : Bool := false
  halted : Bool := false
  slotLen : BitVec 7 := 0
  offset : BitVec 17 := 0
  widths : List (BitVec 9) := List.replicate 64 0
  /-- The slot whose source is dark, and the slot whose own window is in progress (R377). -/
  dark : Option (BitVec 6) := none
  window : Option (BitVec 6) := none
  windowStart : Time := 0
  /-- The latest window that has ended, and when (R385). -/
  lastSlot : Option (BitVec 6) := none
  windowEnd : Time := 0
  deriving DecidableEq, Repr

/-- A pulse source (R381, R393, R394, R402). -/
structure PulseSource where
  latch : BitVec 3 := 0
  hold : Bool := false
  sense : Sense := {}
  /-- RB_C and RB_D read 0 at some time in the own window (R393). -/
  seenC : Bool := false
  seenD : Bool := false
  judged : Bool := false
  deriving DecidableEq, Repr

/-- CRB (R405, R439, R441) and the crucible. -/
structure Crb where
  mem : Mem := []
  valid : Bool := false
  /-- Word of the next patrol read. -/
  pos : BitVec 17 := 0
  passStart : Time := 0
  eccAddr : Word := 0
  deriving DecidableEq, Repr

/-- PHASE of IMG_STATUS (R444). -/
inductive LoadPhase where
  | idle
  | readingHeaders
  | copying
  | waitingHost
  | verifying
  | distributing
  deriving DecidableEq, Repr

/-- An accepted RELOAD that takes effect at the end of its cycle (R35, R432): the port, SRC and STAGE_BANK. -/
structure Reload where
  port : BitVec 2 := 0
  src : BitVec 3 := 0
  bank : BitVec 4 := 0
  deriving DecidableEq, Repr

/-- IMG (R444 to R447) and the loader. -/
structure Img where
  phase : LoadPhase := .idle
  source : BitVec 3 := 0
  tries : BitVec 4 := 0
  version : Byte := 0
  reloadResult : BitVec 4 := 0
  stageBank : BitVec 4 := 0
  src : BitVec 3 := 0
  verifyResult : Word := 0
  slotASeq : Word := 0
  slotBSeq : Word := 0
  slotAOk : Bool := false
  slotBOk : Bool := false
  runSeq : Word := 0
  runLength : Word := 0
  runId : BitVec 64 := 0
  /-- The slot was chosen by sequence number and the other slot has not been tried (R427). -/
  otherSlot : Bool := false
  /-- First bank of the staged copy in progress, and its length (R430). -/
  staged : Nat := 0
  stagedLen : Nat := 0
  /-- The source whose headers are being read: 0 as at START, 1 slot A, 2 slot B (R427, R430). -/
  reading : BitVec 3 := 0
  /-- The lowest sector with a multi-bit error that a read has met since LOAD began (R404). -/
  eccSector : Option (BitVec 8) := none
  /-- A read of the staged copy waits for an urgent patrol (R498, R505). -/
  waits : Bool := false
  /-- The running ingot's values that no register shows (R409, R415). -/
  blocks : Nat := 0
  blocksAt : Nat := 0
  entry : BitVec 20 := 0
  trapVector : BitVec 20 := 0
  codeAt : Nat := 0
  codeSize : Nat := 0
  publish : BitVec 16 := 0
  /-- Timebase at which the running ingot took effect, and whether no frame of it has been evaluated yet (R216, R248, R296). -/
  runStart : Time := 0
  fresh : Bool := false
  /-- Timebase at which the VERIFY in progress began (R434, R444). -/
  verifyAt : Time := 0
  /-- A RELOAD whose staged header has not been read yet (R430, R505). -/
  asked : Option Reload := none
  /-- An accepted RELOAD of the present cycle (R432). -/
  due : Option Reload := none
  deriving DecidableEq, Repr

/-- The boot flash: its slots and its record sector (R426, R579). DESIGN CHOICE 4: erased. -/
structure Flash where
  slotA : Mem := []
  slotB : Mem := []
  sector : Mem := []
  deriving DecidableEq, Repr

/-- The response of a transaction (R459). -/
structure Response where
  op : BitVec 4 := 0
  stream : BitVec 2 := 0
  tag : BitVec 5 := 0
  reqSeq : Byte := 0
  teTime : BitVec 24 := 0
  status : Byte := 0
  words : List Word := []
  deriving DecidableEq, Repr

/-- A tagged transaction in flight (R457, R458, R461). -/
structure Txn where
  op : BitVec 4 := 1
  stream : BitVec 2 := 0
  tag : BitVec 5 := 0
  seq : Byte := 0
  addr : BitVec 24 := 0
  len : Nat := 1
  priv : Bool := false
  /-- The session tag was valid at acceptance (R463). -/
  tagOk : Bool := false
  payload : List Word := []
  resp : Option Response := none
  /-- The order in which responses became ready. -/
  order : Nat := 0
  fetched : Bool := false
  /-- It was in flight when the handover of its page began (R72, R73). -/
  drains : Bool := false
  /-- An urgent patrol holds it (R468, R505). -/
  held : Bool := false
  deriving DecidableEq, Repr

/-- The session of a port (R462, R463). -/
structure Session where
  ks : BitVec 128 := 0
  ctr : Word := 0
  deriving DecidableEq, Repr

/-- A host port (chapter 12). -/
structure Hp where
  expSeq : Byte := 0
  tokens : Byte := 32
  bucket : Byte := 32
  refill : BitVec 16 := 100
  session : Option Session := none
  nonce : Option (BitVec 128) := none
  txns : List Txn := []
  readyCount : Nat := 0
  /-- The response that the latest FETCH returned (R458). -/
  lastFetched : Option Response := none
  /-- Words 0 and 1 of the latest acknowledgment, and the words of the latest response, driven on the port (R449). -/
  ack : List Word := []
  response : List Word := []
  fenced : Bool := false
  resetting : Bool := false
  unusable : Bool := false
  events : BitVec 3 := 0
  irqEn : BitVec 4 := 0
  permitStaged : Word := 0
  permitLo : Word := 0
  permitHi : Word := 0
  refreshed : Bool := false
  everRefreshed : Bool := false
  age : Byte := 0
  timeout : Byte := 0
  timedOut : Bool := true
  used : BitVec 64 := 0
  lastNak : Word := 0
  /-- The collision pulse of BUSY_N (R468). -/
  pulse : Bool := false
  deriving DecidableEq, Repr

/-- OWN (R483, R484). -/
structure Own where
  assignPage : BitVec 12 := 0
  assignFlask : BitVec 4 := 0
  assignResult : BitVec 3 := 0
  keyBusy : Bool := false
  keyResult : BitVec 3 := 0
  key : BitVec 2 := 0
  keyData : BitVec 128 := 0
  /-- The key that programming in progress sets. -/
  keyGoing : BitVec 2 := 0
  /-- The working copies of K and of the image key (R574). -/
  workSess : BitVec 128 := 0
  workImg : BitVec 128 := 0
  deriving DecidableEq, Repr

/-- A power state of a scratchpad bank (R488). -/
inductive Power where
  | on
  | retain
  | off
  | filling
  deriving DecidableEq, Repr

/-- A scratchpad bank (R485, R489, R509 to R513). -/
structure Spb where
  mem : Mem := []
  power : Power := .on
  req : BitVec 2 := 0
  fenced : Bool := false
  unusable : Bool := false
  publish : Bool := false
  /-- It has left ON since the latest staged copy began (R491). -/
  left : Bool := false
  errAddr : Word := 0
  lastCollide : Word := 0
  pubFrame : Word := 0
  /-- DESIGN CHOICE 3. -/
  risers : BitVec 3 := 0
  deriving DecidableEq, Repr

/-- SPC: the scratchpad patrol (R502 to R506, R516). -/
structure Spc where
  bank : BitVec 4 := 0
  seg : BitVec 5 := 0
  borrowed : Bool := false
  waiting : Bool := false
  /-- Age level of the pending segment; 4 is URGENT (R505). -/
  level : BitVec 3 := 0
  passStart : Time := 0
  /-- Banks that came ON during the present pass: they join in the next one (R506). -/
  later : BitVec 16 := 0
  deriving DecidableEq, Repr

/-- A check context (R519 to R527, R534). -/
structure Ctx where
  cfg : BitVec 10 := 0
  value : Word := 0xFFFFFFFF
  foldBase : BitVec 24 := 0
  seq : Byte := 0
  expect : Word := 0
  busy : Bool := false
  jobRes : BitVec 4 := 0
  chkRes : BitVec 2 := 0
  jobBank : BitVec 4 := 0
  jobOffset : BitVec 13 := 0
  jobLen : BitVec 14 := 1
  jobPos : BitVec 14 := 0
  jobCheck : Bool := false
  mmValue : Word := 0
  mmExpect : Word := 0
  fenced : Bool := false
  unusable : Bool := false
  /-- A read that lost a tie waits for its retry (R495); a read waits for an urgent patrol (R498, R505). -/
  retry : Bool := false
  waits : Bool := false
  /-- Port and stream whose writes have fed the context since its last start (R524). -/
  feeder : Option (BitVec 4) := none
  deriving DecidableEq, Repr

/-- CHK page registers (R529, R533). -/
structure Chk where
  pubCrc : Word := 0
  pubFrame : Word := 0
  pubWords : BitVec 16 := 0
  /-- Words fed to context 7 in the present frame. -/
  fed : BitVec 16 := 0
  deriving DecidableEq, Repr

/-- A self-test slice's result (R571). -/
structure Slice where
  ended : Bool := false
  complete : Bool := false
  matched : Bool := false
  sig : Word := 0
  patterns : BitVec 24 := 0
  failed : Units := {}
  deriving DecidableEq, Repr

/-- SECTOR of BST_STATUS (R593). -/
inductive Sector where
  | unknown
  | erasing
  | ready
  | failed
  deriving DecidableEq, Repr

/-- BST (R593 to R598) and the test in progress. -/
structure Bst where
  startKind : BitVec 2 := 0
  reason : BitVec 4 := 0
  keysLoaded : Bool := false
  scanCleared : Bool := false
  sector : Sector := .unknown
  age : Word := 0
  warn : BitVec 16 := 168
  due : Bool := false
  dueDone : Bool := false
  irqEn : Bool := false
  sseq : Word := 0
  /-- The SSEQ that the next stamp takes (R581). -/
  nextSseq : Word := 1
  lastShake : Word := 0
  lastSlices : Word := 0
  lastTime : Word := 0
  posC : BitVec 14 := 0
  posD : BitVec 14 := 0
  passStartC : Time := 0
  passStartD : Time := 0
  /-- Duration of each channel's latest pass in µs. -/
  passC : Word := 0
  passD : Word := 0
  slices : List Slice := List.replicate 12 {}
  /-- A test of the twelve slices is running; scan was enabled for it (R573). -/
  testing : Bool := false
  scanOn : Bool := false
  /-- The outcome of the start-up comparator test to come (R159, R584). -/
  cmpOk : Bool := true
  /-- The start-up self-test of this START has passed, or has failed. -/
  testPassed : Bool := false
  /-- Shakeout: trigger, STATE at entry, timebase at entry, the pass conditions of R578 at entry, end of the slices. -/
  trigger : BitVec 2 := 0
  shakePrev : DevState := .off
  shakeTime : Time := 0
  entryClean : Bool := false
  secretFail : Bool := false
  slicesEnd : Time := 0
  /-- The snapshot of the log (R576). -/
  snapshot : List (List Word) := []
  /-- The record has been written or is not to be, and the device idles (R576). -/
  idle : Bool := false
  deriving DecidableEq, Repr

/-- An entry in the queue of the event log (R567): its time and its four words but for SEQ, LATE and the time. -/
structure LogItem where
  time : Time := 0
  page : BitVec 12 := 0
  code : BitVec 5 := 0
  /-- Entries of a reaction stand after the entry of their event: the group keeps their order. -/
  group : Nat := 0
  w0 : Word := 0
  w1 : Word := 0
  deriving DecidableEq, Repr

/-- EVL: the device event log (R564 to R569). -/
structure Evl where
  /-- Entry j at bytes 16j: memory of 64 KiB. -/
  mem : Mem := []
  seq : BitVec 16 := 0
  queue : List LogItem := []
  lost : BitVec 12 := 0
  lostReaction : BitVec 4 := 0
  newest : Time := 0
  /-- Queued items so far, for the order of entries of one reaction. -/
  groups : Nat := 0
  /-- Entries written since VDD_CORE became valid, at most 4096. -/
  held : Nat := 0
  deriving DecidableEq, Repr

/-- The TAP (R647 to R649): its instruction, the boundary register, the lands as captured, and the word in the 32-bit register that
IDCODE or DBG_ACCESS selects. PRESUMED (log 11): Test-Logic-Reset selects IDCODE, as IEEE 1149.1 has it. -/
structure Jtag where
  ir : Byte := 0x02
  boundary : BitVec 101 := 0
  captured : BitVec 101 := 0
  data : Word := 0
  deriving DecidableEq, Repr

/-- What a stop of boundaries in the present cycle cut off, and what a CHIP_RESET of it found: faults of the same cycle are still recorded
(R39). -/
structure Cut where
  time : Option Time := none
  prog : Progress := {}
  state : DevState := .off
  lastBnd : Time := 0
  stopFirst : Option Time := none
  hdrs : List Hdr := []
  shadows : List Shadow := []
  deriving DecidableEq, Repr

/-- The W1C bits that events have set in one cycle (R16): its timebase, and each bit by page, register offset and number. -/
structure Marks where
  time : Time := 0
  bits : List (Page × Nat × Nat) := []
  deriving DecidableEq, Repr

/-- The device, with the queue of commands that wait. -/
structure State where
  ident : Ident := {}
  otp : Otp := {}
  dev : Dev := {}
  clk : Clk := {}
  sup : Sup := {}
  frm : Frm := {}
  prog : Progress := {}
  hdrs : List Hdr := []
  shadows : List Shadow := []
  cope : Chan := {}
  drag : Chan := {}
  cmp : Cmp := {}
  trp : Trp := {}
  comps : List Comparator := List.replicate 224 {}
  ins : List Input := List.replicate 112 {}
  inBanks : List InBank := List.replicate 8 {}
  outs : List Output := List.replicate 48 ({ } : Output) ++ List.replicate 16 ({ cfg := 0x08000000, held := 0x08000000 } : Output)
  outBanks : List OutBank := List.replicate 8 {}
  bars : List Bar := List.replicate 2 {}
  pwl : Pwl := {}
  ps : List PulseSource := List.replicate 16 {}
  crb : Crb := {}
  img : Img := {}
  flash : Flash := {}
  hps : List Hp := List.replicate 4 {}
  own : Own := {}
  spbs : List Spb := List.replicate 16 {}
  spc : Spc := {}
  chk : Chk := {}
  /-- CFG of context 6 reads 0x10 (R534). -/
  ctxs : List Ctx := [{}, {}, {}, {}, {}, {}, { cfg := 0x10 }, {}]
  bst : Bst := {}
  evl : Evl := {}
  fbs : Mem := []
  fbsBuf : Mem := []
  jtag : Jtag := {}
  marks : Marks := {}
  cut : Cut := {}
  /-- The model's own: how many free values have been taken (DESIGN CHOICE 6). -/
  free : Nat := 0
  /-- The commands that wait, oldest first. -/
  pending : List Instr := []
  deriving DecidableEq, Repr

/-- FLT_ENABLE at reset: 1 in every implemented cause bit (R58; 20 page index). -/
def resetEnable : Page → Word
  | .dev => 0x1
  | .clk => 0xF
  | .sup => 0xF
  | .frm => 0xF
  | .hp _ => 0x7F
  | .own => 0x1
  | .cop => 0x3F
  | .drg => 0x3F
  | .cmp => 0x7FF
  | .trp => 0x1F
  | .crb => 0x3
  | .img => 0x3
  | .spb _ => 0x3
  | .spc => 0x1
  | .chk => 0xFF3F3F
  | .bst => 0x7
  | .fib _ => 0x31F
  | .fob _ => 0x1F03FF
  | .pwl => 0x107
  | .bar _ => 0x3F

/-- FLT_REACT_SEVERE at reset (R63): FENCE on SPB, CHK, FIB and FOB, BLOCK_RESET on HP, SAFE_STOP with ERR elsewhere. -/
def resetSevere : Page → BitVec 4
  | .spb _ => 0x4
  | .chk => 0x4
  | .fib _ => 0x4
  | .fob _ => 0x4
  | .hp _ => 0x3
  | _ => 0xD

/-- FLT_REACT_MINOR at reset (R62), raised by the floor SAFE_STOP with ERR where the page has it (R63). -/
def resetMinor : Page → BitVec 4
  | .clk => 0xD
  | .sup => 0xD
  | .frm => 0xD
  | .cop => 0xD
  | .drg => 0xD
  | .cmp => 0xD
  | .trp => 0xD
  | .crb => 0xD
  | .bst => 0xD
  | _ => 0x1

/-- FLASK at reset (R43, R52): flask 0 on assignable pages, n on HPn, 0xF on device pages. -/
def resetFlask : Page → BitVec 4
  | .hp n => BitVec.ofNat 4 n
  | .spb _ => 0
  | .chk => 0
  | .fib _ => 0
  | .fob _ => 0
  | _ => 0xF

/-- Every block page of the full part in ascending page order (R41). -/
def allPages : List Page :=
  [.dev, .clk, .sup, .frm, .hp 0, .hp 1, .hp 2, .hp 3, .own, .cop, .drg, .cmp, .trp, .crb, .img, .spb 0, .spb 1,
    .spb 2, .spb 3, .spb 4, .spb 5, .spb 6, .spb 7, .spb 8, .spb 9, .spb 10, .spb 11, .spb 12, .spb 13, .spb 14,
    .spb 15, .spc, .chk, .bst, .fib 0, .fib 1, .fib 2, .fib 3, .fib 4, .fib 5, .fib 6, .fib 7, .fob 0, .fob 1,
    .fob 2, .fob 3, .fob 4, .fob 5, .fob 6, .fob 7, .pwl, .bar 0, .bar 1]

/-- The counter words of a page at reset: 0 but for LEN_MIN on FRM (R106) and START_CNT on DEV, which counts this START (R621). -/
def resetCounters : Page → List Word
  | .frm => [0, 0, 0, 0, 0x1FFFF, 0, 0, 0, 0, 0, 0, 0, 0, 0, 0]
  | .dev => [1, 0, 0, 0, 0, 0, 0, 0, 0, 0, 0, 0, 0, 0, 0]
  | _ => [0, 0, 0, 0, 0, 0, 0, 0, 0, 0, 0, 0, 0, 0, 0]

/-- The common header of a page at reset (R50 to R70). -/
def resetHdr (p : Page) : Hdr :=
  { own := { flask := resetFlask p }, enable := resetEnable p, reactMinor := resetMinor p, reactSevere := resetSevere p
    counters := resetCounters p }

/-- The device right after the release of RESET_N at power-on: START, no wait of step 1 holding (R612, R618). The STATE entry
of the change from OFF waits in the log's queue (R564, R565). -/
def State.reset : State :=
  { hdrs := allPages.map resetHdr, evl := { queue := [{ code := 1, w0 := 0x3001 }] } }

end Sys2Proof.Machine
end

