-- ==== Sys2Proof/Machine/Ops.lean ====
section
/-! DEFINITION. Named operations over bits, memories, tables of units and pages. -/

namespace Sys2Proof

/-- What an unlisted byte of a channel's memories reads as: DRAG holds complements (R119). DESIGN CHOICE 4: 0 at power-on. -/
def Half.fill : Half → Byte
  | .c => 0
  | .d => 0xFF

/-- The true value of a channel's word: DRAG's is complemented (R119). -/
def Half.trueWord (h : Half) (w : Word) : Word :=
  match h with
  | .c => w
  | .d => ~~~w

/-- The other half. -/
def Half.other : Half → Half
  | .c => .d
  | .d => .c

/-- 0 for half C, 1 for half D. -/
def Half.num : Half → Nat
  | .c => 0
  | .d => 1

/-- The page's position among the block pages of the full part, in ascending page order (R41). -/
def Page.index : Page → Nat
  | .dev => 0
  | .clk => 1
  | .sup => 2
  | .frm => 3
  | .hp n => 4 + n
  | .own => 8
  | .cop => 9
  | .drg => 10
  | .cmp => 11
  | .trp => 12
  | .crb => 13
  | .img => 14
  | .spb k => 15 + k
  | .spc => 31
  | .chk => 32
  | .bst => 33
  | .fib b => 34 + b
  | .fob b => 42 + b
  | .pwl => 50
  | .bar d => 51 + d

/-- BASE_PAGE and INSTANCE of PAGE_ID (R41, R51). COP, DRG and CMP, CRB and IMG, CLK and SUP are groups of their own. -/
def Page.base : Page → Nat
  | .dev => 0x000
  | .clk => 0x001
  | .sup => 0x002
  | .frm => 0x004
  | .hp _ => 0x008
  | .own => 0x010
  | .cop => 0x020
  | .drg => 0x021
  | .cmp => 0x022
  | .trp => 0x028
  | .crb => 0x030
  | .img => 0x031
  | .spb _ => 0x040
  | .spc => 0x050
  | .chk => 0x060
  | .bst => 0x070
  | .fib _ => 0x080
  | .fob _ => 0x088
  | .pwl => 0x090
  | .bar _ => 0x091

def Page.inst : Page → Nat
  | .hp n => n
  | .spb k => k
  | .fib b => b
  | .fob b => b
  | .bar d => d
  | _ => 0

/-- Page number (R41). -/
def Page.number (p : Page) : Nat := p.base + p.inst

/-- The page number as a log or history field. -/
def Page.num12 (p : Page) : BitVec 12 := BitVec.ofNat 12 p.number

/-- Device pages: no flask owns them (R41). -/
def Page.isDevice (p : Page) : Bool := Machine.resetFlask p == 0xF

/-- Assignable pages (R41). -/
def Page.assignable : Page → Bool
  | .spb _ => true
  | .chk => true
  | .fib _ => true
  | .fob _ => true
  | _ => false

/-- COP or DRG. -/
def Half.page : Half → Page
  | .c => .cop
  | .d => .drg

end Sys2Proof

namespace Sys2Proof.Machine

/-! Bits. -/

/-- A Bool as bit i of a register. -/
def flag (b : Bool) (i : Nat) : Word := if b then 1#32 <<< i else 0

/-- A field placed at bit i of a register. -/
def field {n : Nat} (v : BitVec n) (i : Nat) : Word := (v.setWidth 32) <<< i

/-- Bit i set to b. -/
def putBit {n : Nat} (v : BitVec n) (i : Nat) (b : Bool) : BitVec n :=
  if b then v ||| (1#n <<< i) else v &&& ~~~(1#n <<< i)

/-- The mask of one bit. -/
def bitMask (n i : Nat) : BitVec n := 1#n <<< i

/-- Adds 1, saturating at all ones. -/
def satInc {n : Nat} (v : BitVec n) : BitVec n := if v = BitVec.allOnes n then v else v + 1

/-- A count in a register, saturating. -/
def satWord (n : Nat) : Word := if n < 2 ^ 32 then BitVec.ofNat 32 n else BitVec.allOnes 32

/-- The n bits f 0 to f (n - 1) as a vector. -/
def vecOf (n : Nat) (f : Nat → Bool) : BitVec n :=
  (List.range n).foldl (fun v i => if f i then v ||| (1#n <<< i) else v) 0

/-- The number of ones among the bits of v. -/
def ones {n : Nat} (v : BitVec n) : Nat := (List.range n).foldl (fun k i => if v.getLsbD i then k + 1 else k) 0

/-- Word w of a vector, least significant first. -/
def wordAt {n : Nat} (v : BitVec n) (w : Nat) : Word := BitVec.ofNat 32 (v.toNat >>> (32 * w))

/-! Memories. -/

/-- The byte at an address; an address that the memory does not list reads as its fill. -/
def Mem.read (fill : Byte) : Mem → Nat → Byte
  | [], _ => fill
  | (k, b) :: m, a => if k = a then b else if a < k then fill else Mem.read fill m a

/-- Writes a byte, keeping the canonical form: writing the fill removes the entry. -/
def Mem.write (fill : Byte) : Mem → Nat → Byte → Mem
  | [], a, v => if v = fill then [] else [(a, v)]
  | (k, b) :: m, a, v =>
    if k = a then (if v = fill then m else (a, v) :: m)
    else if a < k then (if v = fill then (k, b) :: m else (a, v) :: (k, b) :: m)
    else (k, b) :: Mem.write fill m a v

/-- Strictly rising addresses, no entry equal to the fill. -/
def Mem.wf (fill : Byte) : Mem → Bool
  | [] => true
  | (_, b) :: [] => b != fill
  | (k, b) :: (k', b') :: m => b != fill && decide (k < k') && Mem.wf fill ((k', b') :: m)

/-- A little-endian word (R12). -/
def Mem.readW (fill : Byte) (m : Mem) (a : Nat) : Word :=
  Mem.read fill m (a + 3) ++ Mem.read fill m (a + 2) ++ Mem.read fill m (a + 1) ++ Mem.read fill m a

/-- Byte i of a word. -/
def byteOf (w : Word) (i : Nat) : Byte := w.extractLsb' (8 * i) 8

/-- Writes a little-endian word. -/
def Mem.writeW (fill : Byte) (m : Mem) (a : Nat) (w : Word) : Mem :=
  Mem.write fill (Mem.write fill (Mem.write fill (Mem.write fill m a (byteOf w 0)) (a + 1) (byteOf w 1)) (a + 2) (byteOf w 2))
    (a + 3) (byteOf w 3)

/-- Writes words from an address upward. -/
def Mem.writeWs (fill : Byte) (m : Mem) (a : Nat) : List Word → Mem
  | [] => m
  | w :: ws => Mem.writeWs fill (Mem.writeW fill m a w) (a + 4) ws

/-- n words from an address upward. -/
def Mem.readWs (fill : Byte) (m : Mem) (a : Nat) : Nat → List Word
  | 0 => []
  | n + 1 => Mem.readW fill m a :: Mem.readWs fill m (a + 4) n

/-- The walk of `Mem.slice`: the listed entries from address a on. -/
def Mem.walk (fill : Byte) : Nat → Nat → Mem → List Byte
  | 0, _, _ => []
  | n + 1, a, [] => fill :: Mem.walk fill n (a + 1) []
  | n + 1, a, (k, b) :: m =>
    if k = a then b :: Mem.walk fill n (a + 1) m else fill :: Mem.walk fill n (a + 1) ((k, b) :: m)

/-- The n bytes from an address, in one pass. -/
def Mem.slice (fill : Byte) (m : Mem) (a n : Nat) : List Byte := Mem.walk fill n a (m.dropWhile fun c => c.1 < a)

/-- A memory that holds the given bytes from an address on, and nothing else. -/
def Mem.ofBytes (fill : Byte) : Nat → List Byte → Mem
  | _, [] => []
  | a, b :: bs => if b = fill then Mem.ofBytes fill (a + 1) bs else (a, b) :: Mem.ofBytes fill (a + 1) bs

/-- Little-endian bytes of words. -/
def bytesOf : List Word → List Byte
  | [] => []
  | w :: ws => byteOf w 0 :: byteOf w 1 :: byteOf w 2 :: byteOf w 3 :: bytesOf ws

/-- Words of little-endian bytes. -/
def wordsOf : List Byte → List Word
  | a :: b :: c :: d :: bs => (d ++ c ++ b ++ a) :: wordsOf bs
  | _ => []

/-! Tables of units. -/

/-- Entry i of a table changed by f; no effect outside the table. -/
def upd {α : Type} (l : List α) (i : Nat) (f : α → α) : List α := l.modify i f

/-- The channel of a half. -/
def State.chan (s : State) : Half → Chan
  | .c => s.cope
  | .d => s.drag

def State.updChan (s : State) (h : Half) (f : Chan → Chan) : State :=
  match h with
  | .c => { s with cope := f s.cope }
  | .d => { s with drag := f s.drag }

/-- The comparator of an input on a half. -/
def State.comp (s : State) (i : Nat) (h : Half) : Comparator := s.comps.getD (2 * i + h.num) {}

def State.updComp (s : State) (i : Nat) (h : Half) (f : Comparator → Comparator) : State :=
  { s with comps := upd s.comps (2 * i + h.num) f }

def State.inp (s : State) (i : Nat) : Input := s.ins.getD i {}

def State.updInp (s : State) (i : Nat) (f : Input → Input) : State := { s with ins := upd s.ins i f }

def State.out (s : State) (o : Nat) : Output := s.outs.getD o {}

def State.updOut (s : State) (o : Nat) (f : Output → Output) : State := { s with outs := upd s.outs o f }

def State.inBank (s : State) (b : Nat) : InBank := s.inBanks.getD b {}

def State.updInBank (s : State) (b : Nat) (f : InBank → InBank) : State := { s with inBanks := upd s.inBanks b f }

def State.outBank (s : State) (b : Nat) : OutBank := s.outBanks.getD b {}

def State.updOutBank (s : State) (b : Nat) (f : OutBank → OutBank) : State := { s with outBanks := upd s.outBanks b f }

def State.bar (s : State) (d : Nat) : Bar := s.bars.getD d {}

def State.updBar (s : State) (d : Nat) (f : Bar → Bar) : State := { s with bars := upd s.bars d f }

def State.pulse (s : State) (k : Nat) : PulseSource := s.ps.getD k {}

def State.updPulse (s : State) (k : Nat) (f : PulseSource → PulseSource) : State := { s with ps := upd s.ps k f }

def State.hp (s : State) (n : Nat) : Hp := s.hps.getD n {}

def State.updHp (s : State) (n : Nat) (f : Hp → Hp) : State := { s with hps := upd s.hps n f }

def State.spb (s : State) (k : Nat) : Spb := s.spbs.getD k {}

def State.updSpb (s : State) (k : Nat) (f : Spb → Spb) : State := { s with spbs := upd s.spbs k f }

def State.ctx (s : State) (c : Nat) : Ctx := s.ctxs.getD c {}

def State.updCtx (s : State) (c : Nat) (f : Ctx → Ctx) : State := { s with ctxs := upd s.ctxs c f }

/-- A free value: a word that the manual leaves undefined, fresh at each use. -/
def State.freeWord (s : State) : Word × State := (Config.freeWord s.free, { s with free := s.free + 1 })

/-! Pages. -/

/-- The block page of a page number (R41). -/
def pageOf (n : Nat) : Option Page := allPages.find? fun p => p.number == n

/-- The SLC-1224 personality is in force (R34, R622). -/
def State.compat (s : State) : Bool := s.dev.straps.compat

/-- The number of I/O banks in service (R3, R670). -/
def State.banks (s : State) : Nat :=
  if s.compat then 2 else match s.ident.part with
    | .slc4896 => 8
    | .slc2448 => 4

/-- The number of I/O banks of the part (R3). -/
def State.partBanks (s : State) : Nat :=
  match s.ident.part with
  | .slc4896 => 8
  | .slc2448 => 4

/-- The number of field dies in service (R3, R670). -/
def State.dies (s : State) : Nat :=
  if s.compat then 1 else match s.ident.part with
    | .slc4896 => 2
    | .slc2448 => 1

/-- The page exists in the part and personality in force (R4, R670). -/
def State.mapped (s : State) : Page → Bool
  | .fib b => decide (b.val < s.banks)
  | .fob b => decide (b.val < s.banks)
  | .bar d => decide (d.val < s.dies)
  | _ => true

/-- The floor of a page (R543; 20 page index): SAFE_STOP with ERR, IRQ to owner, or none. -/
def floorOf : Page → BitVec 4
  | .dev => 0x1
  | .clk => 0xD
  | .sup => 0xD
  | .frm => 0xD
  | .cop => 0xD
  | .drg => 0xD
  | .cmp => 0xD
  | .trp => 0xD
  | .crb => 0xD
  | .bst => 0xD
  | .fib _ => 0x1
  | .fob _ => 0x1
  | .pwl => 0x1
  | .bar _ => 0x1
  | _ => 0x0

/-- The ACTION that a page takes for a written one (R539). -/
def mapAction (p : Page) (a : BitVec 3) : BitVec 3 :=
  let a := if a = 7 then 6 else a
  match p with
  | .hp _ => a
  | .spb _ => a
  | .chk => a
  | .fib _ => if a = 3 then 4 else a
  | .fob _ => if a = 3 then 4 else a
  | .pwl => if a = 3 then 4 else a
  | .bar _ => if a = 3 then 4 else a
  | _ => if a = 3 ∨ a = 4 then 5 else a

/-- A reaction register's value as it reads back: raised to the floor field by field, then mapped (R62, R63, R539). -/
def raiseReaction (p : Page) (v : BitVec 4) : BitVec 4 :=
  let a := v.setWidth 3
  let f := (floorOf p).setWidth 3
  let act := if a.toNat < f.toNat then f else a
  ((v.getLsbD 3 || (floorOf p).getLsbD 3 : Bool) |> fun e => if e then 8#4 else 0#4) ||| ((mapAction p act).setWidth 4)

/-- Combining two reactions: the higher ACTION, the ERR bits ORed (R539). -/
def combine (a b : BitVec 4) : BitVec 4 :=
  ((a ||| b) &&& 8) ||| (if (a &&& 7).toNat < (b &&& 7).toNat then b &&& 7 else a &&& 7)

/-- The more severe of two reactions that events took: the higher ACTION, and of one ACTION the one with ERR (R68, R539, R568). -/
def moreSevere (a b : BitVec 4) : BitVec 4 :=
  if (a &&& 7).toNat < (b &&& 7).toNat || ((a &&& 7) == (b &&& 7) && b.getLsbD 3) then b else a

def State.hdr (s : State) (p : Page) : Hdr := s.hdrs.getD p.index {}

def State.updHdr (s : State) (p : Page) (f : Hdr → Hdr) : State := { s with hdrs := upd s.hdrs p.index f }

/-- Adds 1 to the page-specific counter at an offset of 0x044 to 0x07C, saturating (R67). -/
def State.bump (s : State) (p : Page) (off : Nat) : State :=
  s.updHdr p fun h => { h with counters := upd h.counters ((off - 0x44) / 4) satInc }

/-- Sets the page-specific counter at an offset. -/
def State.setCounter (s : State) (p : Page) (off : Nat) (w : Word) : State :=
  s.updHdr p fun h => { h with counters := upd h.counters ((off - 0x44) / 4) fun _ => w }

/-- The page-specific counter at an offset. -/
def State.counter (s : State) (p : Page) (off : Nat) : Word := (s.hdr p).counters.getD ((off - 0x44) / 4) 0

/-- Raises the counter at an offset to a value at least as large. -/
def State.maxCounter (s : State) (p : Page) (off : Nat) (w : Word) : State :=
  s.setCounter p off (if (s.counter p off).toNat < w.toNat then w else s.counter p off)

/-! W1C bits set in the present cycle (R16). -/

/-- An event sets bit c of the W1C register at an offset of a page. -/
def State.mark (s : State) (p : Page) (off c : Nat) : State :=
  let old := if s.marks.time == s.frm.tb then s.marks.bits else []
  { s with marks := { time := s.frm.tb, bits := if old.contains (p, off, c) then old else (p, off, c) :: old } }

/-- The bits of a W1C register that events have set in the present cycle: a write of 1 leaves them 1 (R16). -/
def State.freshBits (s : State) (p : Page) (off : Nat) : Word :=
  if s.marks.time == s.frm.tb then
    s.marks.bits.foldl (fun w x => if x.1 == p && x.2.1 == off then w ||| bitMask 32 x.2.2 else w) 0
  else 0

/-! Numbering of the field units (R298, R299, R336, R375). -/

/-- The bank of an input, indexed as in R124. -/
def bankOfInput (i : Nat) : Nat := if i < 96 then i / 12 else (i - 96) / 2

/-- The local index k of an input in its bank (R299). -/
def localOfInput (i : Nat) : Nat := if i < 96 then i % 12 else 12 + (i - 96) % 2

/-- The input of a bank's local index (R299). -/
def inputOf (b k : Nat) : Nat := if k < 12 then 12 * b + k else 96 + 2 * b + (k - 12)

/-- The local input number of an input on its die (R299). -/
def dieLocal (i : Nat) : Nat := if i < 96 then i % 48 else 48 + (i - 96) % 8

/-- The input of a die's local number. -/
def ofDieLocal (d j : Nat) : Nat := if j < 48 then 48 * d + j else 96 + 8 * d + (j - 48)

/-- The die of a bank (R298). -/
def dieOfBank (b : Nat) : Nat := b / 4

def dieOfInput (i : Nat) : Nat := dieOfBank (bankOfInput i)

/-- The bank of an output: SO0 to SO47, then AX0 to AX15 (R336). -/
def bankOfOutput (o : Nat) : Nat := if o < 48 then o / 6 else (o - 48) / 2

/-- The local index k of an output (R336). -/
def localOfOutput (o : Nat) : Nat := if o < 48 then o % 6 else 6 + (o - 48) % 2

/-- The output of a bank's local index (R336). -/
def outputOf (b k : Nat) : Nat := if k < 6 then 6 * b + k else 48 + 2 * b + (k - 6)

/-- The bank of a wheel slot's source (R375). -/
def bankOfSlot (n : Nat) : Nat := if n < 16 then n / 2 else (n - 16) / 6

/-- Page FIBb or FOBb of a bank. -/
def fibOf (b : Nat) : Page := .fib (Fin.ofNat 8 b)
def fobOf (b : Nat) : Page := .fob (Fin.ofNat 8 b)
def barOf (d : Nat) : Page := .bar (Fin.ofNat 2 d)
def spbOf (k : Nat) : Page := .spb (Fin.ofNat 16 k)
def hpOf (n : Nat) : Page := .hp (Fin.ofNat 4 n)

end Sys2Proof.Machine
end

