-- ==== Sys2Proof/Machine/Catalogue.lean ====
section
/-! DEFINITION. The catalogue of block types: their outputs and the fields of their parameter words (R220, R230 to R295). -/

namespace Sys2Proof.Machine

/-- What a parameter field holds. -/
inductive FieldKind where
  /-- An SREF; bit k of the mask permits KIND k (R214). -/
  | sref (kinds : BitVec 3)
  /-- RST: Q0 of a RESETQ (R224). -/
  | rst
  /-- A number from lo to hi; with zero set also 0, which selects the default. -/
  | num (lo hi : Nat) (zero : Bool)
  deriving DecidableEq, Repr

/-- A field of parameter word P(word), from bit lo. -/
structure Field where
  word : Nat
  lo : Nat
  width : Nat
  kind : FieldKind
  deriving DecidableEq, Repr

/-- A 16-bit SREF field at bit 0 or bit 16. -/
def srefField (word lo : Nat) (kinds : BitVec 3) : Field := ⟨word, lo, 16, .sref kinds⟩

/-- RST in the high half of a word. -/
def rstField (word lo : Nat) : Field := ⟨word, lo, 16, .rst⟩

/-- A 16-bit time whose code 0 selects a default. -/
def timeField (word lo a b : Nat) : Field := ⟨word, lo, 16, .num a b true⟩

/-- One bit. -/
def bitField (word lo : Nat) : Field := ⟨word, lo, 1, .num 0 1 false⟩

/-- The fields of a block type; bits in no field are reserved (R219). -/
def fieldsOf (type : Nat) : List Field :=
  match type with
  | 0x01 => [srefField 1 0 2, srefField 1 16 2, timeField 2 0 10 5000, rstField 2 16, bitField 3 0]
  | 0x02 => [srefField 1 0 2, srefField 1 16 2, timeField 2 0 10 5000, rstField 2 16, bitField 3 0, bitField 3 1, bitField 3 2
      , bitField 3 3, ⟨3, 8, 8, .num 0 168 false⟩]
  | 0x03 => [srefField 1 0 2, srefField 1 16 2, srefField 2 0 2, srefField 2 16 2, srefField 3 0 6, srefField 3 16 6
      , timeField 4 0 10 5000, rstField 4 16, timeField 5 0 10 5000, bitField 5 16, bitField 5 17, bitField 5 18]
  | 0x04 => [srefField 1 0 2, srefField 1 16 2, srefField 2 0 2, srefField 2 16 2, timeField 3 0 10 500, timeField 3 16 10 500
      , rstField 4 0]
  | 0x05 => [srefField 1 0 2, srefField 1 16 2, timeField 2 0 10 5000, rstField 2 16, ⟨3, 0, 16, .num 0 1000 false⟩
      , srefField 3 16 5, bitField 4 0, bitField 4 1]
  | 0x06 => [srefField 1 0 2, srefField 1 16 2, srefField 2 0 4, rstField 2 16, timeField 3 0 10 4000, timeField 3 16 100 30000
      , ⟨4, 0, 16, .num 0 1000 false⟩, srefField 4 16 7]
  | 0x07 => [srefField 1 0 2, srefField 1 16 2, srefField 2 0 2, srefField 2 16 2, srefField 3 0 4, rstField 3 16
      , timeField 4 0 10 4000, timeField 4 16 100 30000, ⟨5, 0, 16, .num 0 1000 false⟩, srefField 5 16 7, bitField 6 0]
  | 0x08 => [srefField 1 0 2, srefField 1 16 3, ⟨2, 0, 32, .num 1 2000000 false⟩, ⟨3, 0, 8, .num 0 25 false⟩
      , ⟨3, 8, 8, .num 1 25 true⟩, timeField 3 16 10 5000, bitField 4 0, rstField 4 16]
  | 0x09 => [srefField 1 0 2, srefField 1 16 3, ⟨2, 0, 32, .num 1 2000000 false⟩, ⟨3, 8, 8, .num 1 25 true⟩
      , timeField 3 16 10 5000, timeField 4 0 10 30000, rstField 4 16, srefField 5 0 7, timeField 5 16 10 30000]
  | 0x0A => [srefField 1 0 4, srefField 1 16 2, srefField 2 0 3, rstField 2 16, timeField 3 0 10 1000, timeField 3 16 10 1000]
  | 0x0B => [srefField 1 0 2, srefField 1 16 3, timeField 2 0 20 1000, timeField 2 16 1000 30000, bitField 3 0]
  | 0x0C => [srefField 1 0 6, srefField 1 16 7, ⟨2, 0, 6, .num 0 47 false⟩, ⟨2, 7, 1, .num 1 1 false⟩, ⟨2, 8, 6, .num 0 47 false⟩
      , bitField 2 15, bitField 2 16, ⟨3, 0, 16, .num 10 30000 true⟩, rstField 3 16]
  | 0x10 => [srefField 1 0 7, srefField 1 16 7, srefField 2 0 7, srefField 2 16 7, srefField 3 0 7, srefField 3 16 7
      , srefField 4 0 7, srefField 4 16 7]
  | 0x11 => [srefField 1 0 7, srefField 1 16 7, srefField 2 0 7, srefField 2 16 7, srefField 3 0 7, srefField 3 16 7
      , srefField 4 0 7, srefField 4 16 7]
  | 0x12 => [srefField 1 0 4]
  | 0x13 => [srefField 1 0 4, srefField 1 16 4]
  | 0x14 => [srefField 1 0 6, timeField 2 0 1 30000]
  | 0x15 => [srefField 1 0 6, timeField 2 0 1 30000]
  | 0x16 => [srefField 1 0 6, timeField 2 0 1 30000]
  | 0x17 => [srefField 1 0 6, srefField 1 16 6]
  | 0x18 => [srefField 1 0 6, srefField 1 16 6]
  | 0x19 => [srefField 1 0 2, srefField 1 16 2, srefField 2 0 3, srefField 2 16 3, srefField 3 0 3, srefField 3 16 3
      , timeField 4 0 10 1000, rstField 4 16, bitField 5 0]
  | 0x1A => [⟨1, 0, 2, .num 0 3 false⟩, ⟨1, 8, 6, .num 0 63 false⟩]
  | 0x1B => [srefField 1 0 6, srefField 1 16 6, timeField 2 0 10 5000, rstField 2 16]
  | _ => []

/-- The outputs that a block type has (R220, R259); 0 for a code that is no block type. -/
def outputsOf (type : Nat) : Byte :=
  match type with
  | 0x01 => 0x0F
  | 0x02 => 0x1F
  | 0x03 => 0x1F
  | 0x04 => 0x0F
  | 0x05 => 0x3F
  | 0x06 => 0x1F
  | 0x07 => 0x3F
  | 0x08 => 0x0F
  | 0x09 => 0x0F
  | 0x0A => 0x0F
  | 0x0B => 0x0F
  | 0x0C => 0x0F
  | 0x10 => 1
  | 0x11 => 1
  | 0x12 => 1
  | 0x13 => 1
  | 0x14 => 1
  | 0x15 => 1
  | 0x16 => 1
  | 0x17 => 1
  | 0x18 => 1
  | 0x19 => 0xFF
  | 0x1A => 0x03
  | 0x1B => 0x0F
  | _ => 0

/-- KIND, input index, instance and output of an SREF (R214). -/
def srefKind (r : BitVec 16) : Nat := (r.extractLsb' 12 4).toNat
def srefInput (r : BitVec 16) : Nat := (r.extractLsb' 0 7).toNat
def srefInst (r : BitVec 16) : Nat := (r.extractLsb' 3 9).toNat
def srefOut (r : BitVec 16) : Nat := (r.extractLsb' 0 3).toNat

/-- The low and the high half of a parameter word. -/
def lo16 (w : Word) : BitVec 16 := w.extractLsb' 0 16
def hi16 (w : Word) : BitVec 16 := w.extractLsb' 16 16

/-- The value of a field, given the parameter words. -/
def Field.val (f : Field) (p : Nat → Word) : Nat := ((p f.word).toNat / 2 ^ f.lo) % 2 ^ f.width

/-- The field holds an SREF. -/
def Field.isSref (f : Field) : Bool :=
  match f.kind with
  | .num _ _ _ => false
  | _ => true

/-- Every SREF of an instance, RST included. -/
def srefsOf (type : Nat) (p : Nat → Word) : List (BitVec 16) :=
  (fieldsOf type).filterMap fun f => if f.isSref then some (BitVec.ofNat 16 (f.val p)) else none

/-- The outputs that an OUTPAIR names (R237). -/
def pairOutputs (p : Nat → Word) : List Nat :=
  let a := ((p 2).extractLsb' 0 6).toNat
  if (p 2).getLsbD 15 then [a, ((p 2).extractLsb' 8 6).toNat] else [a]

end Sys2Proof.Machine
end

