-- ==== Sys2Proof/Machine/Blocks.lean ====
section
/-! DEFINITION. The evaluation of one block instance: its transition table over its state record (chapters 06 and 07). A record is
its sixteen words (R222). -/

namespace Sys2Proof.Machine

/-- What a block reads in a frame. -/
structure BlockIn where
  /-- The value of an SREF as read (R214 to R217, R418). -/
  sref : BitVec 16 → Bool
  /-- QUAL of an SREF of KIND 0x1; 1 for the others (R217). -/
  qual : BitVec 16 → Bool
  /-- P1 to P7. -/
  p : Nat → Word
  /-- LAST_BND and the frame number. -/
  now : Time
  frame : Word
  /-- FORCE has marked the instance (R418). -/
  forced : Bool
  /-- STATE is RUN; this is the first frame evaluated with STATE SAFE (R225, R227). -/
  run : Bool
  safeFirst : Bool
  /-- A fence holds the block (R229, R288, R680). -/
  fenced : Bool
  /-- No frame of the ingot has been evaluated yet (R216, R296). -/
  fresh : Bool
  /-- Agreed OQUAL of an output (R238). -/
  oqual : Nat → Bool
  /-- Timebase at which the ingot took effect (R248). -/
  runStart : Time
  compat : Bool
  /-- Latched PERMIT word of a host and its TIMED_OUT (R287). -/
  permit : Nat → BitVec 64 × Bool
  /-- PER and AGE of a counted input on a half (R276). -/
  counted : Nat → Half → Nat × Nat

/-- A block in evaluation: the fields of its record (R222). -/
structure Blk where
  type : Nat
  inst : BitVec 9
  st : Nat
  startLock : Bool
  refused : Bool
  fenced : Bool
  lockout : Bool
  q : Byte
  faults : BitVec 16
  changeFrame : Word
  changeTime : Time
  refusals : BitVec 16
  resets : BitVec 16
  demands : Word
  /-- Words +0x20 to +0x3C. -/
  own : List Word
  /-- The codes of the BLOCK entries that this evaluation produces (R565). -/
  entries : List Nat := []

/-- Reads a record. -/
def Blk.ofRec (r : List Word) : Blk :=
  let w := fun k => r.getD k 0
  { type := ((w 0).extractLsb' 24 8).toNat, inst := (w 0).extractLsb' 0 9, st := ((w 0).extractLsb' 20 4).toNat
    startLock := (w 1).getLsbD 20, refused := (w 1).getLsbD 19, fenced := (w 1).getLsbD 18, lockout := (w 1).getLsbD 16
    q := (w 1).extractLsb' 0 8, faults := (w 2).extractLsb' 0 16, changeFrame := w 3, changeTime := w 5 ++ w 4
    refusals := (w 6).extractLsb' 16 16, resets := (w 6).extractLsb' 0 16, demands := w 7, own := (List.range 8).map fun k => w (8 + k) }

/-- Writes a record. -/
def Blk.toRec (b : Blk) : List Word :=
  [BitVec.ofNat 32 (b.type * 2 ^ 24 + (b.st % 16) * 2 ^ 20) ||| field b.inst 0
    , flag b.startLock 20 ||| flag b.refused 19 ||| flag b.fenced 18 ||| flag (b.faults != 0) 17 ||| flag b.lockout 16 ||| field b.q 0
    , field b.faults 0, b.changeFrame, wordAt b.changeTime 0, wordAt b.changeTime 1, b.refusals ++ b.resets, b.demands] ++ b.own

/-- Word +0x20 + 4k of the record. -/
def Blk.w (b : Blk) (k : Nat) : Word := b.own.getD k 0

def Blk.setW (b : Blk) (k : Nat) (v : Word) : Blk := { b with own := b.own.set k v }

/-- Bit i of word +0x20 + 4k set to v. -/
def Blk.setBit (b : Blk) (k i : Nat) (v : Bool) : Blk := b.setW k (putBit (b.w k) i v)

/-- The block moves to a state. -/
def Blk.go (b : Blk) (st : Nat) : Blk := { b with st := st }

/-- The block moves to a state and a word takes bits [31:0] of LAST_BND. -/
def Blk.goAt (b : Blk) (st k : Nat) (now : Time) : Blk := (b.go st).setW k (now.setWidth 32)

/-- A block fault: its bit latches, with an entry where it was clear, and the block moves to its fault state (R223). -/
def Blk.fault (b : Blk) (bit st : Nat) : Blk :=
  { b with st := st, faults := b.faults ||| bitMask 16 bit, entries := if b.faults.getLsbD bit then b.entries else b.entries ++ [bit] }

/-- A departure that DEMAND_CNT counts. -/
def Blk.demanded (b : Blk) : Blk := { b with demands := satInc b.demands }

/-- The outputs Q0 to Q7, and LOCKOUT (R222, R226): the block waits for a reset in its state, or holds a fault or a start-up lockout. -/
def Blk.outs (b : Blk) (q : List Bool) (waits : Bool) : Blk :=
  { b with q := vecOf 8 fun k => q.getD k false, lockout := waits || b.faults != 0 || b.startLock }

/-- The ticks since a stored time, modulo 2^32 (R218). -/
def BlockIn.since (i : BlockIn) (t : Word) : Nat := (i.now.setWidth 32 - t).toNat

/-- A condition has lasted ms since a stored time (R218). -/
def BlockIn.lasted (i : BlockIn) (t : Word) (ms : Nat) : Bool := decide (ms * 100000 ≤ i.since t)

/-- A time parameter; 0 selects the default (R218). -/
def timeOf (v : BitVec 16) (dflt : Nat) : Nat := if v = 0 then dflt else v.toNat

/-- The first row whose condition holds (R221). -/
def firstRow {α : Type} : List (Bool × α) → Option α
  | [] => none
  | (true, a) :: _ => some a
  | (false, _) :: rows => firstRow rows

/-- Applies a transition table, whose last row is the accepted reset where the block has one (R221, R225, R226). ready, demand and
waits are those of the state at the start of the frame; a block whose record shows LOCKOUT, FAULT or START_LOCK waits whatever its state.
A block in FENCED takes no row, and its refusals count (R226, R229). -/
def Blk.table (b : Blk) (i : BlockIn) (rst : Option (BitVec 16)) (ready demand waits : Bool) (resetTo : Nat) (rows : List (Bool × Blk)) :
    Blk :=
  let press := i.run && (rst.map i.sref).getD false
  let refuse := fun (c : Blk) =>
    if press && (waits || b.lockout || b.faults != 0 || b.startLock) then { c with refused := true, refusals := satInc c.refusals } else c
  if b.fenced then refuse b
  else match firstRow rows with
  | some c => refuse c
  | none =>
    if press && ready && !demand then
      { b with st := resetTo, faults := 0, startLock := false, refused := false, resets := satInc b.resets }
    else refuse b

/-! RESETQ (R230 to R235). -/

def evalResetq (b : Blk) (i : BlockIn) : Blk :=
  let ia := lo16 (i.p 1)
  let ib := hi16 (i.p 1)
  let pressed := i.sref ia && (srefKind ib == 0 || i.sref ib)
  let bad := !i.qual ia || !i.qual ib
  let rmin := if i.compat then 50 else timeOf (lo16 (i.p 2)) 100
  let rmax := timeOf (hi16 (i.p 2)) 5000
  let t := b.w 0
  let tooLong := fun (n : Nat) => !i.compat && decide (n * rmax * 100000 < i.since t)
  let len := BitVec.ofNat 32 (min 65535 (i.since t / 100000))
  let short := b.setW 2 ((b.w 2).extractLsb' 16 16 ++ satInc ((b.w 2).extractLsb' 0 16))
  let held := b.setW 2 (satInc ((b.w 2).extractLsb' 16 16) ++ (b.w 2).extractLsb' 0 16)
  let s := b.st
  let accept := s == 3 && !pressed && !bad && i.lasted t rmin
  let c := (firstRow [
    (bad, if s == 1 then b else b.goAt 1 0 i.now),
    (s == 0 && pressed, b.goAt 1 0 i.now),
    (s == 0, b.go 2),
    (s == 2 && pressed, b.goAt 3 0 i.now),
    (accept, (b.go 2).setW 1 len),
    (s == 3 && !pressed, (short.go 2).setW 1 len),
    (s == 3 && tooLong 1, { held.go 4 with entries := [16] }),
    (s == 4 && pressed && tooLong 2, b.fault 0 5),
    (s == 1 && pressed && tooLong 1, b.fault 0 5),
    ((s == 1 || s == 4 || s == 5) && !pressed, { b.go 2 with faults := 0 })]).getD b
  c.outs [accept, pressed, c.st == 4, c.st == 5] false

/-! OUTPAIR (R237 to R241). -/

/-- The outputs and the record of an OUTPAIR after its transition. -/
def Blk.outpairDone (b : Blk) (qa qb en fb : Bool) : Blk :=
  let on := b.st == 1 || b.st == 2
  let b := b.setW 1 (flag on 4 ||| flag qb 3 ||| flag qa 2 ||| flag fb 1 ||| flag en 0)
  b.outs [on, b.faults != 0, b.st == 3 && qa && qb, b.st == 2] (b.st == 3)

def evalOutpair (b : Blk) (i : BlockIn) : Blk :=
  let outs := pairOutputs i.p
  let qa := i.oqual (outs.getD 0 0)
  let qb := (outs[1]?.map i.oqual).getD true
  let fbRef := hi16 (i.p 1)
  let en := i.sref (lo16 (i.p 1))
  let fb := i.sref fbRef
  let cat := (i.p 2).getLsbD 16
  let s := b.st
  let c := b.table i (some (hi16 (i.p 3))) (s == 3) false (s == 3) 0 [
    (!(qa && qb), b.fault 0 3),
    (s == 0 && en && (fb || srefKind fbRef == 0), b.go 1),
    (s == 1 && !en && !cat, (b.go 0).demanded),
    (s == 1 && !en && cat, (b.goAt 2 0 i.now).demanded),
    (s == 2 && i.lasted (b.w 0) (lo16 (i.p 3)).toNat, b.go 0)]
  c.outpairDone qa qb en fb

/-- An OUTPAIR whose fence has ended is in OFF in that frame (R229). -/
def leaveOutpair (b : Blk) (i : BlockIn) : Blk :=
  let outs := pairOutputs i.p
  (b.go 0).outpairDone (i.oqual (outs.getD 0 0)) ((outs[1]?.map i.oqual).getD true) (i.sref (lo16 (i.p 1))) (i.sref (hi16 (i.p 1)))

/-! ESTOP and GUARD (R242 to R248). -/

def evalEstop (b : Blk) (i : BlockIn) (guard : Bool) : Blk :=
  let ca := lo16 (i.p 1)
  let cb := hi16 (i.p 1)
  let x := i.sref ca
  let y := i.sref cb
  let qa := i.qual ca
  let qb := i.qual cb
  let q := qa && qb
  let both1 := x && y
  let both0 := !x && !y
  let one := x != y
  let disc := timeOf (lo16 (i.p 2)) 500
  let p3 := i.p 3
  let openMax := (p3.extractLsb' 8 8).toNat
  let seen := both0 && q
  let tested := guard && ((b.w 1).getLsbD 10 || seen)
  let tOpen : Time := if guard && seen then i.now else b.w 3 ++ b.w 2
  let since := i.now.toNat - (if tested then tOpen.toNat else i.runStart.toNat)
  let due := guard && !seen && ((b.w 1).getLsbD 9 || (openMax != 0 && decide (openMax * 360000000000 ≤ since)))
  let opened := (b.w 1).getLsbD 8 || seen
  let b := (b.setW 1 (flag tested 10 ||| flag due 9 ||| flag opened 8 ||| flag qb 3 ||| flag qa 2 ||| flag y 1 ||| flag x 0)).setW 2
    (wordAt tOpen 0) |>.setW 3 (wordAt tOpen 1)
  let untested := guard && p3.getLsbD 3 && !tested
  let auto := guard && p3.getLsbD 1 && !(b.startLock || due || untested)
  let startLock := !guard || p3.getLsbD 2 || b.startLock
  let shut := fun (c : Blk) => c.setBit 1 8 false
  let toLock := shut (b.go (if auto then 1 else 4))
  let ready := fun (st : Nat) => (st == 4 && !due && !untested) || (st == 5 && opened && both1 && q)
  let waits := fun (st : Nat) => st == 4 || st == 5 || ((st == 2 || st == 3 || (st == 0 && !guard)) && !auto)
  let s := b.st
  let c := b.table i (some (hi16 (i.p 2))) (ready s) (!both1) (waits s) 1 [
    (s != 5 && !q, shut (b.fault 2 5)),
    (s == 2 && one && i.lasted (b.w 0) disc, shut (b.fault 0 5)),
    (s == 2 && both1 && !opened, b.fault 1 5),
    (s == 2 && both1, toLock),
    (s == 0 && both1 && !startLock && !untested, b.go 1),
    (s == 0 && both1, { b.go 4 with startLock := b.startLock || startLock }),
    (s == 0, { b.go 3 with startLock := true }),
    ((s == 1 || s == 4) && one, let c := shut (b.goAt 2 0 i.now); if s == 1 then c.demanded else c),
    ((s == 1 || s == 2 || s == 4) && both0, let c := (b.go 3).setBit 1 8 true; if s == 1 then c.demanded else c),
    (s == 3 && one, b.goAt 2 0 i.now),
    (s == 3 && both1, toLock)]
  let c := if due && c.st == 1 then c.go 4 else c
  let open' := (c.w 1).getLsbD 8
  let readyNow := (c.st == 4 && !due && !untested) || (c.st == 5 && open' && both1 && q)
  c.outs [c.st == 1, c.faults != 0, readyNow && both1, !both1, due] (waits c.st)

/-! GUARDLOCK (R249 to R253). -/

def evalGuardlock (b : Blk) (i : BlockIn) : Blk :=
  let da := lo16 (i.p 1)
  let db := hi16 (i.p 1)
  let la := lo16 (i.p 2)
  let lb := hi16 (i.p 2)
  let a := i.sref da
  let d := i.sref db
  let m := i.sref la
  let n := i.sref lb
  let doorQ := i.qual da && i.qual db
  let q := doorQ && i.qual la && i.qual lb
  let closed := a && d
  let part := a != d
  let locked := m && n
  let released := !m && !n
  let lpart := m != n
  let req := i.sref (lo16 (i.p 3))
  let rel := i.sref (hi16 (i.p 3))
  let disc := timeOf (lo16 (i.p 4)) 500
  let lockTime := timeOf (lo16 (i.p 5)) 1000
  let ptl := (i.p 5).getLsbD 16
  let auto := (i.p 5).getLsbD 17
  let old := b.w 3
  let wasPart := old.getLsbD 0 != old.getLsbD 1
  let wasLpart := old.getLsbD 2 != old.getLsbD 3
  let b := if part && !wasPart then b.setW 0 (i.now.setWidth 32) else b
  let b := if lpart && !wasLpart then b.setW 1 (i.now.setWidth 32) else b
  let opened := old.getLsbD 8 || (!a && !d && doorQ)
  let b := b.setW 3 (flag (old.getLsbD 9) 9 ||| flag opened 8 ||| flag rel 5 ||| flag req 4 ||| flag n 3 ||| flag m 2 ||| flag d 1
    ||| flag a 0)
  let s := b.st
  let live := s != 7
  let on := s == 1 || s == 2 || s == 6
  let toLock := b.go (if auto then 1 else 6)
  let demand := !closed || !locked
  let ready := fun (st : Nat) (o : Bool) => (st == 6 && !req) || (st == 7 && o && closed && locked && q && !req)
  let waits := fun (st : Nat) => st == 6 || st == 7 || (st != 1 && st != 8 && !auto)
  let c := b.table i (some (hi16 (i.p 4))) (ready s opened) demand (waits s) 1 [
    (live && !q, b.fault 2 7),
    (on && !closed && locked, b.fault 6 7),
    (on && !locked, b.fault 5 7),
    (live && part && i.lasted (b.w 0) disc, b.fault 0 7),
    (live && lpart && i.lasted (b.w 1) disc, b.fault 3 7),
    ((s == 4 || s == 5) && closed && wasPart && !opened, b.fault 1 7),
    (s == 0 && closed && locked, { b.go 6 with startLock := true }),
    (s == 0 && closed, b.goAt 5 2 i.now),
    (s == 0, b.go 4),
    (s == 1 && req, (b.go 2).demanded),
    (s == 2 && !req, toLock),
    (s == 2 && rel, b.goAt 3 2 i.now),
    (s == 3 && released, b.go 4),
    (s == 3 && !req, b.goAt 5 2 i.now),
    (s == 3 && i.lasted (b.w 2) lockTime, b.setBit 3 9 true),
    (s == 4 && !req && closed, b.goAt 5 2 i.now),
    (s == 5 && !closed, b.go 4),
    (s == 5 && req && rel, b.goAt 3 2 i.now),
    (s == 5 && locked, toLock),
    (s == 5 && i.lasted (b.w 2) lockTime, b.fault 4 7),
    (s == 6 && req && rel, b.goAt 3 2 i.now)]
  let c := if c.st == 3 then c else c.setBit 3 9 false
  let c := if (c.st == 6 || c.st == 7) && c.st != s then c.setBit 3 8 false else c
  let sol := c.st == 3 || c.st == 4 || (c.st == 7 && req && rel)
  let c := c.setBit 3 6 sol
  c.outs [c.st == 1, c.faults != 0, ready c.st ((c.w 3).getLsbD 8) && !demand, sol != ptl, c.st == 4] (waits c.st)

/-! TWOHAND (R254 to R258). -/

/-- A button: 0 released, 1 pressed, 2 in transit (R255). -/
def button (no nc : Bool) : Nat := if no && !nc then 1 else if !no && nc then 0 else 2

def evalTwohand (b : Blk) (i : BlockIn) : Blk :=
  let an := lo16 (i.p 1)
  let ac := hi16 (i.p 1)
  let bn := lo16 (i.p 2)
  let bc := hi16 (i.p 2)
  let q := i.qual an && i.qual ac && i.qual bn && i.qual bc
  let x := button (i.sref an) (i.sref ac)
  let y := button (i.sref bn) (i.sref bc)
  let sync := timeOf (lo16 (i.p 3)) 500
  let disc := timeOf (hi16 (i.p 3)) 100
  let old := b.w 3
  let b := if x == 2 && old.extractLsb' 0 2 != 2 then b.setW 1 (i.now.setWidth 32) else b
  let b := if y == 2 && old.extractLsb' 2 2 != 2 then b.setW 2 (i.now.setWidth 32) else b
  let b := b.setW 3 (flag (old.getLsbD 8) 8 ||| BitVec.ofNat 32 (4 * y + x))
  let rel := x == 0 && y == 0
  let prs := x == 1 && y == 1
  let s := b.st
  let live := s != 5
  let ready := fun (st : Nat) => st == 5 && rel && q
  let c := b.table i (some (lo16 (i.p 4))) (ready s) (!rel) (s == 5) 1 [
    (live && !q, b.fault 2 5),
    (live && x == 2 && i.lasted (b.w 1) disc, b.fault 0 5),
    (live && y == 2 && i.lasted (b.w 2) disc, b.fault 1 5),
    (s == 0 && rel, b.go 1),
    (s == 0, b.go 4),
    (s == 1 && !rel, b.goAt 2 0 i.now),
    (s == 2 && prs && decide (i.since (b.w 0) ≤ sync * 100000), b.go 3),
    (s == 2 && rel, b.go 1),
    (s == 2 && decide (sync * 100000 < i.since (b.w 0)), (b.go 4).setBit 3 8 true),
    (s == 3 && !prs, (b.go 4).demanded),
    (s == 4 && rel, (b.go 1).setBit 3 8 false)]
  c.outs [c.st == 3, c.faults != 0, ready c.st, (c.w 3).getLsbD 8] (c.st == 5)

/-! OSSD (R265 to R270). -/

/-- OSSD. The first frame after entry to RUN is the first frame of an ingot, not one that follows a SAFE: R268's onsets start afresh in it
alone, and the counters of the record run on over SAFE, whose records are kept (R227). DESIGN CHOICE, log 111. -/
def evalOssd (b : Blk) (i : BlockIn) : Blk :=
  let ra := lo16 (i.p 1)
  let rb := hi16 (i.p 1)
  let a := i.sref ra
  let d := i.sref rb
  let qa := i.qual ra
  let qb := i.qual rb
  let q := qa && qb
  let disc := timeOf (lo16 (i.p 2)) 100
  let tol := 100 * (lo16 (i.p 3)).toNat
  let m := i.sref (hi16 (i.p 3))
  let auto := (i.p 4).getLsbD 0
  let lockParam := (i.p 4).getLsbD 1
  let now := i.now.setWidth 32
  let old := b.w 3
  let first := i.fresh
  let b := if !a && (first || old.getLsbD 0) then b.setW 1 now else b
  let b := if !d && (first || old.getLsbD 1) then b.setW 2 now else b
  let fa := a || decide (i.since (b.w 1) < tol)
  let fb := d || decide (i.since (b.w 2) < tol)
  let one := fa != fb
  let both1 := fa && fb
  let both0 := !fa && !fb
  let b := if one && (first || old.getLsbD 4 == old.getLsbD 5) then b.setW 0 now else b
  let opened := old.getLsbD 8 || (both0 && q)
  let b := b.setW 3 (flag opened 8 ||| flag m 7 ||| flag fb 5 ||| flag fa 4 ||| flag qb 3 ||| flag qa 2 ||| flag d 1 ||| flag a 0)
  let s := b.st
  let shut := fun (c : Blk) => c.setBit 3 8 false
  let start := { b with startLock := b.startLock || lockParam }
  let ready := fun (st : Nat) (o : Bool) => st == 4 || (st == 5 && o && both1 && q)
  let waits := fun (st : Nat) => st == 4 || st == 5 || ((st == 2 || st == 3) && !auto)
  let c := b.table i (some (hi16 (i.p 2))) (ready s opened) (!both1) (waits s) 1 [
    (s != 5 && !q, shut (b.fault 2 5)),
    (s != 5 && s != 7 && one && i.lasted (b.w 0) disc, shut (b.fault 0 5)),
    (s == 0 && both1, start.go (if start.startLock then 4 else 1)),
    (s == 0, start.go 3),
    (s == 1 && m, (b.go 7).setW 4 (satInc (b.w 4))),
    (s == 1 && one, (b.go 2).demanded),
    (s == 1 && both0, (b.go 3).demanded),
    (s == 2 && both0, b.go 3),
    (s == 2 && both1, b.fault 1 5),
    (s == 7 && !m && both1, b.go 1),
    (s == 7 && !m, (b.go 3).demanded),
    (s == 3 && both1, b.go (if auto && !b.startLock then 1 else 4)),
    (s == 4 && !both1, b.go 3)]
  c.outs [c.st == 1 || c.st == 7, c.faults != 0, ready c.st ((c.w 3).getLsbD 8) && both1, !both1, both1, c.st == 7] (waits c.st)

/-! MUTE2 and MUTE4 (R271 to R275). -/

/-- The common parameters of a muting block: CLEAR, RST, MUTE_DISC, MUTE_MAX, END_DELAY and ENABLE, from the word that holds CLEAR. -/
structure MuteParams where
  clear : Bool
  enable : Bool
  rst : BitVec 16
  disc : Nat
  longest : Nat
  delay : Nat

def muteParams (i : BlockIn) (k : Nat) : MuteParams :=
  let e := hi16 (i.p (k + 2))
  { clear := i.sref (lo16 (i.p k)), enable := srefKind e == 0 || i.sref e, rst := hi16 (i.p k)
    disc := timeOf (lo16 (i.p (k + 1))) 3000, longest := timeOf (hi16 (i.p (k + 1))) 10000, delay := (lo16 (i.p (k + 2))).toNat }

/-- MUTED entered: T_MUTE, MUTE_CNT, EXIT_SEEN 0. -/
def Blk.muted (b : Blk) (now : Time) : Blk := ((b.goAt 3 1 now).setW 4 (satInc (b.w 4))).setBit 3 8 false

/-- A refused sequence: WAIT_CLEAR and SEQ_ERR_CNT. -/
def Blk.seqErr (b : Blk) : Blk := (b.go 5).setW 3 (satInc ((b.w 3).extractLsb' 16 16) ++ (b.w 3).extractLsb' 0 16)

def evalMute2 (b : Blk) (i : BlockIn) : Blk :=
  let r1 := lo16 (i.p 1)
  let r2 := hi16 (i.p 1)
  let m1 := i.sref r1
  let m2 := i.sref r2
  let q := i.qual r1 && i.qual r2
  let v := muteParams i 2
  let b := b.setW 3 (((b.w 3).extractLsb' 16 16 ++ 0#16) ||| flag (i.qual r2) 5 ||| flag (i.qual r1) 4 ||| flag m2 1 ||| flag m1 0)
  let late := decide (v.disc * 100000 < i.since (b.w 0))
  let both := m1 && m2
  let none' := !m1 && !m2
  let s := b.st
  let ready := fun (st : Nat) => st == 6 && none' && q
  let c := b.table i (some v.rst) (ready s) (!none') (s == 6) 5 [
    (s != 6 && !q, b.fault 2 6),
    ((s == 3 || s == 4) && decide (v.longest * 100000 < i.since (b.w 1)), b.fault 0 6),
    (s == 0 && !none', b.go 5),
    (s == 0, b.go 1),
    ((s == 1 || (s == 2 && !late)) && both && v.clear && v.enable, b.muted i.now),
    (s == 1 && m1 != m2, b.goAt 2 0 i.now),
    (s == 1 && both, b.seqErr),
    (s == 2 && none', b.go 1),
    (s == 2 && (both || late), b.seqErr),
    (s == 3 && !both && v.delay == 0, b.go 5),
    (s == 3 && !both, b.goAt 4 2 i.now),
    (s == 4 && i.lasted (b.w 2) v.delay, b.go 5),
    (s == 5 && none', b.go 1)]
  let on := c.st == 3 || c.st == 4
  c.outs [on, c.faults != 0, ready c.st, on, c.st == 5] (c.st == 6)

def evalMute4 (b : Blk) (i : BlockIn) : Blk :=
  let r1 := lo16 (i.p 1)
  let r2 := hi16 (i.p 1)
  let r3 := lo16 (i.p 2)
  let r4 := hi16 (i.p 2)
  let m1 := i.sref r1
  let m2 := i.sref r2
  let m3 := i.sref r3
  let m4 := i.sref r4
  let q := i.qual r1 && i.qual r2 && i.qual r3 && i.qual r4
  let v := muteParams i 3
  let bidir := (i.p 6).getLsbD 0
  let old := b.w 3
  let b := b.setW 3 ((old.extractLsb' 16 16 ++ 0#16) ||| (old &&& 0x300) ||| flag (i.qual r4) 7 ||| flag (i.qual r3) 6
    ||| flag (i.qual r2) 5 ||| flag (i.qual r1) 4 ||| flag m4 3 ||| flag m3 2 ||| flag m2 1 ||| flag m1 0)
  let rev := old.getLsbD 9
  let e1 := if rev then m4 else m1
  let e2 := if rev then m3 else m2
  let x1 := if rev then m2 else m3
  let x2 := if rev then m1 else m4
  let late := decide (v.disc * 100000 < i.since (b.w 0))
  let none' := !m1 && !m2 && !m3 && !m4
  let full := (m1 && m2) || (m3 && m4)
  let s := b.st
  let ready := fun (st : Nat) => st == 6 && none' && q
  let c := b.table i (some v.rst) (ready s) (!none') (s == 6) 5 [
    (s != 6 && !q, b.fault 2 6),
    ((s == 3 || s == 4) && decide (v.longest * 100000 < i.since (b.w 1)), b.fault 0 6),
    (s == 0 && !none', b.go 5),
    (s == 0, b.go 1),
    (s == 1 && m1 && !m2 && !m3 && !m4, (b.goAt 2 0 i.now).setBit 3 9 false),
    (s == 1 && m4 && !m1 && !m2 && !m3 && bidir, (b.goAt 2 0 i.now).setBit 3 9 true),
    (s == 1 && !none', b.seqErr),
    (s == 2 && e1 && e2 && !x1 && !x2 && !late && v.clear && v.enable, b.muted i.now),
    (s == 2 && none', b.go 1),
    (s == 2 && (e2 || x1 || x2 || late), b.seqErr),
    (s == 3 && !full && !old.getLsbD 8, b.seqErr),
    (s == 3 && !full && v.delay == 0, b.go 5),
    (s == 3 && !full, b.goAt 4 2 i.now),
    (s == 3 && x1 && x2, b.setBit 3 8 true),
    (s == 4 && i.lasted (b.w 2) v.delay, b.go 5),
    (s == 5 && none', b.go 1)]
  let on := c.st == 3 || c.st == 4
  c.outs [on, c.faults != 0, ready c.st, on, c.st == 5, (c.w 3).getLsbD 9] (c.st == 6)

/-! SPEED and STANDSTILL (R276 to R282). Of a forced instance the counted inputs read 0, which is demand (R418, log 41). -/

/-- The frequency in 0.1 Hz of a PER and an AGE; a PER of 0 is no complete period (R276, R317). -/
def freqOf (s : Nat × Nat) : Nat :=
  let p := max s.1 s.2
  if s.1 = 0 ∨ 1000000000 < p then 0 else 1000000000 / p

/-- Two frequencies disagree (R277). -/
def freqDiffer (tol u w : Nat) : Bool := decide (tol * max u w / 100 + 10 < max u w - min u w)

/-- What SPEED and STANDSTILL share: the four frequencies, V, the two discrepancies and QUAL. -/
structure Motion where
  fs : List Nat
  v : Nat
  chan : Bool
  track : Bool
  q : Bool

/-- The channel and the track discrepancy of four frequencies. -/
def chanDisc (tol : Nat) (two : Bool) (fs : List Nat) : Bool :=
  freqDiffer tol (fs.getD 0 0) (fs.getD 1 0) || (two && freqDiffer tol (fs.getD 2 0) (fs.getD 3 0))
def trackDisc (tol : Nat) (two : Bool) (fs : List Nat) : Bool :=
  two && freqDiffer tol (max (fs.getD 0 0) (fs.getD 1 0)) (max (fs.getD 2 0) (fs.getD 3 0))

/-- TOL with its default. -/
def tolOf (i : BlockIn) : Nat :=
  let t := ((i.p 3).extractLsb' 8 8).toNat
  if t = 0 then 5 else t

def motionOf (i : BlockIn) : Motion :=
  let ra := lo16 (i.p 1)
  let rb := hi16 (i.p 1)
  let two := srefKind rb != 0
  let f := fun (r : BitVec 16) (h : Half) => freqOf (i.counted (srefInput r) h)
  let fs := [f ra .c, f ra .d, if two then f rb .c else 0, if two then f rb .d else 0]
  { fs := fs, v := fs.foldl max 0, chan := chanDisc (tolOf i) two fs, track := trackDisc (tolOf i) two fs, q := i.qual ra && i.qual rb }

/-- The record words of both, with the onsets of the discrepancies. -/
def Blk.moving (b : Blk) (i : BlockIn) (m : Motion) : Blk :=
  let two := srefKind (hi16 (i.p 1)) != 0
  let old := (List.range 4).map fun k => (b.w k).toNat
  let c := (List.range 4).foldl (fun c k => c.setW k (BitVec.ofNat 32 (m.fs.getD k 0))) b
  let c := if m.chan && !chanDisc (tolOf i) two old then c.setW 4 (i.now.setWidth 32) else c
  if m.track && !trackDisc (tolOf i) two old then c.setW 5 (i.now.setWidth 32) else c

def evalSpeed (b : Blk) (i : BlockIn) : Blk :=
  let m := motionOf i
  let limit := (i.p 2).toNat
  let low := limit * (100 - ((i.p 3).extractLsb' 0 8).toNat) / 100
  let discT := timeOf (hi16 (i.p 3)) 100
  let latch := (i.p 4).getLsbD 0
  let b := b.moving i m
  let b := b.setW 6 (BitVec.ofNat 32 (max (b.w 6).toNat m.v))
  let s := b.st
  let demand := i.forced || decide (low < m.v)
  let ready := fun (st : Nat) => st == 3 || (st == 4 && !m.chan && !m.track && m.q)
  let waits := fun (st : Nat) => st == 3 || st == 4 || (st == 2 && latch)
  let c := b.table i (some (hi16 (i.p 4))) (ready s) demand (waits s) 1 [
    (s != 4 && !m.q, b.fault 2 4),
    (s != 4 && m.chan && i.lasted (b.w 4) discT, b.fault 0 4),
    (s != 4 && m.track && i.lasted (b.w 5) discT, b.fault 1 4),
    ((s == 0 || s == 1 || s == 3) && (i.forced || decide (limit < m.v)), (b.go 2).demanded),
    (s == 0, b.go 1),
    (s == 2 && !demand, b.go (if latch then 3 else 1))]
  c.outs [c.st == 1, c.faults != 0, ready c.st && !demand, c.st == 2] (waits c.st)

def evalStandstill (b : Blk) (i : BlockIn) : Blk :=
  let m := motionOf i
  let still := !i.forced && decide (m.v ≤ (i.p 2).toNat)
  let discT := timeOf (hi16 (i.p 3)) 100
  let stillTime := timeOf (lo16 (i.p 4)) 500
  let motion := i.sref (lo16 (i.p 5))
  let motionTime := timeOf (hi16 (i.p 5)) 2000
  let b := b.moving i m
  let b := if !motion || !still then b.setW 7 (i.now.setWidth 32) else b
  let s := b.st
  let ready := fun (st : Nat) => st == 4 && !motion && !m.chan && !m.track && m.q
  let c := b.table i (some (hi16 (i.p 4))) (ready s) false (s == 4) 1 [
    (s != 4 && !m.q, b.fault 2 4),
    (s != 4 && m.chan && i.lasted (b.w 4) discT, b.fault 0 4),
    (s != 4 && m.track && i.lasted (b.w 5) discT, b.fault 1 4),
    (s != 4 && motion && i.lasted (b.w 7) motionTime, b.fault 3 4),
    ((s == 0 || s == 1) && still, b.goAt 2 6 i.now),
    (s == 0, b.go 1),
    ((s == 2 || s == 3) && !still, b.go 1),
    (s == 2 && i.lasted (b.w 6) stillTime, b.go 3)]
  c.outs [c.st == 3, c.faults != 0, ready c.st, c.st == 1] (c.st == 4)

/-! EDM (R283 to R285). -/

/-- EDM. LAST_PULL and LAST_DROP hold whole milliseconds, the rest of the division dropped (R285 names no rounding). DESIGN CHOICE, log 113. -/
def evalEdm (b : Blk) (i : BlockIn) : Blk :=
  let r1 := hi16 (i.p 1)
  let r2 := lo16 (i.p 2)
  let two := srefKind r2 != 0
  let out := i.sref (lo16 (i.p 1))
  let f1 := i.sref r1
  let f2 := i.sref r2
  let q := i.qual r1 && i.qual r2
  let released := f1 && (f2 || !two)
  let pulled := !f1 && (!f2 || !two)
  let tOn := timeOf (lo16 (i.p 3)) 300
  let tOff := timeOf (hi16 (i.p 3)) 300
  let len := BitVec.ofNat 16 (min 65535 (i.since (b.w 0) / 100000))
  let b := b.setW 1 (flag out 4 ||| flag (i.qual r2) 3 ||| flag (i.qual r1) 2 ||| flag f2 1 ||| flag f1 0)
  let s := b.st
  let ready := fun (st : Nat) => st == 5 && !out && released && q
  let c := b.table i (some (hi16 (i.p 2))) (ready s) false (s == 5) 1 [
    (s != 5 && !q, b.fault 2 5),
    (s == 0 && released, b.go 1),
    (s == 0, b.goAt 4 0 i.now),
    (s == 1 && out, b.goAt 2 0 i.now),
    (s == 1 && !released, b.fault 3 5),
    ((s == 2 || s == 3) && !out, b.goAt 4 0 i.now),
    (s == 2 && pulled, (b.go 3).setW 2 ((b.w 2).extractLsb' 16 16 ++ len)),
    (s == 2 && i.lasted (b.w 0) tOn, b.fault 1 5),
    (s == 3 && !pulled, b.fault 4 5),
    (s == 4 && released, (b.go 1).setW 2 (len ++ (b.w 2).extractLsb' 0 16)),
    (s == 4 && i.lasted (b.w 0) tOff, b.fault 0 5)]
  c.outs [c.st == 1, c.faults != 0, ready c.st, c.st == 3] (c.st == 5)

/-! HOSTPERM (R286 to R289). -/

def evalHostperm (b : Blk) (i : BlockIn) : Blk :=
  let w := i.permit ((i.p 1).extractLsb' 0 2).toNat
  let b := (b.setW 0 (wordAt w.1 0)).setW 1 (wordAt w.1 1)
  let b := if w.2 && b.st == 0 then b.setW 2 (satInc (b.w 2)) else b
  (b.go (if w.2 then 1 else 0)).outs [w.1.getLsbD ((i.p 1).extractLsb' 8 6).toNat, w.2] false

/-! MODESEL (R290 to R292). -/

def evalModesel (b : Blk) (i : BlockIn) : Blk :=
  let refs := [lo16 (i.p 1), hi16 (i.p 1), lo16 (i.p 2), hi16 (i.p 2), lo16 (i.p 3), hi16 (i.p 3)]
  let pos := vecOf 6 fun k => i.sref (refs.getD k 0)
  let q := refs.all i.qual
  let n := ones pos
  let at' := ((List.range 6).find? fun k => pos.getLsbD k).getD 0
  let disc := timeOf (lo16 (i.p 4)) 200
  let lock := (i.p 5).getLsbD 0
  let sel := ((b.w 1).extractLsb' 8 3).toNat
  let cnt := (b.w 1).extractLsb' 16 16
  let word := fun (cnt : BitVec 16) (sel : Nat) => (cnt ++ 0#16) ||| BitVec.ofNat 32 (256 * sel) ||| field pos 0
  let b := b.setW 1 (word cnt sel)
  let move := fun (st : Nat) => (b.go st).setW 1 (word (if at' = sel then cnt else satInc cnt) at')
  let enter := if lock then 3 else 1
  let s := b.st
  let ready := fun (st : Nat) => st == 3 || (st == 4 && q)
  let waits := fun (st : Nat) => st == 3 || st == 4 || ((st == 0 || st == 2) && lock)
  let c := b.table i (some (hi16 (i.p 4))) (ready s) (n != 1) (waits s) 1 [
    (s != 4 && !q, b.fault 2 4),
    (s == 2 && decide (2 ≤ n) && i.lasted (b.w 0) disc, b.fault 0 4),
    (s == 2 && n == 0 && i.lasted (b.w 0) disc, b.fault 1 4),
    ((s == 0 || s == 2) && n == 1, move enter),
    (s == 1 && n == 1 && at' != sel, move enter),
    (s == 3 && n == 1 && at' != sel, move 3),
    ((s == 0 || s == 1 || s == 3) && n != 1, b.goAt 2 0 i.now)]
  let sel := ((c.w 1).extractLsb' 8 3).toNat
  c.outs ((List.range 6).map (fun k => c.st == 1 && sel == k) ++ [c.faults != 0, ready c.st && n == 1]) (waits c.st)

/-! COMPARE (R293, R294). -/

def evalCompare (b : Blk) (i : BlockIn) : Blk :=
  let ra := lo16 (i.p 1)
  let rb := hi16 (i.p 1)
  let x := i.sref ra
  let y := i.sref rb
  let q := i.qual ra && i.qual rb
  let disc := timeOf (lo16 (i.p 2)) 100
  let b := b.setW 1 (flag y 1 ||| flag x 0)
  let s := b.st
  let ready := fun (st : Nat) => st == 3 && x == y && q
  let c := b.table i (some (hi16 (i.p 2))) (ready s) false (s == 3) 1 [
    (s != 3 && !q, b.fault 2 3),
    (s == 2 && x == y, b.go 1),
    (s == 2 && i.lasted (b.w 0) disc, b.fault 0 3),
    ((s == 0 || s == 1) && x != y, b.goAt 2 0 i.now),
    (s == 0, b.go 1)]
  c.outs [c.st == 1 && x && y, c.faults != 0, ready c.st, c.st == 2] (c.st == 3)

/-! Logic and timer blocks (R295 to R297). -/

/-- The inputs that an AND or OR is given. -/
def gateInputs (i : BlockIn) : List (BitVec 16) :=
  ((List.range 4).flatMap fun k => [lo16 (i.p (k + 1)), hi16 (i.p (k + 1))]).filter fun r => srefKind r != 0

/-- A timer block after its input x and state, with IN_PREV. -/
def Blk.timed (b : Blk) (st : Nat) (x on : Bool) : Blk := ((b.go st).setW 1 (flag x 0)).outs [on] false

def evalTon (b : Blk) (i : BlockIn) (first : Bool) : Blk :=
  let x := i.sref (lo16 (i.p 1))
  let t := timeOf (lo16 (i.p 2)) 1000
  if !x then b.timed 0 x false
  else if first || b.st == 0 then (b.setW 0 (i.now.setWidth 32)).timed 1 x false
  else if b.st == 2 || i.lasted (b.w 0) t then b.timed 2 x true
  else b.timed 1 x false

def evalTof (b : Blk) (i : BlockIn) (first : Bool) : Blk :=
  let x := i.sref (lo16 (i.p 1))
  let t := timeOf (lo16 (i.p 2)) 1000
  if x then b.timed 1 x true
  else if first || b.st == 0 then b.timed 0 x false
  else if b.st == 1 then (b.setW 0 (i.now.setWidth 32)).timed 2 x true
  else if i.lasted (b.w 0) t then b.timed 0 x false
  else b.timed 2 x true

def evalPulse (b : Blk) (i : BlockIn) (first : Bool) : Blk :=
  let x := i.sref (lo16 (i.p 1))
  let t := timeOf (lo16 (i.p 2)) 1000
  let rise := x && !first && !(b.w 1).getLsbD 0
  if !first && b.st == 1 && !i.lasted (b.w 0) t then b.timed 1 x true
  else if rise then (b.setW 0 (i.now.setWidth 32)).timed 1 x true
  else b.timed (if x then 2 else 0) x false

/-- RS and SR: Q0 of the previous frame is taken as 0 at a start (R296). -/
def evalLatch (b : Blk) (i : BlockIn) (first rs : Bool) : Blk :=
  let set := i.sref (lo16 (i.p 1))
  let keep := i.sref (hi16 (i.p 1))
  let prev := !first && b.q.getLsbD 0
  let v := if rs then keep && (set || prev) else set || (keep && prev)
  (b.go (if v then 1 else 0)).outs [v] false

/-! One evaluation. -/

/-- The state code of FENCED; the logic blocks read 0 (R229, R680). -/
def fencedCode (type : Nat) : Nat :=
  match type with
  | 0x01 => 6
  | 0x02 => 6
  | 0x03 => 8
  | 0x04 => 6
  | 0x05 => 6
  | 0x06 => 7
  | 0x07 => 7
  | 0x08 => 5
  | 0x09 => 5
  | 0x0A => 6
  | 0x0B => 6
  | 0x0C => 4
  | 0x19 => 5
  | 0x1A => 2
  | 0x1B => 4
  | _ => 0

/-- The types whose record holds a start-up lockout: ESTOP, GUARD, GUARDLOCK, OSSD (R229). -/
def hasStartLock (type : Nat) : Bool := type == 1 || type == 2 || type == 3 || type == 5

/-- The moves of the first frame evaluated with STATE SAFE (R227, R262). -/
def safeMove (type st : Nat) : Nat :=
  match type, st with
  | 0x01, 1 => 4
  | 0x02, 1 => 4
  | 0x03, 1 => 6
  | 0x04, 2 => 4
  | 0x04, 3 => 4
  | 0x0C, 1 => 0
  | 0x0C, 2 => 0
  | 0x05, 1 => 4
  | 0x05, 7 => 4
  | 0x06, 2 => 5
  | 0x06, 3 => 5
  | 0x06, 4 => 5
  | 0x07, 2 => 5
  | 0x07, 3 => 5
  | 0x07, 4 => 5
  | 0x08, 1 => 3
  | 0x08, 2 => 3
  | 0x19, 1 => 3
  | _, s => s

/-- The block after the move of the first frame evaluated with STATE SAFE; GUARDLOCK clears OPENED as it enters LOCKOUT (R227, R251). -/
def Blk.safeMoved (b : Blk) : Blk :=
  let c := b.go (safeMove b.type b.st)
  if b.type == 3 && c.st != b.st then c.setBit 3 8 false else c

/-- The table of a type. first: the block starts, on an entry to RUN from VERIFY or on leaving FENCED. -/
def evalType (b : Blk) (i : BlockIn) (first : Bool) : Blk :=
  match b.type with
  | 0x01 => evalEstop b i false
  | 0x02 => evalEstop b i true
  | 0x03 => evalGuardlock b i
  | 0x04 => evalTwohand b i
  | 0x05 => evalOssd b i
  | 0x06 => evalMute2 b i
  | 0x07 => evalMute4 b i
  | 0x08 => evalSpeed b i
  | 0x09 => evalStandstill b i
  | 0x0A => evalEdm b i
  | 0x0B => evalResetq b i
  | 0x0C => evalOutpair b i
  | 0x10 => b.outs [(gateInputs i).all i.sref] false
  | 0x11 => b.outs [(gateInputs i).any i.sref] false
  | 0x12 => b.outs [!i.sref (lo16 (i.p 1))] false
  | 0x13 => b.outs [i.sref (lo16 (i.p 1)) != i.sref (hi16 (i.p 1))] false
  | 0x14 => evalTon b i first
  | 0x15 => evalTof b i first
  | 0x16 => evalPulse b i first
  | 0x17 => evalLatch b i first true
  | 0x18 => evalLatch b i first false
  | 0x19 => evalModesel b i
  | 0x1A => evalHostperm b i
  | 0x1B => evalCompare b i
  | _ => b

/-- An instance in FENCED: every Q is 0 and no row is taken. The fields of its record that show what it reads are kept up, which a logic
block and RESETQ have none of (R229, R268, R288, R680). DEDUCED, log 58. IN_PREV of a fenced timer block stays as it was: it serves the
block's own next evaluation, and a block that leaves FENCED starts afresh (R297). DESIGN CHOICE, log 112. -/
def evalFenced (b : Blk) (i : BlockIn) : Blk :=
  let b := { b.go (fencedCode b.type) with fenced := true }
  let c := if fencedCode b.type == 0 || b.type == 0x0B then b else evalType b i false
  { c with st := fencedCode b.type, q := 0 }

/-- The evaluation of one instance: its new record, and the codes of the BLOCK entries it produces. -/
def evalBlock (old : List Word) (i : BlockIn) : List Word × List Nat :=
  let b := Blk.ofRec old
  let c :=
    if i.fenced then evalFenced b i
    else
      let start := { b.go 0 with fenced := false, startLock := b.startLock || hasStartLock b.type }
      if b.fenced && b.type == 0x0C then leaveOutpair start i
      else
        let b := if b.fenced then start else b
        let b := if i.safeFirst then b.safeMoved else b
        evalType b i (i.fresh || (Blk.ofRec old).fenced)
  let c := if c.st == b.st then c else { c with changeFrame := i.frame, changeTime := i.now }
  (c.toRec, c.entries)

end Sys2Proof.Machine
end

