-- ==== Sys2Proof/Machine/Flags.lean ====
section
/-! DEFINITION. What follows from the state at any instant: trip demand, the levels the outputs drive, quality bits, the latch and
live words of pages whose causes are kept per unit, the interrupt and error pins. -/

namespace Sys2Proof.Machine

/-! Inputs and trip demand (R179 to R190). -/

/-- The input's channel is in service and configured as an input (R4, R179, R333). -/
def State.isInput (s : State) (i : Nat) : Bool := decide (bankOfInput i < s.banks) && (s.inp i).cfg.getLsbD 31

def State.tin (s : State) (i : Nat) : Word := s.trp.tin.getD i 0

/-- Trip mode of an input: 0 STEADY, 1 OWN, 2 FOREIGN (R180). -/
def State.tripMode (s : State) (i : Nat) : BitVec 2 := (s.tin i).extractLsb' 28 2

/-- SOURCE of an input in mode OWN (R182). -/
def State.tripSource (s : State) (i : Nat) : BitVec 6 := (s.tin i).extractLsb' 16 6

/-- MEMBER: a local mask or a lane source mask names the input (R213). -/
def State.member (s : State) (i : Nat) : Bool := (s.tin i).getLsbD 31

/-- The input's own mask window is in progress (R182). -/
def State.masked (s : State) (i : Nat) : Bool := s.tripMode i == 1 && s.pwl.window == some (s.tripSource i) && !(s.inp i).maskEnded

/-- Trip demand of an input on a half (R180, R183). -/
def State.demand (s : State) (h : Half) (i : Nat) : Bool :=
  s.isInput i && !(s.comp i h).level && match (s.tripMode i).toNat with
    | 1 => !s.masked i
    | 2 => (s.comp i h).tolExpired || (s.tin i).extractLsb' 0 14 == 0
    | _ => true

/-- The trip demand of every input on a half (R208). -/
def State.demandVec (s : State) (h : Half) : BitVec 112 := vecOf 112 (s.demand h)

/-- The local inputs of a die out of a device vector (chapter 05). -/
def dieVec (d : Nat) (v : BitVec 112) : BitVec 56 :=
  v.extractLsb' (96 + 8 * d) 8 ++ v.extractLsb' (48 * d) 48

/-- The local mask of an output: TSET0 and TSET1 (R211). -/
def State.localMask (s : State) (n : Nat) : BitVec 56 :=
  let t1 := s.trp.tset.getD (3 * n + 1) 0
  t1.extractLsb' 16 8 ++ t1.extractLsb' 0 16 ++ s.trp.tset.getD (3 * n) 0

/-- The inbound lanes of an output: TSET2 (R211). -/
def State.inbound (s : State) (n : Nat) : BitVec 12 := (s.trp.tset.getD (3 * n + 2) 0).extractLsb' 0 12

/-- The source mask of lane k of die d (R212). -/
def State.laneMask (s : State) (d k : Nat) : BitVec 56 :=
  (s.trp.xsrc.getD (2 * (12 * d + k) + 1) 0).extractLsb' 0 24 ++ s.trp.xsrc.getD (2 * (12 * d + k)) 0

/-- The lanes of die d that its local inputs in demand put in demand (R184). -/
def State.lanesOf (s : State) (d : Nat) (dem : BitVec 56) : BitVec 12 := vecOf 12 fun k => s.laneMask d k &&& dem != 0

/-- The lanes that die d's own inputs put in demand on a half (R184). -/
def State.laneSource (s : State) (h : Half) (d : Nat) : BitVec 12 := s.lanesOf d (dieVec d (s.demandVec h))

/-- The link of die d carries messages: the die is on the part and its link was trained (R634). -/
def State.linked (s : State) (d : Nat) : Bool := decide (d < s.dies) && (s.bar d).trained

/-- The lanes of die d are taken as demand on a half: a bad message, a missed heartbeat (R187, R188) or a fence (R555). -/
def State.laneForced (s : State) (h : Half) (d : Nat) : Bool :=
  (s.trp.coreBad ||| s.trp.destBad ||| s.trp.hbMissed).getLsbD (2 * d + h.num) || (s.bar d).fenced

/-- The lanes of die d as XLANE_C and XLANE_D show them (R207). -/
def State.laneState (s : State) (h : Half) (d : Nat) : BitVec 12 :=
  if s.laneForced h d then 0xFFF else s.trp.laneCore.getD (2 * d + h.num) 0

/-- The lanes of die d as the other die's outputs take them. -/
def State.laneDemand (s : State) (h : Half) (d : Nat) : BitVec 12 :=
  if s.laneForced h d then 0xFFF else s.trp.laneDest.getD (2 * d + h.num) 0

/-- The FIB, FOB or PWL causes that are kept per unit, ORed (R324, R350, R393), beside the page's own. -/
def State.latchOf (s : State) (p : Page) : Word :=
  (s.hdr p).latch ||| match p with
    | .fib b => (List.range 14).foldl (fun w k => w ||| (s.inp (inputOf b k)).latch.setWidth 32) 0
    | .fob b => (List.range 8).foldl (fun w k => w ||| (s.out (outputOf b k)).latch.setWidth 32) 0
    | .pwl => (List.range 16).foldl (fun w k => w ||| (s.pulse k).latch.setWidth 32) 0
    | _ => 0

/-- The bank is in FV lockout (R348): FV_SAG, FV_HIGH or FV_MEAS latched. -/
def State.fvLock (s : State) (b : Nat) : Bool := (s.hdr (fobOf b)).latch &&& 0x70000 != 0

/-- The bank is fenced, on its own or with its die (R554). -/
def State.bankFenced (s : State) (b : Nat) : Bool := (s.inBank b).fenced || (s.bar (dieOfBank b)).fenced

/-- The inputs of fenced banks. -/
def State.fencedInputs (s : State) : BitVec 112 := vecOf 112 fun i => s.bankFenced (bankOfInput i)

/-- GLOBAL holds every latch (R189, R193). -/
def State.globalHold (s : State) : Bool := s.dev.state != .run

/-- The first of the bits of v that are set. -/
def firstBit {n : Nat} (v : BitVec n) : Option Nat := (List.range n).find? fun i => v.getLsbD i

/-- The trip demand of SOn on a half, with the input demands and fenced inputs given, as (SRC_KIND, SRC) of LAST_TRIP (R185, R189, R210). -/
def State.tripCause (s : State) (h : Half) (dem fen : BitVec 112) (n : Nat) : Option (Nat × Nat) :=
  let d := dieOfBank (n / 6)
  let e := 1 - d
  let m := s.localMask n
  match firstBit (m &&& dieVec d dem) with
  | some j => some (1, ofDieLocal d j)
  | none =>
    match firstBit (s.inbound n &&& s.laneDemand h e) with
    | some k => some (2, k)
    | none =>
      if s.globalHold then some (3, 0)
      else if s.bankFenced (n / 6) || s.fvLock (n / 6) then some (4, n / 6)
      else match firstBit (m &&& dieVec d fen) with
        | some j => some (5, ofDieLocal d j)
        | none =>
          (List.range 12).findSome? fun k =>
            if (s.inbound n).getLsbD k then (firstBit (s.laneMask e k &&& dieVec e fen)).map fun j => (5, ofDieLocal e j) else none

/-- The outputs in trip demand on a half. -/
def State.tripVec (s : State) (h : Half) : BitVec 48 :=
  let dem := s.demandVec h
  let fen := s.fencedInputs
  vecOf 48 fun n => (s.tripCause h dem fen n).isSome

def State.tl (s : State) : Half → BitVec 48
  | .c => s.trp.tlC
  | .d => s.trp.tlD

/-! Levels driven at the field terminals. -/

/-- What a driver presents. -/
inductive Drive where
  | high
  | low
  | hiZ
  deriving DecidableEq, Repr

/-- The own dark pulse of a wheel slot is in progress (R377). -/
def State.ownGap (s : State) (slot : Nat) : Bool := s.pwl.dark == some (BitVec.ofNat 6 slot)

/-- The conditions of R26 for SOn but for its own test gap, with the force hold of R337. -/
def State.highButGap (s : State) (n : Nat) : Bool :=
  (s.out n).cmdC && (s.out n).cmdD && !s.trp.tlC.getLsbD n && !s.trp.tlD.getLsbD n && !(s.bar (dieOfBank (n / 6))).chill
    && s.dev.state == .run && !(s.out n).hold

/-- SOn drives high (R26). -/
def State.soHigh (s : State) (n : Nat) : Bool := s.highButGap n && !s.ownGap (16 + n)

/-- AX outputs follow commits (R360, R436). -/
def State.axFollows (s : State) (m : Nat) : Bool :=
  (s.dev.state == .run || (s.dev.state == .safe && !s.dev.safeR36) || (s.dev.state == .commission && s.frm.running))
    && !(s.bar (m / 8)).chill && !s.bankFenced (m / 2)

/-- What an output terminal presents: SO0 to SO47, then AX0 to AX15 (R26, R347, R359 to R361, R603). The banks that the SLC-1224
personality leaves out hold their safety outputs low (R670). While a logic-side supply is absent an AX output takes an AX_CHILL of high only in
chill (R602), and is low before (DESIGN CHOICE, log 102). -/
def State.drive (s : State) (o : Nat) : Drive :=
  let u := s.out o
  if !(s.bar (dieOfBank (bankOfOutput o))).powered || decide (s.partBanks ≤ bankOfOutput o) then .hiZ
  else if s.banks ≤ bankOfOutput o then (if o < 48 then .low else .hiZ)
  else if o < 48 then
    if s.soHigh o then .high
    else if u.lsOpen || u.held.getLsbD 30 then .hiZ
    else .low
  else if u.hold then .hiZ
  else if s.axFollows (o - 48) then
    if !u.cfg.getLsbD 31 then .hiZ else if u.cmdC && u.cmdD then .high else .low
  else match (u.held.extractLsb' 26 2).toNat with
    | 0 => .low
    | 1 => if (s.bar (dieOfBank (bankOfOutput o))).chill || s.sup.valid == 0xF then .high else .low
    | _ => .hiZ

/-- What PSk presents (R381, R394). -/
def State.psDrive (s : State) (k : Nat) : Drive :=
  let b := s.bar (k / 8)
  if !b.powered || b.chill || !b.trained || s.dev.state == .shakeout || s.dev.state == .off || (s.pulse k).hold || s.pwl.halted
    || s.bankFenced (k / 2) || decide (s.banks ≤ k / 2) then .hiZ
  else if s.ownGap k then .low else .high

/-- The wheel slot has a source on this part (R6). -/
def State.slotPresent (s : State) (n : Nat) : Bool := decide (bankOfSlot n < s.banks)

/-- The slot carries a dark pulse and is judged (R6, R377, R554). -/
def State.slotLive (s : State) (n : Nat) : Bool := s.slotPresent n && !s.bankFenced (bankOfSlot n)

/-! Outputs: pairs, live conditions, quality. -/

/-- The lockout-class causes of an output: every cause but OPEN_LOAD (R344). -/
def lockoutMask : BitVec 10 := 0x3F7

/-- The output paired with SOn (R346). -/
def State.partner (s : State) (o : Nat) : Option Nat :=
  if (s.out o).cfg.getLsbD 28 then some ((s.out o).cfg.extractLsb' 16 6).toNat else none

/-- The live bits of an output's causes but PARTNER (R350). -/
def State.ownLive (s : State) (o : Nat) : BitVec 10 :=
  let u := s.out o
  (if (u.lsOpen || (u.hold && (decide (48 ≤ o) || u.held.getLsbD 30))) && (u.sense.rbC || u.sense.rbD) then 0x1#10 else 0)
    ||| (if u.sense.hot then 0x10#10 else 0) ||| (u.live &&& 0x28)

/-- The output has a lockout-class cause of its own, other than PARTNER, latched or live (R350). -/
def State.ownLockout (s : State) (o : Nat) : Bool := ((s.out o).latch ||| s.ownLive o) &&& 0x1F7 != 0

/-- CFG_ERR is latched on the output's bank (R347). -/
def State.outCfgErr (s : State) (o : Nat) : Bool := (s.hdr (fobOf (bankOfOutput o))).latch.getLsbD 20

/-- The live bits of an output's causes (R350). -/
def State.outLive (s : State) (o : Nat) : BitVec 10 :=
  s.ownLive o ||| match s.partner o with
    | some q => if s.ownLockout q || s.outCfgErr q then 0x200 else 0
    | none => 0

/-- The live bits of a pulse source's causes (R394). -/
def State.psLive (s : State) (k : Nat) : BitVec 3 :=
  if (s.pulse k).hold && ((s.pulse k).sense.rbC || (s.pulse k).sense.rbD) then 1 else 0

/-- FLT_LIVE of a page (R56, R324, R350, R393). -/
def State.liveOf (s : State) (p : Page) : Word :=
  (s.hdr p).live ||| match p with
    | .fib b => (List.range 14).foldl (fun w k => w ||| (s.inp (inputOf b k)).live.setWidth 32) 0
    | .fob b => (List.range 8).foldl (fun w k => w ||| (s.outLive (outputOf b k)).setWidth 32) 0
    | .pwl => (List.range 16).foldl (fun w k => w ||| (s.psLive k).setWidth 32) 0
    | .trp => flag (s.trp.splitLive != 0) 4
    | _ => 0

/-- QUAL of an input as the field die holds it (R319, R323, R554). -/
def State.qualOf (s : State) (i : Nat) : Bool :=
  let b := bankOfInput i
  s.isInput i && (s.inp i).latch == 0 && (s.hdr (fibOf b)).latch &&& 0x300 == 0 && !s.bankFenced b

/-- The level expected at an output's readbacks but for its own gap (R341). -/
def State.expectHigh (s : State) (o : Nat) : Bool := if o < 48 then s.highButGap o else s.drive o == .high

/-- A readback of the output differs from its expected level (R341). -/
def State.rbWrong (s : State) (o : Nat) : Bool :=
  (s.out o).sense.rbC != s.expectHigh o || (s.out o).sense.rbD != s.expectHigh o

/-- OPEN_LOAD's condition is present at the output (R344). -/
def State.openNow (s : State) (o : Nat) : Bool := (s.out o).cfg.getLsbD 29 && s.expectHigh o && (s.out o).sense.srcLow

/-- OQUAL of SOn as the field die latches it at SAMPLE (R349). -/
def State.oqualOf (s : State) (n : Nat) : Bool :=
  let b := n / 6
  decide (b < s.banks) && !(s.out n).hold && !(s.out n).heldSince && !(s.outBank b).lockedSince && !s.fvLock b && !s.bankFenced b

/-! Pages: interrupts and error pins. -/

/-- The incident of a page is open with an ACTION of 1 or more (R541). -/
def Hdr.asksIrq (h : Hdr) : Bool := h.incident.isOpen && h.incident.reaction &&& 7 != 0

/-- A page asks its owner for an interrupt (R59, R541). -/
def State.pageIrq (s : State) (p : Page) : Bool := (s.hdr p).asksIrq || s.latchOf p &&& (s.hdr p).irqEn != 0

/-- The flask that owns a page: the supervisor flask stands for the device (R42). -/
def State.ownerFlask (s : State) (p : Page) : BitVec 4 :=
  if (s.hdr p).own.flask == 0xF then s.dev.supervisor.setWidth 4 else (s.hdr p).own.flask

/-- The event words of device pages that interrupt the supervisor flask (R114, R595, R625, R629). -/
def State.eventIrq (s : State) : Bool :=
  s.frm.syncEvents &&& s.frm.syncIrqEn != 0 || (s.bst.due && s.bst.irqEn) || (s.dev.stateChg && s.dev.irqEn)
    || s.sup.events &&& s.sup.irqEn != 0

/-- Responses ready and not fetched (R473). -/
def Hp.ready (p : Hp) : Nat := (p.txns.filter fun t => t.resp.isSome && !t.fetched).length

/-- Tags not outstanding (R457). -/
def Hp.freeTags (p : Hp) : Nat := 32 - p.txns.length

/-- The port is out of service: HP1 to HP3 in the SLC-1224 personality (R451, R669). -/
def State.portOut (s : State) (n : Nat) : Bool := s.compat && decide (n ≠ 0)

/-- HPn_INT_N is driven low (R467, R541); a port out of service releases it (R669). -/
def State.intLow (s : State) (n : Nat) : Bool :=
  s.dev.state != .off && !s.portOut n && (allPages.any (fun p => s.mapped p && s.ownerFlask p == BitVec.ofNat 4 n && s.pageIrq p)
    || (s.dev.supervisor == BitVec.ofNat 2 n && s.eventIrq)
    || (s.hp n).events &&& (s.hp n).irqEn.setWidth 3 != 0
    || ((s.hp n).irqEn.getLsbD 3 && decide (0 < (s.hp n).ready)))

/-- HOLD: an urgent patrol holds an access of the port that has not taken effect (R468, R476). -/
def Hp.hold (p : Hp) : Bool := p.txns.any fun t => t.held && t.resp.isNone

/-- HPn_BUSY_N is driven low (R468, R669). -/
def State.busyLow (s : State) (n : Nat) : Bool :=
  s.dev.state != .off && !s.portOut n && ((s.hp n).pulse || (s.hp n).freeTags == 0 || (s.hp n).tokens == 0 || (s.hp n).hold)

/-- Some page holds an open incident whose REACTION_TAKEN has ERR (R542). -/
def State.errOpen (s : State) : Bool := s.hdrs.any fun h => h.incident.isOpen && h.incident.reaction.getLsbD 3

/-- ERR_A_N (half C) or ERR_B_N (half D) reads as error: driven low, or undriven in OFF without its supplies (R542, R610, R645). -/
def State.errLow (s : State) (h : Half) : Bool :=
  s.dev.state == .off || s.errOpen || s.dev.dbgSplit || match h with
    | .c => !s.clk.coreCOk
    | .d => !s.clk.coreDOk

/-- VDD_CORE and VDD_IO are present: without them the error pins are undriven, and their pull-downs make them read as error (R645). -/
def State.errDriven (s : State) : Bool := s.sup.valid.getLsbD 0 && s.sup.valid.getLsbD 1

/-- What the device drives on an error pin. -/
def State.errDrive (s : State) (h : Half) : Drive := if !s.errDriven then .hiZ else if s.errLow h then .low else .high

/-- FRAME_OUT is driven high: FO_POL gives the active level, and before the first entry to RUN it is 0 and the inactive level low; in OFF it is
low (R99, R100, R110, R643). -/
def State.frameOutHigh (s : State) : Bool := s.dev.state != .off && s.frm.frameOut != s.frm.frameOutCfg.getLsbD 31

/-- Frames are evaluated: neither stopped for a cause of R36 nor split (R86). -/
def State.evaluates (s : State) : Bool :=
  s.frm.running && !(s.dev.state == .safe && s.dev.safeR36) && !s.dev.dbgSplit

/-- The crucible patrol runs (R405). -/
def State.cruciblePatrolOn (s : State) : Bool :=
  s.dev.state == .verify || s.dev.state == .run || s.dev.state == .safe || s.dev.state == .commission

/-- The scratchpad patrol runs (R502). -/
def State.scratchPatrolOn (s : State) : Bool := s.cruciblePatrolOn || s.dev.state == .load

/-- The crucible window accepts writes (R429, R436). -/
def State.windowOpen (s : State) : Bool :=
  s.img.phase == .waitingHost && (s.dev.state == .load || s.dev.state == .commission)

end Sys2Proof.Machine
end

