-- ==== Sys2Proof/Machine/Header.lean ====
section
/-! DEFINITION. The common header of a block page as a host reads it (02 R50 to R69). -/

namespace Sys2Proof.Machine

/-- The block page that owns a page number: itself, or SPBk for the data window of bank k (R41, R72). -/
def ownerPage (pn : Nat) : Option Page :=
  if 0x400 ≤ pn ∧ pn < 0x480 then some (spbOf ((pn - 0x400) / 8)) else pageOf pn

/-- The native page number of an address: the aliases of R672 name their targets in the SLC-1224 personality. -/
def aliasPage (n : Nat) : Nat :=
  match n with
  | 0x200 => 0x000
  | 0x201 => 0x004
  | 0x202 => 0x008
  | 0x203 => 0x020
  | 0x204 => 0x021
  | 0x205 => 0x022
  | 0x206 => 0x028
  | 0x207 => 0x031
  | 0x208 => 0x080
  | 0x209 => 0x081
  | 0x20A => 0x088
  | 0x20B => 0x089
  | 0x20C => 0x090
  | 0x20D => 0x091
  | 0x210 => 0x100
  | 0x211 => 0x101
  | n => n

/-- The native page number that a transaction's address names (R40, R672). -/
def State.pageNo (s : State) (addr : BitVec 24) : Nat :=
  let n := addr.toNat / 4096
  if s.compat then aliasPage n else n

/-- The transaction addresses the page, or the data window of a bank's page. -/
def State.onPage (s : State) (p : Page) (t : Txn) : Bool := (t.op == 1 || t.op == 2) && ownerPage (s.pageNo t.addr) == some p

/-- DRAIN_LEFT: the transactions in flight at the start of the handover that have not taken effect (R53, R73). -/
def State.drainLeft (s : State) (p : Page) : Nat :=
  s.hps.foldl (fun k (h : Hp) => k + (h.txns.filter fun t => t.drains && t.resp.isNone && s.onPage p t).length) 0

/-- PAGE_ID (R51). -/
def pageId (p : Page) : Word := BitVec.ofNat 32 (0x80000001 + p.base * 65536 + p.inst * 4096)

/-- The owner of the page cannot change (R52). -/
def fixedOwner : Page → Bool
  | .hp _ => true
  | p => !p.assignable

/-- OWNER (R52). -/
def State.ownerWord (s : State) (p : Page) : Word :=
  let o := (s.hdr p).own
  flag o.draining 9 ||| flag (fixedOwner p) 8 ||| field s.dev.supervisor 4 ||| field o.flask 0

/-- HANDOVER (R53). -/
def State.handoverWord (s : State) (p : Page) : Word :=
  let o := (s.hdr p).own
  flag o.pending 31 ||| field o.result 28 ||| BitVec.ofNat 32 (65536 * min 32 (if o.draining then s.drainLeft p else 0)) ||| field o.target 0

/-- INCIDENT (R64). -/
def Incident.word (i : Incident) : Word :=
  flag i.isOpen 31 ||| field i.mergeCount 16 ||| field i.severity 8 ||| flag i.conseq 4 ||| field i.reaction 0

/-- Word j of a HIST entry (R68). -/
def HistEntry.word (e : HistEntry) (j : Nat) : Word :=
  match j with
  | 0 => flag e.valid 31 ||| flag e.merged 30 ||| flag e.conseq 29 ||| flag e.overflow 28 ||| field e.reaction 24 ||| field e.origin 12
      ||| field e.cause 0
  | 1 => e.seq ++ e.lost
  | 2 => e.frame
  | _ => e.timeLo

/-- A word of the common header (R50 to R68). -/
def State.readHeader (s : State) (p : Page) (off : Nat) : Word :=
  let h := s.hdr p
  match off with
  | 0x00 => pageId p
  | 0x04 => s.ownerWord p
  | 0x08 => s.handoverWord p
  | 0x0C => flag h.own.nohand 1 ||| flag h.own.locked 0
  | 0x10 => s.liveOf p
  | 0x14 => s.latchOf p
  | 0x18 => h.enable
  | 0x1C => h.irqEn
  | 0x20 => field h.total 16 ||| field h.inWindow 8
  | 0x24 => field h.fltWindow 8 ||| field h.fltN 0
  | 0x28 => field h.reactMinor 0
  | 0x2C => field h.reactSevere 0
  | 0x30 => h.incident.word
  | 0x34 => h.first.cause
  | 0x38 => wordAt h.first.time 0
  | 0x3C => wordAt h.first.time 1
  | 0x40 => h.first.frame
  | off =>
    if off < 0x80 then h.counters.getD ((off - 0x44) / 4) 0
    else (h.hist.entries.getD ((off - 0x80) / 16) {}).word (off / 4 % 4)

/-- The common headers of the FIB and FOB pages of a die, as its fence freezes them (R555). -/
def State.dieHeaders (s : State) (d : Nat) : List (List Word) :=
  ((List.range 4).map fun j => fibOf (4 * d + j)) ++ ((List.range 4).map fun j => fobOf (4 * d + j)) |>.map fun p =>
    (List.range 64).map fun k => s.readHeader p (4 * k)

end Sys2Proof.Machine
end

