-- ==== Sys2Proof/Machine/Engine.lean ====
section
/-! DEFINITION. The fault engine: trip latches, the event log's queue, changes of STATE, transactions aborted by recovery actions,
fences, block resets, and what an event of a page does (chapter 15). -/

namespace Sys2Proof.Machine

/-! The event log (R564 to R568). -/

/-- Queues an entry; a full queue counts it as lost (R568). -/
def State.logPush (s : State) (it : LogItem) : State :=
  if s.evl.queue.length < 64 then { s with evl := { s.evl with queue := s.evl.queue ++ [it] } }
  else { s with evl := { s.evl with lost := satInc s.evl.lost, lostReaction := moreSevere s.evl.lostReaction (it.w0.extractLsb' 8 4) } }

/-- The two words of an entry but for SEQ and LATE (R565). -/
def logWords (kind reaction flags code : Nat) (page : BitVec 12) (aux : BitVec 12) (arg : Byte) : Word × Word :=
  (BitVec.ofNat 32 (kind * 4096 + reaction * 256 + flags * 64 + code), page ++ aux ++ arg)

/-- The order of an entry among those of one time: its own page and code, or those of the event whose reaction produced it (R567). -/
structure LogKey where
  page : BitVec 12
  code : BitVec 5
  group : Nat

/-- The place of an entry of a page and code: its own, but after the CAUSE entry that a key names where its own stands before that (R567). -/
def placeOf (page : BitVec 12) (code : BitVec 5) (key : Option LogKey) : LogKey :=
  match key with
  | none => ⟨page, code, 0⟩
  | some k =>
    if page.toNat < k.page.toNat || (page == k.page && decide (code.toNat < k.code.toNat)) then k else ⟨page, code, 1⟩

/-- Queues an entry that is no CAUSE. -/
def State.log (s : State) (kind code : Nat) (page aux : BitVec 12) (arg : Byte) (key : Option LogKey := none) : State :=
  let k := placeOf page (BitVec.ofNat 5 code) key
  let w := logWords kind 0 0 code page aux arg
  s.logPush { time := s.frm.tb, page := k.page, code := k.code, group := k.group, w0 := w.1, w1 := w.2 }

/-- The key of the entries that a reaction to cause c of page p produces (R563). -/
def reactionKey (p : Page) (c : Nat) : LogKey := ⟨p.num12, BitVec.ofNat 5 c, 1⟩

/-! Trip latches (R191, R194, R203, R210). -/

/-- OPEN_LOAD and RB_MISMATCH cease to be live, and what awaits the end of blanking is dropped, where the condition has ended (R342, R350). -/
def State.settleOuts (s : State) : State :=
  { s with outs := s.outs.mapIdx fun o (u : Output) =>
      if u.live == 0 && !u.rbDue && !u.olDue then u
      else
        let rb := s.rbWrong o
        let ol := s.openNow o
        { u with live := u.live &&& ((if rb then 0x20#10 else 0) ||| (if ol then 0x8#10 else 0)), rbDue := u.rbDue && rb
                 olDue := u.olDue && ol } }

/-- LAST_TRIP after latches set, newC and newD those of each half and n the lowest output: of the latches that set in one cycle it shows the
lowest output, with both halves where both have set in that cycle and half C's cause first (R210). DESIGN CHOICE, log 78. -/
def State.tripShown (s : State) (newC newD : BitVec 48) (causeC causeD : Nat → Option (Nat × Nat)) (n : Nat) : Word :=
  let c := newC.getLsbD n
  let old := s.trp.lastTrip
  let on := (old.extractLsb' 0 6).toNat
  let same := s.trp.lastTripTime == s.frm.tb && old.extractLsb' 8 4 != 0
  if same && decide (on < n) then old
  else if same && on == n && !c then old ||| 0x2000
  else
    let src := (if c then causeC n else causeD n).getD (0, 0)
    let half := (if c then 1 else 0) + (if newD.getLsbD n || (same && on == n) then 2 else 0)
    BitVec.ofNat 32 (src.2 * 65536 + half * 4096 + src.1 * 256 + n)

/-- Sets every latch whose output is in trip demand, counts the latches set, records the latest, and captures demand. -/
def State.setTrips (s : State) : State :=
  let demC := s.demandVec .c
  let demD := s.demandVec .d
  let fen := s.fencedInputs
  let mem := vecOf 112 s.member
  let tripC := vecOf 48 fun n => (s.tripCause .c demC fen n).isSome
  let tripD := vecOf 48 fun n => (s.tripCause .d demD fen n).isSome
  let newC := tripC &&& ~~~s.trp.tlC
  let newD := tripD &&& ~~~s.trp.tlD
  let t := { s.trp with tlC := s.trp.tlC ||| tripC, tlD := s.trp.tlD ||| tripD
                        capC := s.trp.capC ||| (demC &&& mem), capD := s.trp.capD ||| (demD &&& mem) }
  match firstBit (newC ||| newD) with
  | none => { s with trp := t }
  | some n =>
    let count := ones newC + ones newD
    let s := { s with trp := { t with
      lastTrip := s.tripShown newC newD (s.tripCause .c demC fen) (s.tripCause .d demD fen) n
      lastTripTime := s.frm.tb, lastTripFrame := s.frm.frameNum } }
    let c := (s.counter .trp 0x44).toNat + count
    s.setCounter .trp 0x44 (if c < 2 ^ 32 then BitVec.ofNat 32 c else Word.ones)

/-- Die d sends a trip message on a half where the state of its outbound lanes has changed; the link carries it in order (R186). -/
def State.sendLane (s : State) (h : Half) (d : Nat) : State :=
  if !s.linked d then s
  else
    let i := 2 * d + h.num
    let lanes := s.laneSource h d
    if s.trp.laneSent.getD i 0 == lanes then s
    else { s with trp := { s.trp with laneSent := s.trp.laneSent.set i lanes, flight := upd s.trp.flight i (· ++ [lanes]) } }

/-- The messages that a change of demand makes due. -/
def State.sendLanes (s : State) : State := (((s.sendLane .c 0).sendLane .d 0).sendLane .c 1).sendLane .d 1

/-- The trip latches, the messages of the dies and the outputs' conditions after a change of demand, hold or STATE. -/
def State.updateTrips (s : State) : State := s.setTrips.sendLanes.settleOuts

/-! Changes of STATE (R33, R35, R624, R625). -/

/-- The code of a STATE (R33). -/
def DevState.code : DevState → Nat
  | .off => 0
  | .start => 1
  | .load => 2
  | .verify => 3
  | .run => 4
  | .safe => 5
  | .commission => 6
  | .shakeout => 7

/-- Pending observations of the wheel (R386, R389). -/
def State.pendingObs (s : State) : Nat :=
  s.comps.foldl (fun k c => k + (if c.missPend then 1 else 0) + (if c.forPend.isSome then 1 else 0)) 0
    + s.outs.foldl (fun k u => k + (if u.missPendC then 1 else 0) + (if u.missPendD then 1 else 0)
        + (if u.forPend.isSome then 1 else 0)) 0

/-- Adds n to a counter, saturating. -/
def State.addCounter (s : State) (p : Page) (off n : Nat) : State :=
  let c := (s.counter p off).toNat + n
  s.setCounter p off (if c < 2 ^ 32 then BitVec.ofNat 32 c else Word.ones)

/-- A stall for a refill ends: counted, four core cycles in a tick (R164). -/
def State.endStall (s : State) : State :=
  match s.cope.refill with
  | none => s
  | some _ =>
    let n := 4 * (s.frm.tb.toNat - s.cope.stallSince.toNat)
    let s := (s.addCounter .cop 0x4C n).addCounter .drg 0x4C n
    { s with cope := { s.cope with refill := none }, drag := { s.drag with refill := none } }

/-- ENTRIES_LAST and ENTRIES_MAX take the entries of a frame: as its last entry is compared, or as its evaluation is cut short (R172). -/
def State.countEntries (s : State) : State :=
  { (s.setCounter .cmp 0x44 s.prog.entries).maxCounter .cmp 0x48 s.prog.entries with prog := { s.prog with counted := true } }

/-- The entries of an evaluated frame that ends. -/
def State.cutFrame (s : State) : State := if s.frm.running && s.prog.evalFrame && !s.prog.counted then s.countEntries else s

/-- A channel whose frame is cut off runs no program (R165). -/
def Chan.cutOff (c : Chan) : Chan := if c.mode == .evaluating || c.mode == .inHandler then { c with mode := .idle } else c

/-- What the stop of boundaries cuts off (R39). -/
def State.cutNow (s : State) : Cut :=
  if s.frm.running then
    { s.cut with time := some s.frm.tb, prog := { s.prog with evalFrame := s.prog.evalFrame && s.evaluates }, state := s.dev.state
                 lastBnd := s.frm.lastBnd, stopFirst := s.dev.stopFirst }
  else s.cut

/-- Boundaries and the wheel stop: the frame ends, pending observations are discarded (R85, R100, R389). -/
def State.stopBoundaries (s : State) : State :=
  let cut := s.cutNow
  let s := s.cutFrame.addCounter .pwl 0x4C s.pendingObs
  { s with
    frm := { s.frm with running := false, phase := 0, frameOut := false }
    prog := {}
    cut := cut
    cope := s.cope.cutOff
    drag := s.drag.cutOff
    pwl := { s.pwl with running := false, dark := none, window := none }
    comps := s.comps.map fun c => { c with missPend := false, forPend := none, held := none, judged := false, seen := false
                                           foreignOne := false, foreignZero := false
                                           xAt := if c.held.getD c.level == c.level then c.xAt else s.frm.tb }
    outs := s.outs.map fun u => { u with missPendC := false, missPendD := false, forPend := none, judged := false
                                         foreignOn := false, foreignHit := false } }

/-- The crucible patrol keeps its position across these states (R405). -/
def DevState.patrols : DevState → Bool
  | .verify => true
  | .run => true
  | .safe => true
  | .commission => true
  | _ => false

/-- Boundaries may exist in these states (R85). -/
def DevState.hasBoundaries : DevState → Bool
  | .run => true
  | .safe => true
  | .commission => true
  | _ => false

/-- Accesses that an urgent patrol held go on as it gives its segment back (R468, R505). -/
def State.releaseHeld (s : State) : State :=
  { s with
    hps := s.hps.map fun (p : Hp) => { p with txns := p.txns.map fun (t : Txn) => { t with held := false } }
    ctxs := s.ctxs.map fun (x : Ctx) => { x with waits := false }
    img := { s.img with waits := false } }

/-- STATE changes: history, event bit, log entry (none for OFF, R564), and GLOBAL. Boundaries stop on entry to a state without them (R85). -/
def State.changeState (s : State) (st : DevState) (page : BitVec 12 := 0) (key : Option LogKey := none) : State :=
  let old := s.dev.state
  let s := if st.hasBoundaries then s else s.stopBoundaries
  let s := { s with dev := { s.dev with state := st, prev := old, stateTime := s.frm.tb, stateChg := true
                                        safeFrames := false }
                    crb := if !st.patrols then { s.crb with pos := 0 } else if old.patrols then s.crb else { s.crb with passStart := s.frm.tb }
                    spc := if st.patrols || st == DevState.load then
                        (if old.patrols || old == DevState.load then s.spc else { s.spc with passStart := s.frm.tb })
                      else { s.spc with borrowed := false, waiting := false } }
  let s := if st.patrols || st == DevState.load then s else s.releaseHeld
  let s := if st == DevState.off then s else s.log 3 st.code page 0 (BitVec.ofNat 8 old.code) key
  (s.mark .dev 0x120 0).updateTrips

/-- The entry of a change of STATE that the present cycle has queued. -/
def State.isStateEntry (s : State) (it : LogItem) : Bool :=
  it.time == s.frm.tb && it.w0.extractLsb' 12 4 == (3 : BitVec 4) && it.w0.extractLsb' 0 6 == BitVec.ofNat 6 s.dev.state.code

/-- SAFE or SHAKEOUT was entered in the present cycle by a trigger that now loses against a higher one (R39): STATE is what it was
before, and the entry of that change leaves the log's queue (DEDUCED, log 95). -/
def State.takeBack (s : State) : State :=
  if (s.dev.state == .safe || s.dev.state == .shakeout) && s.dev.stateTime == s.frm.tb then
    { s with dev := { s.dev with state := s.dev.prev }
             evl := { s.evl with queue := s.evl.queue.filter fun it => !s.isStateEntry it } }
  else s

/-- START was entered by CHIP_RESET in the present cycle: SHAKEOUT and SAFE lose against it (R39). -/
def State.justReset (s : State) : Bool := s.dev.state == .start && s.dev.stateTime == s.frm.tb && s.dev.startCause == 4

/-- Entry to LOAD: LOCKED and NOHAND clear, draining handovers are cancelled, the crucible is not valid (R55, R75, R439). -/
def State.enterLoad (s : State) (page : BitVec 12 := 0) : State :=
  let s := s.changeState .load page
  { s with
    crb := { s.crb with valid := false }
    hdrs := s.hdrs.map fun h => { h with own := { h.own with locked := false, nohand := false, draining := false, pending := false
                                                             byAssign := false
                                                             result := if h.own.draining then 4 else h.own.result } } }

/-! Transactions (R459, R461, R470). -/

/-- The payload words of a response that carries no data: READ and CHALLENGE answer zeros, the others nothing (R459). -/
def Txn.zeros (t : Txn) : List Word :=
  if t.op == 1 then List.replicate t.len 0 else if t.op == 4 then List.replicate 4 0 else []

/-- A transaction's response becomes ready (R459). -/
def Txn.finish (t : Txn) (status : Byte) (words : List Word) (tb : Time) (order : Nat) : Txn :=
  { t with
    order := order
    resp := some { op := t.op, stream := t.stream, tag := t.tag, reqSeq := t.seq, teTime := tb.setWidth 24, status := status
                   words := words } }

/-- Aborts in acceptance order: of each stream the first transaction selected gets ABORTED, every later one ORDER_ABORT (R470). -/
def abortList (sel : Txn → Bool) (tb : Time) (order : Nat) (hit : BitVec 4) : List Txn → List Txn × Nat
  | [] => ([], 0)
  | t :: ts =>
    if t.resp.isSome then
      let r := abortList sel tb order hit ts
      (t :: r.1, r.2)
    else if hit.getLsbD t.stream.toNat then
      let r := abortList sel tb (order + 1) hit ts
      (t.finish 0x0B t.zeros tb order :: r.1, r.2 + 1)
    else if sel t then
      let r := abortList sel tb (order + 1) (putBit hit t.stream.toNat true) ts
      (t.finish 0x0A t.zeros tb order :: r.1, r.2 + 1)
    else
      let r := abortList sel tb order hit ts
      (t :: r.1, r.2)

/-- AUTH cells that have not taken effect. -/
def waitingAuths (l : List Txn) : Nat := (l.filter fun t => t.op == 5 && t.resp.isNone).length

/-- Aborts the transactions of port n that sel selects; the ABORTS counter counts their responses (R472). An AUTH that is aborted has ended,
and the nonce with it (R462). -/
def State.abortPort (s : State) (n : Nat) (sel : Txn → Bool) : State :=
  let p := s.hp n
  let r := abortList sel s.frm.tb p.readyCount 0 p.txns
  let s := s.updHp n fun p =>
    { p with txns := r.1, readyCount := p.readyCount + r.2
             nonce := if waitingAuths r.1 < waitingAuths p.txns then none else p.nonce }
  s.addCounter (hpOf n) 0x50 r.2

/-- Aborts the transactions of every port that sel selects (R470, fence of another unit). -/
def State.abortAll (s : State) (sel : Txn → Bool) : State :=
  (((s.abortPort 0 sel).abortPort 1 sel).abortPort 2 sel).abortPort 3 sel

/-- A READ or WRITE that addresses one of the given pages. -/
def State.onPages (s : State) (l : List Nat) (t : Txn) : Bool := (t.op == 1 || t.op == 2) && l.contains (s.pageNo t.addr)

/-- The pages of a scratchpad bank: SPBk and its data window (R41). -/
def bankPages (k : Nat) : List Nat := (0x40 + k) :: (List.range 8).map (0x400 + 8 * k + ·)

/-- A port's block reset: its transactions abort, its session ends, its permit word is 0 (R463, R465, R470). -/
def State.resetPort (s : State) (n : Nat) : State :=
  (s.abortPort n fun _ => true).updHp n fun p =>
    { p with resetting := true, session := none, nonce := none, permitStaged := 0, permitLo := 0, permitHi := 0 }

/-! Consequence sets (R552, R355). -/

/-- The local inputs of bank e in mode OWN whose SOURCE lies in bank b. -/
def State.fedBy (s : State) (b e : Nat) : List Nat :=
  (List.range 14).filter fun k =>
    let i := inputOf e k
    s.tripMode i == 1 && bankOfSlot (s.tripSource i).toNat == b

/-- The outputs of bank e paired with an output of bank b. -/
def State.pairedWith (s : State) (b e : Nat) : List Nat :=
  (List.range 6).filter fun k => match s.partner (outputOf e k) with
    | some q => bankOfOutput q == b
    | none => false

/-- The other banks. -/
def otherBanks (b : Nat) : List Nat := (List.range 8).filter (· != b)

/-- The consequence set of the fence of I/O bank b (R552). -/
def State.bankSet (s : State) (b : Nat) : List (Page × Word × Option (List Nat)) :=
  [(fobOf b, 0x368, none), (.trp, 0xA, some [b])]
    ++ (otherBanks b).map (fun e => (fobOf e, 0x200, some (s.pairedWith b e)))
    ++ (otherBanks b).map (fun e => (fibOf e, 0x11, some (s.fedBy b e)))

/-- The consequence set of the fence of field die d (R552). -/
def State.dieSet (s : State) (d : Nat) : List (Page × Word × Option (List Nat)) :=
  ((List.range 4).map (4 * d + ·)).flatMap s.bankSet
    ++ [(barOf d, 0x3F, none), (.trp, 0x14, some ((List.range 4).map (4 * d + ·)))]

/-- The local inputs of bank e whose SOURCE is a safety output. -/
def State.fedBySo (s : State) (e : Nat) : List Nat :=
  (List.range 14).filter fun k =>
    let i := inputOf e k
    s.tripMode i == 1 && decide (16 ≤ (s.tripSource i).toNat)

/-- The consequence set of SAFE_STOP (R552). -/
def State.safeSet (s : State) : List (Page × Word × Option (List Nat)) :=
  (List.range 8).map (fun b => (fobOf b, 0x268, none)) ++ (List.range 8).map (fun b => (fibOf b, 0x1, some (s.fedBySo b)))
    ++ [(.trp, 0x10, none)]

/-- The consequence set of FV_SAG or FV_HIGH on bank b (R355). -/
def State.fvSet (s : State) (b : Nat) : List (Page × Word × Option (List Nat)) :=
  [(fobOf b, 0x328, none)] ++ (otherBanks b).map (fun e => (fobOf e, 0x200, some (s.pairedWith b e)))
    ++ (List.range 8).map (fun e => (fibOf e, 0x11, some (s.fedBy b e)))

/-- The contexts whose running job reads bank k. -/
def State.jobsOn (s : State) (k : Nat) : List Nat :=
  (List.range 6).filter fun c => (s.ctx c).busy && (s.ctx c).jobBank.toNat == k

/-- A staged reload is reading bank k (R431). -/
def State.staging (s : State) (k : Nat) : Bool :=
  s.img.phase == .copying && s.img.source == 4 && decide (s.img.staged ≤ k ∧ k * 32768 < s.img.staged * 32768 + s.img.stagedLen)

/-- The consequence set of a block reset or fence of scratchpad bank k (R552). -/
def State.spbSet (s : State) (k : Nat) : List (Page × Word × Option (List Nat)) :=
  [(.chk, 0x3F00, some (s.jobsOn k))] ++ (if s.staging k then [(.img, 0x2, none)] else [])

/-- Opens a shadow (R549). -/
def State.openShadow (s : State) (sets : List (Page × Word × Option (List Nat))) (origin : Page) (serial : Nat) : State :=
  { s with shadows := s.shadows ++ [{ sets := sets, origin := origin, serial := serial, opened := s.frm.tb }] }

/-- The shadow's set holds cause c of page p at unit u. -/
def Shadow.has (sh : Shadow) (p : Page) (c : Nat) (u : Option Nat) : Bool :=
  sh.sets.any fun x => x.1 == p && x.2.1.getLsbD c && match x.2.2 with
    | none => true
    | some l => l.contains (u.getD 0)

/-! What an event does (R536 to R553). -/

/-- An event: its page, cause bit, unit (a local input or output, a pulse source, a context; for TRP the bank of its location). -/
structure Ev where
  page : Page
  cause : Nat
  unit : Option Nat := none
  /-- It arises from a reaction of the same command, after that reaction took effect. -/
  after : Bool := false
  /-- The reaction is fixed, whatever the page's registers hold (R619). -/
  fixed : Option (BitVec 4) := none

/-- Latches a cause: on its unit where the page keeps it per unit (R324, R350, R393), else in the header. -/
def State.setLatch (s : State) (e : Ev) : State :=
  let s := match e.page, e.unit with
    | .fib _, some k => s.mark e.page (0x140 + 4 * k) e.cause
    | .fob _, some k => s.mark e.page (0x140 + 4 * k) e.cause
    | .pwl, some k => s.mark e.page (0x500 + 4 * k) e.cause
    | p, _ => s.mark p 0x14 e.cause
  match e.page, e.unit with
  | .fib b, some k => s.updInp (inputOf b k) fun x => { x with latch := x.latch ||| bitMask 5 e.cause }
  | .fob b, some k => s.updOut (outputOf b k) fun x => { x with latch := x.latch ||| bitMask 10 e.cause }
  | .pwl, some k => s.updPulse k fun x => { x with latch := x.latch ||| bitMask 3 e.cause }
  | p, _ => s.updHdr p fun h => { h with latch := h.latch ||| bitMask 32 e.cause }

/-- The first shadow, in the order of the reactions, in whose set the event lies (R549, R553). -/
def State.shadowFor (s : State) (e : Ev) : Option Shadow :=
  s.shadows.find? fun sh => sh.has e.page e.cause e.unit && (e.after || decide (sh.opened.toNat < s.frm.tb.toNat))

/-- A reaction part that turns an output off or moves toward SAFE (R551). -/
def turnsOff (p : Page) (r : BitVec 4) : Bool :=
  match (r &&& 7).toNat, p with
  | 5, _ => true
  | 6, _ => true
  | 4, .fib _ => true
  | 4, .fob _ => true
  | 4, .pwl => true
  | 4, .bar _ => true
  | _, _ => false

/-- The entry slots of an incident: seven single entries, then one OVERFLOW entry, which shows the latest event's ORIGIN_PAGE too (R68, R69;
DESIGN CHOICE, log 73). -/
def History.add (h : History) (n : Nat) (e : HistEntry) : History :=
  if n < 7 then
    { h with entries := h.entries.set h.next { e with seq := h.seq }, next := (h.next + 1) % 8, seq := h.seq + 1
             overflowSlot := none }
  else match h.overflowSlot with
    | none =>
      { entries := h.entries.set h.next { e with overflow := true, lost := 1, seq := h.seq }, next := (h.next + 1) % 8
        seq := h.seq + 1, overflowSlot := some h.next }
    | some k =>
      let o := h.entries.getD k {}
      { h with entries := h.entries.set k { e with overflow := true, lost := satInc o.lost, seq := o.seq
                                                   merged := o.merged, conseq := o.conseq || e.conseq
                                                   reaction := moreSevere o.reaction e.reaction } }

/-- The incident after an event of a class, with the event's reaction r and the reaction taken (R544, R545, R550). -/
def Incident.event (i : Incident) (cls : BitVec 2) (r : BitVec 4) : Incident :=
  if i.isOpen then
    { i with mergeCount := satInc i.mergeCount, severity := if i.severity.toNat < cls.toNat then cls else i.severity
             reaction := combine i.reaction r, events := i.events + 1 }
  else { isOpen := true, mergeCount := 0, severity := cls, conseq := false, reaction := r, events := 1, serial := i.serial + 1 }

/-- The reaction register that an event takes, by the count it brings the window to (R538). -/
def Hdr.classify (h : Hdr) : BitVec 2 × BitVec 4 :=
  if h.inWindow.toNat + 1 < h.fltN.toNat then (1, h.reactMinor) else (2, h.reactSevere)

/-- A reaction that keeps a shakeout record from passing: ERR, or an ACTION of 4 or more (R578). -/
def grave (r : BitVec 4) : Bool := r.getLsbD 3 || decide (4 ≤ (r &&& 7).toNat)

/-- The reaction an event would take by itself (R538, R539): CFG_ERR of PWL takes a FENCE as SAFE_STOP. -/
def Hdr.ownReaction (h : Hdr) (e : Ev) : BitVec 4 :=
  let r := e.fixed.getD h.classify.2
  if e.page == .pwl && e.cause == 8 && r &&& 7 == 4 then (r &&& 8) ||| 5 else r

/-- A cause of the set of R355 on FOBb, while the incident stands open in which FV_SAG or FV_HIGH latched in an earlier cycle, whether or not
their latch bits have been cleared. Once the shadow has ended the event is a new one by R549: its HIST and log entries carry CONSEQUENTIAL, and
its class, its count in IN_WINDOW and its reaction are its own (DESIGN CHOICE, log 100). -/
def State.fvConsequent (s : State) (e : Ev) : Bool :=
  match e.page with
  | .fob b =>
    (0x328#32).getLsbD e.cause && (s.hdr e.page).incident.isOpen && match (s.outBank b).fvIncident with
      | some (n, t) => n == (s.hdr e.page).incident.serial && decide (t.toNat < s.frm.tb.toNat)
      | none => false
  | _ => false

/-- The incident of FOBb in which FV_SAG or FV_HIGH has latched, with the cycle of the first of them (R355). -/
def State.noteFv (s : State) (e : Ev) : State :=
  match e.page with
  | .fob b =>
    if e.cause == 16 || e.cause == 17 then
      let n := (s.hdr e.page).incident.serial
      s.updOutBank b fun x => { x with fvIncident := match x.fvIncident with
        | some (m, t) => if m == n then some (m, t) else some (n, s.frm.tb)
        | none => some (n, s.frm.tb) }
    else s
  | _ => s

/-- The switch of PUBLISH of this very cycle is undone: a channel cause of the cycle that ends at COMMIT_AT keeps FBS and the PUB registers
(R93, R157). -/
def State.unpublish (s : State) : State :=
  match s.prog.replaced with
  | none => s
  | some (m, (crc, frame, words), l) =>
    { s with
      fbs := m, chk := { s.chk with pubCrc := crc, pubFrame := frame, pubWords := words }
      spbs := s.spbs.mapIdx fun k (b : Spb) => { b with pubFrame := l.getD k b.pubFrame }
      prog := { s.prog with replaced := none } }

/-- A cause of R154 or R155 latches while boundaries run: the frame's first one is noted; in the cycle of COMMIT_AT, in whichever order, the
full strobe becomes off-only and the frame is not published (R93, R157). -/
def State.channelCause (s : State) : State :=
  let s := if s.prog.channelCauseAt.isNone then { s with prog := { s.prog with channelCauseAt := some s.frm.tb } } else s
  if s.prog.decidedAt == some s.frm.tb then
    let s := s.unpublish
    if s.prog.strobe == .full then { s with prog := { s.prog with strobe := .offOnly }, frm := { s.frm with result := 2 } } else s
  else s

/-- The first-fault record after an event: written as the incident opens; a further cause of that cycle joins FIRST_CAUSE (R65, R544). -/
def Hdr.firstAfter (h : Hdr) (c : Nat) (tb : Time) (frame : Word) : FirstFault :=
  if !h.incident.isOpen then { cause := bitMask 32 c, time := tb, frame := frame }
  else if h.first.time == tb then { h.first with cause := h.first.cause ||| bitMask 32 c }
  else h.first

/-- Records an enabled event: latch, counts, incident, history, log. Answers the reaction it takes (0 for none) and the origin:
the page whose reaction the event follows, and the incident that took that reaction (R544, R545, R548 to R551, R553). -/
def State.record (s : State) (e : Ev) : State × BitVec 4 × Page × Nat :=
  let p := e.page
  let h := s.hdr p
  let sh := s.shadowFor e
  let cl := h.classify
  let r := h.ownReaction e
  let wasOpen := h.incident.isOpen
  let cls : BitVec 2 := if sh.isSome then 0 else cl.1
  let taken : BitVec 4 :=
    if sh.isSome then (if turnsOff p r then r else 0)
    else if wasOpen && decide ((r &&& 7).toNat ≤ (h.incident.reaction &&& 7).toNat) then 0 else r
  let origin : Page := (sh.map (·.origin)).getD p
  let inc := h.incident.event cls (if sh.isSome then taken else r)
  let serial := (sh.map (·.serial)).getD inc.serial
  let conseq := sh.isSome || s.fvConsequent e
  let shown := if sh.isSome then taken else r
  let s := s.setLatch e
  let s := s.updHdr p fun h =>
    { h with
      total := satInc h.total
      inWindow := if sh.isSome then h.inWindow else satInc h.inWindow
      windowOpen := h.windowOpen || sh.isNone
      incident := inc
      first := h.firstAfter e.cause s.frm.tb s.frm.frameNum
      hist := (if wasOpen then h.hist else { h.hist with overflowSlot := none }).add (inc.events - 1)
        { valid := true, merged := wasOpen, conseq := conseq, reaction := shown, origin := origin.num12
          cause := BitVec.ofNat 5 e.cause, frame := s.frm.frameNum, timeLo := s.frm.tb.setWidth 32 } }
  let s := if origin == p then s else s.updHdr origin fun h =>
    if h.incident.isOpen && h.incident.serial == serial then
      { h with incident := { h.incident with mergeCount := satInc h.incident.mergeCount, conseq := true } } else h
  let unit : Nat := match p, e.unit with
    | .trp, _ => 0
    | _, some k => k + 1
    | _, none => 0
  let w := logWords 1 shown.toNat ((if wasOpen then 2 else 0) + (if conseq then 1 else 0)) e.cause p.num12 origin.num12
    (BitVec.ofNat 8 (unit * 8 + cls.toNat))
  let s := s.logPush { time := s.frm.tb, page := p.num12, code := BitVec.ofNat 5 e.cause, group := 0, w0 := w.1, w1 := w.2 }
  let s := s.noteFv e
  let s := if (p == .cop || p == .drg || p == .cmp) && s.frm.running then s.channelCause else s
  let s := if s.dev.state == .shakeout && s.dev.stateTime == s.frm.tb && s.bst.testing && grave inc.reaction then
    { s with dev := { s.dev with shakeFault := true } } else s
  (s, taken, origin, serial)

/-! Reactions (R539, R554 to R562). -/

/-- The number of a page's subsystem (R20). -/
def subsystem : Page → Nat
  | .hp _ => 1
  | .own => 2
  | .crb => 3
  | .img => 3
  | .spb _ => 4
  | .spc => 4
  | .cop => 5
  | .drg => 6
  | .cmp => 7
  | .frm => 8
  | .trp => 9
  | .bar _ => 10
  | .fib _ => 11
  | .fob _ => 12
  | .pwl => 13
  | .chk => 14
  | .bst => 15
  | _ => 16

/-- A TRAP reaction: the subsystem's bit in TRAP_PEND of both channels (R149). -/
def State.trapPending (s : State) (p : Page) : State :=
  let set := fun (c : Chan) => { c with trapPend := c.trapPend ||| bitMask 16 (subsystem p - 1) }
  { s with cope := set s.cope, drag := set s.drag }

/-- The causes of R36: COP, DRG, CMP and CLK causes, UNCORR on CRB, STARTUP_FAIL, and SECRET_FAIL that latches in START. -/
def State.isR36 (s : State) (p : Page) (c : Nat) : Bool :=
  match p with
  | .cop => true
  | .drg => true
  | .cmp => true
  | .clk => true
  | .crb => c == 0
  | .bst => c == 2 || (c == 1 && s.dev.state == .start)
  | _ => false

/-- The stop trap: both channels become TRAPPED, the comparators accept no entries (R153). -/
def State.stopTrap (s : State) : State :=
  let stop := fun (c : Chan) => if c.mode == .trapped then c else { c with mode := .trapped, stopPc := c.pc, lockstep := false }
  let s := s.endStall
  { s with cope := stop s.cope, drag := stop s.drag, cmp := { s.cmp with active := false } }

/-- SAFE_STOP by STATE (R36, R153, R560): in COMMISSION STATE stays, and a cause of R36 takes the stop trap but for a debug halt, which
stops the channels as R161 says. -/
def State.safeStop (s : State) (p : Page) (c : Nat) : State :=
  let key := some (reactionKey p c)
  let r36 := s.isR36 p c
  match s.dev.state with
  | .start =>
    let s := s.changeState .safe p.num12 key
    { s.stopTrap with dev := { s.dev with safeR36 := true } }
  | .run =>
    let s := s.changeState .safe p.num12 key
    let s := { s with dev := { s.dev with safeR36 := r36 } }
    if r36 then s.stopTrap else s
  | .safe => if r36 then { s.stopTrap with dev := { s.dev with safeR36 := true } } else s
  | .commission => if r36 && !((p == .cop || p == .drg) && c == 4) then s.stopTrap else s
  | _ => s

/-- A SAFE_STOP reaction is taken in the present cycle (R88, R432). -/
def State.stopTaken (s : State) : State :=
  let first := match s.dev.stopFirst with
    | some t => if s.frm.lastBnd.toNat ≤ t.toNat then some t else some s.frm.tb
    | none => some s.frm.tb
  { s with dev := { s.dev with stopTime := some s.frm.tb, stopFirst := first } }

/-- The pages of the fenced units, with the context of CHK (R564, R565). -/
def State.fences (s : State) : List (BitVec 12 × BitVec 12) :=
  ((List.range 8).filter fun b => (s.inBank b).fenced).map (fun b => ((fibOf b).num12, 0))
    ++ ((List.range 2).filter fun d => (s.bar d).fenced).map (fun d => ((barOf d).num12, 0))
    ++ ((List.range 16).filter fun k => (s.spb k).fenced).map (fun k => ((spbOf k).num12, 0))
    ++ ((List.range 4).filter fun n => (s.hp n).fenced).map (fun n => ((hpOf n).num12, 0))
    ++ ((List.range 8).filter fun c => (s.ctx c).fenced).map (fun c => (Page.chk.num12, BitVec.ofNat 12 c))

/-- Some unit is fenced or marked unusable (R578). -/
def State.degraded (s : State) : Bool :=
  !s.fences.isEmpty || s.inBanks.any (·.unusable) || s.bars.any (·.unusable) || s.spbs.any (·.unusable) || s.hps.any (·.unusable)
    || s.ctxs.any (·.unusable)

/-- The fences that a START ends: all but that of a scratchpad bank marked unusable (R500, R558). -/
def State.endingFences (s : State) : List (BitVec 12 × BitVec 12) :=
  s.fences.filter fun f => !((List.range 16).any fun k => (spbOf k).num12 == f.1 && (s.spb k).unusable)

/-- A scratchpad bank as START takes it: a marked one stays fenced and OFF (R500). -/
def Spb.started (b : Spb) : Spb :=
  if b.unusable then { risers := b.risers, unusable := true, fenced := true, power := .off, left := true }
  else { mem := b.mem, risers := b.risers }

/-- START begins: every part takes its reset values but what the device keeps: its identity and keys, the levels and supplies,
the flash, the event log, the marks of unusable units (R569, R586), the data of the crucible and of the channels' memories (log 4),
and what the field dies hold of the last ingot (log 12). Every other fence ends (R558). What the senses last showed stays: the levels, and with
them OUTk_CUR and OUTk_TEMP, which measure on (DESIGN CHOICE, log 101). -/
def State.enterStart (s : State) (cause : BitVec 4) (page : BitVec 12) (code : BitVec 5) (key : Option LogKey := none) : State :=
  let r := State.reset
  let t := { r with
    ident := s.ident
    otp := s.otp
    dev := { r.dev with
      state := .start, prev := s.dev.state, stateTime := s.frm.tb, startCause := cause, startPage := page
      startCode := code, straps := s.dev.straps, pinsNow := s.dev.pinsNow, resetN := s.dev.resetN, startStep := 1
      wasCommission := s.dev.wasCommission, errDiff := s.dev.errDiff }
    clk := { locked := s.clk.locked, refOk := s.clk.refOk }
    sup := { s.sup with events := 0, irqEn := 0, pfHold := !s.sup.pfClear, vCoreIo := 0, vHostBar := 0, iCore := 0 }
    frm := { r.frm with tb := s.frm.tb, tbD := s.frm.tbD }
    hdrs := ((r.hdrs.set 0
      { resetHdr .dev with counters := upd (s.hdr .dev).counters 0 satInc, live := flag (s.dev.errDiff != 0) 0 }).set 1
      { resetHdr .clk with live := flag (!s.clk.refOk) 0 ||| flag (!s.clk.locked) 1 }).set 2
      { resetHdr .sup with live := s.sup.ovLive.setWidth 32 }
    cope := { r.cope with lsm := s.cope.lsm, icache := s.cope.icache, kcache := s.cope.kcache, regGen := s.cope.regGen }
    drag := { r.drag with lsm := s.drag.lsm, icache := s.drag.icache, kcache := s.drag.kcache, regGen := s.drag.regGen }
    comps := s.comps.map fun c => { level := c.level, y := c.y, lastChange := c.lastChange, before := c.before, xAt := c.xAt }
    inBanks := s.inBanks.map fun b => { unusable := b.unusable }
    outs := s.outs.mapIdx fun o u => { cfg := if o < 48 then 0 else 0x08000000, held := u.held, sense := u.sense }
    bars := s.bars.map fun b => { chill := true, powered := b.powered, unusable := b.unusable, held := b.held }
    ps := s.ps.map fun p => { sense := p.sense }
    crb := { mem := s.crb.mem }
    img := { due := if s.dev.state == .off then none else s.img.due }
    flash := s.flash
    hps := s.hps.map fun p => { unusable := p.unusable }
    spbs := s.spbs.map Spb.started
    ctxs := s.ctxs.mapIdx fun c x => { cfg := if c = 6 then 0x10 else 0, unusable := x.unusable }
    evl := s.evl
    jtag := s.jtag
    cut := s.cut
    free := s.free
    pending := s.pending }
  s.endingFences.foldl (fun t f => t.log 5 1 f.1 f.2 0 key) t

/-- OTP_ERR latches at START where the stored check of a programmed key fails (R479). -/
def State.otpFails (s : State) : Bool := (s.otp.sess.isSome && s.otp.sessBad) || (s.otp.img.isSome && s.otp.imgBad)

/-- The OTP_ERR event of START (R479). -/
def State.otpEvent (s : State) : State :=
  let r := s.record { page := .own, cause := 0 }
  if turnsOff .own r.2.1 then (r.1.safeStop .own 0).openShadow s.safeSet .own r.2.2.2 else r.1

/-- Step 1 of START ends once PWR_FAIL_N has been high for 1 ms and the PLL is locked (R615, R618). -/
def State.step1End (s : State) : State :=
  if s.dev.state == .start && s.dev.startStep == 1 && !s.sup.pfHold && s.clk.locked then
    let s := { s with dev := { s.dev with startStep := 2 } }
    if s.otpFails then s.otpEvent else s
  else s

/-- CHIP_RESET acts as SAFE_STOP: in COMMISSION and SHAKEOUT (R562), but for a SHAKEOUT entered in the same cycle (R39). -/
def State.resetStops (s : State) : Bool :=
  s.dev.state == .commission || (s.dev.state == .shakeout && s.dev.stateTime != s.frm.tb)

/-- CHIP_RESET: acts as SAFE_STOP in COMMISSION and SHAKEOUT, else every port is reset, its responses kept, and STATE moves to
START (R470, R562); a second one of the same cycle does nothing more (R39). -/
def State.chipReset (s : State) (p : Page) (c : Nat) : State :=
  if s.dev.state == .off || s.justReset then s
  else if s.resetStops then s.safeStop p c
  else
    let s := s.takeBack.stopBoundaries
    let s := s.abortAll fun _ => true
    let s := s.log 3 1 p.num12 0 (BitVec.ofNat 8 s.dev.state.code) (some (reactionKey p c))
    let t := s.enterStart 4 p.num12 (BitVec.ofNat 5 c) (some (reactionKey p c))
    let t := { t with cut := { s.cut with hdrs := s.hdrs, shadows := s.shadows }, hps := s.hps.map fun (p : Hp) =>
      { unusable := p.unusable, resetting := true, expSeq := p.expSeq, txns := p.txns, readyCount := p.readyCount
        lastFetched := p.lastFetched, ack := p.ack, response := p.response } }
    t.updateTrips.step1End

/-- The reactions without a unit: SAFE_STOP and CHIP_RESET, with their shadows (R549, R552). After a CHIP_RESET of the same cycle a SAFE_STOP
moves nothing (R39); of the incident that took CHIP_RESET no page keeps anything, so no event meets its serial (R550). -/
def State.reactStop (s : State) (p : Page) (c : Nat) (taken : BitVec 4) (origin : Page) (serial : Nat) : State :=
  match (taken &&& 7).toNat with
  | 5 => (if s.justReset then s else s.stopTaken.safeStop p c).openShadow s.safeSet origin serial
  | 6 =>
    if s.resetStops then (s.stopTaken.safeStop p c).openShadow s.safeSet origin serial
    else (s.chipReset p c).openShadow (allPages.map fun q => (q, Word.ones, none)) origin 0
  | _ => s

/-- FENCED INPUT, BANK and the rest of a bank's fence follow from the mark; its transactions abort, the log takes the start (R554, R564). -/
def State.fenceBank (s : State) (b : Nat) (key : Option LogKey) : State :=
  let s := s.updInBank b fun x => { x with fenced := true }
  let s := s.log 5 0 (fibOf b).num12 0 0 key
  (s.abortAll (s.onPages [(fibOf b).number, (fobOf b).number])).updateTrips

/-- The fence of a field die: its four banks and its link, one unit (R19, R554, R555). -/
def State.fenceDie (s : State) (d : Nat) (key : Option LogKey) : State :=
  let s := s.updBar d fun x => { x with fenced := true, frozen := s.dieHeaders d }
  let s := s.log 5 0 (barOf d).num12 0 0 key
  let pages := (barOf d).number :: (List.range 4).flatMap fun j => [(fibOf (4 * d + j)).number, (fobOf (4 * d + j)).number]
  (s.abortAll (s.onPages pages)).updateTrips

/-- A handover whose target is port n ends with TARGET_FENCED (R75). -/
def State.targetFenced (s : State) (n : Nat) : State :=
  { s with hdrs := s.hdrs.map fun h =>
      if h.own.draining && h.own.dest == BitVec.ofNat 4 n then
        { h with own := { h.own with draining := false, pending := false, byAssign := false, result := 3 } } else h }

/-- The fence of a host port (R470, R554). -/
def State.fencePort (s : State) (n : Nat) (key : Option LogKey) : State :=
  let s := (s.resetPort n).updHp n fun p => { p with fenced := true }
  (s.log 5 0 (hpOf n).num12 0 0 key).targetFenced n

/-- A job ends with a result; results 2 to 5 are a JOB_ERR event, which the caller raises (R526). -/
def State.endJob (s : State) (c : Nat) (res : BitVec 4) : State :=
  (s.updCtx c fun x => { x with busy := false, retry := false, jobRes := res }).bump .chk 0x44

/-- Jobs that a reaction ends: each ends and its JOB_ERR, consequential, takes at most a stop reaction (R526, R551, R552). -/
def State.endJobs (s : State) (cs : List Nat) (res : BitVec 4) : State :=
  cs.foldl (fun s c =>
    let s := s.endJob c res
    if (s.hdr .chk).enable.getLsbD (8 + c) then
      let r := s.record { page := .chk, cause := 8 + c, unit := some c, after := true }
      if turnsOff .chk r.2.1 then r.1.reactStop .chk (8 + c) r.2.1 r.2.2.1 r.2.2.2 else r.1
    else s) s

/-- The fence of a scratchpad bank: OFF at once, data lost (R501). -/
def State.fenceSpb (s : State) (k : Nat) (key : Option LogKey) : State :=
  let jobs := s.jobsOn k
  let s := s.updSpb k fun b => { b with fenced := true, power := .off, mem := [], left := true }
  let s := s.log 5 0 (spbOf k).num12 0 0 key
  (s.abortAll (s.onPages (bankPages k))).endJobs jobs 3

/-- A block reset of a scratchpad bank: FILLING, then ON, data lost (R559). -/
def State.resetSpb (s : State) (k : Nat) : State :=
  let jobs := s.jobsOn k
  let s := s.updSpb k fun b => { b with power := .filling, req := 0, mem := [], left := true }
  (s.abortAll (s.onPages (bankPages k))).endJobs jobs 3

/-- The addresses of a context: its context block and feed window (R534, R535). -/
def ctxAddr (c : Nat) (t : Txn) : Bool :=
  let lo := t.addr.toNat
  let hi := t.addr.toNat + 4 * t.len
  (t.op == 1 || t.op == 2) && (decide (lo < 0x60200 + 0x40 * c + 0x40 ∧ 0x60200 + 0x40 * c < hi)
    || decide (lo < 0x60800 + 0x100 * c + 0x100 ∧ 0x60800 + 0x100 * c < hi))

/-- The contexts with a latched cause (R530, R539). -/
def State.latchedCtxs (s : State) : List Nat :=
  (List.range 8).filter fun c => (s.hdr .chk).latch &&& (bitMask 32 c ||| bitMask 32 (8 + c) ||| bitMask 32 (16 + c)) != 0

/-- The reset values of a context (R534). -/
def Ctx.cleared (x : Ctx) (c : Nat) : Ctx := { cfg := if c = 6 then 0x10 else 0, unusable := x.unusable }

/-- The fence of check contexts (R530). -/
def State.fenceCtxs (s : State) (cs : List Nat) (key : Option LogKey) : State :=
  let jobs := cs.filter fun c => (s.ctx c).busy
  let s := cs.foldl (fun s c =>
    let s := s.updCtx c fun x => { x with fenced := true }
    let s := s.log 5 0 Page.chk.num12 (BitVec.ofNat 12 c) 0 key
    s.abortAll (ctxAddr c)) s
  s.endJobs jobs 5

/-- A block reset of check contexts (R559). -/
def State.resetCtxs (s : State) (cs : List Nat) : State :=
  let jobs := cs.filter fun c => (s.ctx c).busy
  let s := (cs.foldl (fun s c => s.abortAll (ctxAddr c)) s).endJobs jobs 5
  cs.foldl (fun s c => s.updCtx c fun x => x.cleared c) s

/-- The banks whose pulse sources hold a latched cause (R539). -/
def State.latchedPsBanks (s : State) : List Nat :=
  (List.range 8).filter fun b => (s.pulse (2 * b)).latch != 0 || (s.pulse (2 * b + 1)).latch != 0

/-- A fence of I/O banks, each with its shadow; a fenced bank takes no further effect (R549, R556). -/
def State.reactBanks (s : State) (bs : List Nat) (p : Page) (c : Nat) (origin : Page) (serial : Nat) : State :=
  bs.foldl (fun s b =>
    if s.bankFenced b then s else (s.fenceBank b (some (reactionKey p c))).openShadow (s.bankSet b) origin serial) s

/-- Takes a reaction of cause c of page p (R539). -/
def State.react (s : State) (p : Page) (c : Nat) (taken : BitVec 4) (origin : Page) (serial : Nat) : State :=
  let key := some (reactionKey p c)
  match (taken &&& 7).toNat, p with
  | 2, _ => s.trapPending p
  | 3, .hp n => if (s.hp n).fenced then s else (s.resetPort n).openShadow [(p, 0x66, none)] origin serial
  | 4, .hp n => if (s.hp n).fenced then s else (s.fencePort n key).openShadow [(p, 0x66, none)] origin serial
  | 3, .spb k => if (s.spb k).fenced then s else (s.openShadow (s.spbSet k) origin serial).resetSpb k
  | 4, .spb k => if (s.spb k).fenced then s else (s.openShadow (s.spbSet k) origin serial).fenceSpb k key
  | 3, .chk =>
    let cs := s.latchedCtxs.filter fun c => !(s.ctx c).fenced
    (s.openShadow [(.chk, 0x3F00, some cs)] origin serial).resetCtxs cs
  | 4, .chk =>
    let cs := s.latchedCtxs.filter fun c => !(s.ctx c).fenced
    (s.openShadow [(.chk, 0x3F00, some cs)] origin serial).fenceCtxs cs key
  | 4, .fib b => s.reactBanks [b] p c origin serial
  | 4, .fob b => s.reactBanks [b] p c origin serial
  | 4, .pwl => s.reactBanks s.latchedPsBanks p c origin serial
  | 4, .bar d => if (s.bar d).fenced then s else (s.fenceDie d key).openShadow (s.dieSet d) origin serial
  | 5, _ => s.reactStop p c taken origin serial
  | 6, _ => s.reactStop p c taken origin serial
  | _, _ => s

/-- The core die receives the page's causes: not those of a page that the part has not (R4), nor of the FIB and FOB pages of a fenced
field die (R556). -/
def State.received (s : State) (p : Page) : Bool :=
  s.mapped p && match p with
  | .fib b => !(s.bar (dieOfBank b)).fenced
  | .fob b => !(s.bar (dieOfBank b)).fenced
  | _ => true

/-- In OFF a field die that has its supply goes on latching; no event follows (R357, R611). -/
def State.dieLatch (s : State) (e : Ev) : State :=
  let on := match e.page with
    | .fib b => (s.bar (dieOfBank b)).powered
    | .fob b => (s.bar (dieOfBank b)).powered
    | _ => false
  if on && (s.hdr e.page).enable.getLsbD e.cause then s.setLatch e else s

/-- The cycle in which CHIP_RESET came, before START's later steps. -/
def State.resetCycle (s : State) : Bool := s.justReset && !s.cut.hdrs.isEmpty && decide (s.dev.startStep.toNat ≤ 2)

/-- A fault of the cycle in which CHIP_RESET came: recorded before STATE changed, it stands in the event log, and START has reset its page
(R39). What the pages held before START classifies it. Faults of START itself come in its later steps. -/
def State.lateFault (s : State) (e : Ev) : Bool := s.resetCycle && e.fixed.isNone

/-- The record of such a fault. -/
def State.recordLate (s : State) (e : Ev) : State :=
  let b := { s with hdrs := s.cut.hdrs, shadows := s.cut.shadows }
  if (b.hdr e.page).enable.getLsbD e.cause then
    let r := (b.record e).1
    { s with evl := r.evl, cut := { s.cut with hdrs := r.hdrs } }
  else s

/-- The event of an enabled cause, with its reaction (R537, R544 to R551). A disabled cause gives none. -/
def State.raise (s : State) (e : Ev) : State :=
  if s.dev.state == .off then s.dieLatch e
  else if !s.received e.page then s
  else if s.lateFault e then s.recordLate e
  else if !(s.hdr e.page).enable.getLsbD e.cause then s
  else
    let r := s.record e
    r.1.react e.page e.cause r.2.1 r.2.2.1 r.2.2.2

/-- Sets or clears a live bit of a page (R56). -/
def State.setLive (s : State) (p : Page) (c : Nat) (b : Bool) : State :=
  s.updHdr p fun h => { h with live := putBit h.live c b }

/-- A condition's onset: live, and an event. -/
def State.onset (s : State) (p : Page) (c : Nat) : State := (s.setLive p c true).raise { page := p, cause := c }

/-- JOB_ERR of a job that ends by itself (R526). -/
def State.failJob (s : State) (c : Nat) (res : BitVec 4) : State :=
  (s.endJob c res).raise { page := .chk, cause := 8 + c, unit := some c }

end Sys2Proof.Machine
end

