-- ==== Sys2Proof/Machine/Patrol.lean ====
section
/-! DEFINITION. The patrols of the crucible and of the scratchpad, and the aging of waiters (11 R404, R405; 13 R502 to R506; 17 R608). -/

namespace Sys2Proof.Machine

/-! The crucible (R404, R405, R438). -/

/-- The lower of a noted sector and that of a double-word. -/
def lowerSector (o : Option (BitVec 8)) (line : BitVec 17) : Option (BitVec 8) :=
  let j : BitVec 8 := line.extractLsb' 9 8
  some (match o with
    | some i => if i.toNat < j.toNat then i else j
    | none => j)

/-- The ingot is being checked (R436, R444). -/
def LoadPhase.checks (p : LoadPhase) : Bool := p == .verifying || p == .distributing

/-- A multi-bit error fails VERIFY: in LOAD or VERIFY, and while COMMISSION checks an ingot "exactly as in VERIFY" (R404, R436). -/
def State.failsVerify (s : State) : Bool :=
  s.dev.state == .load || s.dev.state == .verify || (s.dev.state == .commission && s.img.phase.checks)

/-- A crucible ECC error met by a read of the double-word: recorded, corrected and counted, or UNCORR; in LOAD and VERIFY it fails the check
(R404, R435). -/
def State.crucibleError (s : State) (line : BitVec 17) (e : EccErr) : State :=
  let s := { s with crb := { s.crb with
    eccAddr := flag true 31 ||| flag e.uncorr 30 ||| flag (!e.uncorr && e.checkBit) 29 ||| BitVec.ofNat 32 (8 * line.toNat) } }
  let s := if e.uncorr && s.failsVerify then
    { s with img := { s.img with eccSector := lowerSector s.img.eccSector line } } else s
  if !e.uncorr then s.bump .crb 0x44
  else if s.dev.state == .run || s.dev.state == .safe || s.dev.state == .commission then s.raise { page := .crb, cause := 0 }
  else s

/-- A full crucible pass has ended: counted, timed, PATROL_LATE past 10 ms (R405, R438). -/
def State.cruciblePass (s : State) : State :=
  let ticks := s.frm.tb.toNat - s.crb.passStart.toNat
  let s := { s with crb := { s.crb with passStart := s.frm.tb } }
  let s := (s.bump .crb 0x48).setCounter .crb 0x50 (satWord (ticks / 100))
  if 1000000 < ticks then s.raise { page := .crb, cause := 1 } else s

/-- CRUCIBLE_PATROL_READ. No effect in a state in which the patrol does not run. -/
def doCruciblePatrolRead (ecc : Option EccErr) (s : State) : State :=
  if s.cruciblePatrolOn then
    let pos := s.crb.pos
    let s := { s with crb := { s.crb with pos := pos + 1 } }
    let s := match ecc with
      | some e => s.crucibleError pos e
      | none => s
    if pos + 1 = 0 then s.cruciblePass else s
  else s

/-- The meaning of CRUCIBLE_PATROL_READ (R404, R405, R438). -/
def execCruciblePatrolRead (ecc : Option EccErr) (s : State) : Host.Outcome State Fault Refusal := .next (doCruciblePatrolRead ecc s)

/-! The scratchpad patrol (R502 to R506). -/

/-- The patrol tests the bank in the present pass (R502, R506). -/
def State.patrolled (s : State) (k : Nat) : Bool := (s.spb k).power == .on && !(s.spb k).fenced && !s.spc.later.getLsbD k

/-- The access is to the segment that the patrol has borrowed. -/
def State.onBorrowed (s : State) (k off : Nat) : Bool :=
  s.spc.borrowed && s.spc.bank.toNat == k && s.spc.seg.toNat == off / 1024

/-- An urgent patrol holds the segment (R505). -/
def State.urgentHold (s : State) (k off : Nat) : Bool := s.onBorrowed k off && s.spc.level == 4

/-- An access to a borrowed segment: the patrol abandons it, and the segment becomes pending (R504). -/
def State.touchSegment (s : State) (k off : Nat) : State :=
  if s.onBorrowed k off then
    ({ s with spc := { s.spc with borrowed := false, waiting := true, level := 0 } }).bump (spbOf k) 0x54
  else s

/-- A full scratchpad pass has ended: timed, PATROL_LATE past 10 ms; banks that came ON join (R506, R515). -/
def State.scratchPass (s : State) : State :=
  let ticks := s.frm.tb.toNat - s.spc.passStart.toNat
  let us := satWord (ticks / 100)
  let s := { s with spc := { s.spc with passStart := s.frm.tb, later := 0 } }
  let s := (s.setCounter .spc 0x68 us).maxCounter .spc 0x6C us
  if 1000000 < ticks then s.raise { page := .spc, cause := 0 } else s

/-- The first segment of the next bank; past bank 15 the pass has ended. -/
def State.nextBank (s : State) : State :=
  let s := { s with spc := { s.spc with bank := s.spc.bank + 1, seg := 0 } }
  if s.spc.bank = 0 then s.scratchPass else s

/-- The position moves to the next segment. -/
def State.nextSegment (s : State) : State :=
  if s.spc.seg = 31 then s.nextBank else { s with spc := { s.spc with seg := s.spc.seg + 1 } }

/-- Skips banks that are not patrolled, over at most n banks. -/
def State.skipBanks : Nat → State → State
  | 0, s => s
  | n + 1, s => if s.patrolled s.spc.bank.toNat then s else State.skipBanks n s.nextBank

/-- SCRATCH_SEGMENT_START: borrows the pending segment, or the next one. No effect while a segment is borrowed, where the patrol does not
run, or where no bank is ON. -/
def doScratchSegmentStart (s : State) : State :=
  if !s.scratchPatrolOn || s.spc.borrowed then s
  else if s.spc.waiting && s.patrolled s.spc.bank.toNat then { s with spc := { s.spc with borrowed := true, waiting := false } }
  else
    let t := State.skipBanks 17 { s with spc := { s.spc with waiting := false, level := 0 } }
    if t.patrolled t.spc.bank.toNat then { t with spc := { t.spc with borrowed := true } } else t

/-- The meaning of SCRATCH_SEGMENT_START (R502, R503, R505). -/
def execScratchSegmentStart (s : State) : Host.Outcome State Fault Refusal := .next (doScratchSegmentStart s)

/-- The bank and segment of the present segment, or of the next one that the patrol tests (R506, R516). -/
def State.patrolAt (s : State) : BitVec 4 × BitVec 5 :=
  let k := s.spc.bank.toNat
  if s.spc.borrowed || s.patrolled k then (s.spc.bank, s.spc.seg)
  else match (List.range 16).find? fun j => decide (k < j) && s.patrolled j with
    | some j => (BitVec.ofNat 4 j, 0)
    | none => match (List.range 16).find? fun j => (s.spb j).power == .on && !(s.spb j).fenced with
      | some j => (BitVec.ofNat 4 j, 0)
      | none => (s.spc.bank, s.spc.seg)

/-- The word as stored after an upset of several of its bits (R487). -/
def State.upsetWord (s : State) (k : Nat) (e : EccErr) (off : Nat) : State :=
  if e.uncorr && !e.checkBit then s.updSpb k fun b => { b with mem := b.mem.writeW 0 off (b.mem.readW 0 off ^^^ e.mask) } else s

/-- ERR_ADDR of a scratchpad read: UNCORR, CHECKBIT, PATROL, MASTER, OFFSET (R512). -/
def errAddr (e : EccErr) (patrol : Bool) (master off : Nat) : Word :=
  flag true 31 ||| flag e.uncorr 30 ||| flag (!e.uncorr && e.checkBit) 29 ||| flag patrol 28 ||| BitVec.ofNat 32 (master * 2 ^ 25 + off)

/-- An ECC error met in a bank: recorded, and counted as corrected, or ECC_UNCORR (R487, R503). -/
def State.spbError (s : State) (k : Nat) (e : EccErr) (patrol : Bool) (master off : Nat) : State :=
  let s := s.updSpb k fun b => { b with errAddr := errAddr e patrol master off }
  if e.uncorr then s.raise { page := spbOf k, cause := 0 } else s.bump (spbOf k) 0x44

/-- CELL_FAIL, with PATROL set in ERR_ADDR, so MASTER is 0 (R512); no rule gives its other fields for it, and they are free (R503). -/
def State.cellFail (s : State) (k : Nat) : State :=
  let w := s.freeWord
  let s := w.2.updSpb k fun b => { b with errAddr := flag true 31 ||| flag true 28 ||| (w.1 &&& 0x60007FFC) }
  s.raise { page := spbOf k, cause := 1 }

/-- SCRATCH_SEGMENT_DONE, with the ECC errors of the segment's words: the segment has been tested, and accesses that an urgent patrol held go on. No effect without a borrow. -/
def doScratchSegmentDone (marchFail : Bool) (ecc : List (Fin 256 × EccErr)) (s : State) : State :=
  if !s.spc.borrowed then s
  else
    let k := s.spc.bank.toNat
    let off := 1024 * s.spc.seg.toNat
    let on := s.patrolled k
    let s := { s with spc := { s.spc with borrowed := false, level := 0 }
                      hps := s.hps.map fun (p : Hp) => { p with txns := p.txns.map fun (t : Txn) => { t with held := false } }
                      ctxs := s.ctxs.map fun (x : Ctx) => { x with waits := false }
                      img := { s.img with waits := false } }
    let s := if !on then s
      else
        let s := s.bump (spbOf k) 0x50
        let s := ecc.foldl (fun s x => s.spbError k x.2 true 0 (off + 4 * x.1.val)) s
        if marchFail then s.cellFail k else s
    s.nextSegment

/-- The meaning of SCRATCH_SEGMENT_DONE (R502, R503, R506, R508). -/
def execScratchSegmentDone (marchFail : Bool) (ecc : List (Fin 256 × EccErr)) (s : State) : Host.Outcome State Fault Refusal :=
  .next (doScratchSegmentDone marchFail ecc s)

/-- ARBITER_AGING: the pending segment ages one level, up to URGENT. The other arbiters' waiters are timing (log 5). -/
def doArbiterAging (s : State) : State :=
  if s.scratchPatrolOn && s.spc.waiting then
    { s with spc := { s.spc with level := if s.spc.level.toNat < 4 then s.spc.level + 1 else 4 } }
  else s

/-- The meaning of ARBITER_AGING (R608, R505). -/
def execArbiterAging (s : State) : Host.Outcome State Fault Refusal := .next (doArbiterAging s)

end Sys2Proof.Machine
end

