-- ==== Sys2Proof/Machine/Loader.lean ====
section
/-! DEFINITION. The image loader: slot headers, choice of the slot, copies into the crucible (R426 to R431). -/

namespace Sys2Proof.Machine

/-- A header is valid when MAGIC, VERSION, LENGTH and PART meet R409. -/
def headerOk (part : Part) (magic version length partWord : Word) : Bool :=
  magic == 0x4F474E49 && (version == 1 || version == 2)
    && length.extractLsb' 0 12 == 0 && decide (8192 ≤ length.toNat ∧ length.toNat ≤ 1048576)
    && ((partWord == 0x4896 && part == .slc4896) || partWord == 0x2448 || (partWord == 0x1224 && version == 1))

/-- The header of a boot-flash slot is valid (R427). An unlisted flash byte reads as erased. -/
def State.slotOk (s : State) (m : Mem) : Bool :=
  headerOk s.ident.part (m.readW 0xFF 0) (m.readW 0xFF 4) (m.readW 0xFF 8) (m.readW 0xFF 0x10)

/-- Reads both slot headers (R427, R447). -/
def State.readHeaders (s : State) : State :=
  let a := s.slotOk s.flash.slotA
  let b := s.slotOk s.flash.slotB
  { s with img := { s.img with
      slotAOk := a, slotBOk := b
      slotASeq := if a then s.flash.slotA.readW 0xFF 0xC else 0
      slotBSeq := if b then s.flash.slotB.readW 0xFF 0xC else 0 } }

/-- The loader waits for the supervisor flask (R429). -/
def State.waitHost (s : State) : State := { s with img := { s.img with phase := .waitingHost, otherSlot := false } }

/-- The loader copies slot A (1) or B (2); a slot without a valid header gives BOOT_ERR and waits (R427). -/
def State.copySlot (s : State) (source : BitVec 3) (other : Bool) : State :=
  if (if source = 1 then s.img.slotAOk else s.img.slotBOk) then
    { s with img := { s.img with phase := .copying, source := source, otherSlot := other } }
  else s.waitHost.raise { page := .img, cause := 0 }

/-- SEQ a is newer than b (R427). -/
def seqNewer (a b : Word) : Bool := decide (1 ≤ (a - b).toNat ∧ (a - b).toNat ≤ 0x7FFFFFFF)

/-- The slot that BOOT_SEL 0b00 takes with both headers valid (R427). -/
def State.newerSlot (s : State) : BitVec 3 := if seqNewer s.img.slotBSeq s.img.slotASeq then 2 else 1

/-- The loader begins with a source: 0 as at START, 1 slot A, 2 slot B, 3 the host. The slots' headers are read by the end of the cycle,
and PHASE reads READING_HEADERS until then (R427, R430, R436; DESIGN CHOICE, log 96). -/
def State.startLoader (s : State) (src : Nat) : State :=
  let s := { s with img := { s.img with tries := 0, otherSlot := false } }
  if src < 3 then { s with img := { s.img with phase := .readingHeaders, reading := BitVec.ofNat 3 src } } else s.waitHost

/-- The headers have been read: the slot is chosen (R427, R430). -/
def State.headersRead (s : State) : State :=
  let s := s.readHeaders
  match s.img.reading.toNat with
  | 0 =>
    match s.dev.straps.bootSel.toNat with
    | 0 =>
      if s.img.slotAOk && s.img.slotBOk then s.copySlot s.newerSlot true
      else s.copySlot (if s.img.slotBOk then 2 else 1) false
    | 1 => s.copySlot 1 false
    | 2 => s.copySlot 2 false
    | _ => s.waitHost
  | 1 => s.copySlot 1 false
  | _ => s.copySlot 2 false

/-- Places bytes at the start of the crucible; the words above them keep their values (R429). -/
def State.fillCrucible (s : State) (bs : List Byte) : State :=
  { s with crb := { s.crb with mem := Mem.ofBytes 0 0 bs ++ s.crb.mem.dropWhile fun c => decide (c.1 < bs.length) } }

/-- VERIFY begins: STATE moves to VERIFY, or stays COMMISSION (R35, R436, R443, R444). -/
def State.beginVerify (s : State) (page : BitVec 12) : State :=
  let s := if s.dev.state == .commission then s else s.changeState .verify page
  let s := { s with img := { s.img with phase := .verifying, tries := satInc s.img.tries, verifyAt := s.frm.tb } }
  s.bump .img 0x44

/-- An accepted RELOAD takes effect: LOAD, or step 1 of R436, and the loader takes the source (R430). -/
def State.reloadNow (s : State) (r : Reload) : State :=
  let length := ((s.spb r.bank.toNat).mem.readW 0 8).toNat
  let s := s.bump .img 0x4C
  let s := if s.dev.state == .commission then { s.stopBoundaries with crb := { s.crb with valid := false }, img := { s.img with eccSector := none } }
    else s.enterLoad (hpOf r.port.toNat).num12
  if r.src = 4 then
    { s with
      img := { s.img with phase := .copying, source := 4, tries := 0, otherSlot := false, staged := r.bank.toNat, stagedLen := length
                          waits := false }
      spbs := s.spbs.map fun b => { b with left := false } }
  else s.startLoader r.src.toNat

/-- STATE admits frames to be run or stopped by RELOAD (R430, R436). -/
def DevState.reloads : DevState → Bool
  | .run => true
  | .safe => true
  | .commission => true
  | _ => false

/-- The RELOAD of a cycle at its end: LOST where a SAFE_STOP, a SHAKEOUT trigger or a CHIP_RESET came in it (R39, R432; log 95). -/
def State.reloadDue (s : State) (r : Reload) : State :=
  let s := { s with img := { s.img with due := none } }
  if s.dev.state.reloads && s.dev.stopTime != some s.frm.tb then s.reloadNow r
  else { s with img := { s.img with reloadResult := 4 } }

/-- The loader's copy runs (R428, R431). -/
def State.copying (s : State) : Bool := (s.dev.state == .load || s.dev.state == .commission) && s.img.phase == .copying

/-- The bank has been ON since the staged copy began (R491). -/
def Spb.stayed (b : Spb) : Bool := b.power == .on && !b.left

/-- What the loader reads from staged banks; a bank that has left ON during the copy delivers zeros (R431, R491). -/
def State.stagedBytes (s : State) (bank : Nat) : Nat → Nat → List Byte
  | 0, _ => []
  | n + 1, len =>
    let b := s.spb bank
    let here := min len 32768
    (if b.stayed then b.mem.slice 0 0 here else List.replicate here 0) ++ s.stagedBytes (bank + 1) n (len - here)

/-- The staged copy reads the segment that the patrol has borrowed: one that begins below the length of the copy (R431, R504). -/
def State.stagedBorrow (s : State) : Bool :=
  s.spc.borrowed && s.staging s.spc.bank.toNat
    && decide (32768 * (s.spc.bank.toNat - s.img.staged) + 1024 * s.spc.seg.toNat < s.img.stagedLen)

/-- An urgent patrol holds the staged copy (R505). -/
def State.stagedHeld (s : State) : Bool := s.stagedBorrow && s.spc.level == 4

/-- An ECC error that the staged copy meets in a word of the banks: bits 16 to 13 name the bank (R487). -/
def State.stagedError (s : State) (x : BitVec 17 × EccErr) : State :=
  let k := (x.1.extractLsb' 13 4).toNat
  let off := 4 * (x.1.extractLsb' 0 13).toNat
  if s.staging k && (s.spb k).stayed then (s.upsetWord k x.2 off).spbError k x.2 false 7 off else s

/-- The words that the staged copy takes from bank k. -/
def State.stagedWords (s : State) (k : Nat) : Nat := (min 32768 (s.img.stagedLen - 32768 * (k - s.img.staged)) + 3) / 4

/-- SLEEP_HIT of the banks that have left ON: how many of their words were read after they did, no rule gives, and it is free (R488, log 94). -/
def State.stagedSleep (s : State) : State :=
  (List.range 16).foldl (fun s k =>
    if s.staging k && !(s.spb k).stayed then
      let w := s.freeWord
      w.2.addCounter (spbOf k) 0x4C (w.1.toNat % (s.stagedWords k + 1))
    else s) s

/-- SLOT_COPY_DONE. No effect where no slot is being copied; a copy does not start while the record sector is written (R581). -/
def doSlotCopyDone (s : State) : State :=
  if s.copying && (s.img.source == 1 || s.img.source == 2) && s.bst.sector != .erasing then
    let m := if s.img.source == 1 then s.flash.slotA else s.flash.slotB
    (s.fillCrucible (m.slice 0xFF 0 (m.readW 0xFF 8).toNat)).beginVerify 0
  else s

/-- The meaning of SLOT_COPY_DONE (R428). -/
def execSlotCopyDone (s : State) : Host.Outcome State Fault Refusal := .next (doSlotCopyDone s)

/-- STAGED_COPY_DONE, with the ECC errors that the copy met. A segment of the banks that the patrol has borrowed is abandoned (R504); an
urgent patrol holds the copy, which goes on later (R505). -/
def doStagedCopyDone (ecc : List (BitVec 17 × EccErr)) (s : State) : State :=
  if !(s.copying && s.img.source == 4) then s
  else if s.stagedHeld then { s with img := { s.img with waits := true } }
  else
    let s := if s.stagedBorrow then s.touchSegment s.spc.bank.toNat (1024 * s.spc.seg.toNat) else s
    let s := ecc.foldl State.stagedError s
    let bs := s.stagedBytes s.img.staged 32 s.img.stagedLen
    let s := s.stagedSleep
    if s.copying then (s.fillCrucible bs).beginVerify 0 else s

/-- The meaning of STAGED_COPY_DONE (R431, R487, R488, R491, R504, R505). -/
def execStagedCopyDone (s : State) (ecc : List (BitVec 17 × EccErr) := []) : Host.Outcome State Fault Refusal := .next (doStagedCopyDone ecc s)

end Sys2Proof.Machine
end

