-- ==== Sys2Proof/Machine/Ingot.lean ====
section
/-! DEFINITION. The ingot as the crucible holds it (R408 to R422), and what takes its values on an entry to RUN. -/

namespace Sys2Proof.Machine

/-- The words of the crucible, or of part of it. -/
abbrev Words := Array Word

/-- The word at a byte address of the ingot; beyond its end 0. -/
def rd (v : Words) (a : Nat) : Word := v.getD (a / 4) 0

/-- The ingot in the crucible: its first LENGTH bytes (R403, R408). -/
def State.ingot (s : State) : Words :=
  (wordsOf (s.crb.mem.slice 0 0 (min 1048576 (s.crb.mem.readW 0 8).toNat))).toArray

/-- OFFSET and SIZE of section i (R410). -/
def secAt (v : Words) (i : Nat) : Nat := (rd v (0x20 + 8 * i)).toNat
def secSize (v : Words) (i : Nat) : Nat := (rd v (0x24 + 8 * i)).toNat

/-- VERSION (R409). -/
def ingotVersion (v : Words) : Nat := (rd v 4).toNat % 256

/-! IOMAP, TRIP, WHEEL (R411, R413, R414). -/

def inCfgOf (v : Words) (i : Nat) : Word := rd v (secAt v 0 + 8 * i)
def tinOf (v : Words) (i : Nat) : Word := rd v (secAt v 0 + 8 * i + 4)
/-- The output word of SO0 to SO47, then AX0 to AX15. -/
def outCfgOf (v : Words) (o : Nat) : Word := rd v (secAt v 0 + 0x380 + 4 * o)
def fvCfgOf (v : Words) (b : Nat) : Word := rd v (secAt v 0 + 0x480 + 4 * b)
/-- TSET word j of SOn. -/
def tsetOf (v : Words) (n j : Nat) : Word := rd v (secAt v 1 + 12 * n + 4 * j)
/-- XLANE_SRC word j of lane 12d + k. -/
def xsrcOf (v : Words) (k j : Nat) : Word := rd v (secAt v 1 + 0x240 + 8 * k + 4 * j)
def slotLenOf (v : Words) : Word := rd v (secAt v 2)
def pulseOffsetOf (v : Words) : Word := rd v (secAt v 2 + 4)
def widthOf (v : Words) (s : Nat) : Word := rd v (secAt v 2 + 8 + 4 * s)

/-! BLOCKS, CODE, LIVE (R415, R416, R419). -/

/-- N, the number of block instances (R410). -/
def blockCount (v : Words) : Nat := secSize v 3 / 32

/-- Word j of the BLOCKS entry of instance i: word 0, then P1 to P7. -/
def blockWord (v : Words) (i j : Nat) : Word := rd v (secAt v 3 + 32 * i + 4 * j)

/-- The live ranges: start and length in bytes (R419). -/
def liveRanges (v : Words) : List (Nat × Nat) :=
  (List.range (secSize v 5 / 4)).map fun r =>
    let w := rd v (secAt v 5 + 4 * r)
    ((w.extractLsb' 16 10).toNat * 64, (w.extractLsb' 0 8).toNat * 64)

/-- L, the total length of the live ranges in bytes (R143). -/
def liveBytes (rs : List (Nat × Nat)) : Nat := rs.foldl (fun n r => n + r.2) 0

/-- The bytes of a section, and n zeros where it is shorter. -/
def secBytes (v : Words) (i n : Nat) : List Byte :=
  let bs := bytesOf ((List.range (secSize v i / 4)).map fun k => rd v (secAt v i + 4 * k))
  bs ++ List.replicate (n - bs.length) 0

/-! Values of the header that a code of 0 replaces (R409). -/

/-- BAR_TIMEOUT in µs. -/
def barTimeoutOf (v : Words) : BitVec 7 :=
  let t := (rd v 0x9C).extractLsb' 0 7
  if t = 0 then 8 else t

/-- PERMIT_TIMEOUT of HPn in frames. -/
def permitTimeoutOf (v : Words) (n : Nat) : Byte :=
  let t := byteOf (rd v 0xA0) n
  if t = 0 then 8 else t

/-! Values that a page takes (R58, R61, R421, R422). -/

/-- FLT_ENABLE as it reads back: implemented bits only, and 1 where the causes have a floor (R58). -/
def enableOf (p : Page) (w : Word) : Word := if floorOf p = 0 then w &&& resetEnable p else resetEnable p

/-- The FLT_WINDOW code as it reads back (R61). -/
def windowCode (c : BitVec 5) : BitVec 5 := if 22 ≤ c.toNat then 21 else c

/-- FLT_N as it reads back (R61). -/
def fltNOf (n : BitVec 8) : BitVec 8 := if n = 0 then 1 else n

/-- The pages of the personality in force, in ascending order (R4, R670). -/
def State.pages (s : State) : List Page := allPages.filter fun p => s.mapped p

/-- OWNER, LOCKED and NOHAND of a page as the ownership map states them; a handover still draining ends. -/
def Hdr.owned (h : Hdr) (w : Word) : Hdr :=
  { h with own := { h.own with
      flask := w.extractLsb' 0 4, locked := w.getLsbD 8, nohand := w.getLsbD 9
      draining := false, pending := false, byAssign := false, result := if h.own.draining then 4 else h.own.result } }

/-- The ownership map on an entry to RUN (R43, R55, R421); a version 1 ingot gives every assignable page to flask 0 (R425). -/
def State.applyOwnership (s : State) (v : Words) : State :=
  if ingotVersion v = 1 then
    s.pages.foldl (fun s p => s.updHdr p fun h => h.owned (field (resetFlask p) 0)) s
  else
    s.pages.zipIdx.foldl (fun s x => s.updHdr x.1 fun h => h.owned (rd v (secAt v 7 + 4 * x.2))) s

/-- The reaction settings of a page as written by its owner. -/
def Hdr.reacting (h : Hdr) (p : Page) (enable thr react : Word) : Hdr :=
  { h with
    enable := enableOf p enable, fltN := fltNOf (thr.extractLsb' 0 8), fltWindow := windowCode (thr.extractLsb' 8 5)
    reactSevere := raiseReaction p (react.extractLsb' 4 4), reactMinor := raiseReaction p (react.extractLsb' 0 4) }

/-- The reactions on an entry to RUN: reset values, then the entries listed (R422). -/
def State.applyReact (s : State) (v : Words) : State :=
  let s := s.pages.foldl (fun s p => s.updHdr p fun h =>
    let r := resetHdr p
    { h with enable := r.enable, fltN := r.fltN, fltWindow := r.fltWindow, reactMinor := r.reactMinor
             reactSevere := r.reactSevere }) s
  (List.range (secSize v 8 / 16)).foldl (fun s e =>
    let a := secAt v 8 + 16 * e
    match pageOf ((rd v a).extractLsb' 20 12).toNat with
    | some p => s.updHdr p fun h => h.reacting p (rd v (a + 4)) (rd v (a + 8)) (rd v (a + 12))
    | none => s) s

/-- Ownership map, LOCK presets and reactions (R43, R55, R422), and what counts from an entry to RUN (R316, R317, R465). -/
def State.enterRun (s : State) (v : Words) : State :=
  let s := (s.applyOwnership v).applyReact v
  { s with
    dev := { s.dev with ingotRun := true, supervisor := (rd v 0xA4).extractLsb' 0 2 }
    hps := s.hps.map fun (x : Hp) => { x with everRefreshed := false }
    comps := s.comps.map fun (c : Comparator) => { c with count := 0, per := 0, riseSince := false } }

/-- An output's configuration word as its register holds it: RB_SETTLE 0 is taken as 5 (R373, log 37). -/
def outCfg (w : Word) : Word := if w.extractLsb' 0 10 = 0 then w ||| 5 else w

/-- An input's configuration word as its register holds it: DISAGREE_FRAMES 0 is taken as 2 (R333, log 37). -/
def inCfg (w : Word) : Word := if w.extractLsb' 16 8 = 0 then w ||| 0x20000 else w

/-- A 0 at a FOREIGN input that has outlasted its TRIP_TOL as the ingot takes effect is demand from then on (R180, R183). -/
def Comparator.outlasted (c : Comparator) (tin : Word) (now : Time) : Comparator :=
  { c with tolExpired := tin.extractLsb' 28 2 == 2 && !c.level
      && decide (10 * (tin.extractLsb' 0 14).toNat < now.toNat - c.lastChange.toNat + c.before) }

/-- The configuration that the ingot sets: frame timing, I/O, trip sets, wheel, links, permits, publish banks (R83, R326, R364, R411). -/
def State.applyConfig (s : State) (v : Words) : State :=
  { s with
    frm := { s.frm with
      period := (rd v 0x80).extractLsb' 0 17, commitAt := (rd v 0x84).extractLsb' 0 17, wcet := (rd v 0x88).extractLsb' 0 17
      syncCfg := rd v 0x8C, frameOutCfg := rd v 0x90 }
    ins := s.ins.mapIdx fun i (x : Input) =>
      let w := inCfg (inCfgOf v i)
      { x with cfg := w, live := if w.getLsbD 29 then x.live else putBit x.live 1 false }
    outs := s.outs.mapIdx fun o (x : Output) => { x with cfg := outCfg (outCfgOf v o), held := outCfg (outCfgOf v o) }
    comps := s.comps.mapIdx fun j (c : Comparator) => c.outlasted (tinOf v (j / 2)) s.frm.tb
    outBanks := s.outBanks.mapIdx fun b (x : OutBank) => { x with fvCfg := fvCfgOf v b }
    bars := s.bars.map fun (x : Bar) => { x with timeout := barTimeoutOf v }
    hps := s.hps.mapIdx fun n (x : Hp) => { x with timeout := permitTimeoutOf v n }
    spbs := s.spbs.mapIdx fun k (x : Spb) => { x with publish := (rd v 0xA4).getLsbD (16 + k) }
    trp := { s.trp with
      tset := (List.range 144).map fun k => tsetOf v (k / 3) (k % 3)
      xsrc := (List.range 48).map fun k => xsrcOf v (k / 2) (k % 2)
      tin := (List.range 112).map fun i => tinOf v i }
    pwl := { s.pwl with
      slotLen := (slotLenOf v).extractLsb' 0 7, offset := (pulseOffsetOf v).extractLsb' 0 17
      widths := (List.range 64).map fun k => (widthOf v k).extractLsb' 0 9 }
    img := { s.img with
      version := byteOf (rd v 4) 0, runSeq := rd v 0xC, runLength := rd v 8, runId := rd v 0x1C ++ rd v 0x18
      blocks := blockCount v, blocksAt := secAt v 3, entry := (rd v 0x94).extractLsb' 0 20
      trapVector := (rd v 0x98).extractLsb' 0 20, codeAt := secAt v 4, codeSize := secSize v 4
      publish := (rd v 0xA4).extractLsb' 16 16, runStart := s.frm.tb, fresh := true } }

/-- ENTRY as a program address: bits [1:0] at 0 (R409, R417). -/
def State.entryPc (s : State) : BitVec 20 := s.img.entry &&& 0xFFFFC

/-- A channel after its LSM load and cache preload, complemented in DRAG (R119, R121, R407, R420). A channel that has taken the stop trap stays
TRAPPED until START (R153), one HALTED or PARKED becomes IDLE (DESIGN CHOICE, log 91); DBG_PC is the program's first word (R171). -/
def Chan.loaded (c : Chan) (h : Half) (entry : BitVec 20) (init code consts : List Byte) : Chan :=
  let f := fun (b : Byte) => match h with
    | .c => b
    | .d => ~~~b
  { c with
    lsm := Mem.ofBytes h.fill 0 (init.map f), icache := Mem.ofBytes h.fill 0 (code.map f), kcache := Mem.ofBytes h.fill 0 (consts.map f)
    mode := if c.mode == .trapped then .trapped else .idle, pc := entry, retPc := none, handlerRun := false
    forceNow := 0, forcePrev := 0, done := 0, refill := none, refetched := []
    agreed := 0, qual := 0, oqual := 0, disCount := List.replicate 112 0, out := 0 }

/-- Both channels and the FBS buffer take the ingot's contents, and the comparators its live ranges; ACTIVE is 1 from here on (DESIGN CHOICE,
log 89). -/
def State.loadChannels (s : State) (v : Words) : State :=
  let init := secBytes v 6 65536
  let code := secBytes v 4 32768
  let consts := secBytes v 3 16384
  let rs := liveRanges v
  { s with
    cope := s.cope.loaded .c s.entryPc init code consts, drag := s.drag.loaded .d s.entryPc init code consts
    fbsBuf := Mem.ofBytes 0 0 (init.take 32768)
    cmp := { s.cmp with
      active := !s.dev.dbgSplit && s.cope.mode != .trapped, ranges := rs
      liveCfg := BitVec.ofNat 32 (rs.length * 2 ^ 24 + liveBytes rs) } }

end Sys2Proof.Machine
end

