-- ==== Sys2Proof/Machine/Inputs.lean ====
section
/-! DEFINITION. Field inputs (chapter 08): filters, counters, the comparator exercise, open wire, threshold references; and the inputs'
part of the trip matrix and of the wheel's observations. -/

namespace Sys2Proof.Machine

/-- The input's channel exists on the part and its die is powered (R4, R303). -/
def State.inputServed (s : State) (i : Nat) : Bool := decide (bankOfInput i < s.banks) && (s.bar (dieOfInput i)).powered

/-- The filter output y of a comparator: demand passes undelayed with FILT_BOTH 0, and y equals x with FILT 0 (R311, R312). -/
def State.filterOut (s : State) (i : Nat) (h : Half) : Bool :=
  let c := s.comp i h
  let cfg := (s.inp i).cfg
  let x := c.held.getD c.level
  if (!cfg.getLsbD 27 && !x) || cfg.extractLsb' 0 10 == 0 then x else c.y

/-- Keeps the filter output of the moment as the filter's stored output. -/
def State.refilter (s : State) (i : Nat) (h : Half) : State :=
  let y := s.filterOut i h
  s.updComp i h fun c => { c with y := y }

/-- A cause of an input (R321). -/
def State.latchIn (s : State) (i c : Nat) : State :=
  (s.raise { page := fibOf (bankOfInput i), cause := c, unit := some (localOfInput i) }).updateTrips

/-- A foreign observation of a comparator: pending, confirmed, or replacing that of another slot (R386); one that confirms is spent (DESIGN CHOICE,
log 104). Answers whether GAP_FOREIGN latches. -/
def State.compForeign (s : State) (i : Nat) (h : Half) (slot : BitVec 6) : State × Bool :=
  match (s.comp i h).forPend with
  | some t =>
    if t == slot then
      ((s.updComp i h fun c => { c with forPend := none }).updInp i fun u =>
        { u with gap := { u.gap with fValid := true, fSlot := slot } }, true)
    else
      (((s.bump .pwl 0x4C).updComp i h fun c => { c with forPend := some slot }).updInp i fun u =>
        { u with gap := { u.gap with pSlot := slot } }, false)
  | none =>
    ((s.updComp i h fun c => { c with forPend := some slot }).updInp i fun u => { u with gap := { u.gap with pSlot := slot } }, false)

/-- An interval in ticks as a 32-bit PER; R317 states none that does not fit, and the value is free then. -/
def State.perOf (s : State) (ticks : Nat) : Word × State := if ticks < 2 ^ 32 then (BitVec.ofNat 32 ticks, s) else s.freeWord

/-- A rising edge: COUNT while boundaries run, PER from the second one since entry to RUN or COMMISSION, where an ingot takes effect, AGE (R316,
R317, R436). -/
def State.countEdge (s : State) (i : Nat) (h : Half) : State :=
  let c := s.comp i h
  let since := s.dev.ingotRun
  let r := match c.riseSince, c.lastRise with
    | true, some t => s.perOf (s.frm.tb.toNat - t.toNat)
    | _, _ => (c.per, s)
  r.2.updComp i h fun c =>
    { c with count := if s.frm.running then c.count + 1 else c.count, per := r.1, lastRise := some s.frm.tb
             riseSince := c.riseSince || since }

/-- A comparator of an OWN input returns to 1: its own gap is seen after 50 ns (R384), a foreign one ends in time (R385), a 0 of less
than 5 µs outside every own window is counted (R387). -/
def State.observeRise (s : State) (i : Nat) (h : Half) : State :=
  let c := s.comp i h
  let low := s.frm.tb.toNat - c.lastChange.toNat
  let s := s.updComp i h fun c => { c with seen := c.seen || (c.judged && decide (5 ≤ low)), outside := false }
  if s.tripMode i != 1 then s
  else if s.pwl.window.isNone && c.foreignZero then
    let s := s.updComp i h fun c => { c with foreignZero := false }
    if s.frm.tb.toNat ≤ s.pwl.windowEnd.toNat + 50 then
      let r := s.compForeign i h (s.pwl.lastSlot.getD 0)
      if r.2 then r.1.latchIn i 3 else r.1
    else s
  else if s.pwl.window.isNone && c.outside && decide (low < 500) then s.bump .pwl 0x50
  else s

/-- A comparator of an input falls: a 0 that begins in the window of another slot may become a foreign observation (R385). -/
def State.observeFall (s : State) (i : Nat) (h : Half) : State :=
  let win := s.pwl.window.isSome
  s.updComp i h fun c => { c with foreignZero := c.foreignZero || (c.foreignOne && win), outside := !win }

/-- The comparator is under exercise (R306, R308). -/
def State.exercising (s : State) (i : Nat) (h : Half) : Bool :=
  match s.prog.exercise with
  | some f => s.prog.exDies.getLsbD (dieOfInput i) && f.getLsbD 0 == (h == .d) && s.isInput i && s.tripMode i != 1
  | none => false

/-- INPUT_LEVEL_CHANGE. No effect where the level is unchanged, the channel is not served, or the comparator is held by its exercise. -/
def doInputLevelChange (i : Fin 112) (h : Half) (level : Bool) (s : State) : State :=
  if !s.inputServed i || (s.comp i h).level == level || s.exercising i h then s
  else
    let s := s.refilter i h
    let s := if level then (s.observeRise i h).countEdge i h else s.observeFall i h
    let s := s.updComp i h fun c =>
      { c with level := level, lastChange := s.frm.tb, before := 0, tolExpired := c.tolExpired && !level
               xAt := if c.held.isSome then c.xAt else s.frm.tb }
    (s.refilter i h).updateTrips

/-- The meaning of INPUT_LEVEL_CHANGE (R180, R181, R183, R191, R194, R311, R316, R317, R384, R385, R387). -/
def execInputLevelChange (i : Fin 112) (h : Half) (level : Bool) (s : State) : Host.Outcome State Fault Refusal :=
  .next (doInputLevelChange i h level s)

/-- TRIP_TOL_EXPIRY. No effect but on a FOREIGN input whose comparator reads 0. -/
def doTripTolExpiry (i : Fin 112) (h : Half) (s : State) : State :=
  if s.tripMode i == 2 && !(s.comp i h).level then (s.updComp i h fun c => { c with tolExpired := true }).updateTrips else s

/-- The meaning of TRIP_TOL_EXPIRY (R183). -/
def execTripTolExpiry (i : Fin 112) (h : Half) (s : State) : Host.Outcome State Fault Refusal := .next (doTripTolExpiry i h s)

/-- The mask of an input ends: its filter input follows the comparator again (R312). -/
def State.unmask (s : State) (i : Nat) : State :=
  let free := fun (s : State) (h : Half) =>
    let y := s.filterOut i h
    (s.updComp i h fun c => { c with y := y, held := none, xAt := if c.held.getD c.level == c.level then c.xAt else s.frm.tb }).refilter i h
  free (free s .c) .d

/-- OWN_MASK_END. No effect where the input's own window is not in progress. -/
def doOwnMaskEnd (i : Fin 112) (s : State) : State :=
  if s.masked i then ((s.updInp i fun u => { u with maskEnded := true }).unmask i).updateTrips else s

/-- The meaning of OWN_MASK_END (R182, R198, R312). -/
def execOwnMaskEnd (i : Fin 112) (s : State) : Host.Outcome State Fault Refusal := .next (doOwnMaskEnd i s)

/-- FILT in ticks: steps of 10 µs (R311). -/
def State.filtTicks (s : State) (i : Nat) : Nat := 1000 * ((s.inp i).cfg.extractLsb' 0 10).toNat

/-- The filter input has held for at least FILT. -/
def State.xSettled (s : State) (i : Nat) (h : Half) : Bool := decide ((s.comp i h).xAt.toNat + s.filtTicks i ≤ s.frm.tb.toNat)

/-- FILTER_EXPIRY: the filter output takes the filter input, which has held for FILT. No effect before it has. -/
def doFilterExpiry (i : Fin 112) (h : Half) (s : State) : State :=
  if s.xSettled i h then s.updComp i h fun c => { c with y := c.held.getD c.level } else s

/-- The meaning of FILTER_EXPIRY (R311). -/
def execFilterExpiry (i : Fin 112) (h : Half) (s : State) : Host.Outcome State Fault Refusal := .next (doFilterExpiry i h s)

/-! The comparator exercise (R306 to R309). -/

/-- The inputs of bank b whose comparators are exercised: inputs of mode STEADY or FOREIGN. -/
def State.exercised (s : State) (b : Nat) : List Nat :=
  if decide (s.banks ≤ b) || !(s.bar (dieOfBank b)).powered then []
  else (List.range 14).filter fun k => s.isInput (inputOf b k) && s.tripMode (inputOf b k) != 1

/-- The start and the end of the own gap scheduled on a die in the present frame, in ticks (R307, R377). -/
def State.gapEdges (s : State) (d : Nat) : List Nat :=
  let slot := s.pwl.slotC.toNat
  let w := s.pwl.widths.getD slot 0
  if s.pwl.inC == 0 && !s.pwl.halted && s.slotLive slot && dieOfBank (bankOfSlot slot) == d && !(s.bar d).chill && w != 0 then
    let g := s.frm.lastBnd.toNat + s.pwl.offset.toNat
    [g, g + w.toNat]
  else []

/-- The start of the interval of R307: boundary + COMMIT_AT + 0.25 µs. -/
def State.exerciseFrom (s : State) : Nat := s.frm.lastBnd.toNat + s.frm.commitAt.toNat + 25

/-- Where the exercise of a die starts: the first instant of the interval that keeps its start and its end, 20 ns later, at least 50 ns from
both edges of the gap (R307). -/
def State.exerciseAt (s : State) (d : Nat) : Nat :=
  let far := fun (t : Nat) => (s.gapEdges d).all fun g => decide (t + 7 ≤ g ∨ g + 5 ≤ t)
  ((s.exerciseFrom :: (s.gapEdges d).map (· + 5)).find? fun t => decide (s.exerciseFrom ≤ t) && far t).getD s.exerciseFrom

/-- The dies whose exercise is due: it starts at the first instant that R307 admits, and no other. -/
def State.exerciseDue (s : State) : BitVec 2 :=
  vecOf 2 fun d => s.frm.running && !s.prog.exercised.getLsbD d
    && decide (s.exerciseAt d = s.frm.tb.toNat ∧ s.frm.tb.toNat + 6 ≤ s.frm.lastBnd.toNat + s.frm.commitAt.toNat + 75)

/-- INPUT_EXERCISE of die d, once per frame while boundaries run; EX_MOVED on its pages where the exercise is placed later than the start
of its interval. -/
def doInputExercise (d : Fin 2) (s : State) : State :=
  if !s.exerciseDue.getLsbD d then s
  else
    let t := { s with prog := { s.prog with
      exercise := some (s.frm.frameNum.setWidth 2), exDies := putBit s.prog.exDies d true, exercised := putBit s.prog.exercised d true
      exStart := s.prog.exStart.set d s.frm.tb } }
    (List.range 8).foldl (fun t b =>
      if dieOfBank b == d.val && s.exerciseAt d != s.exerciseFrom && !(s.exercised b).isEmpty then t.bump (fibOf b) 0x4C else t) t

/-- The meaning of INPUT_EXERCISE (R306, R307, R327). -/
def execInputExercise (d : Fin 2) (s : State) : Host.Outcome State Fault Refusal := .next (doInputExercise d s)

/-- One comparator's exercise ends with the expected reading, or COMP_FAIL latches and EX_FAIL is written (R309, R331). -/
def State.exerciseOne (s : State) (f : BitVec 2) (wrong : BitVec 112) (b k : Nat) : State :=
  let i := inputOf b k
  if wrong.getLsbD i then
    (s.updInBank b fun x => { x with exFail := flag true 31 ||| flag (f.getLsbD 1) 9 ||| flag (f.getLsbD 0) 8 ||| BitVec.ofNat 32 k }).latchIn i 2
  else s.bump (fibOf b) 0x48

/-- The dies whose exercise has lasted its 20 ns (R307). -/
def State.exerciseEnds (s : State) : BitVec 2 :=
  vecOf 2 fun d => s.prog.exDies.getLsbD d && decide ((s.prog.exStart.getD d 0).toNat + 2 ≤ s.frm.tb.toNat)

/-- INPUT_EXERCISE_END, on the dies whose exercise has lasted 20 ns. No effect where there is none. -/
def doInputExerciseEnd (wrong : BitVec 112) (s : State) : State :=
  match s.prog.exercise with
  | none => s
  | some f =>
    let ends := s.exerciseEnds
    let left := s.prog.exDies &&& ~~~ends
    let t := { s with prog := { s.prog with exercise := if left = 0 then none else some f, exDies := left } }
    (List.range 8).foldl (fun t b =>
      if ends.getLsbD (dieOfBank b) then (s.exercised b).foldl (fun t k => t.exerciseOne f wrong b k) t else t) t

/-- The meaning of INPUT_EXERCISE_END (R307, R309, R327, R331). -/
def execInputExerciseEnd (wrong : BitVec 112) (s : State) : Host.Outcome State Fault Refusal := .next (doInputExerciseEnd wrong s)

/-! Currents and references (R314, R321, R334). -/

/-- An input after a measurement: since when every one is below 0.15 mA, or at 0.30 mA or more (R314). -/
def Input.measured (u : Input) (reading : BitVec 9) (now : Time) : Input :=
  let v := min 300 reading.toNat
  { u with cur := BitVec.ofNat 9 v, lowSince := if v < 15 then some (u.lowSince.getD now) else none
           highSince := if 30 ≤ v then some (u.highSince.getD now) else none }

/-- CURRENT_MEASURE: the latest measurements, saturating at 3.00 mA. -/
def doCurrentMeasure (readings : List (Fin 112 × BitVec 9)) (s : State) : State :=
  readings.foldl (fun s r => if s.inputServed r.1 then s.updInp r.1 fun u => u.measured r.2 s.frm.tb else s) s

/-- The meaning of CURRENT_MEASURE (R314, R334). -/
def execCurrentMeasure (readings : List (Fin 112 × BitVec 9)) (s : State) : Host.Outcome State Fault Refusal :=
  .next (doCurrentMeasure readings s)

/-- The current has stayed below 0.15 mA, or at 0.30 mA or more, for 1.0 ms (R314). -/
def State.wireHeld (s : State) (i : Nat) (open' : Bool) : Bool :=
  match (if open' then (s.inp i).lowSince else (s.inp i).highSince) with
  | some t => decide (t.toNat + 100000 ≤ s.frm.tb.toNat)
  | none => false

/-- OPEN_WIRE begins or ceases to be live. No effect without OW_EN, nor before the current has stayed beyond its level for 1.0 ms. -/
def doOpenWire (i : Fin 112) (live : Bool) (s : State) : State :=
  if !(s.inp i).cfg.getLsbD 29 || (s.inp i).live.getLsbD 1 == live || !s.wireHeld i live then s
  else
    let s := s.updInp i fun u => { u with live := putBit u.live 1 live }
    if live then (s.bump (fibOf (bankOfInput i)) 0x50).latchIn i 1 else s

/-- The meaning of OPEN_WIRE (R314, R327). -/
def execOpenWire (i : Fin 112) (live : Bool) (s : State) : Host.Outcome State Fault Refusal := .next (doOpenWire i live s)

/-- REF_CHECK: the tenth consecutive failure latches REF_FAIL, live until a check passes. -/
def doRefCheck (b : Fin 8) (bad : Bool) (s : State) : State :=
  if bad then
    let n := (s.inBank b).refFails.toNat
    let s := s.updInBank b fun x => { x with refFails := BitVec.ofNat 4 (min 10 (n + 1)) }
    if n = 9 then s.onset (.fib b) 8 else s
  else (s.updInBank b fun x => { x with refFails := 0 }).setLive (.fib b) 8 false

/-- The meaning of REF_CHECK (R321). -/
def execRefCheck (b : Fin 8) (bad : Bool) (s : State) : Host.Outcome State Fault Refusal := .next (doRefCheck b bad s)

end Sys2Proof.Machine
end

