-- ==== Sys2Proof/Machine/Crypto.lean ====
section
/-! DEFINITION. Check values and tags: the CRCs of R519 and AES-128 CMAC (R424, R462, R463). The manual names AES-128 and CMAC
by their standards: FIPS 197 and NIST SP 800-38B are taken as published (log 9, PRESUMED). -/

namespace Sys2Proof.Machine

/-! CRCs (R519, R520). -/

/-- One bit of a reflected CRC. -/
def crcBitR (poly c : Word) : Word := if c.getLsbD 0 then (c >>> 1) ^^^ poly else c >>> 1

/-- One byte into a reflected 32-bit CRC, LSB first (R520). -/
def crcByteR (poly c : Word) (b : Byte) : Word :=
  (List.range 8).foldl (fun c _ => crcBitR poly c) (c ^^^ b.setWidth 32)

/-- Bytes into CRC-32C: polynomial 0x1EDC_6F41, reflected; no final XOR (R145, R423, R453, POLY 0 of R519). -/
def crc32c (c : Word) (bs : List Byte) : Word := bs.foldl (crcByteR 0x82F63B78) c

/-- Bytes into CRC-32 (IEEE 802.3): polynomial 0x04C1_1DB7, reflected (POLY 1 of R519). -/
def crc32 (c : Word) (bs : List Byte) : Word := bs.foldl (crcByteR 0xEDB88320) c

/-- One bit of CRC-16/CCITT. -/
def crcBit16 (c : BitVec 16) : BitVec 16 := if c.getLsbD 15 then (c <<< 1) ^^^ 0x1021 else c <<< 1

/-- One byte into CRC-16/CCITT, MSB first. -/
def crcByte16 (c : BitVec 16) (b : Byte) : BitVec 16 :=
  let x : BitVec 16 := b.setWidth 16
  (List.range 8).foldl (fun c _ => crcBit16 c) (c ^^^ (x <<< 8))

/-- Bytes into CRC-16/CCITT (POLY 2 of R519). -/
def crc16 (c : BitVec 16) (bs : List Byte) : BitVec 16 := bs.foldl crcByte16 c

/-- CRC-32C of bytes with a seed, with its final XOR. -/
def crc32cOf (seed : Word) (bs : List Byte) : Word := crc32c seed bs ^^^ Word.ones

/-! AES-128 (FIPS 197). -/

/-- The S-box, packed: byte x of it is the substitute of x. -/
def aesBox : Nat :=
  0x16bb54b00f2d99416842e6bf0d89a18cdf2855cee9871e9b948ed9691198f8e19e1dc186b95735610ef6034866b53e708a8bbd4b1f74dde8c6b4a61c2e2578ba * 2 ^ 1536
    + 0x08ae7a65eaf4566ca94ed58d6d37c8e779e4959162acd3c25c2406490a3a32e0db0b5ede14b8ee4688902a22dc4f816073195d643d7ea7c41744975fec130ccd * 2 ^ 1024
    + 0xd2f3ff1021dab6bcf5389d928f40a351a89f3c507f02f94585334d43fbaaefd0cf584c4a39becb6a5bb1fc20ed00d153842fe329b3d63b52a05a6e1b1a2c8309 * 2 ^ 512
    + 0x75b227ebe28012079a059618c323c7041531d871f1e5a534ccf73f362693fdb7c072a49cafa2d4adf04759fa7dc982ca76abd7fe2b670130c56f6bf27b777c63

/-- SubBytes of a byte. -/
def aesSub (b : Byte) : Byte := BitVec.ofNat 8 (aesBox >>> (8 * b.toNat))

/-- Doubling in GF(2^8). -/
def aesDouble (b : Byte) : Byte := if b.getLsbD 7 then (b <<< 1) ^^^ 0x1B else b <<< 1

/-- Byte XOR of two byte strings. -/
def xorBytes (a b : List Byte) : List Byte := List.zipWith (· ^^^ ·) a b

/-- ShiftRows of a state in column order. -/
def aesShift (s : List Byte) : List Byte := (List.range 16).map fun i => s.getD ((i + 4 * (i % 4)) % 16) 0

/-- MixColumns of one column. -/
def aesMix1 : List Byte → List Byte
  | a :: b :: c :: d :: rest =>
    (aesDouble a ^^^ aesDouble b ^^^ b ^^^ c ^^^ d) :: (a ^^^ aesDouble b ^^^ aesDouble c ^^^ c ^^^ d)
      :: (a ^^^ b ^^^ aesDouble c ^^^ aesDouble d ^^^ d) :: (aesDouble a ^^^ a ^^^ b ^^^ c ^^^ aesDouble d) :: aesMix1 rest
  | _ => []

/-- The next round key. -/
def aesNextKey (rcon : Byte) (k : List Byte) : List Byte :=
  let t := [aesSub (k.getD 13 0) ^^^ rcon, aesSub (k.getD 14 0), aesSub (k.getD 15 0), aesSub (k.getD 12 0)]
  let w0 := xorBytes (k.take 4) t
  let w1 := xorBytes ((k.drop 4).take 4) w0
  let w2 := xorBytes ((k.drop 8).take 4) w1
  let w3 := xorBytes (k.drop 12) w2
  w0 ++ w1 ++ w2 ++ w3

/-- Rounds 1 to 10; the last has no MixColumns. -/
def aesRounds : Nat → Byte → List Byte → List Byte → List Byte
  | 0, _, _, s => s
  | n + 1, rcon, k, s =>
    let k := aesNextKey rcon k
    let s := aesShift (s.map aesSub)
    aesRounds n (aesDouble rcon) k (xorBytes (if n = 0 then s else aesMix1 s) k)

/-- AES-128 of a 16-byte block. -/
def aes128 (key block : List Byte) : List Byte := aesRounds 10 1 key (xorBytes block key)

/-! CMAC (NIST SP 800-38B). -/

/-- A 16-byte string as a number, first byte most significant. -/
def bigEndian (bs : List Byte) : BitVec 128 := bs.foldl (fun v b => (v <<< 8) ||| b.setWidth 128) 0

/-- The 16 bytes of a number, most significant first. -/
def bigBytes (v : BitVec 128) : List Byte := (List.range 16).map fun i => v.extractLsb' (8 * (15 - i)) 8

/-- Subkey doubling in GF(2^128). -/
def cmacDouble (v : BitVec 128) : BitVec 128 := if v.getLsbD 127 then (v <<< 1) ^^^ 0x87 else v <<< 1

/-- The chaining over a message; n bounds its blocks. -/
def cmacChain (key : List Byte) (k1 k2 : BitVec 128) : Nat → List Byte → List Byte → List Byte
  | 0, x, _ => x
  | n + 1, x, m =>
    if !(m.drop 16).isEmpty then cmacChain key k1 k2 n (aes128 key (xorBytes x (m.take 16))) (m.drop 16)
    else
      let last := if m.length = 16 then xorBytes m (bigBytes k1)
        else xorBytes (m ++ 0x80 :: List.replicate (15 - m.length) 0) (bigBytes k2)
      aes128 key (xorBytes x last)

/-- AES-128 CMAC of a message. -/
def cmac (key msg : List Byte) : List Byte :=
  let k1 := cmacDouble (bigEndian (aes128 key (List.replicate 16 0)))
  cmacChain key k1 (cmacDouble k1) (msg.length / 16 + 1) (List.replicate 16 0) msg

/-- The bytes of a key, a nonce or a tag, byte 0 in bits 7 to 0: its words are little-endian (R12). -/
def keyBytes {n : Nat} (v : BitVec n) : List Byte := (List.range (n / 8)).map fun i => v.extractLsb' (8 * i) 8

/-- The value of bytes, byte 0 in bits 7 to 0. -/
def ofBytesLE (n : Nat) (bs : List Byte) : BitVec n := bs.foldr (fun b v => (v <<< 8) ||| b.setWidth n) 0

end Sys2Proof.Machine
end

