-- ==== Sys2Proof/Machine/SelfTest.lean ====
section
/-! DEFINITION. Self-test (chapter 16): the record sector, the start kind, slices, the start-up comparator test, the end of START,
shakeout, the LSM patrol, shakeout age. -/

namespace Sys2Proof.Machine

/-! The record sector (R579 to R583). An unlisted byte reads as erased. -/

/-- A word of the record sector. -/
def State.recW (s : State) (a : Nat) : Word := s.flash.sector.readW 0xFF a

/-- The bytes of the record that RCRC covers: 0x100 to 0x1FB, then 0x200 to 0x9FF. -/
def State.recBytes (s : State) : List Byte := s.flash.sector.slice 0xFF 0x100 0xFC ++ s.flash.sector.slice 0xFF 0x200 0x800

/-- RCRC for a device number and the bytes it covers (R579). -/
def recordCrc (devid : Word) (bs : List Byte) : Word := crc32cOf (Word.ones ^^^ devid) bs

def State.recMagic (s : State) : Bool := s.recW 0x100 == 0x4B414853

def State.stampMagic (s : State) : Bool := s.recW 0 == 0x504D5453

def State.recCrcOk (s : State) : Bool := s.recW 0x1FC == recordCrc (s.recW 0x108) s.recBytes

def State.stampCrcOk (s : State) : Bool := s.recW 0xC == crc32cOf Word.ones (s.flash.sector.slice 0xFF 0 12)

def State.recDevice (s : State) : Bool := s.recW 0x108 == wordAt s.ident.devNum 0 && s.recW 0x10C == wordAt s.ident.devNum 1

def State.stampDevice (s : State) : Bool := s.recW 8 == wordAt s.ident.devNum 0

/-- REASON of the start kind: 0 for a quick start (R582). A START that follows a run in COMMISSION is full whatever the record says (R38,
R163); where no other row of R582 holds, it takes the row of COMMISSION (DESIGN CHOICE, log 81). -/
def State.startReason (s : State) (flashOk : Bool) : BitVec 4 :=
  if s.dev.straps.commission then 7
  else if !flashOk then 8
  else if !(s.recMagic && s.stampMagic) then 1
  else if !(s.recCrcOk && s.stampCrcOk) then 2
  else if !(s.recDevice && s.stampDevice) then 3
  else if s.recW 0xFF0 != Word.ones then 4
  else if s.recW 0x104 != s.recW 4 then 5
  else if !(s.recW 0x110).getLsbD 30 then 6
  else if s.dev.wasCommission then 7
  else 0

/-- The SSEQ that the next stamp takes (R581). -/
def State.sseqAfter (s : State) (flashOk : Bool) : Word :=
  if flashOk && s.recMagic && s.recCrcOk && s.recDevice then s.recW 0x104 + 1
  else if flashOk && s.stampMagic && s.stampCrcOk && s.stampDevice then s.recW 4 + 1
  else 1

/-- The record passes every check of R582 but PASS (R569). -/
def State.recIntact (s : State) : Bool :=
  s.recMagic && s.stampMagic && s.recCrcOk && s.stampCrcOk && s.recDevice && s.stampDevice && s.recW 0xFF0 == Word.ones
    && s.recW 0x104 == s.recW 4

/-- Places one restored entry under its own SEQ (R566, R569). -/
def State.restoreEntry (s : State) (e : List Word) : State :=
  let seq := (e.getD 0 0).extractLsb' 16 16
  { s with evl := { s.evl with mem := Mem.writeWs 0 s.evl.mem (16 * (seq.toNat % 4096)) e, seq := seq + 1
                               held := min 4096 (s.evl.held + 1) } }

/-- Restores the record's log entries; a RESTORED entry takes the next SEQ (R569). -/
def State.restoreLog (s : State) : State :=
  let n := min 128 (s.recW 0x1F8).toNat
  let s := (List.range n).foldl (fun s j => s.restoreEntry (Mem.readWs 0xFF s.flash.sector (0x200 + 16 * j) 4)) s
  let seq := s.evl.seq
  let e := [seq ++ 0x7000#16, (BitVec.ofNat 32 (256 * n)), wordAt s.frm.tb 0, wordAt s.frm.tb 1]
  { s with evl := { s.evl with mem := Mem.writeWs 0 s.evl.mem (16 * (seq.toNat % 4096)) e, seq := seq + 1
                               held := min 4096 (s.evl.held + 1), newest := s.frm.tb } }

/-- Step 3 of START has ended. -/
def State.step4 (s : State) : State := { s with dev := { s.dev with startStep := 4 } }

/-- The start-up comparator test: STARTUP_PASS, or STARTUP_CMP (R159); then step 4. -/
def State.comparatorTest (s : State) (ok : Bool) : State :=
  if ok then { s.step4 with cmp := { s.cmp with startupPass := true } } else s.step4.raise { page := .cmp, cause := 10 }

/-! Slices (R570 to R572, R585). -/

/-- A test of the twelve slices begins; where FD1 is absent slice 10 carries no patterns and counts as COMPLETE and matching (R570, R670). -/
def State.beginSlices (s : State) : State :=
  { s with bst := { s.bst with
      testing := true
      slices := (List.range 12).map fun k =>
        if k = 10 && decide (s.dies < 2) then { ended := true, complete := true, matched := true } else {} } }

/-- Slice k is running: it has not ended, and the slices before it have, but for its companion (R570). -/
def State.sliceRuns (s : State) (k : Nat) : Bool :=
  (s.dev.state == .start || s.dev.state == .shakeout) && s.bst.testing && !(s.bst.slices.getD k {}).ended && (List.range k).all fun j =>
    (s.bst.slices.getD j {}).ended || (k == 1 && j == 0) || (k == 10 && j == 9)

/-- The units that a slice can report, on a device of so many dies: FD1's part of slice 11 matches where that die is absent (R570). -/
def sliceUnits (dies k : Nat) : Units :=
  match k with
  | 6 => { spb := 0xFFFF }
  | 7 => { hp := 0xF }
  | 8 => { chk := 0xFF }
  | 9 => { iob := 0x0F, fd := 1 }
  | 10 => { iob := 0xF0, fd := 2 }
  | 11 => { fd := if dies < 2 then 1 else 3 }
  | _ => {}

/-- The units whose test slice k ends: a field die has passed only with slice 11, its lanes (R585, R586). -/
def sliceTested (dies k : Nat) : Units :=
  let u := sliceUnits dies k
  if k = 11 then u else { u with fd := 0 }

def unitsInter (a b : Units) : Units :=
  { hp := a.hp &&& b.hp, iob := a.iob &&& b.iob, spb := a.spb &&& b.spb, fd := a.fd &&& b.fd, chk := a.chk &&& b.chk }

def unitsDiff (a b : Units) : Units :=
  { hp := a.hp &&& ~~~b.hp, iob := a.iob &&& ~~~b.iob, spb := a.spb &&& ~~~b.spb, fd := a.fd &&& ~~~b.fd, chk := a.chk &&& ~~~b.chk }

def unitsNone (u : Units) : Bool := u.hp == 0 && u.iob == 0 && u.spb == 0 && u.fd == 0 && u.chk == 0

/-- A die whose four banks all fail fails as a die (R585). -/
def unitsDies (u : Units) : Units :=
  { u with fd := u.fd ||| (if u.iob &&& 0x0F == 0x0F then 1 else 0) ||| (if u.iob &&& 0xF0 == 0xF0 then 2 else 0) }

/-- Marks units as unusable. -/
def State.markUnits (s : State) (u : Units) : State :=
  { s with
    hps := s.hps.mapIdx fun n (x : Hp) => { x with unusable := x.unusable || u.hp.getLsbD n }
    inBanks := s.inBanks.mapIdx fun b (x : InBank) => { x with unusable := x.unusable || u.iob.getLsbD b }
    spbs := s.spbs.mapIdx fun k (x : Spb) => { x with unusable := x.unusable || u.spb.getLsbD k }
    bars := s.bars.mapIdx fun d (x : Bar) => { x with unusable := x.unusable || u.fd.getLsbD d }
    ctxs := s.ctxs.mapIdx fun c (x : Ctx) => { x with unusable := x.unusable || u.chk.getLsbD c } }

/-- The test passes a marked scratchpad bank: the mark clears, and the fence it was held by ends (R500, R501, R586). -/
def State.releaseSpb (s : State) (k : Nat) : State :=
  if (s.spb k).unusable then (s.updSpb k fun b => { risers := b.risers }).log 5 1 (spbOf k).num12 0 0 else s

/-- Clears the marks of units that a full start-up test passes, but for units fenced in this START (R586). -/
def State.clearMarks (s : State) (u : Units) : State :=
  let s := (List.range 16).foldl (fun s k => if u.spb.getLsbD k then s.releaseSpb k else s) s
  { s with
    hps := s.hps.mapIdx fun n (x : Hp) => { x with unusable := x.unusable && (x.fenced || !u.hp.getLsbD n) }
    inBanks := s.inBanks.mapIdx fun b (x : InBank) => { x with unusable := x.unusable && (x.fenced || !u.iob.getLsbD b) }
    bars := s.bars.mapIdx fun d (x : Bar) => { x with unusable := x.unusable && (x.fenced || !u.fd.getLsbD d) }
    ctxs := s.ctxs.mapIdx fun c (x : Ctx) => { x with unusable := x.unusable && (x.fenced || !u.chk.getLsbD c) } }

/-- Fences the units of u that are not fenced (R585); each fence writes its FENCE entry. -/
def State.fenceUnits (s : State) (u : Units) : State :=
  let s := (List.range 2).foldl (fun s d => if u.fd.getLsbD d && !(s.bar d).fenced then s.fenceDie d none else s) s
  let s := (List.range 8).foldl (fun s b => if u.iob.getLsbD b && !s.bankFenced b then s.fenceBank b none else s) s
  let s := (List.range 4).foldl (fun s n => if u.hp.getLsbD n && !(s.hp n).fenced then s.fencePort n none else s) s
  let s := (List.range 16).foldl (fun s k => if u.spb.getLsbD k && !(s.spb k).fenced then s.fenceSpb k none else s) s
  (List.range 8).foldl (fun s c => if u.chk.getLsbD c && !(s.ctx c).fenced then s.fenceCtxs [c] none else s) s

/-- The units that the slices of the present test have reported so far. -/
def State.reported (s : State) : Units :=
  { hp := s.bst.slices.foldl (fun u x => u ||| x.failed.hp) 0, iob := s.bst.slices.foldl (fun u x => u ||| x.failed.iob) 0
    spb := s.bst.slices.foldl (fun u x => u ||| x.failed.spb) 0, fd := s.bst.slices.foldl (fun u x => u ||| x.failed.fd) 0
    chk := s.bst.slices.foldl (fun u x => u ||| x.failed.chk) 0 }

/-- All slices have ended: in START the comparator test follows, in SHAKEOUT the record (R576, R584). -/
def State.slicesEnded (s : State) : State :=
  if s.bst.slices.all (·.ended) then
    let s := { s with bst := { s.bst with testing := false, slicesEnd := s.frm.tb } }
    if s.dev.state == .start then s.comparatorTest s.bst.cmpOk else s
  else s

/-- A slice has ended. In START a failed slice marks and fences its units, or, with none, latches STARTUP_FAIL; the marks of the units
whose test it passes clear, all of them where the slice passes, and those it does not report where it is COMPLETE and reports others
(R585, R586). In SHAKEOUT a bank that fails is marked and fenced (R500). -/
def State.endSlice (s : State) (k : Nat) (r : Slice) : State :=
  let pass := r.complete && r.matched
  let u := if pass then {} else unitsInter r.failed (sliceUnits s.dies k)
  let s := { s with bst := { s.bst with slices := s.bst.slices.set k { r with ended := true, failed := u } } }
  let all := unitsDies s.reported
  let s :=
    if s.dev.state == .start then
      let s := if pass || (r.complete && !unitsNone u) then s.clearMarks (unitsDiff (sliceTested s.dies k) all) else s
      if pass then s
      else if unitsNone u then s.raise { page := .bst, cause := 2 }
      else (s.markUnits all).fenceUnits all
    else if k = 6 then (s.markUnits { spb := u.spb }).fenceUnits { spb := u.spb } else s
  if s.dev.state == .start || s.dev.state == .shakeout then s.slicesEnded else s

/-- SLICE_DONE. No effect where the slice is not running. -/
def doSliceDone (slice : Fin 12) (sig : Word) (patterns : BitVec 24) (failed : Units) (s : State) : State :=
  if s.sliceRuns slice then
    s.endSlice slice { complete := true, matched := sig == Config.expectedSig slice (s.dev.state == .start), sig := sig
                       patterns := patterns, failed := failed }
  else s

/-- The meaning of SLICE_DONE (R571). -/
def execSliceDone (slice : Fin 12) (sig : Word) (patterns : BitVec 24) (failed : Units) (s : State) :
    Host.Outcome State Fault Refusal := .next (doSliceDone slice sig patterns failed s)

/-- SLICE_BUDGET_EXPIRY: INCOMPLETE, with a signature that the manual does not state. -/
def doSliceBudgetExpiry (slice : Fin 12) (patterns : BitVec 24) (failed : Units) (s : State) : State :=
  if s.sliceRuns slice then
    let w := s.freeWord
    w.2.endSlice slice { sig := w.1, patterns := patterns, failed := failed }
  else s

/-- The meaning of SLICE_BUDGET_EXPIRY (R572). -/
def execSliceBudgetExpiry (slice : Fin 12) (patterns : BitVec 24) (failed : Units) (s : State) :
    Host.Outcome State Fault Refusal := .next (doSliceBudgetExpiry slice patterns failed s)

/-! START (R582, R618). -/

/-- RECORD_READ_DONE. VALID of LAST_SHAKE is 1 with a record whose RCRC passed, and the reserved bits of the record's words read 0
(R596). No effect but in step 3 of START. -/
def doRecordReadDone (flashOk cmpOk : Bool) (s : State) : State :=
  if s.dev.state == .start && s.dev.startStep == 3 && s.bst.startKind == 0 then
    let reason := s.startReason flashOk
    let found := flashOk && s.recMagic && s.recCrcOk
    let restore := flashOk && s.recIntact && s.dev.startCause == 1
    let s := { s with bst := { s.bst with
      startKind := if reason = 0 then 1 else 2, reason := reason, nextSseq := s.sseqAfter flashOk, cmpOk := cmpOk
      lastShake := if found then flag true 31 ||| (s.recW 0x110 &&& 0x7F000000) else 0
      lastSlices := if found then s.recW 0x114 &&& 0x0FFF0FFF else 0
      lastTime := if found then s.recW 0x118 else 0 } }
    let s := if restore then s.restoreLog else s
    let s := if flashOk then { s with flash := { s.flash with sector := Mem.writeW 0xFF s.flash.sector 0xFF0 0 } } else s
    if reason = 0 then
      (s.clearMarks { hp := 0xF, iob := 0xFF, spb := 0xFFFF, fd := 3, chk := 0xFF }).comparatorTest cmpOk
    else s.beginSlices
  else s

/-- The meaning of RECORD_READ_DONE (R582, R583, R569, R159). -/
def execRecordReadDone (flashOk cmpOk : Bool) (s : State) : Host.Outcome State Fault Refusal := .next (doRecordReadDone flashOk cmpOk s)

/-- The key copies are loaded from one-time-programmable storage (R574); a key whose stored check fails is unusable (R479). -/
def State.loadKeys (s : State) : State :=
  { s with
    own := { s.own with workSess := s.otp.sess.getD 0, workImg := s.otp.img.getD 0 }
    bst := { s.bst with keysLoaded := true, age := 0 } }

/-- Every bank not marked unusable is ON and zero-filled (R490). -/
def State.zeroFill (s : State) : State :=
  { s with spbs := s.spbs.map fun b => if b.unusable then b else { b with power := .on, req := 0, mem := [] } }

/-- START_EXIT. The page reset values of step 4 are those that the entry to START gave: no port writes a page in START, and what START itself
latched since stays (R618). DEDUCED, log 114. No effect before step 4 of START. -/
def doStartExit (s : State) : State :=
  if s.dev.state == .start && s.dev.startStep == 4 then
    let s := s.loadKeys.zeroFill
    let s := { s with dev := { s.dev with wasCommission := s.dev.straps.commission } }
    (if s.dev.straps.commission then s.changeState .commission else s.enterLoad).startLoader 0
  else s

/-- The meaning of START_EXIT (R35, R427, R436, R490, R574, R618). -/
def execStartExit (s : State) : Host.Outcome State Fault Refusal := .next (doStartExit s)

/-! The event log's writer (R566 to R568). -/

/-- The order of R567: time, then page, code and group; entries of one key keep the order of their queue. -/
def LogItem.before (a b : LogItem) : Bool :=
  decide (a.time.toNat < b.time.toNat) || (a.time == b.time && (decide (a.page.toNat < b.page.toNat)
    || (a.page == b.page && (decide (a.code.toNat < b.code.toNat) || (a.code == b.code && decide (a.group < b.group))))))

/-- The entry that the writer takes next, and the rest of the queue. -/
def nextItem : List LogItem → Option (LogItem × List LogItem)
  | [] => none
  | a :: l => match nextItem l with
    | none => some (a, l)
    | some (b, rest) => if b.before a then some (b, a :: rest) else some (a, l)

/-- Writes an entry: the next SEQ; a TIME before the newest one written takes that one and LATE (R565 to R567). -/
def Evl.put (e : Evl) (it : LogItem) : Evl :=
  let late := decide (it.time.toNat < e.newest.toNat)
  let t := if late then e.newest else it.time
  let w0 := (e.seq ++ 0#16) ||| it.w0 ||| flag late 5
  { e with mem := Mem.writeWs 0 e.mem (16 * (e.seq.toNat % 4096)) [w0, it.w1, wordAt t 0, wordAt t 1]
           seq := e.seq + 1, newest := t, held := min 4096 (e.held + 1) }

/-- Takes one entry from the queue and writes it; where entries were lost, an OVERFLOW entry joins the queue, which has room now (R568). -/
def Evl.write (e : Evl) : Evl :=
  match nextItem e.queue with
  | none => e
  | some (it, rest) =>
    let e := { e with queue := rest }.put it
    if e.lost = 0 then e
    else
      let w := logWords 6 e.lostReaction.toNat 0 0 0 e.lost 0
      { e with queue := e.queue ++ [{ time := e.newest, page := 0, code := 0, w0 := w.1, w1 := w.2 }], lost := 0, lostReaction := 0 }

/-- Writes until the queue is empty. -/
def Evl.drain : Nat → Evl → Evl
  | 0, e => e
  | n + 1, e => Evl.drain n e.write

/-- The newest 128 entries, oldest first, once the entries of the queue have been written (R569, R576). -/
def State.logSnapshot (s : State) : List (List Word) :=
  let e := s.evl.drain (s.evl.queue.length + 2)
  let n := min 128 e.held
  (List.range n).map fun j => Mem.readWs 0 e.mem (16 * ((e.seq.toNat + 65536 - n + j) % 4096)) 4

/-! Shakeout (R573, R576 to R580). -/

/-- Clears the working copies of both keys, every session key and every nonce (R573). -/
def State.clearSecrets (s : State) : State :=
  { s with own := { s.own with workSess := 0, workImg := 0 }
           bst := { s.bst with keysLoaded := false }
           hps := s.hps.map fun p => { p with session := none, nonce := none } }

/-- The slices that internal scan serves: INCOMPLETE where the secrets were not cleared (R573). -/
def scanSlices : List Nat := [0, 1, 2, 7, 8, 9, 10]

/-- Marks a slice as not run: its signature is no value that the manual states. -/
def State.skipSlice (s : State) (k : Nat) : State :=
  let w := s.freeWord
  { w.2 with bst := { w.2.bst with slices := w.2.bst.slices.set k { ended := true, sig := w.1 } } }

/-- Some page holds an open incident whose REACTION_TAKEN has ERR or an ACTION of 4 or more (R578). -/
def State.graveIncident (s : State) : Bool :=
  s.hdrs.any fun h => h.incident.isOpen && grave h.incident.reaction

/-- SHAKEOUT is entered: the snapshot, the clearing of secrets, and the slices begin (R576). -/
def State.enterShakeout (s : State) (trigger : BitVec 2) (page : BitVec 12) (secretOk : Bool) : State :=
  let clean := !s.graveIncident && !s.degraded && !s.dev.dbgSplit
  let s := s.takeBack
  let old := s.dev.state
  let s := s.changeState .shakeout page
  let s := { s with dev := { s.dev with shakeFault := false } }
  let s := { s with bst := { s.bst with trigger := trigger, shakePrev := old, shakeTime := s.frm.tb, entryClean := clean
                                        secretFail := !secretOk, idle := false, snapshot := s.logSnapshot } }
  let s := (List.range 6).foldl (fun s c => if (s.ctx c).busy then s.failJob c 5 else s) s
  let s := s.clearSecrets.beginSlices
  if secretOk then { s with bst := { s.bst with scanOn := true } }
  else (scanSlices.foldl State.skipSlice s).raise { page := .bst, cause := 1 }

/-- PASS of the shakeout record (R578). -/
def State.shakePass (s : State) : Bool :=
  s.bst.slices.all (fun x => x.complete && x.matched) && !s.bst.secretFail && s.bst.entryClean && !s.dev.shakeFault

/-- INFO of the record: the layout of LAST_SHAKE (R579, R596). -/
def State.shakeInfo (s : State) : Word :=
  flag true 31 ||| flag s.shakePass 30 ||| field s.bst.trigger 28 ||| BitVec.ofNat 32 (s.bst.shakePrev.code * 2 ^ 24)

/-- The bits of SLICES: COMPLETE in 27 to 16, PASSED in 11 to 0 (R596). -/
def State.sliceBits (s : State) : Word :=
  (List.range 12).foldl (fun w k =>
    let x := s.bst.slices.getD k {}
    w ||| flag x.complete (16 + k) ||| flag (x.complete && x.matched) k) 0

/-- A Units value in the layout of UNUSABLE0 and UNUSABLE1 (R597). -/
def unitsWord0 (u : Units) : Word := field u.hp 24 ||| field u.iob 16 ||| field u.spb 0
def unitsWord1 (u : Units) : Word := field u.fd 8 ||| field u.chk 0

/-- The log pages: the snapshot, unused entries 0 (R579). -/
def State.logPages (s : State) : List Word := s.bst.snapshot.flatten ++ List.replicate (512 - 4 * s.bst.snapshot.length) 0

/-- The record page but for RCRC: 0x100 to 0x1FB (R579). -/
def State.recordPage (s : State) : List Word :=
  let dur := (s.bst.slicesEnd.toNat - s.bst.shakeTime.toNat) / 100
  let u := unitsDies s.reported
  [0x4B414853, s.bst.sseq, wordAt s.ident.devNum 0, wordAt s.ident.devNum 1, s.shakeInfo, s.sliceBits, BitVec.ofNat 32 dur
    , unitsWord0 u, unitsWord1 u, 0, wordAt s.bst.shakeTime 0, wordAt s.bst.shakeTime 1]
    ++ (s.bst.slices.flatMap fun x => [x.sig, flag x.complete 31 ||| flag x.matched 30 ||| field x.patterns 0])
    ++ List.replicate 26 0 ++ [BitVec.ofNat 32 s.bst.snapshot.length]

/-- RECORD_WRITE_DONE: with the sector READY the log pages are programmed and, where the device completes it, the record page;
the heartbeats stop and the device idles (R576, R580). No effect before the slices have ended. -/
def doRecordWriteDone (ok : Bool) (s : State) : State :=
  if s.dev.state == .shakeout && !s.bst.testing && !s.bst.idle then
    let rec0 := s.recordPage
    let logs := s.logPages
    let crc := recordCrc (wordAt s.ident.devNum 0) (bytesOf rec0 ++ bytesOf logs)
    let sec :=
      if s.bst.sector != .ready then s.flash.sector
      else
        let m := Mem.writeWs 0xFF s.flash.sector 0x200 logs
        if ok then Mem.writeWs 0xFF m 0x100 (rec0 ++ [crc]) else m
    { s with flash := { s.flash with sector := sec }, bst := { s.bst with idle := true, scanOn := false } }
  else s

/-- The meaning of RECORD_WRITE_DONE (R580). -/
def execRecordWriteDone (ok : Bool) (s : State) : Host.Outcome State Fault Refusal := .next (doRecordWriteDone ok s)

/-! The stamp (R581). -/

/-- At the first entry to RUN after a START the sector is erased, and the stamp is to follow. -/
def State.firstRun (s : State) : State :=
  if s.dev.stamped then s
  else { s with dev := { s.dev with stamped := true }, bst := { s.bst with sector := .erasing }, flash := { s.flash with sector := [] } }

/-- RECORD_STAMP_DONE: the stamp is programmed, or an operation reported failure. No effect where neither is in progress. -/
def doRecordStampDone (ok : Bool) (s : State) : State :=
  if s.bst.sector == .erasing then
    if ok then
      let w := [0x504D5453, s.bst.nextSseq, wordAt s.ident.devNum 0]
      { s with
        flash := { s.flash with sector := Mem.writeWs 0xFF s.flash.sector 0 (w ++ [crc32cOf Word.ones (bytesOf w)]) }
        bst := { s.bst with sector := .ready, sseq := s.bst.nextSseq } }
    else { s with bst := { s.bst with sector := .failed } }
  else s

/-- The meaning of RECORD_STAMP_DONE (R581). -/
def execRecordStampDone (ok : Bool) (s : State) : Host.Outcome State Fault Refusal := .next (doRecordStampDone ok s)

/-- STAMP_TIMEOUT: an erase not ended within 1 s. -/
def doStampTimeout (s : State) : State :=
  if s.bst.sector == .erasing then { s with bst := { s.bst with sector := .failed } } else s

/-- The meaning of STAMP_TIMEOUT (R581). -/
def execStampTimeout (s : State) : Host.Outcome State Fault Refusal := .next (doStampTimeout s)

/-! The LSM patrol (R587) and shakeout age (R589). -/

/-- An LSM error met at word w: corrected and counted, or LSM_UNCORR; the word reads as stored either way (R122; DESIGN CHOICE, log 86). -/
def State.lsmError (s : State) (h : Half) (w : Nat) (multi : Bool) : State :=
  let s := s.updChan h fun c => { c with lsmErr := flag multi 31 ||| flag true 30 ||| BitVec.ofNat 32 (4 * w) }
  if multi then s.raise { page := h.page, cause := 0 } else s.bump h.page 0x58

/-- A pass of a half's patrol has ended after a number of ticks: the counters, and LSM_PATROL_LATE past 10 ms (R587, R592). -/
def State.lsmPass (s : State) (h : Half) (ticks : Nat) : State :=
  let us := satWord (ticks / 100)
  let s := match h with
    | .c => { s with bst := { s.bst with passC := us, passStartC := s.frm.tb } }.bump .bst 0x44
    | .d => { s with bst := { s.bst with passD := us, passStartD := s.frm.tb } }
  let last := if s.bst.passC.toNat < s.bst.passD.toNat then s.bst.passD else s.bst.passC
  let s := (s.setCounter .bst 0x48 last).maxCounter .bst 0x4C last
  if 1000000 < ticks then s.raise { page := .bst, cause := 0 } else s

/-- One patrol read of a half: nothing where the channel is HALTED. -/
def State.lsmRead (s : State) (h : Half) (err : Option Bool) : State :=
  if (s.chan h).mode == .halted then s
  else
    let pos := match h with
      | .c => s.bst.posC
      | .d => s.bst.posD
    let start := match h with
      | .c => s.bst.passStartC
      | .d => s.bst.passStartD
    let s := match err with
      | none => s
      | some multi => s.lsmError h pos.toNat multi
    let s := match h with
      | .c => { s with bst := { s.bst with posC := pos + 1 } }
      | .d => { s with bst := { s.bst with posD := pos + 1 } }
    if pos + 1 = 0 then s.lsmPass h (s.frm.tb - start).toNat else s

/-- LSM_PATROL_READ. The patrol runs while boundaries run. -/
def doLsmPatrolRead (errC errD : Option Bool) (s : State) : State :=
  if s.frm.running then (s.lsmRead .c errC).lsmRead .d errD else s

/-- The meaning of LSM_PATROL_READ (R587). -/
def execLsmPatrolRead (errC errD : Option Bool) (s : State) : Host.Outcome State Fault Refusal := .next (doLsmPatrolRead errC errD s)

/-- SHAKEOUT_AGE_TICK: seconds since the end of the latest START; DUE once per START (R589, R590). -/
def doShakeoutAgeTick (s : State) : State :=
  if s.dev.state == .off || s.dev.state == .start then s
  else
    let age := satInc s.bst.age
    let due := decide (s.bst.warn.toNat * 3600 ≤ age.toNat) && !s.bst.dueDone
    let s := if due then s.mark .bst 0x110 0 else s
    { s with bst := { s.bst with age := age, due := s.bst.due || due, dueDone := s.bst.dueDone || due } }

/-- The meaning of SHAKEOUT_AGE_TICK (R589). -/
def execShakeoutAgeTick (s : State) : Host.Outcome State Fault Refusal := .next (doShakeoutAgeTick s)

end Sys2Proof.Machine
end

