-- ==== Sys2Proof/Machine/Trip.lean ====
section
/-! DEFINITION. The trip matrix's messages and tests (chapter 05) and what the barrier links report (chapter 17, R631 to R634). -/

namespace Sys2Proof.Machine

/-- An error on a lane of die d: LAST_LANE_ERR, the lane's counter and LANE_ERR; no cause while the die is fenced (R555, R631, R633). -/
def State.laneError (s : State) (d : Nat) (h : Half) (kind : Nat) : State :=
  if (s.bar d).fenced then s
  else
    let s := s.updBar d fun b =>
      { b with lastLaneErr := flag true 31 ||| BitVec.ofNat 32 (h.num * 2 ^ 30 + kind * 2 ^ 28) ||| (s.frm.tb.setWidth 24).setWidth 32 }
    (s.bump (barOf d) (if h = .c then 0x44 else 0x48)).raise { page := barOf d, cause := 0 }

/-- A bad trip message of source die d on a half is known to the core die: counted, recorded on the die's BAR page, and the raw bits
of the die's lane source masks are 0 at the next SAMPLE (R187). -/
def State.badMessage (s : State) (d : Nat) (h : Half) : State :=
  if (s.bar d).fenced then s
  else
    let s := { s with trp := { s.trp with zeroNext := putBit s.trp.zeroNext (2 * d + h.num) true } }
    ((s.bump (barOf d) 0x4C).bump .trp 0x54).laneError d h 2

/-- The lanes that the next message of die d to the core die carries: as of its sending, oldest first; with none on the way, the lanes of the
moment (R186; DESIGN CHOICE, log 98). -/
def State.sentLanes (s : State) (d : Nat) (h : Half) : BitVec 12 := ((s.trp.flight.getD (2 * d + h.num) []).head?).getD (s.laneSource h d)

/-- The lanes that the next forwarded message of die d carries: as the core die forwarded it; with none on the way, as the core die holds them. -/
def State.forwarded (s : State) (d : Nat) (h : Half) : BitVec 12 :=
  ((s.trp.forward.getD (2 * d + h.num) []).head?).getD (s.trp.laneCore.getD (2 * d + h.num) 0)

/-- A message of die d at the core die: valid, it carries the state of the die's lanes, which the core die forwards (R184, R186). A bad one is
spent. -/
def State.coreMessage (s : State) (d : Nat) (h : Half) (bad : Bool) : State :=
  let i := 2 * d + h.num
  let lanes := s.sentLanes d h
  let rest := upd s.trp.flight i (·.drop 1)
  if bad then
    ({ s with trp := { s.trp with coreBad := putBit s.trp.coreBad i true, flight := rest } }.updateTrips).badMessage d h
  else
    { s with trp := { s.trp with
        laneCore := s.trp.laneCore.set i lanes, coreBad := putBit s.trp.coreBad i false, flight := rest
        forward := upd s.trp.forward i (· ++ [lanes]) } }.updateTrips

/-- A message of die d, forwarded by the core die, at the other die: a bad one is spent, and reported in that die's next heartbeat (R184,
R187). -/
def State.destMessage (s : State) (d : Nat) (h : Half) (bad : Bool) : State :=
  let i := 2 * d + h.num
  let t := { s.trp with forward := upd s.trp.forward i (·.drop 1) }
  let t := if bad then { t with destBad := putBit t.destBad i true, destReport := putBit t.destReport i true }
    else { t with laneDest := t.laneDest.set i (s.forwarded d h), destBad := putBit t.destBad i false }
  { s with trp := t }.updateTrips

/-- TRIP_MESSAGE: at the core die, or forwarded at the other die. No effect where the source's link carries no messages. -/
def doTripMessage (src : Fin 2) (h : Half) (bad toDie : Bool) (s : State) : State :=
  if !s.linked src then s else if toDie then s.destMessage src h bad else s.coreMessage src h bad

/-- The meaning of TRIP_MESSAGE: with a code error or a failed check it is a bad message (R184, R186, R187). -/
def execTripMessage (src : Fin 2) (h : Half) (code check toDie : Bool) (s : State) : Host.Outcome State Fault Refusal :=
  .next (doTripMessage src h (code || check) toDie s)

/-- The messages of die d still on the way stand before a heartbeat of its lane: both stages take each of them in turn (R186). -/
def State.flushLane (s : State) (d : Nat) (h : Half) : State :=
  let i := 2 * d + h.num
  let late := s.trp.forward.getD i []
  let s := { s with trp := { s.trp with forward := upd s.trp.forward i fun _ => [] } }
  let s := late.foldl (fun s x => { s with trp := { s.trp with laneDest := s.trp.laneDest.set i x } }.updateTrips) s
  let sent := s.trp.flight.getD i []
  let s := { s with trp := { s.trp with flight := upd s.trp.flight i fun _ => [] } }
  sent.foldl (fun s x =>
    { s with trp := { s.trp with laneCore := s.trp.laneCore.set i x, laneDest := s.trp.laneDest.set i x } }.updateTrips) s

/-- A valid heartbeat of die d: its lanes at both stages, the end of what R187 and R188 held, the heartbeat's gap (R186, R633). -/
def State.validHeartbeat (s : State) (d : Nat) (h : Half) : State :=
  let s := s.flushLane d h
  let i := 2 * d + h.num
  let lanes := s.laneSource h d
  let last := match h with
    | .c => (s.bar d).hbC
    | .d => (s.bar d).hbD
  let gap : Nat := (last.map fun t => s.frm.tb.toNat - t.toNat).getD 0
  let s := s.updBar d fun b => match h with
    | .c => { b with hbC := some s.frm.tb }
    | .d => { b with hbD := some s.frm.tb }
  let s := s.maxCounter (barOf d) 0x50 (if gap < 2 ^ 32 then BitVec.ofNat 32 gap else Word.ones)
  let t := s.trp
  let s := { s with trp := { t with
    laneCore := t.laneCore.set i lanes, laneDest := t.laneDest.set i lanes, coreBad := putBit t.coreBad i false
    destBad := putBit t.destBad i false, hbMissed := putBit t.hbMissed i false } }
  let missed := s.trp.hbMissed.getLsbD (2 * d) || s.trp.hbMissed.getLsbD (2 * d + 1)
  (if missed then s else s.setLive (barOf d) 1 false).updateTrips

/-- A condition that die d reports: live, and an event at its onset. -/
def State.report (s : State) (d c : Nat) (b : Bool) : State :=
  if (s.hdr (barOf d)).live.getLsbD c == b then s else if b then s.onset (barOf d) c else s.setLive (barOf d) c false

/-- A valid heartbeat of die d brings the report of a bad message of the other die, where one is due (R187). -/
def State.reportBad (s : State) (d : Nat) (h : Half) : State :=
  let i := 2 * (1 - d) + h.num
  if s.trp.destReport.getLsbD i then
    ({ s with trp := { s.trp with destReport := putBit s.trp.destReport i false } }).badMessage (1 - d) h
  else s

/-- HEARTBEAT of die d on a lane. With a code error or a failed check it is not valid; a valid one may report late raw bits. -/
def doHeartbeat (d : Fin 2) (h : Half) (err : Option LaneErr) (rawLate pwrLow clkDiff : Bool) (s : State) : State :=
  if !s.linked d then s
  else
    let reports := fun (s : State) => ((s.report d 2 clkDiff).report d 3 pwrLow).reportBad d h
    match err with
    | none => reports (if rawLate then (s.validHeartbeat d h).laneError d h 3 else s.validHeartbeat d h)
    | some .code => s.laneError d h 0
    | some .check => s.laneError d h 1

/-- The meaning of HEARTBEAT (R186 to R188, R631, R633, R634). -/
def execHeartbeat (d : Fin 2) (h : Half) (err : Option LaneErr) (rawLate pwrLow clkDiff : Bool) (s : State) :
    Host.Outcome State Fault Refusal := .next (doHeartbeat d h err rawLate pwrLow clkDiff s)

/-- HB_MISS: every lane of the die is demand on the half; the cause is live until both lanes' heartbeats return, and is none while
the die is fenced (R555). -/
def doHbMiss (d : Fin 2) (h : Half) (s : State) : State :=
  if !s.linked d then s
  else
    let s := { s with trp := { s.trp with hbMissed := putBit s.trp.hbMissed (2 * d + h.num) true } }.updateTrips
    if (s.bar d).fenced then s else s.report d 1 true

/-- The meaning of HB_MISS (R188, R631). -/
def execHbMiss (d : Fin 2) (h : Half) (s : State) : Host.Outcome State Fault Refusal := .next (doHbMiss d h s)

/-- CHILL: the die's outputs go to their safe states, its test gap ends; CHILLED where its link reports it. -/
def doChill (d : Fin 2) (s : State) : State :=
  let s := s.updBar d fun b => { b with chill := true }
  let dark := match s.pwl.dark with
    | some n => if dieOfBank (bankOfSlot n.toNat) = d then none else some n
    | none => none
  let s := { s with pwl := { s.pwl with dark := dark } }.updateTrips
  if s.linked d then s.report d 5 true else s

/-- The meaning of CHILL (R25, R356, R357, R631). -/
def execChill (d : Fin 2) (s : State) : Host.Outcome State Fault Refusal := .next (doChill d s)

/-- A TRP event with its location: FAULT_INFO is written where it opens the incident (R209). The unit of the event is a bank of its
location (R552). -/
def State.tripFault (s : State) (c bank : Nat) (info : Word) : State :=
  let s := if (s.hdr .trp).incident.isOpen then s else { s with trp := { s.trp with faultInfo := info } }
  s.raise { page := .trp, cause := c, unit := some bank }

/-- FAULT_INFO (R209). -/
def faultInfo (h : Half) (die index : Nat) : Word := BitVec.ofNat 32 (h.num * 2 ^ 17 + die * 2 ^ 16 + index)

/-- The wheel slot of a half (R376). -/
def State.slotOf (s : State) : Half → Nat
  | .c => s.pwl.slotC.toNat
  | .d => s.pwl.slotD.toNat

/-- The frame-in-slot count of a half (R376). -/
def State.inSlotOf (s : State) : Half → Nat
  | .c => s.pwl.inC.toNat
  | .d => s.pwl.inD.toNat

/-- A lane test runs in the present slot, in its first frame and so once a revolution: both dies are linked, not fenced and not in chill
(R200, log 83). A halted wheel stands in its slot, and the test of that slot then runs in every frame where it halted in the slot's first one
(DESIGN CHOICE, log 108: R393 stops dark pulses and judgments, and no rule stops the lane tests). -/
def State.laneTesting (s : State) (h : Half) : Bool :=
  s.frm.running && decide (s.slotOf h < 24) && s.inSlotOf h == 0 && (List.range 2).all fun d => s.linked d && !(s.bar d).fenced && !(s.bar d).chill

/-- LANE_TEST_ECHO: the echo carries the source's lanes with lane k mod 12 toggled; one that differs leaves the test to LANE_FAIL. -/
def doLaneTestEcho (h : Half) (echo : BitVec 12) (s : State) : State :=
  let k := s.slotOf h
  if s.laneTesting h && !s.prog.laneOk.getLsbD h.num && echo == (s.laneSource h (k / 12)) ^^^ bitMask 12 (k % 12) then
    { s with prog := { s.prog with laneOk := putBit s.prog.laneOk h.num true } }.bump .trp 0x50
  else s

/-- The meaning of LANE_TEST_ECHO (R200, R203). -/
def execLaneTestEcho (h : Half) (echo : BitVec 12) (s : State) : Host.Outcome State Fault Refusal := .next (doLaneTestEcho h echo s)

/-- LANE_FAIL: no effect where no lane test runs or its echo has arrived. -/
def doLaneFail (h : Half) (s : State) : State :=
  let k := s.slotOf h
  if s.laneTesting h && !s.prog.laneOk.getLsbD h.num then s.tripFault 2 (4 * (k / 12)) (faultInfo h (k / 12) (k % 12)) else s

/-- The meaning of LANE_FAIL (R200, R201, R209). -/
def execLaneFail (h : Half) (s : State) : Host.Outcome State Fault Refusal := .next (doLaneFail h s)

end Sys2Proof.Machine
end

