-- ==== Sys2Proof/Machine/Channels.lean ====
section
/-! DEFINITION. The evaluation channels and the cross-comparator (chapter 04): exchange, compare entries, program words, traps,
cache refills, debug. -/

namespace Sys2Proof.Machine

/-! Compare entries (R131, R132, R138, R139, R176, R679). -/

/-- A compare entry: KIND, BE (all bytes), ADDR, DATA (R132). -/
def entryOf (kind : BitVec 4) (addr : BitVec 24) (data : Word) : BitVec 64 := kind ++ 0xF#4 ++ addr ++ data

/-- The cause of a mismatch by the KIND of the entry (R155). -/
def mismatchCause (kind : Nat) : Nat :=
  match kind with
  | 3 => 1
  | 4 => 2
  | 5 => 3
  | 6 => 4
  | _ => 0

/-- Core cycles since the boundary: four in a tick (R117, R176). -/
def State.cycle (s : State) : Nat := 4 * (s.frm.tb.toNat - s.frm.lastBnd.toNat)

/-- An entry as MM_COPE and MM_DRAG show it; where a channel presented none, no rule gives a value and it is free. -/
def State.mmEntry (s : State) (e : Option (BitVec 64)) : BitVec 64 × State :=
  match e with
  | some v => (v, s)
  | none =>
    let a := s.freeWord
    let b := a.2.freeWord
    (a.1 ++ b.1, b.2)

/-- A mismatch that both comparators report: captured where it opens the incident (R176), and its cause. -/
def State.mismatch (s : State) (ec ed : Option (BitVec 64)) : State :=
  let kind := ((ec.orElse fun _ => ed).getD 0 >>> 60).toNat
  let s :=
    if (s.hdr .cmp).incident.isOpen || !(s.hdr .cmp).enable.getLsbD (mismatchCause kind) then s
    else
      let c := s.mmEntry ec
      let d := c.2.mmEntry ed
      { d.2 with cmp := { d.2.cmp with
        mmInfo := flag true 31 ||| BitVec.ofNat 32 (kind * 2 ^ 24 + s.cycle % 2 ^ 19), mmCope := c.1, mmDrag := d.1 } }
  s.raise { page := .cmp, cause := mismatchCause kind }

/-- The comparators take a pair of entries, DRAG's as its true value: MATCH exactly when both are there and equal. Answers MATCH. -/
def State.compareEntry (s : State) (u : Upset) (ec ed : Option (BitVec 64)) : State × Bool :=
  if !s.cmp.active || (ec.isNone && ed.isNone) then (s, false)
  else
    let same := ec == ed
    let vc := u.stuckC.getD same
    let vd := u.stuckD.getD same
    let s := { s with prog := { s.prog with entries := s.prog.entries + 1 } }
    if vc && vd then (s, true)
    else
      let s := { s with prog := { s.prog with mismatchAt := some (s.prog.mismatchAt.getD s.frm.tb) } }
      if vc != vd then (s.raise { page := .cmp, cause := 6 }, false) else (s.mismatch ec ed, false)

/-- The presenting of entries in one command: the state, and how many entries each channel has presented. -/
structure Lane where
  s : State
  nC : Nat := 0
  nD : Nat := 0
  /-- The LSM error that the command brings has been met: corrected, it is met once (R122). -/
  met : Bool := false

/-- What reaches the comparators of the n-th entry of a channel. -/
def passEntry (u : Upset) (h : Half) (n : Nat) (e : Option (BitVec 64)) : Option (BitVec 64) :=
  match e with
  | none => none
  | some v =>
    if u.drop == some (h, n) then none
    else match u.flip with
      | some (g, k, m) => if g == h && k == n then some (v ^^^ m) else some v
      | none => some v

/-- One pair is presented. Answers MATCH. -/
def Lane.present (l : Lane) (u : Upset) (ec ed : Option (BitVec 64)) : Lane × Bool :=
  let r := l.s.compareEntry u (passEntry u .c l.nC ec) (passEntry u .d l.nD ed)
  ({ s := r.1, nC := l.nC + (if ec.isSome then 1 else 0), nD := l.nD + (if ed.isSome then 1 else 0), met := l.met }, r.2)

/-- The entries of two lists, pair by pair. -/
def Lane.presentAll (l : Lane) (u : Upset) : List (BitVec 64 × BitVec 64) → Lane
  | [] => l
  | e :: es => Lane.presentAll (l.present u (some e.1) (some e.2)).1 u es

/-- A parity error of the delay stages and a lost offset, met as a command presents its entries (R133, R155). -/
def State.disturb (s : State) (u : Upset) : State :=
  if !s.cmp.active then s
  else
    let s := if u.parity then s.raise { page := .cmp, cause := 7 } else s
    if u.offset && s.cmp.active then s.raise { page := .cmp, cause := 8 } else s

/-- The channel has taken the stop trap. -/
def State.trapped (s : State) : Bool := s.cope.mode == .trapped

/-! Exchange (R124 to R129, R140, R177). -/

/-- An exchange runs: the frame is evaluated, and no stop trap or debug split has come. -/
def State.exchanging (s : State) : Bool :=
  s.frm.running && s.prog.evalFrame && s.frm.phase == 1 && !s.trapped && !s.dev.dbgSplit

/-- The inputs of a die in a device vector. -/
def dieMask (d : Nat) : BitVec 112 := vecOf 112 fun i => dieOfInput i == d

/-- EXCHANGE_RAW_TIMEOUT: the die's raw bits, late or failing their lane check, are 0 in the channel, and the fault is recorded on the die's BAR
page. No effect but in an exchange whose agreed vector is not formed, on a die in service. -/
def doExchangeRawTimeout (d : Fin 2) (h : Half) (failed : Bool) (s : State) : State :=
  if s.exchanging && !s.prog.exchanged && decide (d.val < s.dies) then
    (s.updChan h fun c => { c with raw := c.raw &&& ~~~(dieMask d) }).laneError d h (if failed then 1 else 3)
  else s

/-- The meaning of EXCHANGE_RAW_TIMEOUT (R125, R631, R634). -/
def execExchangeRawTimeout (d : Fin 2) (h : Half) (s : State) (failed : Bool := false) : Host.Outcome State Fault Refusal :=
  .next (doExchangeRawTimeout d h failed s)

/-- DISAGREE_FRAMES of an input (R129, R333). -/
def State.disagreeFrames (s : State) (i : Nat) : Nat :=
  let v := ((s.inp i).cfg.extractLsb' 16 8).toNat
  if v = 0 then 2 else v

/-- The disagreement counters after a frame's raw vectors (R128). -/
def disCounts (old : List (BitVec 8)) (diff : BitVec 112) : List (BitVec 8) :=
  old.mapIdx fun i v => if diff.getLsbD i then satInc v else 0

/-- DISAGREE of an input: live while its counter exceeds DISAGREE_FRAMES in a channel, an event as it first does (R128, R129). -/
def State.disagree (s : State) (i : Nat) : State :=
  let past := fun (c : Chan) => decide (s.disagreeFrames i < (c.disCount.getD i 0).toNat)
  let high := s.isInput i && (past s.cope || past s.drag)
  if (s.inp i).live.getLsbD 0 == high then s
  else
    let s := s.updInp i fun u => { u with live := putBit u.live 0 high }
    if high then s.latchIn i 0 else s

/-- QUAL and OQUAL as the field dies latched them at SAMPLE (R313, R349). -/
def State.sampledQual (s : State) : BitVec 112 := vecOf 112 fun i => (s.inBank (bankOfInput i)).qual.getLsbD (localOfInput i)
def State.sampledOqual (s : State) : BitVec 48 := vecOf 48 fun n => (s.outBank (n / 6)).oqual.getLsbD (n % 6)

/-- The channels' disagreement counters are live state and so compared: a counter that differs is a pair of kind 0x1 entries that differ. No rule
places the counters, and the address of the entries is free (R128, R131, log 79). -/
def State.compareCounts (s : State) : State :=
  match (List.range 112).find? fun i => s.cope.disCount.getD i 0 != s.drag.disCount.getD i 0 with
  | none => s
  | some i =>
    let a := s.freeWord
    let e := fun (c : Chan) => some (entryOf 1 (a.1.extractLsb' 0 24) ((c.disCount.getD i 0).setWidth 32))
    (a.2.compareEntry {} (e s.cope) (e s.drag)).1

/-- RAW_VECTOR_ARRIVAL: the agreed vector is formed and the disagreement counters move, once in an exchange. -/
def doRawVectorArrival (s : State) : State :=
  if s.exchanging && !s.prog.exchanged then
    let diff := s.cope.raw ^^^ s.drag.raw
    let agreed := s.cope.raw &&& s.drag.raw
    let q := s.sampledQual
    let oq := s.sampledOqual
    let form := fun (c : Chan) => { c with agreed := agreed, qual := q, oqual := oq, disCount := disCounts c.disCount diff }
    let s := { s with cope := form s.cope, drag := form s.drag, prog := { s.prog with exchanged := true } }
    let s := (List.range 8).foldl (fun s b =>
      s.addCounter (fibOf b) 0x44 (((List.range 14).filter fun k => diff.getLsbD (inputOf b k)).length)) s
    ((List.range 112).foldl State.disagree (s.addCounter .cmp 0x50 (ones diff))).compareCounts
  else s

/-- The meaning of RAW_VECTOR_ARRIVAL (R126 to R129, R172, R313, R349). -/
def execRawVectorArrival (s : State) : Host.Outcome State Fault Refusal := .next (doRawVectorArrival s)

/-- XCHG_TIMEOUT. No effect once the agreed vector is formed. -/
def doXchgTimeout (_h : Half) (s : State) : State :=
  if s.exchanging && !s.prog.exchanged then s.raise { page := .cmp, cause := 9 } else s

/-- The meaning of XCHG_TIMEOUT (R155). -/
def execXchgTimeout (h : Half) (s : State) : Host.Outcome State Fault Refusal := .next (doXchgTimeout h s)

/-- A comparator's verdict on exercise pair n: MISMATCH unless the pair's entries were made equal on the way, or its output is stuck. -/
def exerciseVerdict (u : Upset) (bit n : Nat) (stuck : Option Bool) : Bool :=
  let p : BitVec 64 := if n = 0 then 0x5555555555555555 else 0xAAAAAAAAAAAAAAAA
  stuck.getD (passEntry u .c n (some p) == passEntry u .d n (some (p ^^^ bitMask 64 bit)))

/-- EXERCISE_PAIR: the two pairs of a frame. A comparator that reports MATCH for either fails the exercise; where only one does, the
verdicts are split as well and FIRST_CAUSE holds both bits. -/
def doExercisePair (u : Upset) (s : State) : State :=
  if s.exchanging && s.cmp.active then
    let bit := s.frm.frameNum.toNat % 64
    let c := fun (n : Nat) => exerciseVerdict u bit n u.stuckC
    let d := fun (n : Nat) => exerciseVerdict u bit n u.stuckD
    let fail := c 0 || c 1 || d 0 || d 1
    let split := c 0 != d 0 || c 1 != d 1
    let s := { s with cmp := { s.cmp with exOk := !fail, exBit := BitVec.ofNat 6 bit } }
    let s := if fail then s.raise { page := .cmp, cause := 5 } else s.bump .cmp 0x4C
    let s := if fail && split then s.raise { page := .cmp, cause := 6 } else s
    if u.parity then s.raise { page := .cmp, cause := 7 } else s
  else s

/-- The meaning of EXERCISE_PAIR (R140, R141, R133, R172, R173). -/
def execExercisePair (u : Upset) (s : State) : Host.Outcome State Fault Refusal := .next (doExercisePair u s)

/-- AGREE_COMPARE: each channel presents its agreed vector. -/
def doAgreeCompare (u : Upset) (s : State) : State :=
  if s.exchanging && s.prog.exchanged then
    let e := fun (c : Chan) (w : Nat) => entryOf 5 (BitVec.ofNat 24 w) (wordAt c.agreed w)
    (Lane.presentAll { s := s.disturb u } u ((List.range 4).map fun w => (e s.cope w, e s.drag w))).s
  else s

/-- The meaning of AGREE_COMPARE (R131, R155). -/
def execAgreeCompare (u : Upset) (s : State) : Host.Outcome State Fault Refusal := .next (doAgreeCompare u s)

/-! Program words (R416, R418, R494, R529). -/

/-- The word at a channel's PC, as a true value. -/
def State.fetch (s : State) (h : Half) (off : Nat) : Word :=
  let c := s.chan h
  h.trueWord (c.icache.readW h.fill (c.pc.toNat - s.img.codeAt + off))

/-- OP, FIRST and COUNT of a program word (R416). -/
def opOf (w : Word) : Nat := (w >>> 28).toNat
def firstOf (w : Word) : Nat := (w.extractLsb' 10 9).toNat
def countOf (w : Word) : Nat := (w.extractLsb' 0 10).toNat

/-- Word k of the record of instance i in a channel's LSM, as a true value. -/
def State.lsmWord (s : State) (h : Half) (a : Nat) : Word := h.trueWord ((s.chan h).lsm.readW h.fill a)

/-- Word j of the BLOCKS entry of instance i in a channel's constant cache, as a true value. -/
def State.constWord (s : State) (h : Half) (i j : Nat) : Word := h.trueWord ((s.chan h).kcache.readW h.fill (32 * i + 4 * j))

/-- The record of instance i in a channel. -/
def State.recordOf (s : State) (h : Half) (i : Nat) : List Word := (List.range 16).map fun k => s.lsmWord h (64 * i + 4 * k)

/-- DATA of a compare entry (R132). -/
def entryData (e : BitVec 64) : Word := e.extractLsb' 0 32

/-- A write to a channel's LSM (R119, R135). -/
def State.lsmWrite (s : State) (h : Half) (a : Nat) (w : Word) : State :=
  s.updChan h fun c => { c with lsm := c.lsm.writeW h.fill a (h.trueWord w) }

/-- The address lies in the live state (R143). -/
def State.isLive (s : State) (a : Nat) : Bool := s.cmp.ranges.any fun r => decide (r.1 ≤ a ∧ a < r.1 + r.2)

/-- A fence holds the instance: an agreed input or an output of a fenced bank, or its host's port (R229, R288, R680). -/
def State.instFenced (s : State) (type : Nat) (p : Nat → Word) : Bool :=
  (srefsOf type p).any (fun r => srefKind r == 1 && s.bankFenced (bankOfInput (srefInput r)))
    || (type == 0x0C && (pairOutputs p).any fun n => s.bankFenced (n / 6))
    || (type == 0x1A && (s.hp ((p 1).extractLsb' 0 2).toNat).fenced)

/-- What instance i reads in a channel. -/
def State.blockIn (s : State) (h : Half) (i : Nat) : BlockIn :=
  let c := s.chan h
  let p := fun j => s.constWord h i j
  let forced := (c.forceNow ||| c.forcePrev).getLsbD i
  { forced := forced
    sref := fun r =>
      if forced then false
      else match srefKind r with
        | 1 => c.agreed.getLsbD (srefInput r) && c.qual.getLsbD (srefInput r)
        | 2 => (s.lsmWord h (64 * srefInst r + 4)).getLsbD (srefOut r)
        | _ => false
    qual := fun r => srefKind r != 1 || c.qual.getLsbD (srefInput r)
    p := p, now := s.frm.lastBnd, frame := s.frm.frameNum, run := s.prog.state == .run, safeFirst := s.prog.safeFirst
    fenced := s.instFenced ((p 0).extractLsb' 24 8).toNat p, fresh := s.img.fresh
    oqual := fun n => c.oqual.getLsbD n, runStart := s.img.runStart, compat := s.compat
    permit := fun n => ((s.hp n).used, (s.hp n).timedOut)
    counted := fun i g => if forced then (0, 0) else ((s.comp i g).sample.2.1.toNat, (s.comp i g).sample.2.2.toNat) }

/-- The new record of instance i in a channel, with a computing upset, and its BLOCK entries. -/
def State.evalInst (s : State) (h : Half) (i : Nat) (u : Option RegUpset) : List Word × List Nat :=
  let r := evalBlock (s.recordOf h i) (s.blockIn h i)
  match u with
  | some x => if x.half == h && x.inst.val == i then (r.1.set x.word (r.1.getD x.word 0 ^^^ x.mask), r.2) else r
  | none => r

/-- A BLOCK entry of the event log: TIME is the boundary plus COMMIT_AT (R565). -/
def State.logBlock (s : State) (inst code type : Nat) : State :=
  let w := logWords 2 0 0 code 0 (BitVec.ofNat 12 inst) (BitVec.ofNat 8 type)
  s.logPush { time := s.frm.lastBnd + s.frm.commitAt.setWidth 64, page := 0, code := BitVec.ofNat 5 code, w0 := w.1, w1 := w.2 }

/-- One record word of instance i after its evaluation: written where it changed, presented where live, and sent to the FBS buffer with COPE's
delayed value; the FAULTS word carries the BLOCK entries of its faults, and the STATE word that of RESET_HELD (R135, R134, R565, R679). -/
def Lane.recordWord (l : Lane) (u : Upset) (i k type : Nat) (c d : Word × Word) (codes : List Nat) : Lane :=
  let a := 64 * i + 4 * k
  let put := fun (s : State) (h : Half) (x : Word × Word) => if x.1 == x.2 then s else s.lsmWrite h a x.2
  let l := { l with s := put (put l.s .c c) .d d }
  let e := fun (kind : BitVec 4) (base : Nat) (x : Word × Word) =>
    if x.1 == x.2 then none else some (entryOf kind (BitVec.ofNat 24 (base + a)) x.2)
  let l := if l.s.isLive a then (l.present u (e 1 0 c) (e 1 0 d)).1 else l
  let r := l.present u (e 2 0x100000 c) (e 2 0x100000 d)
  match r.2, passEntry u .c l.nC (e 2 0x100000 c) with
  | true, some v =>
    let s := { r.1.s with fbsBuf := r.1.s.fbsBuf.writeW 0 a (entryData v) }
    let mine := codes.filter fun b => if k = 2 then b < 16 else k = 0 && b == 16
    { r.1 with s := mine.foldl (fun s b => s.logBlock i b type) s }
  | _, _ => r.1

/-- The record words from word k on; a stop trap abandons the dispatch (R153). -/
def Lane.recordWords (u : Upset) (i type : Nat) (codes : List Nat) : Lane → Nat → List (Word × Word) → List (Word × Word) → Lane
  | l, _, [], _ => l
  | l, _, _, [] => l
  | l, k, c :: cs, d :: ds =>
    if l.s.trapped then l else Lane.recordWords u i type codes (l.recordWord u i k type c d codes) (k + 1) cs ds

/-- An LSM error met where a command reads the words of the channel's LSM that p names (R122). -/
def State.lsmMeets (s : State) (u : Option LsmUpset) (p : Half → Nat → Bool) : State :=
  match u with
  | some x => if p x.half x.word then s.lsmError x.half x.word x.multi else s
  | none => s

/-- The same as entries are presented: the first read that meets the error corrects it for those that follow. -/
def Lane.meets (l : Lane) (u : Upset) (p : Half → Nat → Bool) : Lane :=
  if l.met then l else { l with s := l.s.lsmMeets u.lsm p, met := u.lsm.any fun x => p x.half x.word }

/-- The words of a channel's LSM that the evaluation of instance i reads: its own record, and the output words of the instances that its SREFs
name (R117, R215). -/
def State.readsLsm (s : State) (i : Nat) (h : Half) (k : Nat) : Bool :=
  decide (k / 16 = i) || (srefsOf ((s.constWord h i 0).extractLsb' 24 8).toNat fun j => s.constWord h i j).any fun r =>
    srefKind r == 2 && k == 16 * srefInst r + 1

/-- SAFE_RESET: Q0 of the RESETQ that carries it reads 1 in a frame evaluated with STATE SAFE (R228). -/
def State.noteSafeReset (s : State) (i : Nat) : State :=
  let w := s.constWord .c i 0
  if w.extractLsb' 24 8 == 0x0B && (s.constWord .c i 3).getLsbD 0 && s.prog.state == .safe && (s.lsmWord .c (64 * i + 4)).getLsbD 0 then
    { s with prog := { s.prog with safeReset := true } }
  else s

/-- The type codes that a channel would dispatch for instance i are defined, or ILLEGAL latches on the channel's page (R154). -/
def State.checkType (s : State) (h : Half) (i : Nat) : State :=
  if outputsOf ((s.constWord h i 0).extractLsb' 24 8).toNat == 0 then s.raise { page := h.page, cause := 1 } else s

/-- The dispatch of instance i in both channels (R117, R135, R153, R679). -/
def Lane.dispatch (l : Lane) (u : Upset) (i : Nat) : Lane :=
  let l := l.meets u (l.s.readsLsm i)
  let s := (l.s.checkType .c i).checkType .d i
  let mark := fun (c : Chan) => { c with block := BitVec.ofNat 9 i }
  let s := { s with cope := mark s.cope, drag := mark s.drag }
  if s.trapped then { l with s := s }
  else
    let c := s.evalInst .c i u.reg
    let d := s.evalInst .d i u.reg
    let type := ((s.constWord .c i 0).extractLsb' 24 8).toNat
    let l := Lane.recordWords u i type c.2 { l with s := s } 0 ((s.recordOf .c i).zip c.1) ((s.recordOf .d i).zip d.1)
    if l.s.trapped then l
    else
      let did := fun (c : Chan) => { c with done := c.done ||| bitMask 512 i }
      { l with s := { l.s with cope := did l.s.cope, drag := did l.s.drag }.noteSafeReset i }

/-! Traps (R149 to R152). -/

/-- A trap awaits the channel's handler, which has not begun in this frame (R151). -/
def Chan.trapDue (c : Chan) : Bool := c.trapPend != 0 && !c.handlerRun

/-- A trap is due in a channel. -/
def State.trapDue (s : State) : Bool := s.cope.trapDue || s.drag.trapDue

/-- The channel takes the trap that is due: TRAP_PEND moves into TRAP_SRC and the handler begins (R151). No word of a program clears TRAP_SRC
(DESIGN CHOICE, log 92). -/
def Chan.takeTrap (c : Chan) (frame : Word) (vec : BitVec 20) : Chan :=
  if c.trapDue then
    { c with trapSrc := c.trapPend, trapPend := 0, trapFrame := frame, handlerRun := true, mode := .inHandler, retPc := some c.pc, pc := vec }
  else c

/-- The kind 0x4 entry of a channel that takes a trap (R152). -/
def Chan.trapEntry (c : Chan) (vec : BitVec 20) : Option (BitVec 64) :=
  if c.trapDue then some (entryOf 4 (BitVec.ofNat 24 ((firstBit c.trapPend).getD 0 + 1)) (vec.setWidth 32)) else none

/-- Each channel takes the trap that it holds, and presents its entry; one that takes it alone presents against none (R149 to R152). -/
def Lane.takeTrap (l : Lane) (u : Upset) : Lane :=
  let vec : BitVec 20 := l.s.img.trapVector &&& 0xFFFFC
  let c := l.s.cope
  let d := l.s.drag
  let s := { l.s with cope := c.takeTrap l.s.frm.frameNum vec, drag := d.takeTrap l.s.frm.frameNum vec }
  let s := if c.trapDue then s.bump .cop 0x60 else s
  let s := if d.trapDue then s.bump .drg 0x60 else s
  ({ l with s := s }.present u (c.trapEntry vec) (d.trapEntry vec)).1

/-- The dispatches of an EVAL word, with a trap taken between two of them; instances evaluated before a trap are not repeated. The
PC moves on once every instance is done. -/
def Lane.dispatches (u : Upset) : Lane → List Nat → Lane
  | l, [] =>
    let step := fun (c : Chan) => { c with pc := c.pc + 4, regGen := c.regGen + 1 }
    { l with s := { l.s with cope := step l.s.cope, drag := step l.s.drag } }
  | l, i :: is =>
    if l.s.trapped then l
    else if l.s.trapDue then l.takeTrap u
    else if l.s.cope.done.getLsbD i then Lane.dispatches u l is
    else
      let l := l.dispatch u i
      if l.s.trapped then l else Lane.dispatches u l is

/-- EVALUATE_START: the exchange has ended; both channels begin the program, and a trap delivered before is taken. -/
def doEvaluateStart (u : Upset) (s : State) : State :=
  if s.exchanging then
    let start := fun (c : Chan) => { c with mode := .evaluating, pc := s.entryPc, done := 0, handlerRun := false, retPc := none }
    let safe := s.dev.state == .safe
    let dis := vecOf 112 fun i => s.cope.disCount.getD i 0 != 0
    let s := { s with
      frm := { s.frm with phase := 2 }
      prog := { s.prog with evaluating := true, state := s.dev.state, safeFirst := safe && !s.dev.safeFrames }
      dev := { s.dev with safeFrames := s.dev.safeFrames || safe }
      cmp := { s.cmp with rawC := s.cope.raw, rawD := s.drag.raw, agreed := s.cope.agreed, disActive := dis }
      cope := start s.cope, drag := start s.drag
      chk := { s.chk with fed := 0 } }
    let s := s.updCtx 7 fun x => if x.fenced then x else { x with value := Word.ones ^^^ s.frm.frameNum }
    if s.trapDue then (Lane.takeTrap { s := s.disturb u } u).s else s
  else s

/-- The meaning of EVALUATE_START (R81, R150, R152, R178, R227, R529). -/
def execEvaluateStart (s : State) (u : Upset := {}) : Host.Outcome State Fault Refusal := .next (doEvaluateStart u s)

/-! Cache lines: one crucible double-word each (R120). -/

/-- The crucible double-words that the word at a channel's PC reads: itself, the second word of a PUB, and the constants of the instances it
evaluates. -/
def State.readsLine (s : State) (h : Half) (op : Nat) (line : BitVec 17) : Bool :=
  let w := s.fetch h 0
  let a := 8 * line.toNat
  let pc := (s.chan h).pc.toNat
  decide (pc / 8 = line.toNat) || (op == 3 && decide ((pc + 4) / 8 = line.toNat))
    || (op == 1 && decide (s.img.blocksAt + 32 * firstOf w ≤ a ∧ a < s.img.blocksAt + 32 * (firstOf w + countOf w)))

/-- A parity error on a line: invalidated in both channels and refetched with both stalled; a second one in the frame latches
CACHE_HARD on the page of the channel that saw it (R120). -/
def State.lineError (s : State) (h : Half) (line : BitVec 17) : State :=
  let again := s.cope.refetched.contains line || s.drag.refetched.contains line
  let stall := fun (c : Chan) => { c with refill := some line, stallSince := s.frm.tb }
  let s := { s with cope := stall s.cope, drag := stall s.drag }
  let s := (s.bump h.page 0x5C).updChan h fun c => { c with refetched := line :: c.refetched }
  if again then s.raise { page := h.page, cause := 5 } else s

/-- One byte of the crucible in a channel's form. -/
def cacheByte (h : Half) (b : Byte) : Byte :=
  match h with
  | .c => b
  | .d => ~~~b

/-- Both channels' cache line from the crucible. -/
def State.fillLine (s : State) (line : BitVec 17) : State :=
  let a := 8 * line.toNat
  let bs := s.crb.mem.slice 0 a 8
  let put := fun (h : Half) (m : Mem) (base : Nat) =>
    (List.range 8).foldl (fun m k => m.write h.fill (a + k - base) (cacheByte h (bs.getD k 0))) m
  let code := decide (s.img.codeAt ≤ a ∧ a < s.img.codeAt + s.img.codeSize)
  let fill := fun (h : Half) (c : Chan) =>
    if code then { c with icache := put h c.icache s.img.codeAt, refill := none }
    else { c with kcache := put h c.kcache s.img.blocksAt, refill := none }
  { s with cope := fill .c s.cope, drag := fill .d s.drag }

/-- CACHE_FILL: the refetch of a stalled line. A double-word with an uncorrectable error fills the line as it is stored (DESIGN CHOICE, log 80).
A half whose copy again reads with a parity error stalls anew. No effect without a stall. -/
def doCacheFill (ecc : Option EccErr) (again : Option Half) (s : State) : State :=
  match s.cope.refill with
  | none => s
  | some line =>
    let s := match ecc with
      | some e => s.crucibleError line e
      | none => s
    let s := (s.bump .crb 0x4C).endStall.fillLine line
    match again with
    | some h => s.lineError h line
    | none => s

/-- The meaning of CACHE_FILL (R120, R404, R164, R438). -/
def execCacheFill (ecc : Option EccErr) (again : Option Half) (s : State) : Host.Outcome State Fault Refusal := .next (doCacheFill ecc again s)

/-- The channel executes program words. -/
def Chan.runs (c : Chan) : Bool := c.mode == .evaluating || c.mode == .inHandler

/-- The core cycles of a stall that no refill causes, counted in both channels as it is reported: 800 in its 2 µs (R123, R164, log 82). -/
def State.countStall (s : State) : State :=
  if s.cope.refill.isSome then s else (s.addCounter .cop 0x4C 800).addCounter .drg 0x4C 800

/-- STALL_TIMEOUT. No effect on a channel that executes no program. -/
def doStallTimeout (h : Half) (s : State) : State :=
  if (s.chan h).runs then s.countStall.raise { page := h.page, cause := 2 } else s

/-- The meaning of STALL_TIMEOUT (R123, R164). -/
def execStallTimeout (h : Half) (s : State) : Host.Outcome State Fault Refusal := .next (doStallTimeout h s)

/-! One channel alone, under DBG_SPLIT (R162). -/

/-- The instances of an EVAL or FORCE word. -/
def instancesOf (w : Word) : List Nat := (List.range (countOf w)).map (firstOf w + ·)

/-- The word at a channel's PC reaches outside the channel's address map: it does not lie in CODE, names an instance past the constant cache or
past the records, or publishes past the bank (R154; DEDUCED, log 97). -/
def State.outsideMap (s : State) (h : Half) : Bool :=
  let w := s.fetch h 0
  let last := firstOf w + countOf w
  let pc := (s.chan h).pc.toNat
  !decide (s.img.codeAt ≤ pc ∧ pc + 4 ≤ s.img.codeAt + s.img.codeSize)
    || (opOf w == 1 && decide (512 < last))
    || (opOf w == 3 && decide (1024 < last ∨ 512 < ((s.fetch h 4).extractLsb' 6 9).toNat + countOf w))

/-- The word at a channel's PC is ILLEGAL: an undefined OP, or an access outside the address map (R154). -/
def State.illegalWord (s : State) (h : Half) : Bool :=
  let op := opOf (s.fetch h 0)
  !(op == 1 || op == 2 || op == 3 || op == 15) || s.outsideMap h

/-- One instance of an EVAL word of one channel alone. -/
def Lane.instAlone (l : Lane) (h : Half) (u : Upset) (i : Nat) : Lane :=
  let l := l.meets u fun g k => g == h && l.s.readsLsm i g k
  let s := l.s.checkType h i
  if (s.chan h).mode == .trapped then { l with s := s }
  else
    let new := (s.evalInst h i none).1
    let s := (List.range 16).foldl (fun s k => s.lsmWrite h (64 * i + 4 * k) (new.getD k 0)) s
    { l with s := s.updChan h fun c => { c with block := BitVec.ofNat 9 i } }

/-- The faults inside channel h that a command brings to a word that it executes alone: ILLEGAL and FBU_CHECK (R154). -/
def State.faultsAlone (s : State) (h : Half) (u : Upset) : State :=
  let s := if u.illegal == some h then s.raise { page := h.page, cause := 1 } else s
  if u.fbu == some h then s.raise { page := h.page, cause := 3 } else s

/-- END of one channel alone: of the handler, which returns to the program, or of the program, which begins anew. -/
def Chan.endAlone (c : Chan) (entry : BitVec 20) : Chan :=
  match c.retPc with
  | some r => { c with pc := r, retPc := none, regGen := c.regGen + 1, mode := if c.mode == .inHandler then .evaluating else c.mode }
  | none => { c with pc := entry, regGen := c.regGen + 1 }

/-- A program word of one channel, without entries and without writes to the fabric. A word that is ILLEGAL latches it; the stop trap ends the
word. -/
def State.wordAlone (s : State) (h : Half) (u : Upset) : State :=
  let w := s.fetch h 0
  let next := fun (s : State) (n : BitVec 20) =>
    if (s.chan h).mode == .trapped then s else s.updChan h fun c => { c with pc := c.pc + n, regGen := c.regGen + 1 }
  if s.illegalWord h then s.raise { page := h.page, cause := 1 }
  else
    let s := s.faultsAlone h u
    if (s.chan h).mode == .trapped then s
    else match opOf w with
    | 1 =>
      let l := (instancesOf w).foldl (fun l i => if (l.s.chan h).mode == .trapped then l else l.instAlone h u i) { s := s : Lane }
      next l.s 4
    | 2 => next (s.updChan h fun c => { c with forceNow := (instancesOf w).foldl (fun v i => v ||| bitMask 512 i) c.forceNow }) 4
    | 3 => next (s.lsmMeets u.lsm fun g k => g == h && decide (16 * firstOf w ≤ k ∧ k < 16 * (firstOf w + countOf w))) 8
    | _ => s.updChan h fun c => c.endAlone s.entryPc

/-- One channel's word under DBG_SPLIT: it waits for a refill, and a parity error of its own on a line that it reads stalls it (R120). -/
def State.splitOne (s : State) (op : Nat) (u : Upset) (h : Half) : State :=
  if !(s.chan h).runs || (s.chan h).refill.isSome || (opOf (s.fetch h 0) != op && !s.illegalWord h) then s
  else match u.cache with
    | some (g, line) => if g == h && s.readsLine h op line then s.lineError h line else s.wordAlone h u
    | none => s.wordAlone h u

/-- Under DBG_SPLIT, each running channel whose PC stands at a word of the OP executes it alone. -/
def State.splitWord (s : State) (op : Nat) (u : Upset) : State := (s.splitOne op u .c).splitOne op u .d

/-! The program words in lockstep. -/

/-- What comes before a program word of an OP executes: an ILLEGAL word, which latches on both channels' pages (R155), a channel
fault, a cache parity error. Answers whether the word executes: the channels run it, its OP is the command's, and nothing of these came. -/
def State.beforeWord (s : State) (op : Nat) (u : Upset) : State × Bool :=
  if !s.cope.runs || s.cope.refill.isSome || !s.prog.evaluating then (s, false)
  else
    let w := s.fetch .c 0
    if s.illegalWord .c then ((s.raise { page := .cop, cause := 1 }).raise { page := .drg, cause := 1 }, false)
    else if opOf w != op then (s, false)
    else
      match u.cache with
      | some (h, line) => if s.readsLine .c op line then (s.lineError h line, false) else (s, true)
      | none => (s, true)

/-- The faults inside a channel that a command brings: ILLEGAL of one channel alone with TRAP_MISMATCH, whose capture shows that channel's stop
trap against no entry of the other (R152, R154, R155, R176), and FBU_CHECK. -/
def State.channelFaults (s : State) (u : Upset) : State :=
  let s := match u.illegal with
    | some h =>
      let stop := fun (g : Half) => if g == h then some (entryOf 4 0 0) else none
      (s.raise { page := h.page, cause := 1 }).mismatch (stop .c) (stop .d)
    | none => s
  match u.fbu with
  | some h => s.raise { page := h.page, cause := 3 }
  | none => s

/-- What a command brings as its word begins: the faults inside the channels, then those of the compare path, in ascending cause order (R538). -/
def State.strikes (s : State) (u : Upset) : State :=
  let t := s.channelFaults u
  if !s.cmp.active then t
  else
    let t := if u.parity then t.raise { page := .cmp, cause := 7 } else t
    if u.offset then t.raise { page := .cmp, cause := 8 } else t

/-- EVAL: the instances of the word at PC, in ascending order. No effect where the main program does not stand at an EVAL word. -/
def doEval (u : Upset) (s : State) : State :=
  if s.dev.dbgSplit then s.splitWord 1 u
  else
    let r := s.beforeWord 1 u
    if !r.2 || r.1.cope.mode != .evaluating then r.1
    else
      let s := r.1.strikes u
      if s.trapped then s else (Lane.dispatches u { s := s } (instancesOf (s.fetch .c 0))).s

/-- The meaning of EVAL (R416; R117 to R155, R214 to R297, R679, R680). -/
def execEval (u : Upset) (s : State) : Host.Outcome State Fault Refusal := .next (doEval u s)

/-- FORCE: marks its instances. No effect where the handler does not stand at a FORCE word. -/
def doForce (u : Upset) (s : State) : State :=
  if s.dev.dbgSplit then s.splitWord 2 u
  else
    let r := s.beforeWord 2 u
    if !r.2 || r.1.cope.mode != .inHandler then r.1
    else
      let s := r.1.strikes u
      if s.trapped then s
      else
        let m := (instancesOf (s.fetch .c 0)).foldl (fun (v : BitVec 512) i => v ||| bitMask 512 i) 0
        let go := fun (c : Chan) => { c with forceNow := c.forceNow ||| m, pc := c.pc + 4, regGen := c.regGen + 1 }
        { s with cope := go s.cope, drag := go s.drag }

/-- The meaning of FORCE (R416, R418). -/
def execForce (u : Upset) (s : State) : Host.Outcome State Fault Refusal := .next (doForce u s)

/-- A performed publish write: to its bank, or discarded where the bank is not ON, counted as port B access and, in a fenced bank, in
ENG_DROP; context 7 is fed either way (R488, R494, R501, R504, R529). -/
def State.pubWrite (s : State) (bank off : Nat) (w : Word) : State :=
  let b := s.spb bank
  let s :=
    if b.power == .on && !b.fenced then (s.touchSegment bank off).updSpb bank fun b => { b with mem := b.mem.writeW 0 off w }
    else if b.fenced then (s.bump (spbOf bank) 0x4C).bump .spc 0x64
    else s.bump (spbOf bank) 0x4C
  if (s.ctx 7).fenced then s
  else
    ({ s with chk := { s.chk with fed := satInc s.chk.fed } }).updCtx 7 fun x =>
      { x with value := crc32c x.value [byteOf w 0, byteOf w 1, byteOf w 2, byteOf w 3] }

/-- The writes of a PUB: word k of its records from LSM address a to byte off + 4k of the bank. -/
def Lane.pubWords (u : Upset) (bank off a : Nat) : Nat → Nat → Lane → Lane
  | 0, _, l => l
  | n + 1, k, l =>
    if l.s.trapped then l
    else
      let l := l.meets u fun _ j => j == a / 4 + k
      let s := l.s
      let at' := BitVec.ofNat 24 (0x400000 + 0x8000 * bank + off + 4 * k)
      let c := s.lsmWord .c (a + 4 * k)
      let d := s.lsmWord .d (a + 4 * k)
      let r := { l with s := s }.present u (some (entryOf 2 at' c)) (some (entryOf 2 at' d))
      let l := match r.2, passEntry u .c l.nC (some (entryOf 2 at' c)) with
        | true, some v => { r.1 with s := r.1.s.pubWrite bank (off + 4 * k) (entryData v) }
        | _, _ => r.1
      Lane.pubWords u bank off a n (k + 1) l

/-- PUB: copies the records of its instances to a publish bank. -/
def doPub (u : Upset) (s : State) : State :=
  if s.dev.dbgSplit then s.splitWord 3 u
  else
    let r := s.beforeWord 3 u
    if !r.2 then r.1
    else
      let s := r.1.strikes u
      if s.trapped then s
      else
        let w := s.fetch .c 0
        let x := s.fetch .c 4
        let s := (Lane.pubWords u (x.extractLsb' 16 4).toNat (64 * (x.extractLsb' 6 9).toNat) (64 * firstOf w) (16 * countOf w) 0
          { s := s }).s
        if s.trapped then s
        else
          let go := fun (c : Chan) => { c with pc := c.pc + 8, regGen := c.regGen + 1 }
          { s with cope := go s.cope, drag := go s.drag }

/-- The meaning of PUB (R416, R134, R494, R529). -/
def execPub (u : Upset) (s : State) : Host.Outcome State Fault Refusal := .next (doPub u s)

/-! The end of EVALUATE (R131, R143 to R147, R88). -/

/-- The safety-output bits of a channel's output vector: Q0 of the OUTPAIR that names SOn (R236). -/
def State.soWord (s : State) (h : Half) : BitVec 48 :=
  (List.range s.img.blocks).foldl (fun v i =>
    if (s.constWord h i 0).extractLsb' 24 8 == 0x0C && (s.lsmWord h (64 * i + 4)).getLsbD 0 then
      (pairOutputs fun j => s.constWord h i j).foldl (fun v n => v ||| bitMask 48 n) v
    else v) 0

/-- The channels configured as AX outputs. -/
def State.axOutputs (s : State) : BitVec 16 := vecOf 16 fun m => (s.out (48 + m)).cfg.getLsbD 31

/-- The fingerprint of a channel over the live ranges (R145). -/
def State.fingerprint (s : State) (h : Half) : Word :=
  s.cmp.ranges.foldl (fun crc r => (List.range (r.2 / 4)).foldl (fun crc k =>
    let w := s.lsmWord h (r.1 + 4 * k)
    crc32c crc [byteOf w 0, byteOf w 1, byteOf w 2, byteOf w 3]) crc) s.frm.frameNum ^^^ Word.ones

/-- The core cycles of FINGERPRINT (R145, R172). -/
def State.fpCycles (s : State) : Word := BitVec.ofNat 32 ((liveBytes s.cmp.ranges + 63) / 64 + 8)

/-- The fingerprints are computed and compared (R145 to R147, R172, R175). -/
def Lane.compareFingerprints (l : Lane) (u : Upset) : Lane :=
  let l := l.meets u fun _ k => l.s.isLive (4 * k)
  let s := l.s
  if s.trapped then l
  else
    let c := s.fingerprint .c
    let d := s.fingerprint .d
    let s := { s with
      cope := { s.cope with fp := c }, drag := { s.drag with fp := d }
      cmp := { s.cmp with fpFrame := s.frm.frameNum, fpCope := c, fpDrag := d } }
    let s := s.setCounter .cmp 0x54 s.fpCycles
    ({ l with s := s }.present u (some (entryOf 6 0 c)) (some (entryOf 6 0 d))).1

/-- EVALUATE has ended: its time, the channels' counters (R106, R164). One that is cut short moves neither EVAL_LAST nor EVAL_MAX (DESIGN CHOICE,
log 90). PHASE stands at what the commit decision made it where that came before (R107). -/
def State.evaluateEnded (s : State) : State :=
  let ticks := s.frm.tb.toNat - s.frm.lastBnd.toNat
  let cycles := BitVec.ofNat 32 (4 * (ticks - 40))
  let stop := fun (c : Chan) => { c with mode := .idle, pc := s.entryPc, regGen := c.regGen + 1 }
  let s := { s with
    cope := stop s.cope, drag := stop s.drag
    frm := { s.frm with phase := if s.prog.commitDone || s.prog.published then s.frm.phase else 3 }
    img := { s.img with fresh := false }
    prog := { s.prog with evaluating := false, fpCycles := s.fpCycles, evalEnded := true, evalEnd := BitVec.ofNat 17 (min 0x1FFFF ticks) } }
  let s := s.maxCounter .frm 0x50 (s.prog.evalEnd.setWidth 32)
  let s := ((s.setCounter .cop 0x44 cycles).maxCounter .cop 0x48 cycles)
  (s.setCounter .drg 0x44 cycles).maxCounter .drg 0x48 cycles

/-- END of the main program: the output words, the arming of the field dies, the fingerprint. Which block drives an AX output no rule
states: the AX bits are free, the same in both channels. -/
def State.endMain (s : State) (u : Upset) : State :=
  let l := Lane.meets { s := s.evaluateEnded } u fun h k =>
    k % 16 == 1 && decide (k / 16 < s.img.blocks) && (s.constWord h (k / 16) 0).extractLsb' 24 8 == 0x0C
  let f := l.s.freeWord
  let ax := f.1.extractLsb' 0 16 &&& f.2.axOutputs
  let c : BitVec 64 := ax ++ f.2.soWord .c
  let d : BitVec 64 := ax ++ f.2.soWord .d
  let s := { f.2 with cope := { f.2.cope with out := c }, drag := { f.2.drag with out := d } }
  let l := Lane.presentAll { l with s := s } u ((List.range 2).map fun w =>
    (entryOf 3 (BitVec.ofNat 24 w) (wordAt c w), entryOf 3 (BitVec.ofNat 24 w) (wordAt d w)))
  if l.s.trapped then l.s
  else
    let l := { l with s := { l.s with prog := { l.s.prog with armedC := some c, armedD := some d } } }
    (l.compareFingerprints u).s.countEntries

/-- END: returns from the handler, or ends EVALUATE. -/
def doEndWord (u : Upset) (s : State) : State :=
  if s.dev.dbgSplit then s.splitWord 15 u
  else
    let r := s.beforeWord 15 u
    if !r.2 then r.1
    else
      let s := r.1.strikes u
      if s.trapped then s
      else if s.cope.mode == .inHandler then
        let back := fun (c : Chan) => { c with mode := .evaluating, pc := c.retPc.getD c.pc, retPc := none, regGen := c.regGen + 1 }
        { s with cope := back s.cope, drag := back s.drag }
      else s.endMain u

/-- The meaning of END (R416, R131, R145 to R147, R88). -/
def execEndWord (u : Upset) (s : State) : Host.Outcome State Fault Refusal := .next (doEndWord u s)

/-! Debug (R160 to R163, R170). -/

/-- A channel stops for debug in a mode; STOP_PC takes the address of its next word (R169), ENTRY between two EVALUATEs (DESIGN CHOICE, log 88). -/
def Chan.stopFor (c : Chan) (m : ChMode) : Chan := if c.mode == .trapped then c else { c with mode := m, stopPc := c.pc, lockstep := false }

/-- HALT of a channel: DBG_HALT, DBG_SPLIT, no lockstep, comparators closed, the other channel parked (R161); once split, the channel
alone (R162). On a TRAPPED channel it does nothing: what a HALT does after a stop trap the manual does not say (DESIGN CHOICE, log 106). -/
def State.haltChannel (s : State) (h : Half) : State :=
  if s.dev.state != .commission || (s.chan h).mode == .halted || (s.chan h).mode == .trapped then s
  else
    let split := s.dev.dbgSplit
    let s := s.updChan h fun c => c.stopFor .halted
    let s := if split then s else s.updChan h.other fun c => c.stopFor .parked
    { s with dev := { s.dev with dbgSplit := true }, cmp := { s.cmp with active := false } }.raise { page := h.page, cause := 4 }

/-- STEP: one instruction of a HALTED or PARKED channel, which then reads HALTED (R170). It does not wait for a cache refill that is outstanding
(DESIGN CHOICE, log 107). -/
def State.stepChannel (s : State) (h : Half) : State :=
  if (s.chan h).mode == .halted || (s.chan h).mode == .parked then
    (s.wordAlone h {}).updChan h fun c => if c.mode == .trapped then c else { c with mode := .halted, stopPc := c.pc }
  else s

/-- RESUME of a HALTED or PARKED channel (R170). -/
def State.resumeChannel (s : State) (h : Half) : State :=
  s.updChan h fun c =>
    if c.mode == .halted || c.mode == .parked then { c with mode := if c.retPc.isSome then .inHandler else .evaluating, stopPc := 0 } else c

/-- BREAKPOINT_HIT. No effect where the channel does not run in COMMISSION, its breakpoint is off or its PC stands elsewhere. -/
def doBreakpointHit (h : Half) (s : State) : State :=
  let c := s.chan h
  if s.dev.state == .commission && c.bpEn && c.runs && c.pc == c.bp then s.haltChannel h else s

/-- The meaning of BREAKPOINT_HIT (R161, R170). -/
def execBreakpointHit (h : Half) (s : State) : Host.Outcome State Fault Refusal := .next (doBreakpointHit h s)

end Sys2Proof.Machine
end

