-- ==== Sys2Proof/Machine/Check.lean ====
section
/-! DEFINITION. Check contexts (chapter 14) and the power states of the scratchpad banks (13 R488, R489). -/

namespace Sys2Proof.Machine

/-! Check values (R519 to R522). -/

/-- POLY and BYTES of CFG (R534). -/
def Ctx.poly (x : Ctx) : Nat := (x.cfg &&& 3).toNat
def Ctx.nbytes (x : Ctx) : Nat := if (x.cfg.extractLsb' 8 2).toNat = 0 then 4 else (x.cfg.extractLsb' 8 2).toNat

/-- The variant is 16 bits wide (R519). -/
def Ctx.narrow (x : Ctx) : Bool := x.poly == 2

/-- A word over the width of the context (R519). -/
def Ctx.fit (x : Ctx) (w : Word) : Word := if x.narrow then w &&& 0xFFFF else w

/-- RESULT: VALUE XOR XOROUT (R519). -/
def Ctx.result (x : Ctx) : Word := if x.narrow then x.value &&& 0xFFFF else x.value ^^^ Word.ones

/-- A word fed into the context (R520). -/
def Ctx.feed (x : Ctx) (w : Word) : Ctx :=
  let bs := [byteOf w 0, byteOf w 1, byteOf w 2, byteOf w 3].take x.nbytes
  { x with value := match x.poly with
      | 1 => crc32 x.value bs
      | 2 => (crc16 (x.value.setWidth 16) bs).setWidth 32
      | _ => crc32c x.value bs }

/-- INIT: the seed with its foldings (R521). -/
def Ctx.init (x : Ctx) : Ctx :=
  let v : Word := if x.narrow then 0xFFFF else Word.ones
  let v := if x.cfg.getLsbD 4 then v ^^^ x.fit (x.foldBase.setWidth 32) else v
  if x.cfg.getLsbD 5 then
    { x with value := v ^^^ x.fit ((x.seq.setWidth 32) <<< (if x.narrow then 8 else 24)), seq := x.seq + 1, feeder := none }
  else { x with value := v, feeder := none }

/-- CHECK: RESULT against EXPECT over the width; a difference is captured and latches MISMATCH (R527). -/
def State.check (s : State) (c : Nat) : State :=
  let s := s.bump .chk 0x48
  let x := s.ctx c
  if x.fit x.expect == x.result then s.updCtx c fun x => { x with chkRes := 1 }
  else
    (s.updCtx c fun x => { x with chkRes := 2, mmValue := x.result, mmExpect := x.fit x.expect }).raise
      { page := .chk, cause := c, unit := some c }

/-! Jobs (R525, R526). -/

/-- A job starts, or is refused: a bank that the owner of CHK does not own, or a range beyond its end. -/
def State.startJob (s : State) (c : Nat) (jobInit jobCheck : Bool) : State :=
  let x := s.ctx c
  let k := x.jobBank.toNat
  if (s.hdr (spbOf k)).own.flask != (s.hdr .chk).own.flask || decide (0x8000 < 4 * x.jobOffset.toNat + 4 * x.jobLen.toNat) then
    (s.updCtx c fun x => { x with jobPos := 0 }).failJob c 2
  else
    s.updCtx c fun x =>
      let x := { x with busy := true, jobPos := 0, jobCheck := jobCheck, retry := false, waits := false }
      if jobInit then ({ x with foldBase := BitVec.ofNat 24 (0x400000 + 0x8000 * k + 4 * x.jobOffset.toNat) }).init else x

/-- A write of CTRL to a context that is not BUSY: INIT, CHECK, then a job (R521, R525, R527). No job runs in a context that the reaction to
the CHECK has fenced or reset, of which CHK_RES reads 0 (R530, R559). -/
def State.ctxControl (s : State) (c : Nat) (w : Word) : State :=
  let s := if w.getLsbD 0 then s.updCtx c Ctx.init else s
  let s := if w.getLsbD 1 then s.check c else s
  if w.getLsbD 2 && !(w.getLsbD 1 && ((s.ctx c).fenced || (s.ctx c).chkRes == 0)) then s.startJob c (w.getLsbD 3) (w.getLsbD 4) else s

/-- The last word of a job has been fed (R525, R526). -/
def State.finishJob (s : State) (c : Nat) : State :=
  let s := s.endJob c 1
  if (s.ctx c).jobCheck then s.check c else s

/-- A word of a job is fed. -/
def State.feedJob (s : State) (c : Nat) (w : Word) : State :=
  let s := s.updCtx c fun x => { x.feed w with jobPos := x.jobPos + 1 }
  if (s.ctx c).jobPos == (s.ctx c).jobLen then s.finishJob c else s

/-- The word that a job reads next: byte offset in its bank. -/
def Ctx.jobAt (x : Ctx) : Nat := 4 * x.jobOffset.toNat + 4 * x.jobPos.toNat

/-- A job's read through port B. A bank that is not ON delivers 0 (R488); an urgent patrol holds it (R505); an uncorrectable word ends
the job as ECC, before what the error sets off can end it otherwise (R526). -/
def State.jobRead (s : State) (c : Nat) (ecc : Option EccErr) : State :=
  let k := (s.ctx c).jobBank.toNat
  let off := (s.ctx c).jobAt
  if (s.spb k).power != .on || (s.spb k).fenced then (s.bump (spbOf k) 0x4C).feedJob c 0
  else if s.urgentHold k off then s.updCtx c fun x => { x with waits := true }
  else
    let s := s.touchSegment k off
    let s := match ecc with
      | some e => s.upsetWord k e off
      | none => s
    let w := (s.spb k).mem.readW 0 off
    match ecc with
    | none => s.feedJob c w
    | some e =>
      if e.uncorr then (s.failJob c 4).spbError k e false 5 off else (s.spbError k e false 5 off).feedJob c w

/-- JOB_WORD_READ. No effect on a context without a job, or whose read waits for its retry. The command also brings a parity error in the
state of a context, with or without a job: CTX_PARITY (R531, log 84). -/
def doJobWordRead (c : Fin 8) (ecc : Option EccErr) (parity : Bool) (s : State) : State :=
  let s := if parity then s.raise { page := .chk, cause := 16 + c, unit := some c } else s
  if (s.ctx c).busy && !(s.ctx c).retry then s.jobRead c ecc else s

/-- The meaning of JOB_WORD_READ (R487, R525, R526, R527, R531). -/
def execJobWordRead (c : Fin 8) (ecc : Option EccErr) (s : State) (parity : Bool := false) : Host.Outcome State Fault Refusal :=
  .next (doJobWordRead c ecc parity s)

/-- PORT_B_RETRY: the read that lost a tie is made again, of port A's data. No effect where none waits. -/
def doPortBRetry (c : Fin 8) (ecc : Option EccErr) (s : State) : State :=
  if (s.ctx c).busy && (s.ctx c).retry then (s.updCtx c fun x => { x with retry := false }).jobRead c ecc else s

/-- The meaning of PORT_B_RETRY (R487, R495). -/
def execPortBRetry (c : Fin 8) (s : State) (ecc : Option EccErr := none) : Host.Outcome State Fault Refusal := .next (doPortBRetry c ecc s)

/-! Power states (R488 to R493). -/

/-- Jobs that read a bank as it leaves ON end as ASLEEP (R526). -/
def State.sleepJobs (s : State) (k : Nat) : State := (s.jobsOn k).foldl (fun s c => if (s.ctx c).busy then s.failJob c 3 else s) s

/-- A bank becomes ON; it joins the patrol in the next pass (R506). -/
def State.bankOn (s : State) (k : Nat) : State :=
  { s.updSpb k fun b => { b with power := .on } with spc := { s.spc with later := putBit s.spc.later k true } }

/-- BANK_POWER_CHANGE: the bank follows its request, or FILLING ends with every word 0. No effect where nothing is due. -/
def doBankPowerChange (k : Fin 16) (s : State) : State :=
  let b := s.spb k
  if b.fenced then s
  else match b.power, b.req.toNat with
    | .filling, _ => (s.updSpb k fun b => { b with mem := [] }).bankOn k
    | .on, 1 => (s.updSpb k fun b => { b with power := .retain, left := true }).sleepJobs k
    | .on, 2 => (s.updSpb k fun b => { b with power := .off, mem := [], left := true }).sleepJobs k
    | .retain, 2 => s.updSpb k fun b => { b with power := .off, mem := [] }
    | .retain, 0 => s.bankOn k
    | _, _ => s

/-- The meaning of BANK_POWER_CHANGE (R488, R489). -/
def execBankPowerChange (k : Fin 16) (s : State) : Host.Outcome State Fault Refusal := .next (doBankPowerChange k s)

/-- A write of REQ: 3 leaves it; on a publish bank while frames may run, and on a fenced bank, it is ignored; ON sends a bank that is
OFF through FILLING (R489, R493, R500, R501, R511). -/
def State.requestPower (s : State) (k : Nat) (req : BitVec 2) : State :=
  let b := s.spb k
  let runs := s.dev.state == .run || s.dev.state == .safe || s.dev.state == .commission
  if req = 3 || b.fenced || b.unusable || (b.publish && runs) then s
  else s.updSpb k fun b => { b with req := req, power := if b.power == .off && req == 0 then .filling else b.power }

/-- UNFENCE of a bank: its registers take their reset values, and it goes through FILLING to ON (R501, R517, R558). -/
def State.unfenceSpb (s : State) (k : Nat) : State :=
  if (s.spb k).fenced && !(s.spb k).unusable then
    (s.updSpb k fun b =>
      { b with fenced := false, power := .filling, req := 0, errAddr := 0, lastCollide := 0, pubFrame := 0 }).log 5 1 (spbOf k).num12 0 0
  else s

/-- UNFENCE of a context: it takes its reset values (R530, R558). -/
def State.unfenceCtx (s : State) (c : Nat) : State :=
  if (s.ctx c).fenced then (s.updCtx c fun x => x.cleared c).log 5 1 Page.chk.num12 (BitVec.ofNat 12 c) 0 else s

end Sys2Proof.Machine
end

