-- ==== Sys2Proof/Machine/Faults.lean ====
section
/-! DEFINITION. What ends by itself in the fault engine: classification windows, consequence shadows, and the writing of the event log
(15 R538, R549, R567). -/

namespace Sys2Proof.Machine

/-- CLASSIFICATION_WINDOW_END: IN_WINDOW returns to 0. No effect where the page has no window open, or lies on a fenced field die, whose
header stands as at the fence (R555). -/
def doClassificationWindowEnd (p : Page) (s : State) : State :=
  if s.dev.state != .off && s.received p && (s.hdr p).windowOpen then s.updHdr p fun h => { h with windowOpen := false, inWindow := 0 } else s

/-- The meaning of CLASSIFICATION_WINDOW_END (R538). -/
def execClassificationWindowEnd (p : Page) (s : State) : Host.Outcome State Fault Refusal := .next (doClassificationWindowEnd p s)

/-- SHADOW_END: every shadow lasts 20 µs, so the one opened first ends first. No effect where none is open. -/
def doShadowEnd (s : State) : State := { s with shadows := s.shadows.drop 1 }

/-- The meaning of SHADOW_END (R549). -/
def execShadowEnd (s : State) : Host.Outcome State Fault Refusal := .next (doShadowEnd s)

/-- LOG_ENTRY_WRITE: the writer takes the earliest entry of the queue. No effect where the queue is empty or that entry is younger than
500 ns. -/
def doLogEntryWrite (s : State) : State :=
  match nextItem s.evl.queue with
  | none => s
  | some x => if s.dev.state != .off && decide (x.1.time.toNat + 50 ≤ s.frm.tb.toNat) then { s with evl := s.evl.write } else s

/-- The meaning of LOG_ENTRY_WRITE (R566, R567, R568). -/
def execLogEntryWrite (s : State) : Host.Outcome State Fault Refusal := .next (doLogEntryWrite s)

end Sys2Proof.Machine
end

