-- ==== Sys2Proof/Machine/Outputs.lean ====
section
/-! DEFINITION. Field outputs and field supply (chapter 09): causes of an output, force holds, PARTNER, the commit at a field die,
supervision of FVb. -/

namespace Sys2Proof.Machine

/-! Causes of an output (R344 to R347, R361). -/

/-- A force hold of an output (R347); on an AX output the switches open (R361). -/
def State.holdOut (s : State) (o : Nat) : State :=
  s.updOut o fun u => { u with hold := true, heldSince := true }

/-- The cause is latched and still live: the condition is one event (R536). -/
def State.standing (s : State) (o c : Nat) : Bool := (s.out o).latch.getLsbD c && (s.outLive o).getLsbD c

/-- PARTNER of an output: a force hold, and an event that follows the partner's latch (R346). -/
def State.latchPartner (s : State) (q : Nat) : State :=
  ((s.holdOut q).raise { page := fobOf (bankOfOutput q), cause := 9, unit := some (localOfOutput q), after := true }).updateTrips

/-- Output o has cause c: on AX outputs only SHORT_HI, OVERLOAD, OVERTEMP and RB_MISMATCH exist (R361). -/
def State.outTakes (s : State) (o c : Nat) : Bool := !(decide (48 ≤ o) && !(0x33#10).getLsbD c) && decide (bankOfOutput o < s.banks)

/-- A cause of output o latches on it; a lockout-class cause places the force hold (R344, R347). -/
def State.latchOwn (s : State) (o c : Nat) : State :=
  if s.outTakes o c then
    let s := if lockoutMask.getLsbD c then s.holdOut o else s
    (s.raise { page := fobOf (bankOfOutput o), cause := c, unit := some (localOfOutput o) }).updateTrips
  else s

/-- A lockout-class cause of a safety output brings PARTNER to the paired output, unless that stands there already (R346). -/
def State.partnerDue (s : State) (o c : Nat) : Bool :=
  s.outTakes o c && lockoutMask.getLsbD c && decide (o < 48) && !((s.partner o).any fun q => s.standing q 9)

/-- PARTNER on the output paired with o. -/
def State.latchPartnerOf (s : State) (o : Nat) : State :=
  match s.partner o with
  | some q => s.latchPartner q
  | none => s

/-- A cause of output o latches, and PARTNER follows. -/
def State.latchOutNow (s : State) (o c : Nat) : State :=
  let due := s.partnerDue o c
  let s := s.latchOwn o c
  if due then s.latchPartnerOf o else s

/-- A cause of output o, one of several of its cycle: the outputs whose PARTNER is due are kept, since events of one cycle come in ascending
cause order (R538, R548). -/
def State.latchFirst (x : State × List Nat) (o c : Nat) : State × List Nat :=
  if x.1.standing o c then x else (x.1.latchOwn o c, if x.1.partnerDue o c then x.2 ++ [o] else x.2)

/-- The PARTNER events that the causes of a cycle have made due. -/
def State.latchPartners (x : State × List Nat) : State := x.2.foldl State.latchPartnerOf x.1

/-- The onset of a cause of output o; a condition that stays live is one event (R536). -/
def State.latchOut (s : State) (o c : Nat) : State := if s.standing o c then s else s.latchOutNow o c

/-- Outputs other than o whose source current has been above the overcurrent level of a safety output for 1 µs (R345). -/
def State.contenders (s : State) (o : Nat) : List Nat :=
  (List.range 48).filter fun p => p != o && match (s.out p).overSince with
    | some t => decide (100 ≤ s.frm.tb.toNat - t.toNat)
    | none => false

/-- LS carries sink current: it conducts, or it has failed closed and sinks beside the high-side switches (R344, R678). -/
def State.sinks (s : State) (o : Nat) : Bool := s.drive o == .low || (s.drive o == .high && (s.out o).sense.sinkOver)

/-- The bits that events of the present cycle have set in OUTk_FLT of an output. -/
def State.freshOut (s : State) (p : Nat) : Word := s.freshBits (fobOf (bankOfOutput p)) (0x140 + 4 * localOfOutput p)

/-- Place of the newest entry of HIST for a cause at an instant. -/
def History.newest (h : History) (c : BitVec 5) (tb : Time) : Option Nat :=
  ((List.range 8).map fun j => (h.next + 7 - j) % 8).find? fun i =>
    let e := h.entries.getD i {}
    e.valid && e.cause == c && e.timeLo == tb.setWidth 32

/-- The header of FOBb after an OVERLOAD of the present cycle has become a CONTENTION: FIRST_CAUSE keeps bit 1 where another OVERLOAD of the
cycle set it. -/
def Hdr.contended (h : Hdr) (tb : Time) (other : Bool) : Hdr :=
  { h with
    first := if h.first.time == tb && h.first.cause.getLsbD 1 then
        { h.first with cause := putBit (h.first.cause ||| 4) 1 other } else h.first
    hist := match h.hist.newest 1 tb with
      | some i => { h.hist with entries := h.hist.entries.set i { h.hist.entries.getD i {} with cause := 2 } }
      | none => h.hist }

/-- The entry of an OVERLOAD of local output k of a page at an instant, as that of a CONTENTION. -/
def LogItem.contended (it : LogItem) (page : BitVec 12) (k : Nat) (tb : Time) : LogItem :=
  if it.time == tb && it.page == page && it.w0.extractLsb' 12 4 == (1 : BitVec 4) && it.w0.extractLsb' 0 5 == (1 : BitVec 5)
      && (it.w1.extractLsb' 3 5).toNat == k + 1 then
    { it with code := 2, w0 := it.w0 + 1 }
  else it

/-- CONTENTION in place of an OVERLOAD that output p has latched in the present cycle: one event, of the other cause, in the latch, the
first-fault record, HIST and the event log; both causes have the page's reactions, so its class, counts and reaction stand (R345). -/
def State.replaceOverload (s : State) (p : Nat) : State :=
  let b := bankOfOutput p
  let other := (List.range 8).any fun k => outputOf b k != p && (s.freshOut (outputOf b k)).getLsbD 1
  let s := s.updOut p fun u => { u with latch := putBit (putBit u.latch 1 false) 2 true }
  let s := (s.updHdr (fobOf b) fun h => h.contended s.frm.tb other).mark (fobOf b) (0x140 + 4 * localOfOutput p) 2
  { s with evl := { s.evl with queue := s.evl.queue.map fun it => it.contended (fobOf b).num12 (localOfOutput p) s.frm.tb } }

/-- CONTENTION of another output, in place of an OVERLOAD of the same cycle (R345). -/
def State.contend (x : State × List Nat) (p : Nat) : State × List Nat :=
  let new := x.1.freshOut p
  if new.getLsbD 2 then x
  else if new.getLsbD 1 && (x.1.out p).latch.getLsbD 1 then (x.1.replaceOverload p, x.2)
  else State.latchFirst x p 2

/-- SHORT_HI: no effect unless LS sinks; CONTENTION in its place on both outputs (R345). -/
def doShortHi (o : Fin 64) (s : State) : State :=
  if !s.sinks o then s
  else if 48 ≤ o.val then s.latchOut o 0
  else
    let others := s.contenders o
    let s := s.updOut o fun u => { u with lsDue := true }
    if others.isEmpty then s.latchOut o 0
    else State.latchPartners (others.foldl State.contend (State.latchFirst (s, []) o 2))

/-- The meaning of SHORT_HI (R344, R345, R346, R361, R678). -/
def execShortHi (o : Fin 64) (s : State) : Host.Outcome State Fault Refusal := .next (doShortHi o s)

/-- LS_OPEN_DELAY: LS opens as well. No effect where no SHORT_HI or CONTENTION of the output awaits it. -/
def doLsOpenDelay (o : Fin 64) (s : State) : State :=
  if (s.out o).lsDue && (s.out o).hold then s.updOut o fun u => { u with lsOpen := true, lsDue := false } else s

/-- The meaning of LS_OPEN_DELAY (R344). -/
def execLsOpenDelay (o : Fin 64) (s : State) : Host.Outcome State Fault Refusal := .next (doLsOpenDelay o s)

/-- OVERLOAD: no effect on an output that is not driven high. -/
def doOverload (o : Fin 64) (s : State) : State := if s.drive o == .high then s.latchOut o 1 else s

/-- The meaning of OVERLOAD (R344, R361). -/
def execOverload (o : Fin 64) (s : State) : Host.Outcome State Fault Refusal := .next (doOverload o s)

/-- OPEN_LOAD becomes live: counted, and an event. -/
def State.openLoad (s : State) (o : Nat) : State :=
  if s.standing o 3 then s
  else
    ((((s.updOut o fun u => { u with olDue := false }).bump (fobOf (bankOfOutput o)) 0x54).latchOutNow o 3).updOut o fun u =>
      { u with live := u.live ||| 0x8 }).settleOuts

/-- OPEN_LOAD: no effect without OL_EN or on an output that is not driven high; while the bank is blanked it waits (R342). -/
def doOpenLoad (o : Fin 64) (s : State) : State :=
  if o.val < 48 && (s.out o).cfg.getLsbD 29 && s.drive o == .high then
    if (s.outBank (bankOfOutput o)).blank then s.updOut o fun u => { u with olDue := true } else s.openLoad o
  else s

/-- The meaning of OPEN_LOAD (R342, R344). -/
def execOpenLoad (o : Fin 64) (s : State) : Host.Outcome State Fault Refusal := .next (doOpenLoad o s)

/-- OVERTEMP. -/
def doOvertemp (o : Fin 64) (s : State) : State := s.latchOut o 4

/-- The meaning of OVERTEMP (R344, R361). -/
def execOvertemp (o : Fin 64) (s : State) : Host.Outcome State Fault Refusal := .next (doOvertemp o s)

/-- RB_MISMATCH latches, live while a readback differs (R341, R350). -/
def State.rbFirst (x : State × List Nat) (o : Nat) : State × List Nat :=
  if x.1.standing o 5 then x
  else
    let y := State.latchFirst (x.1.updOut o fun u => { u with rbDue := false }, x.2) o 5
    ((y.1.updOut o fun u => { u with live := u.live ||| 0x20 }).settleOuts, y.2)

def State.rbMismatch (s : State) (o : Nat) : State := State.latchPartners (State.rbFirst (s, []) o)

/-- RB_MISMATCH: with an expected level of 1 it waits while the bank is blanked (R342). -/
def doRbMismatch (o : Fin 64) (s : State) : State :=
  if s.expectHigh o && (s.outBank (bankOfOutput o)).blank then s.updOut o fun u => { u with rbDue := true } else s.rbMismatch o

/-- The meaning of RB_MISMATCH (R341, R342, R344, R361). -/
def execRbMismatch (o : Fin 64) (s : State) : Host.Outcome State Fault Refusal := .next (doRbMismatch o s)

/-- CFG_ERR on FOBb: every output of the bank is held, and PARTNER latches on the outputs paired with them (R347, R350, R362). -/
def State.outCfgFault (s : State) (b : Nat) : State :=
  if (s.hdr (fobOf b)).latch.getLsbD 20 then s.raise { page := fobOf b, cause := 20 }
  else
    let qs := (List.range 6).filterMap fun k =>
      let o := outputOf b k
      (s.partner o).filter fun q => !s.standing q 9
    let s := (List.range 8).foldl (fun s k => s.holdOut (outputOf b k)) s
    let s := (s.raise { page := fobOf b, cause := 20 }).updateTrips
    qs.foldl State.latchPartner s

/-! The commit at a field die (R89, R192, R347). -/

/-- The outputs of a die: its safety outputs, then its AX outputs. -/
def dieOutputs (d : Nat) : List Nat := (List.range 24).map (24 * d + ·) ++ (List.range 8).map (48 + 8 * d + ·)

/-- An output after a strobe with the armed bits given: an off-only strobe applies only what turns it off (R88), and the hold releases
where free holds: no lockout-class cause latched or live, CFG_ERR not latched (R347). -/
def Output.strobed (u : Output) (full c d free : Bool) : Output :=
  let cc := c && (full || u.cmdC)
  let cd := d && (full || u.cmdD)
  if u.hold && !cc && !cd && free then { u with cmdC := cc, cmdD := cd, hold := false, lsOpen := false, lsDue := false }
  else { u with cmdC := cc, cmdD := cd }

/-- No lockout-class cause of the output is latched or live, and CFG_ERR is not latched on its bank. -/
def State.holdFree (s : State) (o : Nat) : Bool := ((s.out o).latch ||| s.outLive o) &&& lockoutMask == 0 && !s.outCfgErr o

/-- The die takes its armed vector: commands, force holds, trip latches. -/
def State.applyStrobe (s : State) (d : Nat) : State :=
  let c := s.prog.armedC.getD 0
  let dv := s.prog.armedD.getD 0
  let full := s.prog.strobe == .full
  let demC := s.tripVec .c
  let demD := s.tripVec .d
  let outs := s.outs.mapIdx fun o (u : Output) =>
    if dieOfBank (bankOfOutput o) == d then u.strobed full (c.getLsbD o) (dv.getLsbD o) (s.holdFree o) else u
  let mine := vecOf 48 fun n => n / 24 == d
  let offC := vecOf 48 fun n => !(outs.getD n {}).cmdC
  let offD := vecOf 48 fun n => !(outs.getD n {}).cmdD
  let relC := s.trp.tlC &&& mine &&& offC &&& ~~~demC
  let relD := s.trp.tlD &&& mine &&& offD &&& ~~~demD
  let s := { s with outs := outs, trp := { s.trp with tlC := s.trp.tlC &&& ~~~relC, tlD := s.trp.tlD &&& ~~~relD } }
  (s.addCounter .trp 0x48 (ones relC + ones relD)).updateTrips

/-- STROBE_APPLY. No effect where the die was sent no strobe or has applied or discarded its vector; a chilled die applies nothing
(R357). FRAME_OUT of mode 3 rises at the first commit instant of the frame (R99). -/
def doStrobeApply (d : Fin 2) (s : State) : State :=
  if s.prog.strobe != .none && s.prog.strobed.getLsbD d && !s.prog.applied.getLsbD d then
    let first := s.prog.applied == 0
    let s := { s with prog := { s.prog with applied := putBit s.prog.applied d true } }
    let s := if first && s.frm.frameOutCfg.extractLsb' 8 2 == 3 then { s with frm := { s.frm with frameOut := true, frameOutAt := s.frm.tb } } else s
    if (s.bar d).chill then s else s.applyStrobe d
  else s

/-- The meaning of STROBE_APPLY (R89, R192, R347, R357). -/
def execStrobeApply (d : Fin 2) (s : State) : Host.Outcome State Fault Refusal := .next (doStrobeApply d s)

/-! Field supply (R351 to R355). Levels are in 10 mV. -/

def OutBank.trip (b : OutBank) : Nat := 1400 + 25 * (b.fvCfg.extractLsb' 0 5).toNat

def OutBank.warn (b : OutBank) : Nat := 10 * (b.fvCfg.extractLsb' 20 9).toNat

/-- FV_DIP in ticks. -/
def OutBank.dipTicks (b : OutBank) : Nat := 1000 * (b.fvCfg.extractLsb' 8 8).toNat

/-- A bank cause that sets the FV lockout begins: live, an event, its shadow where R355 gives a set, and the BANK trip. -/
def State.lockout (s : State) (b c : Nat) : State :=
  if (s.hdr (fobOf b)).live.getLsbD c then s
  else
    let s := s.onset (fobOf b) c
    let s := if s.fvLock b then s.updOutBank b fun x => { x with lockedSince := true } else s
    let s := if (c == 16 || c == 17) && (s.hdr (fobOf b)).latch.getLsbD c then
      s.openShadow (s.fvSet b) (fobOf b) (s.hdr (fobOf b)).incident.serial else s
    s.updateTrips

/-- FV_WARN follows a measurement (R352). -/
def State.fvWarn (s : State) (b : Nat) (low : Bool) : State :=
  if low then
    if (s.hdr (fobOf b)).live.getLsbD 19 then s else (s.bump (fobOf b) 0x50).onset (fobOf b) 19
  else s.setLive (fobOf b) 19 false

/-- A measurement below FV_TRIP: the dip begins or goes on, and from FV_DIP on FV_SAG latches (R353). -/
def State.fvBelow (s : State) (b low : Nat) : State :=
  let x := s.outBank b
  let dip := x.dip.getD { since := s.frm.tb, low := BitVec.ofNat 16 low }
  let sag := decide (x.dipTicks ≤ s.frm.tb.toNat - dip.since.toNat)
  let s := s.updOutBank b fun x =>
    { x with blank := true
             dip := some { dip with low := BitVec.ofNat 16 (min dip.low.toNat low), sagged := dip.sagged || sag } }
  if sag && !dip.sagged then s.lockout b 16 else s

/-- A dip ends: one that has not sagged is counted and logged (R353, R371, R565). -/
def State.fvAbove (s : State) (b : Nat) : State :=
  match (s.outBank b).dip with
  | none => s
  | some dip =>
    let s := s.updOutBank b fun x => { x with dip := none }
    if dip.sagged then s
    else
      let len := s.frm.tb.toNat - dip.since.toNat
      let us := BitVec.ofNat 16 (min 65535 (len / 100))
      let s := s.updOutBank b fun x => { x with lastDip := dip.low ++ us }
      (s.bump (fobOf b) 0x4C).log 4 0 (fobOf b).num12 (dip.low.setWidth 12) (BitVec.ofNat 8 (len / 1000))

/-- FV_MEASURE. No effect on a bank that the part has not, or whose die is not powered. -/
def doFvMeasure (b : Fin 8) (fvC fvD : BitVec 16) (s : State) : State :=
  if s.banks ≤ b.val || !(s.bar (dieOfBank b)).powered then s
  else
    let c := BitVec.ofNat 16 (min 3600 fvC.toNat)
    let d := BitVec.ofNat 16 (min 3600 fvD.toNat)
    let low := min c.toNat d.toNat
    let s := s.updOutBank b fun x =>
      { x with fvC := c, fvD := d, measured := true
               minC := if x.measured && decide (x.minC.toNat < c.toNat) then x.minC else c
               minD := if x.measured && decide (x.minD.toNat < d.toNat) then x.minD else d }
    let far := decide (60 < max c.toNat d.toNat - low)
    let s := if far then s else s.setLive (fobOf b) 18 false
    let x := s.outBank b
    let s := if low < x.trip then s.fvBelow b low else s.fvAbove b
    s.fvWarn b (decide (low < x.warn))

/-- The meaning of FV_MEASURE (R351 to R353). -/
def execFvMeasure (b : Fin 8) (fvC fvD : BitVec 16) (s : State) : Host.Outcome State Fault Refusal := .next (doFvMeasure b fvC fvD s)

/-- The lower and the higher of the two measurements of FVb. -/
def OutBank.low (b : OutBank) : Nat := min b.fvC.toNat b.fvD.toNat
def OutBank.high (b : OutBank) : Nat := max b.fvC.toNat b.fvD.toNat

/-- FV_HIGH: no effect unless a channel measures above 32.0 V, and no second event while it is live. -/
def doFvHigh (b : Fin 8) (s : State) : State := if 3200 < (s.outBank b).high then s.lockout b 17 else s

/-- The meaning of FV_HIGH (R352). -/
def execFvHigh (b : Fin 8) (s : State) : Host.Outcome State Fault Refusal := .next (doFvHigh b s)

/-- FV_MEAS: no effect unless the measurements differ by more than 0.6 V, and no second event while it is live. -/
def doFvMeas (b : Fin 8) (s : State) : State :=
  if 60 < (s.outBank b).high - (s.outBank b).low then s.lockout b 18 else s

/-- The meaning of FV_MEAS (R352). -/
def execFvMeas (b : Fin 8) (s : State) : Host.Outcome State Fault Refusal := .next (doFvMeas b s)

/-- FV_RECOVERY: FV_SAG is no longer live. No effect while FV is below the recovery level, FV_TRIP + 4.4 V. -/
def doFvRecovery (b : Fin 8) (s : State) : State :=
  if (s.outBank b).trip + 440 ≤ (s.outBank b).low then s.setLive (.fob b) 16 false else s

/-- The meaning of FV_RECOVERY (R352). -/
def execFvRecovery (b : Fin 8) (s : State) : Host.Outcome State Fault Refusal := .next (doFvRecovery b s)

/-- FV_HIGH_RECOVERY: FV_HIGH is no longer live. No effect unless both channels measure below 30.5 V. -/
def doFvHighRecovery (b : Fin 8) (s : State) : State := if (s.outBank b).high < 3050 then s.setLive (.fob b) 17 false else s

/-- The meaning of FV_HIGH_RECOVERY (R352). -/
def execFvHighRecovery (b : Fin 8) (s : State) : Host.Outcome State Fault Refusal := .next (doFvHighRecovery b s)

/-- FV_BLANK_END: blanking ends, and what has lasted its time and is still present latches. No effect while FV is below FV_TRIP. -/
def doFvBlankEnd (b : Fin 8) (s : State) : State :=
  if (s.outBank b).dip.isSome || !(s.outBank b).blank then s
  else
    let s := (s.updOutBank b fun x => { x with blank := false }).settleOuts
    let s := (List.range 8).foldl (fun s k => if (s.out (outputOf b k)).olDue then s.openLoad (outputOf b k) else s) s
    State.latchPartners ((List.range 8).foldl (fun x k =>
      if (x.1.out (outputOf b k)).rbDue then State.rbFirst x (outputOf b k) else x) (s, []))

/-- The meaning of FV_BLANK_END (R342). -/
def execFvBlankEnd (b : Fin 8) (s : State) : Host.Outcome State Fault Refusal := .next (doFvBlankEnd b s)

/-! Senses (R340, R345, R350, R384, R385). -/

/-- A readback of an output reads 0, or its source current is above the overcurrent level (R385). -/
def senseOdd (x : Sense) : Bool := !x.rbC || !x.rbD || x.srcOver

/-- The pending foreign observation of an output: a second one of the same slot in the next judged window latches GAP_FOREIGN, another
slot replaces it (R386). The observation that confirms is spent: it is not the first of a next pair (DESIGN CHOICE, log 104). -/
def State.outForeignFirst (x : State × List Nat) (o : Nat) (slot : BitVec 6) : State × List Nat :=
  match (x.1.out o).forPend with
  | none => (x.1.updOut o fun u => { u with forPend := some slot, gap := { u.gap with pSlot := slot } }, x.2)
  | some t =>
    if t == slot then
      State.latchFirst (x.1.updOut o fun u => { u with forPend := none, gap := { u.gap with fValid := true, fSlot := slot } }, x.2) o 7
    else ((x.1.bump .pwl 0x4C).updOut o fun u => { u with forPend := some slot, gap := { u.gap with pSlot := slot } }, x.2)

/-- A foreign observation of one output, with what follows from it. -/
def State.outForeign (s : State) (o : Nat) (slot : BitVec 6) : State := State.latchPartners (State.outForeignFirst (s, []) o slot)

/-- The senses of an output change: CUR within its range (R374), LIMIT_EVT, the time of R345, and what the wheel sees of it. -/
def State.senseOut (s : State) (o : Nat) (x : Sense) : State :=
  let u := s.out o
  let x := { x with cur := BitVec.ofNat 12 (min 4000 x.cur.toNat) }
  let page := fobOf (bankOfOutput o)
  let s := if x.srcOver && !u.sense.srcOver then s.bump page 0x44 else s
  let s := if x.sinkOver && !u.sense.sinkOver then s.bump page 0x44 else s
  let win := s.pwl.window.isSome
  let ended := u.foreignOn && u.foreignHit && !win && !senseOdd x
  let s := s.updOut o fun u =>
    { u with sense := x
             overSince := if x.srcOver then (if u.sense.srcOver then u.overSince else some s.frm.tb) else none
             seenC := u.seenC || (u.judged && win && !x.rbC), seenD := u.seenD || (u.judged && win && !x.rbD)
             foreignHit := u.foreignHit || (u.foreignOn && win && senseOdd x)
             foreignOn := u.foreignOn && !ended }
  let s := if ended then
      let s := s.updOut o fun u => { u with foreignHit := false }
      if s.frm.tb.toNat ≤ s.pwl.windowEnd.toNat + 50 then s.outForeign o (s.pwl.lastSlot.getD 0) else s
    else s
  s.settleOuts

/-- The senses of a pulse source change. -/
def State.sensePs (s : State) (k : Nat) (x : Sense) : State :=
  let win := s.pwl.window.isSome
  s.updPulse k fun p => { p with sense := x, seenC := p.seenC || (p.judged && win && !x.rbC), seenD := p.seenD || (p.judged && win && !x.rbD) }

/-- OUTPUT_SENSE_CHANGE. -/
def doOutputSenseChange (t : Terminal) (sense : Sense) (s : State) : State :=
  match t with
  | .out o => s.senseOut o sense
  | .ps k => s.sensePs k sense

/-- The meaning of OUTPUT_SENSE_CHANGE (R340, R344, R345, R350, R384, R385, R394). -/
def execOutputSenseChange (t : Terminal) (sense : Sense) (s : State) : Host.Outcome State Fault Refusal :=
  .next (doOutputSenseChange t sense s)

end Sys2Proof.Machine
end

