-- ==== Sys2Proof/Machine/Wheel.lean ====
section
/-! DEFINITION. The pulse wheel (chapter 10): dark pulses, own windows, the judging of gaps, pulse-source faults. -/

namespace Sys2Proof.Machine

/-- The inputs in mode OWN, which own windows mask (R182, R312). -/
def State.ownInputs (s : State) : List Nat := (List.range 112).filter fun i => s.inputServed i && s.isInput i && s.tripMode i == 1

/-- The present slot's width (R400). -/
def State.width (s : State) (slot : Nat) : BitVec 9 := s.pwl.widths.getD slot 0

/-- The source of the present slot goes dark in this frame: its first frame of the slot, the source in service, its die linked and not
in chill, the pulse not given yet (R6, R377, R357, R554). -/
def State.pulseDue (s : State) : Bool :=
  let slot := s.pwl.slotC.toNat
  let d := dieOfBank (bankOfSlot slot)
  s.frm.running && !s.pwl.halted && s.pwl.inC == 0 && s.slotLive slot && s.width slot != 0 && s.linked d && !(s.bar d).chill
    && s.pwl.window.isNone && !(s.pwl.lastSlot == some s.pwl.slotC && decide (s.frm.lastBnd.toNat < s.pwl.windowEnd.toNat))

/-- What the wheel takes of a comparator of an OWN input at a window's start; an AX channel is not judged (R312, R383 to R385). -/
def Comparator.atWindow (c : Comparator) (own y ax : Bool) : Comparator :=
  if own then { c with judged := c.level && !ax, seen := false, foreignOne := false, foreignZero := false, y := y, held := some c.level }
  else { c with judged := false, foreignOne := c.level && !ax, foreignZero := false }

/-- The window of a slot begins: dark pulse, mask, and what each receiver shows (R182, R312, R377, R384, R385). -/
def State.openWindow (s : State) (slot : BitVec 6) : State :=
  let t := s.ownInputs.foldl (fun t i =>
    let own := s.tripSource i == slot
    let ax := decide (96 ≤ i)
    let t := t.updComp i .c fun c => c.atWindow own (s.filterOut i .c) ax
    t.updComp i .d fun c => c.atWindow own (s.filterOut i .d) ax) s
  let n := slot.toNat
  { t with
    pwl := { t.pwl with dark := some slot, window := some slot, windowStart := s.frm.tb }
    ins := t.ins.map fun (x : Input) => { x with maskEnded := false }
    outs := t.outs.mapIdx fun o (u : Output) =>
      if decide (48 ≤ o) then u
      else if 16 + o = n then
        let j := s.highButGap o
        { u with judged := j, seenC := j && !u.sense.rbC, seenD := j && !u.sense.rbD, foreignOn := false, foreignHit := false }
      else
        let on := s.soHigh o
        { u with judged := false, foreignOn := on, foreignHit := on && senseOdd u.sense }
    ps := t.ps.mapIdx fun k (p : PulseSource) =>
      if k = n then { p with judged := true, seenC := !p.sense.rbC, seenD := !p.sense.rbD }
      else { p with judged := false } }

/-- The gate test of one half: passed, or GATE_FAIL (R200, R201). -/
def State.gateTest (s : State) (h : Half) (n : Nat) (ok : Bool) : State :=
  if ok then s.bump .trp 0x4C else s.tripFault 1 (n / 6) (faultInfo h (n / 24) n)

/-- DARK_PULSE_START: in the gap of a safety output both trip gates and both high-side switches are tested. -/
def doDarkPulseStart (gateC gateD onC onD openC openD : Bool) (s : State) : State :=
  if s.pulseDue then
    let slot := s.pwl.slotC
    let n := slot.toNat - 16
    let high := s.highButGap n
    let s := s.openWindow slot
    if slot.toNat < 16 then s
    else
      let s := (s.gateTest .c n gateC).gateTest .d n gateD
      if openC && openD && (!high || (onC && onD)) then s.bump (fobOf (n / 6)) 0x48 else s.latchOut n 6
  else s

/-- The meaning of DARK_PULSE_START (R200, R343, R377). -/
def execDarkPulseStart (gateC gateD onC onD openC openD : Bool) (s : State) : Host.Outcome State Fault Refusal :=
  .next (doDarkPulseStart gateC gateD onC onD openC openD s)

/-- DARK_PULSE_END: the source drives high again where every condition of R26 holds (R199). -/
def doDarkPulseEnd (s : State) : State := { s with pwl := { s.pwl with dark := none } }.updateTrips

/-- The meaning of DARK_PULSE_END (R199, R377). -/
def execDarkPulseEnd (s : State) : Host.Outcome State Fault Refusal := .next (doDarkPulseEnd s)

/-! The judgement at a window's end (R384 to R386). -/

/-- The own gap of a comparator: seen, missed once, or missed twice. -/
inductive Judged where
  | none
  | seen
  | pending
  | missing
  deriving DecidableEq, Repr

/-- The judgement of one receiver (R386). -/
def judge (judged seen pend : Bool) : Judged :=
  if !judged then .none else if seen then .seen else if pend then .missing else .pending

/-- The missing observation that stays pending after a judgement; the one that latches is spent (DESIGN CHOICE, log 104). -/
def Judged.pend (j : Judged) (before : Bool) : Bool :=
  match j with
  | .none => before
  | .pending => true
  | _ => false

/-- OWN_SEEN and SINGLE_EVT of a judgement (R396). -/
def State.countJudged (s : State) (j : Judged) (pend : Bool) : State :=
  if j == .seen then
    let s := s.bump .pwl 0x48
    if pend then s.bump .pwl 0x4C else s
  else s

/-- A comparator's own gap as the window ends: a 0 still present counts once it has lasted 50 ns (R384). -/
def State.judgeComp (s : State) (i : Nat) (h : Half) : Judged :=
  let c := s.comp i h
  judge c.judged (c.seen || (!c.level && decide (5 ≤ s.frm.tb.toNat - c.lastChange.toNat))) c.missPend

/-- Both comparators of an input fed by the slot are judged; GAP_MISSING latches for those that missed a second time. -/
def State.judgeInput (s : State) (i : Nat) : State :=
  let jc := s.judgeComp i .c
  let jd := s.judgeComp i .d
  let s := (s.countJudged jc (s.comp i .c).missPend).countJudged jd (s.comp i .d).missPend
  let s := s.updComp i .c fun c => { c with missPend := jc.pend c.missPend, judged := false, seen := false }
  let s := s.updComp i .d fun c => { c with missPend := jd.pend c.missPend, judged := false, seen := false }
  if jc == .missing || jd == .missing then
    (s.updInp i fun u => { u with gap := { u.gap with mValid := true, missC := jc == .missing, missD := jd == .missing } }).latchIn i 4
  else s

/-- One comparator of an input that another slot feeds: the expected level clears a pending observation of this slot; a 0 that has
ended is an observation; one that lasts awaits its end (R385, R386). -/
def State.foreignComp (s : State) (i : Nat) (h : Half) (slot : BitVec 6) : State × Bool :=
  let c := s.comp i h
  let s' := s.updComp i h fun c => { c with foreignOne := false, foreignZero := c.foreignZero && !c.level }
  if !c.foreignOne then (s', false)
  else if !c.foreignZero then
    if c.forPend == some slot then ((s'.updComp i h fun c => { c with forPend := none }).bump .pwl 0x4C, false) else (s', false)
  else if c.level then s'.compForeign i h slot
  else (s', false)

/-- Both comparators of an input fed by another slot; GAP_FOREIGN latches where one confirms. -/
def State.foreignInput (s : State) (i : Nat) (slot : BitVec 6) : State :=
  let r := s.foreignComp i .c slot
  let t := r.1.foreignComp i .d slot
  if r.2 || t.2 then t.1.latchIn i 3 else t.1

/-- A safety output in the window of another slot (R385, R386). -/
def State.foreignOutput (x : State × List Nat) (o : Nat) (slot : BitVec 6) : State × List Nat :=
  let s := x.1
  let u := s.out o
  if !u.foreignOn then x
  else if !u.foreignHit then
    let s := s.updOut o fun u => { u with foreignOn := false }
    (if u.forPend == some slot then (s.updOut o fun u => { u with forPend := none }).bump .pwl 0x4C else s, x.2)
  else if senseOdd u.sense then x
  else State.outForeignFirst (s.updOut o fun u => { u with foreignOn := false, foreignHit := false }, x.2) o slot

/-- The safety output of the slot: its readbacks are judged, GAP_MISSING latches on a second miss (R384, R386). -/
def State.judgeOutput (x : State × List Nat) (o : Nat) : State × List Nat :=
  let s := x.1
  let u := s.out o
  let jc := judge u.judged u.seenC u.missPendC
  let jd := judge u.judged u.seenD u.missPendD
  let s := (s.countJudged jc u.missPendC).countJudged jd u.missPendD
  let s := s.updOut o fun u => { u with missPendC := jc.pend u.missPendC, missPendD := jd.pend u.missPendD, judged := false }
  if jc == .missing || jd == .missing then
    State.latchFirst (s.updOut o fun u =>
      { u with gap := { u.gap with mValid := true, missC := jc == .missing, missD := jd == .missing } }, x.2) o 8
  else (s, x.2)

/-- A cause of a pulse source: held high-Z, and an event (R393). -/
def State.latchPs (s : State) (k c : Nat) : State :=
  ((s.updPulse k fun p => { p with hold := true }).raise { page := .pwl, cause := c, unit := some k }).updateTrips

/-- The pulse source of the slot: the gap seen on both readbacks, or PS_NOGAP; judged throughout a hold as well (R383, R393, R394). -/
def State.judgePs (s : State) (k : Nat) : State :=
  let p := s.pulse k
  if !p.judged then s
  else
    let s := s.addCounter .pwl 0x48 ((if p.seenC then 1 else 0) + (if p.seenD then 1 else 0))
    if p.seenC && p.seenD then s else s.latchPs k 2

/-- What the wheel has begun to observe is dropped: nothing of it is judged. -/
def State.dropJudging (s : State) : State :=
  { s with
    comps := s.comps.map fun (c : Comparator) => { c with judged := false, seen := false, foreignOne := false, foreignZero := false }
    outs := s.outs.map fun (u : Output) => { u with judged := false, foreignOn := false, foreignHit := false }
    ps := s.ps.map fun (p : PulseSource) => { p with judged := false } }

/-- The window ends: masks end first, then the receivers are judged, foreign observations before missing ones, and PARTNER last (R386, R538).
The slot of a source whose bank has been fenced in its own window is not judged (R554). -/
def State.closeWindow (s : State) (slot : BitVec 6) : State :=
  let inputs := s.ownInputs
  let own := inputs.filter fun i => s.tripSource i == slot
  let other := inputs.filter fun i => s.tripSource i != slot
  let s := { s with pwl := { s.pwl with dark := none, window := none, lastSlot := some slot, windowEnd := s.frm.tb }
                    ins := s.ins.map fun (x : Input) => { x with maskEnded := false } }
  let s := (own.foldl State.unmask s).updateTrips
  if s.bankFenced (bankOfSlot slot.toNat) then s.dropJudging
  else
    let s := other.foldl (fun s i => s.foreignInput i slot) s
    let s := own.foldl State.judgeInput s
    let x := (List.range 48).foldl (fun x o => State.foreignOutput x o slot) (s, [])
    if 16 ≤ slot.toNat then State.latchPartners (State.judgeOutput x (slot.toNat - 16)) else (State.latchPartners x).judgePs slot.toNat

/-- The mask of an input on a half was found outside its schedule (R200, R201). -/
def State.maskError (s : State) (i : Nat) (h : Half) : State :=
  s.tripFault 3 (bankOfInput i) (faultInfo h (dieOfInput i) (dieLocal i))

/-- OWN_WINDOW_END, with the masks found outside their schedule: each an input that the slot feeds. No effect where no window is in
progress. -/
def doOwnWindowEnd (maskErrs : List (Fin 112 × Half)) (s : State) : State :=
  match s.pwl.window with
  | none => s
  | some slot =>
    let fed := maskErrs.filter fun x => s.ownInputs.contains x.1.val && s.tripSource x.1 == slot
    fed.foldl (fun s x => s.maskError x.1 x.2) (s.closeWindow slot)

/-- The meaning of OWN_WINDOW_END (R182, R198, R200, R384 to R386, R393). -/
def execOwnWindowEnd (maskErrs : List (Fin 112 × Half)) (s : State) : Host.Outcome State Fault Refusal :=
  .next (doOwnWindowEnd maskErrs s)

/-- PS_SHORT_HI. No effect on a source that is not dark. -/
def doPsShortHi (k : Fin 16) (s : State) : State := if s.psDrive k == .low then s.latchPs k 0 else s

/-- The meaning of PS_SHORT_HI (R393). -/
def execPsShortHi (k : Fin 16) (s : State) : Host.Outcome State Fault Refusal := .next (doPsShortHi k s)

/-- PS_OVERLOAD. No effect on a source that does not drive high. -/
def doPsOverload (k : Fin 16) (s : State) : State := if s.psDrive k == .high then s.latchPs k 1 else s

/-- The meaning of PS_OVERLOAD (R393). -/
def execPsOverload (k : Fin 16) (s : State) : Host.Outcome State Fault Refusal := .next (doPsOverload k s)

end Sys2Proof.Machine
end

