-- ==== Sys2Proof/Machine/Frame.lean ====
section
/-! DEFINITION. Frames (chapter 03): boundaries and their placing by SYNC_IN, SAMPLE, the commit decision, publish, the
permit latch, FRAME_OUT. -/

namespace Sys2Proof.Machine

/-! Entry to RUN (R35, R43, R55, R83, R193, R422). -/

/-- Every output is commanded off (R35: "RUN, all outputs off"). -/
def State.commandsOff (s : State) : State :=
  { s with outs := s.outs.map fun (u : Output) => { u with cmdC := false, cmdD := false } }

/-- Every trip latch clears, and those whose output is in trip demand set again (R193). -/
def State.clearTrips (s : State) : State := ({ s with trp := { s.trp with tlC := 0, tlD := 0 } }).updateTrips

/-- An incident whose REACTION_TAKEN has ACTION 5 is open on some page (R561). -/
def State.stopOpen (s : State) : Bool := s.hdrs.any fun h => h.incident.isOpen && h.incident.reaction &&& 7 == 5

/-- SAFE is left for RUN at the boundary after an evaluated frame in which the conditions of R561 hold; its trip latches as in log 93. -/
def State.safeExit (s : State) : State :=
  if s.dev.state == .safe && !s.dev.safeR36 && s.prog.evalEnded && s.prog.safeReset && !s.stopOpen then
    let s := (s.changeState .run).enterRun s.ingot
    s.commandsOff.clearTrips.firstRun
  else s

/-! SAMPLE (R124, R194, R187, R313, R318, R349). -/

/-- The inputs of die d that one of its lane source masks names (R187). -/
def State.laneInputs (s : State) (d : Nat) : BitVec 112 :=
  let m := (List.range 12).foldl (fun (v : BitVec 56) k => v ||| s.laneMask d k) 0
  vecOf 112 fun i => dieOfInput i == d && m.getLsbD (dieLocal i)

/-- The raw vector of a half. -/
def State.rawVec (s : State) (h : Half) (cap : BitVec 112) : BitVec 112 :=
  let zero := fun (d : Nat) => if s.trp.zeroNext.getLsbD (2 * d + h.num) then s.laneInputs d else 0
  let y := vecOf 112 fun i => s.isInput i && !s.bankFenced (bankOfInput i) && s.filterOut i h
  y &&& ~~~(cap ||| zero 0 ||| zero 1)

/-- COUNT, PER and AGE of a comparator at an instant (R316, R317). -/
def Comparator.counters (c : Comparator) (tb : Time) : Word × Word × Word :=
  let age := match c.lastRise with
    | some t => let n := tb.toNat - t.toNat; if n < 2 ^ 32 then BitVec.ofNat 32 n else Word.ones
    | none => Word.ones
  (c.count, c.per, age)

/-- The inputs' counters, latched for the inputs declared counted. -/
def State.sampleCounters (s : State) : State :=
  { s with comps := s.comps.mapIdx fun j (c : Comparator) =>
      if (s.inp (j / 2)).cfg.getLsbD 30 then { c with sample := c.counters s.frm.tb } else c }

/-- Both channels take their raw vectors; QUAL and OQUAL are latched; captures begin anew with the demand of the moment. -/
def State.sampleInputs (s : State) : State :=
  let rawC := s.rawVec .c s.trp.capC
  let rawD := s.rawVec .d s.trp.capD
  let mem := vecOf 112 s.member
  let capC := s.demandVec .c &&& mem
  let capD := s.demandVec .d &&& mem
  { s with
    cope := { s.cope with raw := rawC }
    drag := { s.drag with raw := rawD }
    trp := { s.trp with capC := capC, capD := capD, zeroNext := 0 }
    inBanks := s.inBanks.mapIdx fun b (x : InBank) => { x with qual := vecOf 14 fun k => s.qualOf (inputOf b k) }
    outBanks := s.outBanks.mapIdx fun b (x : OutBank) =>
      { x with oqual := vecOf 6 (fun k => s.oqualOf (outputOf b k)), lockedSince := s.fvLock b }
    outs := s.outs.map fun (u : Output) => { u with heldSince := u.hold } }

/-! The boundary (R81 to R87, R97, R103, R376, R394). -/

/-- The wheel moves: to slot 0 at the first boundary, else one frame on (R376); a halted wheel stands (R393). -/
def State.advanceWheel (s : State) : State :=
  let w := s.pwl
  if w.halted then s
  else if !w.running then { s with pwl := { w with running := true, slotC := 0, inC := 0, slotD := 0, inD := 0 } }
  else
    let move := fun (slot inn : BitVec 6) =>
      if w.slotLen.toNat ≤ inn.toNat + 1 then (slot + 1, 0#6) else (slot, inn + 1)
    let c := move w.slotC w.inC
    let d := move w.slotD w.inD
    let t := { s with pwl := { w with slotC := c.1, inC := c.2, slotD := d.1, inD := d.2 } }
    if w.slotC = 63 ∧ c.1 = 0 then t.bump .pwl 0x44 else t

/-- Holds of pulse sources with no latch and no live cause release (R394). -/
def State.releasePs (s : State) : State :=
  { s with ps := s.ps.mapIdx fun k (p : PulseSource) => if p.latch == 0 && s.psLive k == 0 then { p with hold := false } else p }

/-- A channel at a boundary, where it is not split: it awaits EVALUATE, whose first word comes next unless the channel has taken the stop trap
(R171), and the forces of the frame before still count (R418). -/
def Chan.nextFrame (c : Chan) (entry : BitVec 20) : Chan :=
  { c with pc := if c.mode == .trapped then c.pc else entry
           mode := if c.mode == .evaluating || c.mode == .inHandler then .idle else c.mode
           forcePrev := c.forceNow, forceNow := 0, done := 0, handlerRun := false, retPc := none, refill := none, refetched := []
           lockstep := c.mode != .trapped }

/-- LEN_MIN and LEN_MAX at the end of a complete frame (R106). -/
def State.countLength (s : State) : State :=
  if s.frm.running then
    let n := BitVec.ofNat 32 (min 0x1FFFF (s.frm.tb.toNat - s.frm.lastBnd.toNat))
    let s := if n.toNat < (s.counter .frm 0x54).toNat then s.setCounter .frm 0x54 n else s
    s.maxCounter .frm 0x58 n
  else s

/-- FRAME_OUT at a boundary (R99). -/
def State.frameOutNext (s : State) : Bool :=
  match (s.frm.frameOutCfg.extractLsb' 8 2).toNat with
  | 1 => true
  | 2 => !s.frm.frameOut
  | 3 => s.frm.frameOut
  | _ => false

/-- A boundary: the first one where boundaries did not run, else that of the next frame; an LSM pass is timed from the first one (R587). A pulse
of FRAME_OUT in mode 3 goes on over it (R99). Under DBG_SPLIT the channels go on as they are, with the refetches of the new frame to come
(R120, R162). PHASE reads 0 throughout a frame that is not evaluated (DESIGN CHOICE, log 85). -/
def State.boundary (s : State) (synced deferred : Bool) : State :=
  let s := s.safeExit.cutFrame.endStall.countLength
  let s := { s with
    frm := { s.frm with
      running := true, frameNum := s.frm.frameNum + 1, lastBnd := s.frm.tb, synced := synced, deferred := deferred
      frameOut := s.frameOutNext
      frameOutAt := if s.frm.frameOutCfg.extractLsb' 8 2 = (3 : BitVec 2) then s.frm.frameOutAt else s.frm.tb }
    bst := if s.frm.running then s.bst else { s.bst with passStartC := s.frm.tb, passStartD := s.frm.tb } }
  let s := s.advanceWheel.releasePs.sampleCounters.sampleInputs
  let e := s.evaluates
  let turn := fun (c : Chan) => if s.dev.dbgSplit then { c with refetched := [] } else c.nextFrame s.entryPc
  let s := { s with cope := turn s.cope, drag := turn s.drag }
  { s with frm := { s.frm with phase := if e then 1 else 0 }, prog := { evalFrame := e } }

/-- SYNC_EN (R109). -/
def State.syncOn (s : State) : Bool := s.frm.syncCfg.getLsbD 31

/-- FRAME_BOUNDARY, at its nominal position. No effect while boundaries do not run or SYNC_IN places them. -/
def doFrameBoundary (s : State) : State := if s.frm.running && !s.syncOn then s.boundary false false else s

/-- The meaning of FRAME_BOUNDARY (R87; R81, R103, R106, R124, R313, R376). -/
def execFrameBoundary (s : State) : Host.Outcome State Fault Refusal := .next (doFrameBoundary s)

/-! SYNC_IN (R96, R106, R113). -/

/-- An event of SYNC_IN: bit and counter; 0 LATE, 1 MISS, 2 STRAY. -/
def State.syncEvent (s : State) (k : Nat) : State :=
  ({ s.mark .frm 0x134 k with frm := { s.frm with syncEvents := putBit s.frm.syncEvents k true } }).bump .frm (0x44 + 4 * k)

/-- The present instant lies in the window W of the next boundary, both ends included. -/
def State.inSyncWindow (s : State) : Bool :=
  let n := s.frm.lastBnd.toNat + s.frm.period.toNat
  let w := (s.frm.syncCfg.extractLsb' 0 14).toNat
  decide (n ≤ s.frm.tb.toNat + w ∧ s.frm.tb.toNat ≤ n + w)

/-- The present instant is at or after E. -/
def State.afterE (s : State) : Bool := decide (s.frm.lastBnd.toNat + s.frm.commitAt.toNat + 75 ≤ s.frm.tb.toNat)

/-- SYNC_IN_EDGE. No effect while boundaries do not run or SYNC_EN is 0, nor of an edge of the other polarity than SYNC_POL's (R95, R109). -/
def doSyncInEdge (rising : Bool) (s : State) : State :=
  if !s.frm.running || !s.syncOn || rising == s.frm.syncCfg.getLsbD 30 then s
  else if s.prog.edgeSeen || !s.inSyncWindow then s.syncEvent 2
  else if s.afterE then s.boundary true false
  else ({ s with prog := { s.prog with edgeSeen := true, defer := true } }).syncEvent 0

/-- The meaning of SYNC_IN_EDGE (R95, R96). -/
def execSyncInEdge (s : State) (rising : Bool := true) : Host.Outcome State Fault Refusal := .next (doSyncInEdge rising s)

/-- EARLIEST_BOUNDARY. No effect where no early edge has deferred the boundary to E. -/
def doEarliestBoundary (s : State) : State := if s.frm.running && s.prog.defer then s.boundary false true else s

/-- The meaning of EARLIEST_BOUNDARY (R96). -/
def execEarliestBoundary (s : State) : Host.Outcome State Fault Refusal := .next (doEarliestBoundary s)

/-- SYNC_WINDOW_END. No effect where an edge has been seen in the window, or SYNC_IN places no boundaries. -/
def doSyncWindowEnd (s : State) : State :=
  if s.frm.running && s.syncOn && !s.prog.edgeSeen then (s.syncEvent 1).boundary false false else s

/-- The meaning of SYNC_WINDOW_END (R96). -/
def execSyncWindowEnd (s : State) : Host.Outcome State Fault Refusal := .next (doSyncWindowEnd s)

/-! Arming, overrun and the commit decision (R84, R88, R157). -/

/-- The die counts for arming and strobes: in service and not fenced (R88, R555). -/
def State.dieCounts (s : State) (d : Nat) : Bool := decide (d < s.dies) && !(s.bar d).fenced

/-- ARM_ACK. No effect before the vectors are armed, after the decision, or from a die that does not count. -/
def doArmAck (d : Fin 2) (h : Half) (s : State) : State :=
  if s.prog.armedC.isSome && s.prog.armedD.isSome && !s.prog.commitDone && s.dieCounts d then
    { s with prog := { s.prog with acks := putBit s.prog.acks (2 * d.val + h.num) true } }
  else s

/-- The meaning of ARM_ACK (R88). -/
def execArmAck (d : Fin 2) (h : Half) (s : State) : Host.Outcome State Fault Refusal := .next (doArmAck d h s)

/-- The present frame began as an evaluated one (R86): it has a commit decision, whatever has stopped its evaluation. -/
def State.inEvalFrame (s : State) : Bool := s.prog.evalFrame && s.frm.running

/-- Boundaries have stopped in the present cycle: a fault of the frame that this cut off is still recorded (R39). -/
def State.cutHere (s : State) : Bool := !s.frm.running && s.cut.time == some s.frm.tb && s.cut.prog.evalFrame

/-- The frame is late: EVALUATE has not ended, and neither OVERRUN nor the commit has come. -/
def Progress.late (p : Progress) : Bool := !p.evalEnded && !p.overrun && !p.commitDone

/-- OVERRUN. No effect where EVALUATE has ended or is stopped, or once the commit is decided. -/
def doOverrun (s : State) : State :=
  if s.inEvalFrame && s.evaluates && s.prog.late then
    ({ s with prog := { s.prog with overrun := true } }).raise { page := .frm, cause := 0 }
  else if s.cutHere && s.cut.prog.late then
    ({ s with cut := { s.cut with prog := { s.cut.prog with overrun := true } } }).raise { page := .frm, cause := 0 }
  else s

/-- The meaning of OVERRUN (R84, R86). -/
def execOverrun (s : State) : Host.Outcome State Fault Refusal := .next (doOverrun s)

/-- A cause of R154 or R155 latched in the cycle that ends now (R157). -/
def State.causeNow (s : State) : Bool := s.prog.channelCauseAt == some s.frm.tb

/-- R88's first row: STATE has left RUN or COMMISSION, or a SAFE_STOP of the frame is in progress; not one for a channel cause of this very
cycle (R157). -/
def State.commitStopped (s : State) : Bool :=
  let moved := s.dev.state != .run && s.dev.state != .commission
  let late := s.causeNow && s.dev.state == .safe && s.dev.stateTime == s.frm.tb && s.dev.prev == .run
  let stop := match s.dev.stopFirst with
    | some t => decide (s.frm.lastBnd.toNat ≤ t.toNat) && (t != s.frm.tb || !s.causeNow)
    | none => false
  (moved && !late) || stop || (s.prog.channelCauseAt.isSome && !s.causeNow)

/-- Every die that counts has acknowledged on both lanes. -/
def State.allArmed (s : State) : Bool :=
  (List.range 2).all fun d => !s.dieCounts d || (s.prog.acks.getLsbD (2 * d) && s.prog.acks.getLsbD (2 * d + 1))

/-- The rows of R88. -/
inductive CommitRow where
  | stopped
  | overrun
  | armFail
  | mismatch
  | full
  deriving DecidableEq, Repr

/-- The first row of R88 whose condition holds. -/
def State.commitRow (s : State) : CommitRow :=
  if s.commitStopped then .stopped
  else if s.prog.overrun then .overrun
  else if !s.allArmed then .armFail
  else if s.prog.mismatchAt.isSome || s.causeNow then .mismatch
  else .full

/-- The strobe of a row. -/
def CommitRow.strobe : CommitRow → Strobe
  | .mismatch => .offOnly
  | .full => .full
  | _ => .none

/-- COMMIT_INFO.RESULT of a row (R112). -/
def CommitRow.result : CommitRow → BitVec 2
  | .mismatch => 2
  | .full => 1
  | _ => 3

/-- EVAL_END of COMMIT_INFO: of a frame whose EVALUATE has not ended no rule gives one, and it is free (R112). -/
def State.evalEndShown (s : State) : BitVec 17 × State :=
  if s.prog.evalEnded then (s.prog.evalEnd, s)
  else
    let w := s.freeWord
    (w.1.setWidth 17, w.2)

/-- The latch check at a commit instant: SPLIT for outputs whose latches differ at a second one (R200, R201). No rule says which half
FAULT_INFO names; the bit is free. -/
def State.latchCheck (s : State) : State :=
  let diff := s.trp.tlC ^^^ s.trp.tlD
  let twice := diff &&& s.trp.splitPrev
  let new := twice &&& ~~~s.trp.splitLive
  let s := { s with trp := { s.trp with splitPrev := diff, splitLive := twice } }
  (List.range 48).foldl (fun s n =>
    if new.getLsbD n then
      let w := s.freeWord
      w.2.tripFault 4 (n / 6) (faultInfo (if w.1.getLsbD 0 then .d else .c) (n / 24) n)
    else s) s

/-- The frame is published: EVALUATE ended by boundary + WCET and no channel cause latched (R93). -/
def State.publishes (s : State) : Bool :=
  s.prog.evalEnded && !s.prog.overrun && decide (s.prog.evalEnd.toNat ≤ s.frm.wcet.toNat) && s.prog.channelCauseAt.isNone

/-- FBS switches to the frame's records, and PUB_FRAME, PUB_CRC and PUB_WORDS take the frame's values (R93, R494, R529); what they replace is
kept for the cycle (R157). -/
def State.publish (s : State) : State :=
  let x := s.ctx 7
  { s with
    prog := { s.prog with replaced := some (s.fbs, (s.chk.pubCrc, s.chk.pubFrame, s.chk.pubWords), s.spbs.map (·.pubFrame)) }
    fbs := s.fbsBuf
    spbs := s.spbs.map fun (b : Spb) => if b.publish && !b.fenced then { b with pubFrame := s.frm.frameNum } else b
    chk := { s.chk with pubCrc := if x.fenced then s.chk.pubCrc else x.value ^^^ Word.ones, pubFrame := s.frm.frameNum
                        pubWords := s.chk.fed } }

/-- The frame as a stop of boundaries of the present cycle found it. -/
def State.uncut (s : State) : State :=
  { s with prog := s.cut.prog, frm := { s.frm with running := true, lastBnd := s.cut.lastBnd }
           dev := { s.dev with state := s.cut.state, stopFirst := s.cut.stopFirst } }

/-- COMMIT_AT of a frame that a stop of boundaries of this cycle has cut off: ARM_FAIL is still recorded (R39). -/
def State.commitCut (s : State) : State :=
  if s.cutHere && !s.cut.prog.commitDone then
    let t := { s with cut := { s.cut with prog := { s.cut.prog with commitDone := true } } }
    if s.uncut.commitRow == CommitRow.armFail then t.raise { page := .frm, cause := 1 } else t
  else s

/-- COMMIT_AT: the decision, the strobe to every die that counts, the latch check, and the switch of PUBLISH. Once in an evaluated frame. -/
def doCommitAt (s : State) : State :=
  if s.inEvalFrame && !s.prog.commitDone then
    let row := s.commitRow
    let e := s.evalEndShown
    let s := { e.2 with
      frm := { e.2.frm with result := row.result, evalEnd := e.1, commitFrame := s.frm.frameNum, phase := 5 }
      prog := { e.2.prog with commitDone := true, decidedAt := some s.frm.tb, strobe := row.strobe
                              strobed := if row.strobe == Strobe.none then 0 else vecOf 2 s.dieCounts } }
    let s := if s.publishes then s.publish else s
    (if row == CommitRow.armFail then s.raise { page := .frm, cause := 1 } else s).latchCheck
  else s.commitCut

/-- The meaning of COMMIT_AT (R88, R93, R112, R157, R200). -/
def execCommitAt (s : State) : Host.Outcome State Fault Refusal := .next (doCommitAt s)

/-- COMMIT_SPLIT: the die discards its vector. No effect unless it was sent a strobe that it has not applied and the other die has. -/
def doCommitSplit (d : Fin 2) (s : State) : State :=
  if s.prog.strobed.getLsbD d && !s.prog.applied.getLsbD d && s.prog.applied.getLsbD (1 - d.val) && !(s.bar d).fenced then
    ({ s with prog := { s.prog with applied := putBit s.prog.applied d true } }).raise { page := .frm, cause := 2 }
  else s

/-- The meaning of COMMIT_SPLIT (R90). -/
def execCommitSplit (d : Fin 2) (s : State) : Host.Outcome State Fault Refusal := .next (doCommitSplit d s)

/-! The end of PUBLISH and BACKGROUND (R94, R465; R200, R321, R362, R393). -/

/-- The permit latch of a port (R465). -/
def Hp.latchPermit (p : Hp) : Hp :=
  let age := if p.refreshed then 0 else satInc p.age
  if decide (p.timeout.toNat ≤ age.toNat) || !p.everRefreshed then
    { p with age := age, refreshed := false, used := 0, timedOut := true }
  else { p with age := age, refreshed := false, used := p.permitHi ++ p.permitLo, timedOut := false }

/-- A port's permit latch: TIMEOUT as TIMED_OUT becomes 1, and PERMIT_TO where the host has refreshed since the entry to RUN (R465,
R471, R475). -/
def State.permitPort (s : State) (n : Nat) : State :=
  let was := (s.hp n).timedOut
  let s := s.updHp n Hp.latchPermit
  if (s.hp n).timedOut && !was then
    let s := (s.mark (hpOf n) 0x108 2).updHp n fun p => { p with events := putBit p.events 2 true }
    if (s.hp n).everRefreshed then s.raise { page := hpOf n, cause := 6 } else s
  else s

/-- The die of a configuration word (R209). -/
def cfgWordDie (w : Nat) : Nat := if w < 144 then w / 72 else if w < 192 then (w - 144) / 24 else dieOfInput (w - 192)

/-- The wheel halts: no dark pulses, no judgments, every pulse source high-Z, until START (R393). A mask in progress ends. -/
def State.haltWheel (s : State) : State :=
  let own := if s.pwl.window.isSome then s.ownInputs else []
  let s := { s.dropJudging with pwl := { s.pwl with halted := true, dark := none, window := none } }
  (own.foldl State.unmask s).updateTrips

/-- The cause of a corrupt configuration copy. -/
def cfgEvent : CfgFault → Ev
  | .trp w _ => { page := .trp, cause := 0, unit := some (4 * cfgWordDie w.toNat) }
  | .fib b => { page := .fib b, cause := 9 }
  | .fob b => { page := .fob b, cause := 20 }
  | .pwl => { page := .pwl, cause := 8 }

/-- The configuration word or page that a fault names exists. -/
def State.cfgExists (s : State) : CfgFault → Bool
  | .trp w _ => decide (w.toNat < 304)
  | .fob b => decide (b.val < s.banks)
  | _ => true

/-- A corrupt configuration copy found in BACKGROUND. On FIB the chapter states no live condition: as on PWL (R394) none is live, and what each
frame finds is an event (DESIGN CHOICE, log 105). After a reset of the same cycle only the event is left (R39). -/
def State.cfgFault (s : State) (f : CfgFault) : State :=
  if !s.cfgExists f then s
  else if !s.frm.running then s.raise (cfgEvent f)
  else match f with
  | .trp w h => s.tripFault 0 (4 * cfgWordDie w.toNat) (faultInfo h (cfgWordDie w.toNat) w.toNat)
  | .fib b => s.raise { page := .fib b, cause := 9 }
  | .fob b => s.outCfgFault b
  | .pwl => s.haltWheel.raise { page := .pwl, cause := 8 }

/-- PERMIT_LATCH: once a frame while boundaries run, after the commit decision where one is made; then BACKGROUND. -/
def doPermitLatch (faults : List CfgFault) (s : State) : State :=
  if s.frm.running && !s.prog.published && (s.prog.commitDone || !s.inEvalFrame) then
    let s := (List.range 4).foldl State.permitPort s
    let s := { s with
      prog := { s.prog with published := true }
      frm := { s.frm with phase := if s.prog.evalFrame then 6 else s.frm.phase } }
    faults.foldl State.cfgFault s
  else s

/-- The meaning of PERMIT_LATCH (R94, R465; R200, R321, R362, R393). -/
def execPermitLatch (faults : List CfgFault) (s : State) : Host.Outcome State Fault Refusal := .next (doPermitLatch faults s)

/-- FO_WIDTH in ticks: 0 is taken as 1 (R110). -/
def State.frameOutWidth (s : State) : Nat := max 1 (s.frm.frameOutCfg.extractLsb' 0 8).toNat

/-- FRAME_OUT_END. No effect but in modes 1 and 3, nor before FO_WIDTH has passed. -/
def doFrameOutEnd (s : State) : State :=
  let m := (s.frm.frameOutCfg.extractLsb' 8 2).toNat
  if (m = 1 ∨ m = 3) ∧ s.frm.frameOutAt.toNat + s.frameOutWidth ≤ s.frm.tb.toNat then { s with frm := { s.frm with frameOut := false } } else s

/-- The meaning of FRAME_OUT_END (R99, R110). -/
def execFrameOutEnd (s : State) : Host.Outcome State Fault Refusal := .next (doFrameOutEnd s)

end Sys2Proof.Machine
end

