-- ==== Sys2Proof/Machine/Reads.lean ====
section
/-! DEFINITION. What every register reads: the page-specific registers of each block page and the windows (chapters 02 to 17). An
argument k picks the free value of a register whose content the manual leaves to measurement. -/

namespace Sys2Proof.Machine

/-- Straps in the bit order of DEV_PINS (R623). -/
def strapBits (x : Straps) : Word := field x.bootSel 2 ||| flag x.commission 1 ||| flag x.compat 0

/-- DEV (R622 to R625). -/
def State.readDev (s : State) (off : Nat) : Word :=
  match off with
  | 0x100 => BitVec.ofNat 32 (s.dev.prev.code * 2 ^ 20) ||| flag s.dev.dbgSplit 19 ||| flag (s.dev.state == .commission) 18
      ||| flag (s.errLow .d) 17 ||| flag (s.errLow .c) 16 ||| (strapBits s.dev.straps &&& 0xC) <<< 8 ||| flag s.dev.straps.commission 9
      ||| flag s.dev.straps.compat 8 ||| BitVec.ofNat 32 s.dev.state.code
  | 0x104 => strapBits s.dev.pinsNow
  | 0x108 => match s.ident.part with
    | .slc4896 => 0x48963001
    | .slc2448 => 0x24481001
  | 0x10C => wordAt s.ident.devNum 0
  | 0x110 => wordAt s.ident.devNum 1
  | 0x114 => field s.dev.startCause 28 ||| field s.dev.startPage 12 ||| field s.dev.startCode 0
  | 0x118 => wordAt s.dev.stateTime 0
  | 0x11C => wordAt s.dev.stateTime 1
  | 0x120 => flag s.dev.stateChg 0
  | 0x124 => flag s.dev.irqEn 0
  | _ => 0

/-- CLK (R627). -/
def State.readClk (s : State) (off : Nat) : Word :=
  match off with
  | 0x100 => flag s.clk.locked 31 ||| flag s.clk.refOk 30 ||| flag s.clk.coreCOk 29 ||| flag s.clk.coreDOk 28
  | 0x108 => 0x32024880
  | 0x10C => field s.clk.ageQuantum 0
  | _ => 0

/-- SUP (R629, R630); the measurements are free. -/
def State.readSup (s : State) (off : Nat) : Word :=
  match off with
  | 0x100 => flag s.sup.pfLevel 31 ||| flag s.sup.pfHold 30 ||| flag s.sup.host3v3 29 ||| field s.sup.warnLive 8 ||| field s.sup.valid 0
  | 0x108 => field s.sup.events 0
  | 0x10C => field s.sup.irqEn 0
  | 0x110 => s.sup.vCoreIo
  | 0x114 => s.sup.vHostBar
  | 0x118 => s.sup.iCore
  | _ => 0

/-- PHASE of FRM_STATUS: FINGERPRINT reads as waiting for COMMIT_AT once its core cycles have passed (R107, R172). In a frame whose evaluation a
stop trap or DBG_SPLIT cuts short it stands at 2 (or goes on from 3) until COMMIT_AT or PERMIT_LATCH (DESIGN CHOICE, log 110). -/
def State.phaseNow (s : State) : BitVec 3 :=
  if s.frm.phase = 3 ∧ s.prog.fpCycles.toNat ≤ 4 * (s.frm.tb.toNat - s.frm.lastBnd.toNat - s.prog.evalEnd.toNat) then 4 else s.frm.phase

/-- FRM (R107 to R114), but for the captures of TB and LAST_BND. -/
def State.readFrm (s : State) (off : Nat) : Word :=
  match off with
  | 0x100 => flag s.frm.running 31 ||| flag s.frm.synced 30 ||| flag s.frm.deferred 29 ||| field s.phaseNow 0
  | 0x104 => field s.frm.period 0
  | 0x108 => field s.frm.commitAt 0
  | 0x10C => field s.frm.wcet 0
  | 0x110 => s.frm.syncCfg
  | 0x114 => s.frm.frameOutCfg
  | 0x118 => s.frm.frameNum
  | 0x11C => wordAt s.frm.lastBnd 0
  | 0x120 => wordAt s.frm.lastBnd 1
  | 0x124 => wordAt s.frm.tb 0
  | 0x128 => wordAt s.frm.tb 1
  | 0x12C => field s.frm.result 30 ||| field s.frm.evalEnd 0
  | 0x130 => s.frm.commitFrame
  | 0x134 => field s.frm.syncEvents 0
  | 0x138 => field s.frm.syncIrqEn 0
  | _ => 0

/-- HPn (R473 to R478). -/
def State.readHp (s : State) (n off : Nat) : Word :=
  let p := s.hp n
  match off with
  | 0x100 => flag p.fenced 31 ||| flag p.resetting 30 ||| flag p.session.isSome 29 ||| flag p.timedOut 28
      ||| BitVec.ofNat 32 (65536 * p.freeTags + 256 * p.ready) ||| field p.expSeq 0
  | 0x108 => field p.events 0
  | 0x10C => field p.irqEn 0
  | 0x110 => field p.bucket 16 ||| field p.refill 0
  | 0x114 => flag p.hold 2 ||| flag (p.tokens == 0) 1 ||| flag (p.freeTags == 0) 0
  | 0x118 => p.permitStaged
  | 0x11C => p.permitHi
  | 0x120 => wordAt p.used 0
  | 0x124 => wordAt p.used 1
  | 0x128 => field p.age 8 ||| field p.timeout 0
  | 0x12C => p.lastNak
  | 0x130 => (p.session.map (·.ctr)).getD 0
  | _ => 0

/-- OWN (R481 to R484). -/
def State.readOwn (s : State) (off : Nat) : Word :=
  match off with
  | 0x100 => flag s.otp.sess.isSome 31 ||| flag s.otp.img.isSome 30 ||| field (vecOf 4 fun n => (s.hp n).session.isSome) 8
      ||| field (vecOf 4 fun n => (s.hp n).fenced) 4 ||| field s.dev.supervisor 0
  | 0x10C => field s.own.assignPage 20 ||| field s.own.assignResult 16 ||| field s.own.assignFlask 0
  | 0x110 => flag s.own.keyBusy 31 ||| field s.own.keyResult 28 ||| field s.own.key 0
  | _ => 0

/-- MODE (R165). -/
def ChMode.code : ChMode → Nat
  | .idle => 0
  | .evaluating => 1
  | .inHandler => 2
  | .trapped => 3
  | .halted => 4
  | .parked => 5

/-- The channel is HALTED or PARKED. -/
def Chan.stopped (c : Chan) : Bool := c.mode == .halted || c.mode == .parked

/-- The debug registers of a channel; outside COMMISSION each reads 0 (R160, R170, R171). -/
def State.readDebug (s : State) (h : Half) (off : Nat) : Word :=
  let c := s.chan h
  if s.dev.state != .commission then 0
  else match off with
    | 0x180 => flag c.bpEn 3
    | 0x184 => field c.bp 0
    | 0x188 => field c.pc 0
    | 0x18C => field c.regSel 0
    | 0x190 => if c.stopped then Config.regFile c.regSel.toNat c.regGen else 0
    | 0x194 => field c.memAddr 2
    | 0x198 => if c.stopped then s.lsmWord h (4 * c.memAddr.toNat) else 0
    | _ => 0

/-- COP and DRG (R165 to R171). -/
def State.readChan (s : State) (h : Half) (off : Nat) : Word :=
  let c := s.chan h
  match off with
  | 0x100 => BitVec.ofNat 32 (c.mode.code * 2 ^ 29) ||| flag c.lockstep 28 ||| flag (h == .d) 27 ||| field c.block 0
  | 0x108 => 0x19081040
  | 0x10C => field c.trapSrc 0
  | 0x110 => field c.trapPend 0
  | 0x114 => c.trapFrame
  | 0x118 => if c.mode == .trapped || c.stopped then field c.stopPc 0 else 0
  | 0x11C => c.lsmErr
  | off => s.readDebug h off

/-- CMP (R173 to R178). OFFSET is 2 while LOCKSTEP is 1 and 0 from START on; once lockstep has ended no rule gives it, and it is free. -/
def State.readCmp (s : State) (off k : Nat) : Word :=
  let c := s.cmp
  match off with
  | 0x100 => flag c.active 31 ||| flag c.startupPass 30 ||| flag c.exOk 29 ||| field c.exBit 8
      ||| (if s.cope.lockstep then 2 else if s.frm.frameNum = 0 then 0 else Config.freeWord k &&& 0xF)
  | 0x108 => c.liveCfg
  | 0x10C => c.fpFrame
  | 0x110 => c.fpCope
  | 0x114 => c.fpDrag
  | 0x118 => c.mmInfo
  | 0x11C => wordAt c.mmCope 1
  | 0x120 => wordAt c.mmCope 0
  | 0x124 => wordAt c.mmDrag 1
  | 0x128 => wordAt c.mmDrag 0
  | off =>
    let w := off / 4 % 4
    if 0x140 ≤ off ∧ off < 0x150 then wordAt c.rawC w
    else if 0x150 ≤ off ∧ off < 0x160 then wordAt c.rawD w
    else if 0x160 ≤ off ∧ off < 0x170 then wordAt c.agreed w
    else if 0x170 ≤ off ∧ off < 0x180 then wordAt c.disActive w
    else 0

/-- TRP (R204 to R213). -/
def State.readTrp (s : State) (off : Nat) : Word :=
  let t := s.trp
  match off with
  | 0x100 => flag (s.dev.state == .run) 31 ||| flag s.globalHold 30 ||| BitVec.ofNat 32 (ones (t.tlC ||| t.tlD))
  | 0x108 => wordAt t.tlC 0
  | 0x10C => wordAt t.tlC 1
  | 0x110 => wordAt t.tlD 0
  | 0x114 => wordAt t.tlD 1
  | 0x118 => field (s.laneState .c 1) 16 ||| field (s.laneState .c 0) 0
  | 0x11C => field (s.laneState .d 1) 16 ||| field (s.laneState .d 0) 0
  | 0x140 => t.faultInfo
  | 0x144 => t.lastTrip
  | 0x148 => wordAt t.lastTripTime 0
  | 0x14C => wordAt t.lastTripTime 1
  | 0x150 => t.lastTripFrame
  | off =>
    let w := off / 4 % 4
    if 0x120 ≤ off ∧ off < 0x130 then wordAt (s.demandVec .c) w
    else if 0x130 ≤ off ∧ off < 0x140 then wordAt (s.demandVec .d) w
    else if 0x200 ≤ off ∧ off < 0x500 then (if w < 3 then t.tset.getD (3 * ((off - 0x200) / 16) + w) 0 else 0)
    else if 0x600 ≤ off ∧ off < 0x780 then (if w < 2 then t.xsrc.getD (2 * ((off - 0x600) / 16) + w) 0 else 0)
    else if 0x800 ≤ off ∧ off < 0x9C0 then t.tin.getD ((off - 0x800) / 4) 0
    else 0

/-- CRB (R439 to R441). -/
def State.readCrb (s : State) (off : Nat) : Word :=
  match off with
  | 0x100 => flag s.crb.valid 31 ||| flag s.cruciblePatrolOn 30 ||| flag s.windowOpen 29 ||| BitVec.ofNat 32 (8 * s.crb.pos.toNat)
  | 0x108 => s.crb.eccAddr
  | _ => 0

/-- PHASE (R444). -/
def LoadPhase.code : LoadPhase → Nat
  | .idle => 0
  | .readingHeaders => 1
  | .copying => 2
  | .waitingHost => 3
  | .verifying => 4
  | .distributing => 5

/-- IMG (R444 to R447). -/
def State.readImg (s : State) (off : Nat) : Word :=
  let i := s.img
  match off with
  | 0x100 => BitVec.ofNat 32 (i.phase.code * 2 ^ 29) ||| flag s.otp.img.isSome 28 ||| field i.source 24 ||| field i.tries 16 ||| field i.version 0
  | 0x104 => field i.reloadResult 28 ||| field i.stageBank 16 ||| field i.src 8
  | 0x108 => i.verifyResult
  | 0x10C => i.slotASeq
  | 0x110 => i.slotBSeq
  | 0x114 => flag i.slotBOk 1 ||| flag i.slotAOk 0
  | 0x118 => i.runSeq
  | 0x11C => i.runLength
  | 0x120 => wordAt i.runId 0
  | 0x124 => wordAt i.runId 1
  | _ => 0

/-- POWER_NOW (R509). -/
def Power.code : Power → Nat
  | .on => 0
  | .retain => 1
  | .off => 2
  | .filling => 3

/-- SPBk (R509 to R513); REQ of a publish bank reads ON while frames may run (R493). -/
def State.readSpb (s : State) (k off : Nat) : Word :=
  let b := s.spb k
  let runs := s.dev.state == .run || s.dev.state == .safe || s.dev.state == .commission
  match off with
  | 0x100 => flag b.fenced 31 ||| flag b.unusable 30 ||| flag b.publish 29 ||| flag (s.spc.waiting && s.spc.bank.toNat == k) 28
      ||| field b.risers 4 ||| BitVec.ofNat 32 b.power.code
  | 0x108 => if b.publish && runs then 0 else field b.req 0
  | 0x10C => b.errAddr
  | 0x110 => b.lastCollide
  | 0x114 => if b.publish then b.pubFrame else 0
  | _ => 0

/-- SPC (R516, R517). -/
def State.readSpc (s : State) (off : Nat) : Word :=
  match off with
  | 0x100 => flag s.scratchPatrolOn 31 ||| flag (s.spc.waiting && s.spc.level == 4) 30 ||| field s.patrolAt.1 5 ||| field s.patrolAt.2 0
  | 0x108 => field (vecOf 16 fun k => (s.spb k).publish) 16 ||| field (vecOf 16 fun k => (s.spb k).power == .on) 0
  | 0x10C => field (vecOf 16 fun k => (s.spb k).unusable) 16 ||| field (vecOf 16 fun k => (s.spb k).fenced) 0
  | _ => 0

/-- STATUS of a context (R534). -/
def Ctx.status (x : Ctx) : Word := flag x.busy 31 ||| field x.jobRes 8 ||| field x.chkRes 0

/-- A context block; while the context is fenced, only STATUS (R530, R534). -/
def Ctx.read (x : Ctx) (off : Nat) : Word :=
  if off = 0x1C then x.status
  else if x.fenced then 0
  else match off with
    | 0x00 => field x.cfg 0
    | 0x04 => x.fit x.value
    | 0x08 => x.result
    | 0x0C => field x.foldBase 0
    | 0x10 => field x.seq 0
    | 0x14 => x.fit x.expect
    | 0x20 => field x.jobBank 16 ||| field x.jobOffset 2
    | 0x24 => field x.jobLen 0
    | 0x28 => field x.jobPos 0
    | 0x2C => x.mmValue
    | 0x30 => x.mmExpect
    | _ => 0

/-- CHK (R533 to R535). -/
def State.readChk (s : State) (off : Nat) : Word :=
  match off with
  | 0x100 => field (vecOf 8 fun c => (s.ctx c).fenced) 8 ||| field (vecOf 8 fun c => (s.ctx c).busy) 0
  | 0x108 => s.chk.pubCrc
  | 0x10C => s.chk.pubFrame
  | 0x110 => if (s.ctx 7).fenced then 0 else field s.chk.pubWords 0
  | off => if 0x200 ≤ off ∧ off < 0x400 then (s.ctx ((off - 0x200) / 64)).read (off % 64) else 0

/-- SECTOR (R593). -/
def Sector.code : Sector → Nat
  | .unknown => 0
  | .erasing => 1
  | .ready => 2
  | .failed => 3

/-- The units marked unusable (R597). -/
def State.unusable (s : State) : Units :=
  { hp := vecOf 4 fun n => (s.hp n).unusable, iob := vecOf 8 fun b => (s.inBank b).unusable, spb := vecOf 16 fun k => (s.spb k).unusable
    fd := vecOf 2 fun d => (s.bar d).unusable, chk := vecOf 8 fun c => (s.ctx c).unusable }

/-- BST (R593 to R598). -/
def State.readBst (s : State) (off : Nat) : Word :=
  let b := s.bst
  match off with
  | 0x100 => field b.startKind 30 ||| field b.reason 24 ||| flag b.keysLoaded 23 ||| flag b.scanCleared 22
      ||| BitVec.ofNat 32 (b.sector.code * 2 ^ 20) ||| flag (s.frm.running && !(s.cope.mode == .halted && s.drag.mode == .halted)) 16
  | 0x108 => b.age
  | 0x10C => field b.warn 0
  | 0x110 => flag b.due 0
  | 0x114 => flag b.irqEn 0
  | 0x118 => b.sseq
  | 0x11C => b.lastShake
  | 0x120 => b.lastSlices
  | 0x124 => b.lastTime
  | 0x128 => unitsWord0 s.unusable
  | 0x12C => unitsWord1 s.unusable
  | 0x130 => BitVec.ofNat 32 (4 * b.posD.toNat * 65536 + 4 * b.posC.toNat)
  | _ => 0

/-- EX_NEXT of a bank: of the exercise that its die gives next, in the next frame where that of this one has begun or boundaries have stopped
(R103, R328); before the first boundary the register's reset value. -/
def State.exNext (s : State) (b : Nat) : BitVec 2 :=
  if s.frm.frameNum = 0 then 0
  else (s.frm.frameNum + (if s.prog.exercised.getLsbD (dieOfBank b) || !s.frm.running then 1 else 0)).setWidth 2

/-- FIBb (R328 to R335). -/
def State.readFib (s : State) (b off : Nat) : Word :=
  match off with
  | 0x100 => flag (s.bankFenced b) 31 ||| flag (s.inBank b).unusable 30 ||| field (s.exNext b) 0
  | 0x108 => field (s.inBank b).qual 0
  | 0x10C => field (vecOf 14 fun k => (s.comp (inputOf b k) .c).level) 0
  | 0x110 => field (vecOf 14 fun k => (s.comp (inputOf b k) .d).level) 0
  | 0x114 => field (vecOf 14 fun k => s.filterOut (inputOf b k) .c) 0
  | 0x118 => field (vecOf 14 fun k => s.filterOut (inputOf b k) .d) 0
  | 0x11C => field (vecOf 14 fun k =>
      let u := s.inp (inputOf b k)
      u.cfg.getLsbD 29 && decide (u.cur.toNat < 15)) 0
  | 0x120 => (s.inBank b).exFail
  | off =>
    let k := off / 4 % 16
    let u := s.inp (inputOf b k)
    if 0x140 ≤ off ∧ off < 0x178 then field u.live 16 ||| field u.latch 0
    else if 0x180 ≤ off ∧ off < 0x1B8 then u.cfg
    else if 0x1C0 ≤ off ∧ off < 0x1F8 then field u.cur 0
    else if 0x200 ≤ off ∧ off < 0x3C0 then
      let i := inputOf b ((off - 0x200) / 32)
      let c := (s.comp i .c).counters s.frm.tb
      let d := (s.comp i .d).counters s.frm.tb
      match off % 32 with
      | 0x00 => c.1
      | 0x04 => d.1
      | 0x08 => c.2.1
      | 0x0C => d.2.1
      | 0x10 => c.2.2
      | 0x14 => d.2.2
      | _ => 0
    else 0

/-- FOBb (R366 to R374). -/
def State.readFob (s : State) (b off : Nat) : Word :=
  let x := s.outBank b
  let vec := fun (f : Nat → Bool) => field (vecOf 8 fun k => f (outputOf b k)) 0
  match off with
  | 0x100 => flag (s.bankFenced b) 31 ||| flag (s.inBank b).unusable 30 ||| flag (s.fvLock b) 29 ||| flag x.blank 28
  | 0x108 => field x.oqual 0
  | 0x10C => vec (fun o => (s.out o).hold) <<< 16 ||| vec (fun o => s.drive o == .low) <<< 8 ||| vec fun o => s.drive o == .high
  | 0x110 => vec fun o => (s.out o).sense.rbC
  | 0x114 => vec fun o => (s.out o).sense.rbD
  | 0x118 => vec fun o => (s.out o).cmdC
  | 0x11C => vec fun o => (s.out o).cmdD
  | 0x120 => x.fvC ++ x.fvD
  | 0x124 => x.minC ++ x.minD
  | 0x128 => x.fvCfg
  | 0x12C => x.lastDip
  | off =>
    let o := outputOf b (off / 4 % 8)
    let u := s.out o
    if 0x140 ≤ off ∧ off < 0x160 then field (s.outLive o) 16 ||| field u.latch 0
    else if 0x180 ≤ off ∧ off < 0x1A0 then u.cfg
    else if 0x1C0 ≤ off ∧ off < 0x1E0 then flag u.sense.sink 15 ||| field u.sense.cur 0
    else if 0x1E0 ≤ off ∧ off < 0x200 then field u.sense.temp 0
    else 0

/-- A GAP register (R401); P_SLOT is that of the pending foreign observation. -/
def GapReg.word (g : GapReg) (fPend mPend : Bool) : Word :=
  flag g.fValid 31 ||| flag g.mValid 30 ||| flag fPend 29 ||| flag mPend 28 ||| field g.fSlot 16
    ||| (if fPend then field g.pSlot 8 else 0) ||| flag g.missD 1 ||| flag g.missC 0

/-- INi_GAP; of an absent input 0 (R401, R402). -/
def State.inGap (s : State) (i : Nat) : Word :=
  if bankOfInput i < s.banks then
    (s.inp i).gap.word ((s.comp i .c).forPend.isSome || (s.comp i .d).forPend.isSome) ((s.comp i .c).missPend || (s.comp i .d).missPend)
  else 0

/-- SOn_GAP; of an absent output 0. -/
def State.outGap (s : State) (n : Nat) : Word :=
  if bankOfOutput n < s.banks then (s.out n).gap.word (s.out n).forPend.isSome ((s.out n).missPendC || (s.out n).missPendD) else 0

/-- PWL (R397 to R402). -/
def State.readPwl (s : State) (off : Nat) : Word :=
  let w := s.pwl
  match off with
  | 0x100 => flag (w.running && !w.halted) 31 ||| flag w.halted 30 ||| field w.inC 8 ||| field w.slotC 0
  | 0x108 => field w.slotLen 0
  | 0x10C => field w.offset 0
  | 0x110 => BitVec.ofNat 32 (64 * w.slotLen.toNat * s.frm.period.toNat)
  | 0x114 => field (vecOf 16 fun k => decide (k / 2 < s.banks) && ((s.pulse k).hold || w.halted)) 0
  | off =>
    if 0x140 ≤ off ∧ off < 0x240 then
      let n := (off - 0x140) / 4
      flag (s.slotPresent n) 31 ||| flag (decide (16 ≤ n)) 30 ||| flag (dieOfBank (bankOfSlot n) == 1) 29 ||| field (s.width n) 0
    else if 0x240 ≤ off ∧ off < 0x400 then s.inGap ((off - 0x240) / 4)
    else if 0x400 ≤ off ∧ off < 0x4C0 then s.outGap ((off - 0x400) / 4)
    else if 0x500 ≤ off ∧ off < 0x540 then
      let k := (off - 0x500) / 4
      if k / 2 < s.banks then field (s.psLive k) 16 ||| field (s.pulse k).latch 0 else 0
    else 0

/-- BARd (R634); the die's supply measurements are free. -/
def State.readBar (s : State) (d off : Nat) : Word :=
  let b := s.bar d
  match off with
  | 0x100 => flag true 31 ||| flag b.trained 30 ||| flag (b.trained && b.chill) 29 ||| flag b.fenced 28 ||| flag b.unusable 27
  | 0x108 => field b.timeout 0
  | 0x10C => b.fdSupply
  | 0x110 => b.lastLaneErr
  | _ => 0

/-- A FIB or FOB page of a fenced die: the header as at the fence, then 0 but for FENCED (R555). -/
def State.readFrozen (s : State) (b i off : Nat) : Word :=
  if off < 0x100 then ((s.bar (dieOfBank b)).frozen.getD (i + b % 4) []).getD (off / 4) 0 else if off = 0x100 then flag true 31 else 0

/-- A word of a mapped block page. -/
def State.readReg (s : State) (p : Page) (off k : Nat) : Word :=
  match p with
  | .fib b => if (s.bar (dieOfBank b)).fenced then s.readFrozen b 0 off else if off < 0x100 then s.readHeader p off else s.readFib b off
  | .fob b => if (s.bar (dieOfBank b)).fenced then s.readFrozen b 4 off else if off < 0x100 then s.readHeader p off else s.readFob b off
  | p =>
    if off < 0x100 then s.readHeader p off
    else match p with
      | .dev => s.readDev off
      | .clk => s.readClk off
      | .sup => s.readSup off
      | .frm => s.readFrm off
      | .hp n => s.readHp n off
      | .own => s.readOwn off
      | .cop => s.readChan .c off
      | .drg => s.readChan .d off
      | .cmp => s.readCmp off k
      | .trp => s.readTrp off
      | .crb => s.readCrb off
      | .img => s.readImg off
      | .spb b => s.readSpb b off
      | .spc => s.readSpc off
      | .chk => s.readChk off
      | .bst => s.readBst off
      | .pwl => s.readPwl off
      | .bar d => s.readBar d off
      | _ => 0

/-- A word at a native page number and offset: a block page, a window, or unmapped, which reads 0 (R13, R41, R76 to R79). -/
def State.readWord (s : State) (pn off k : Nat) : Word :=
  let a := 4096 * pn + off
  if 0x0A0 ≤ pn ∧ pn < 0x0B0 then s.evl.mem.readW 0 (a - 0x0A0000)
  else if 0x100 ≤ pn ∧ pn < 0x108 then s.fbs.readW 0 (a - 0x100000)
  else if 0x400 ≤ pn ∧ pn < 0x480 then (s.spb ((pn - 0x400) / 8)).mem.readW 0 ((a - 0x400000) % 0x8000)
  else if 0x800 ≤ pn ∧ pn < 0x900 then s.crb.mem.readW 0 (a - 0x800000)
  else match pageOf pn with
    | some p => if s.mapped p then s.readReg p off k else 0
    | none => 0

/-- The value that a read of a 64-bit pair's high word returns to a port, and the captures it leaves (R104): with both words in the
cell no capture, the low word alone captures, the high word alone consumes. -/
def capture (low high : Bool) (now : Word) (cap : Option Word) : Word × Option Word :=
  if low && high then (now, cap) else if low then (now, some now) else if high then (cap.getD now, none) else (now, cap)

/-- The n words of a read cell, each with its own free value, and the captures it leaves. -/
def State.readCell (s : State) (port pn off n : Nat) : List Word × State :=
  let offs := (List.range n).map fun k => off + 4 * k
  let words := offs.zipIdx.map fun x => s.readWord pn x.1 (s.free + x.2)
  let t := { s with free := s.free + n }
  if pn = 4 then
    let has := fun (a : Nat) => offs.contains a
    let tb := capture (has 0x124) (has 0x128) (wordAt s.frm.tb 1) (s.frm.tbCap.getD port none)
    let bnd := capture (has 0x11C) (has 0x120) (wordAt s.frm.lastBnd 1) (s.frm.bndCap.getD port none)
    let words := (words.zip offs).map fun x => if x.2 = 0x128 then tb.1 else if x.2 = 0x120 then bnd.1 else x.1
    (words, { t with frm := { t.frm with tbCap := t.frm.tbCap.set port tb.2, bndCap := t.frm.bndCap.set port bnd.2 } })
  else (words, t)

end Sys2Proof.Machine
end

