-- ==== Sys2Proof/Machine/Verify.lean ====
section
/-! DEFINITION. VERIFY: the checks of R433 in their order, what a passing ingot brings into effect, and what a failing one leaves. -/

namespace Sys2Proof.Machine

/-! Shapes of an answer. -/

/-- The index of the first failing item of a list. -/
def firstBad (l : List (Bool × Nat)) : Option Nat := (l.find? (·.1)).map (·.2)

/-- The lowest of the failing indices. -/
def lowestBad (l : List (Bool × Nat)) : Option Nat := ((l.filter (·.1)).map (·.2)).min?

/-- A byte of the ingot. -/
def byteAt (v : Words) (a : Nat) : Byte := byteOf (rd v a) (a % 4)

/-- The bits from lo on, w of them, as a number. -/
def bitsOf (x : Word) (lo w : Nat) : Nat := x.toNat / 2 ^ lo % 2 ^ w

/-- The first 0x500 bytes of the crucible. -/
def State.ingotHead (s : State) : Words := (Mem.readWs 0 s.crb.mem 0 320).toArray

/-- Bytes that must be 0, each with its offset. -/
def zeroBytes (v : Words) (a n : Nat) : List (Bool × Nat) := (List.range n).map fun k => (byteAt v (a + k) != 0, a + k)

/-! HEADER (R408, R409, R425, R492, R674). -/

/-- The first failing byte or field of the header among those that give HEADER. -/
def headerFields (part : Part) (compat : Bool) (unusable : BitVec 16) (v : Words) : Option Nat :=
  let version := rd v 4
  let length := rd v 8
  let p := rd v 0x10
  let old := version == 1
  let sup := rd v 0xA4
  firstBad ([
    (rd v 0 != 0x4F474E49, 0x00),
    (!(version == 2 || (old && compat)), 0x04),
    (length.extractLsb' 0 12 != 0 || decide (length.toNat < 8192) || decide (1048576 < length.toNat), 0x08),
    (if old then p != 0x1224 else !(p == 0x2448 || (p == 0x4896 && part == Part.slc4896)), 0x10)]
    ++ zeroBytes v 0x14 4
    ++ [(old && rd v 0x8C != 0, 0x8C), (old && rd v 0x90 != 0, 0x90)]
    ++ (if compat then zeroBytes v 0xA1 3 else [])
    ++ [(decide (bitsOf sup 2 14 ≠ 0) || (compat && decide (bitsOf sup 0 2 ≠ 0)) || sup.extractLsb' 16 16 &&& unusable != 0, 0xA4)]
    ++ zeroBytes v 0xA8 0x58)

/-- HEADER: the header, then the entries of the CRC table at and beyond LENGTH / 4096. -/
def headerFault (part : Part) (compat : Bool) (unusable : BitVec 16) (v : Words) : Option Nat :=
  let n := (rd v 8).toNat / 4096
  (headerFields part compat unusable v).or (firstBad (zeroBytes v (0x100 + 4 * n) (0x400 - 4 * n)))

/-! SECTOR_CRC and CMAC (R423, R424). -/

/-- The n bytes from an address of the ingot, both multiples of 4. -/
def bytesAt (v : Words) (a n : Nat) : List Byte := bytesOf ((List.range (n / 4)).map fun k => rd v (a + 4 * k))

/-- The bytes of sector j as its CRC covers them. -/
def sectorBytes (v : Words) (j : Nat) : List Byte :=
  if j = 0 then bytesAt v 0 0x100 ++ List.replicate 0x400 0 ++ bytesAt v 0x500 0xB00 else bytesAt v (4096 * j) 4096

/-- The first sector whose CRC fails. -/
def sectorFault (v : Words) (n : Nat) : Option Nat :=
  (List.range n).find? fun j => crc32cOf (Word.ones ^^^ BitVec.ofNat 32 (0x1000 * j)) (sectorBytes v j) != rd v (0x100 + 4 * j)

/-- The tag over bytes 0 to LENGTH - 17 is that stored. -/
def tagOk (v : Words) (length : Nat) (key : BitVec 128) : Bool :=
  cmac (keyBytes key) (bytesAt v 0 (length - 16)) == bytesAt v (length - 16) 16

/-! The directory (R410). -/

/-- The SIZE of section i meets its rule, with the limits of version 1 and of the SLC-1224 personality (R410, R425, R674). -/
def sizeOk (pages : Nat) (compat old : Bool) (v : Words) (i : Nat) : Bool :=
  let size := secSize v i
  let n := blockCount v
  match i with
  | 0 => size == 1184
  | 1 => size == 768
  | 2 => size == 264
  | 3 => size % 32 == 0 && decide (1 ≤ n ∧ n ≤ (if compat then 128 else 512))
  | 4 => size % 4 == 0 && decide (8 ≤ size ∧ size ≤ 32768)
  | 5 => size % 4 == 0 && decide (4 ≤ size ∧ size ≤ 256)
  | 6 => size % 64 == 0 && decide (64 * n ≤ size ∧ size ≤ 65536)
  | 7 => size == if old then 0 else 4 * pages
  | 8 => if old then size == 0 else size % 16 == 0 && decide (size ≤ 16 * pages)
  | _ => size == 0

/-- The OFFSET of a section that is not empty meets its rule; REACT, if empty, and the unused entries have OFFSET 0. -/
def placeOk (v : Words) (length i : Nat) : Bool :=
  let a := secAt v i
  let n := secSize v i
  if n = 0 then (i == 7 || a == 0) else a % 64 == 0 && decide (0x500 ≤ a ∧ a + n ≤ length - 16)

/-- Sections i and j, neither empty, overlap. -/
def overlaps (v : Words) (i j : Nat) : Bool :=
  decide (0 < secSize v i ∧ 0 < secSize v j ∧ secAt v i < secAt v j + secSize v j ∧ secAt v j < secAt v i + secSize v i)

/-- The byte lies in a section. -/
def inSection (v : Words) (a : Nat) : Bool := (List.range 9).any fun i => decide (secAt v i ≤ a ∧ a < secAt v i + secSize v i)

/-- The first sector with a byte outside every section and the tag that is not 0 (R408). -/
def strayFault (v : Words) (length : Nat) : Option Nat :=
  ((List.range (length / 4 - 4)).find? fun k =>
    decide (320 ≤ k) && rd v (4 * k) != 0 && (List.range 4).any fun j => byteAt v (4 * k + j) != 0 && !inSection v (4 * k + j)).map
    fun k => 0x8000 + k / 1024

/-- SECTION (R408, R410). -/
def sectionFault (pages : Nat) (compat old : Bool) (v : Words) (length : Nat) : Option Nat :=
  match (List.range 12).find? fun i => !sizeOk pages compat old v i || !placeOk v length i
      || (List.range 9).any fun j => i != j && overlaps v i j with
  | some i => some i
  | none => strayFault v length

/-! Masks (R211, R212, R412). -/

/-- The local mask of SOn. -/
def maskOf (v : Words) (n : Nat) : BitVec 56 :=
  let t := tsetOf v n 1
  t.extractLsb' 16 8 ++ t.extractLsb' 0 16 ++ tsetOf v n 0

/-- The source mask of lane k of die d. -/
def srcOf (v : Words) (d k : Nat) : BitVec 56 := (xsrcOf v (12 * d + k) 1).extractLsb' 0 24 ++ xsrcOf v (12 * d + k) 0

/-- The inputs of die d that a local mask or a lane source mask names. -/
def dieMembers (v : Words) (d : Nat) : BitVec 56 :=
  (List.range 24).foldl (fun m k => m ||| maskOf v (24 * d + k)) ((List.range 12).foldl (fun m k => m ||| srcOf v d k) 0)

/-- MEMBER of an input as the device derives it (R213, R412). -/
def memberOf (v : Words) (i : Nat) : Bool := (dieMembers v (dieOfInput i)).getLsbD (dieLocal i)

/-- MODE, SOURCE and TRIP_TOL of an input (R213). -/
def modeOf (v : Words) (i : Nat) : Nat := bitsOf (tinOf v i) 28 2
def sourceOf (v : Words) (i : Nat) : Nat := bitsOf (tinOf v i) 16 6

/-! PART (R5, R190, R215, R236, R411, R674). -/

/-- The section's SIZE and OFFSET meet their rules, so that its words can be judged. -/
def readable (pages : Nat) (compat old : Bool) (v : Words) (length i : Nat) : Bool := sizeOk pages compat old v i && placeOk v length i

/-- The type code and the parameter words of instance i (R415). -/
def typeOf (v : Words) (i : Nat) : Nat := bitsOf (blockWord v i 0) 24 8

/-- The inputs that a mask of die d names, as failing where their bank is absent. -/
def absentInputs (banks d : Nat) (m : BitVec 56) : List (Bool × Nat) :=
  if m = 0 then [] else (List.range 56).map fun j =>
    let i := ofDieLocal d j
    (m.getLsbD j && decide (banks ≤ bankOfInput i), i)

/-- IOMAP: words of absent banks that are not 0. -/
def ioAbsent (banks : Nat) (v : Words) : List (Bool × Nat) :=
  ((List.range 112).map fun i => (decide (banks ≤ bankOfInput i) && (inCfgOf v i != 0 || tinOf v i != 0), i))
    ++ ((List.range 64).map fun o => (decide (banks ≤ bankOfOutput o) && outCfgOf v o != 0, 0x100 + o))
    ++ ((List.range 8).map fun b => (decide (banks ≤ b) && fvCfgOf v b != 0, 0x1E0 + b))
    ++ ((List.range 112).map fun i =>
      (decide (bankOfInput i < banks) && modeOf v i == 1 && decide (banks ≤ bankOfSlot (sourceOf v i)), 0x180 + sourceOf v i))

/-- TRIP: masks of absent outputs, absent inputs and lanes of an absent die. -/
def tripAbsent (banks dies : Nat) (v : Words) : List (Bool × Nat) :=
  ((List.range 48).flatMap fun n =>
    let d := n / 24
    (decide (banks ≤ n / 6) && (tsetOf v n 0 != 0 || tsetOf v n 1 != 0 || tsetOf v n 2 != 0), 0x100 + n)
      :: (absentInputs banks d (maskOf v n)
        ++ (List.range 12).map fun k => ((tsetOf v n 2).getLsbD k && decide (dies ≤ 1 - d), 0x1C0 + 12 * (1 - d) + k)))
    ++ ((List.range 24).flatMap fun k =>
      (decide (dies ≤ k / 12) && (xsrcOf v k 0 != 0 || xsrcOf v k 1 != 0), 0x1C0 + k) :: absentInputs banks (k / 12) (srcOf v (k / 12) (k % 12)))

/-- BLOCKS: SREFs of absent inputs, OUTPAIRs of absent outputs. -/
def blocksAbsent (banks : Nat) (v : Words) : List (Bool × Nat) :=
  (List.range (blockCount v)).flatMap fun i =>
    let t := typeOf v i
    let p := blockWord v i
    ((srefsOf t p).map fun r => (srefKind r == 1 && decide (srefInput r < 112 ∧ banks ≤ bankOfInput (srefInput r)), srefInput r))
      ++ (if t = 0x0C then (pairOutputs p).map fun o => (decide (o < 48 ∧ banks ≤ o / 6), 0x100 + o) else [])

/-- The lowest resource of an absent bank or die in use. -/
def partFault (banks dies pages : Nat) (compat old : Bool) (v : Words) (length : Nat) : Option Nat :=
  let ok := readable pages compat old v length
  if banks = 8 then none
  else lowestBad ((if ok 0 then ioAbsent banks v else []) ++ (if ok 1 then tripAbsent banks dies v else [])
    ++ (if ok 3 then blocksAbsent banks v else []))

/-! FRAME (R82, R108 to R110, R409). -/

/-- The header offset of the first failing field; the rules between COMMIT_AT and its neighbours count as COMMIT_AT's. -/
def frameFault (compat : Bool) (v : Words) : Option Nat :=
  let period := (rd v 0x80).toNat
  let commit := (rd v 0x84).toNat
  let wcet := (rd v 0x88).toNat
  let sync := rd v 0x8C
  let win := bitsOf sync 0 14
  let bar := (rd v 0x9C).toNat
  firstBad [
    (decide (period < (if compat then 2500 else 1000) ∨ 100000 < period), 0x80),
    (decide (2 ^ 17 ≤ commit), 0x84),
    (decide (2 ^ 17 ≤ wcet), 0x88),
    (decide (commit < wcet + 50 ∨ period < commit + 75), 0x84),
    (decide (bitsOf sync 14 16 ≠ 0 ∨ 12500 < win ∨ period < 8 * win), 0x8C),
    (decide (bitsOf (rd v 0x90) 10 21 ≠ 0), 0x90),
    (decide (bar = 1 ∨ 64 < bar), 0x9C)]

/-- A header meets R409, as a staged reload asks (R430). -/
def headerMeets (part : Part) (compat : Bool) (pages : Nat) (v : Words) : Bool :=
  let old := ingotVersion v == 1
  let length := (rd v 8).toNat
  (headerFields part compat 0 v).isNone && (frameFault compat v).isNone
    && (List.range 12).all (fun i => sizeOk pages compat old v i && placeOk v length i
      && (List.range 9).all fun j => i == j || !overlaps v i j)
    && (rd v 0x94 ||| rd v 0x98) &&& 0xFFF00003 == 0

/-! IO (R315, R318, R333, R352, R370, R373, R411, R412). -/

/-- The OUTPAIRs' outputs: each with its partner, if it has one. -/
def pairsOf (v : Words) : List (Nat × Option Nat) :=
  (List.range (blockCount v)).flatMap fun i =>
    if typeOf v i = 0x0C then
      match pairOutputs (blockWord v i) with
      | [a, b] => [(a, some b), (b, some a)]
      | l => l.map fun a => (a, none)
    else []

/-- PRESENT, PAIRED and PARTNER of SOn as the device derives them (R412). -/
def derivedOut (pairs : List (Nat × Option Nat)) (n : Nat) : Word :=
  match pairs.find? (·.1 == n) with
  | none => 0
  | some (_, none) => 0x80000000
  | some (_, some q) => 0x90000000 ||| BitVec.ofNat 32 (65536 * q)

/-- An input's words break a rule; counted is how many inputs of its die up to it are declared counted. -/
def inputBad (v : Words) (i counted : Nat) : Bool :=
  let w := inCfgOf v i
  let out := decide (96 ≤ i) && (outCfgOf v (48 + (i - 96))).getLsbD 31
  (if i < 96 then !w.getLsbD 31 else w.getLsbD 31 == out)
    || decide (bitsOf w 24 3 ≠ 0 ∨ bitsOf w 10 6 ≠ 0 ∨ 1000 < bitsOf w 0 10)
    || (tinOf v i).getLsbD 31 != memberOf v i
    || (w.getLsbD 29 && (modeOf v i == 1 || out))
    || (w.getLsbD 30 && (modeOf v i != 0 || out || decide (8 < counted)))

/-- How many inputs of the die of input i, up to and with i, are declared counted (R318). -/
def countedUpTo (v : Words) (i : Nat) : Nat :=
  ((List.range (i + 1)).filter fun j => dieOfInput j == dieOfInput i && (inCfgOf v j).getLsbD 30).length

/-- Fields of an output word that have a range, or are reserved (R373). -/
def outFieldsBad (w : Word) : Bool := decide (bitsOf w 22 4 ≠ 0 ∨ bitsOf w 10 6 ≠ 0 ∨ 1000 < bitsOf w 0 10)

/-- The word of SOn breaks a rule. -/
def soBad (pairs : List (Nat × Option Nat)) (v : Words) (n : Nat) : Bool :=
  let w := outCfgOf v n
  w &&& 0x903F0000 != derivedOut pairs n || decide (bitsOf w 26 2 ≠ 0) || outFieldsBad w

/-- The output word of AXm breaks a rule: that of an input is 0x0800_0000; SAFE_HIZ and PAIRED are of SO only. -/
def axBad (v : Words) (m : Nat) : Bool :=
  let w := outCfgOf v (48 + m)
  if w.getLsbD 31 then w.getLsbD 30 || w.getLsbD 28 || decide (bitsOf w 16 6 ≠ 0 ∨ bitsOf w 26 2 = 3) || outFieldsBad w
  else (inCfgOf v (96 + m)).getLsbD 31 && w != 0x08000000

/-- FV_CFG of a bank breaks a rule. -/
def fvBad (v : Words) (b : Nat) : Bool :=
  let w := fvCfgOf v b
  let warn := bitsOf w 20 9
  let trip := bitsOf w 0 5
  decide (bitsOf w 29 3 ≠ 0 ∨ bitsOf w 16 4 ≠ 0 ∨ bitsOf w 5 3 ≠ 0 ∨ warn < 140 ∨ 300 < warn ∨ 200 < bitsOf w 8 8 ∨ 24 < trip
    ∨ 10 * warn ≤ 1400 + 25 * trip)

/-- The lowest resource whose configuration breaks a rule. -/
def ioFault (banks : Nat) (v : Words) : Option Nat :=
  let pairs := pairsOf v
  lowestBad (((List.range 112).map fun i => (decide (bankOfInput i < banks) && inputBad v i (countedUpTo v i), i))
    ++ ((List.range 48).map fun n => (decide (n / 6 < banks) && soBad pairs v n, 0x100 + n))
    ++ ((List.range 16).map fun m => (decide (m / 2 < banks) && axBad v m, 0x130 + m))
    ++ ((List.range 8).map fun b => (decide (b < banks) && fvBad v b, 0x1E0 + b)))

/-! TRIP and WHEEL (R180, R182, R211 to R213, R378). -/

/-- A TIN word breaks a rule. -/
def tinBad (v : Words) (i : Nat) : Bool :=
  let w := tinOf v i
  let mode := modeOf v i
  decide (bitsOf w 30 1 ≠ 0 ∨ bitsOf w 22 6 ≠ 0 ∨ bitsOf w 14 2 ≠ 0 ∨ mode = 3 ∨ 10000 < bitsOf w 0 14)
    || (if mode = 1 then dieOfBank (bankOfSlot (sourceOf v i)) != dieOfInput i else sourceOf v i != 0)

/-- The lowest resource whose trip configuration breaks a rule. -/
def tripFaultOf (v : Words) : Option Nat :=
  lowestBad (((List.range 112).map fun i => (tinBad v i, i))
    ++ ((List.range 48).map fun n => (decide (bitsOf (tsetOf v n 1) 24 8 ≠ 0 ∨ bitsOf (tsetOf v n 2) 12 20 ≠ 0), 0x100 + n))
    ++ ((List.range 24).map fun k => (decide (bitsOf (xsrcOf v k 1) 24 8 ≠ 0), 0x1C0 + k)))

/-- The slot whose word breaks a rule; SLOT_LEN and PULSE_OFFSET count as slot 0's, and the last rule of R378 as that of the widest
slot. -/
def wheelFault (banks : Nat) (v : Words) : Option Nat :=
  let len := (slotLenOf v).toNat
  let offset := (pulseOffsetOf v).toNat
  let w := fun (k : Nat) => (widthOf v k).toNat
  let widest := (List.range 64).foldl (fun m k => if w m < w k then k else m) 0
  firstBad ([(decide (len < 1 ∨ 64 < len ∨ 2 ^ 17 ≤ offset), 0)]
    ++ ((List.range 64).map fun k => (if bankOfSlot k < banks then decide (w k < 20 ∨ 400 < w k) else w k != 0, k))
    ++ [(decide ((rd v 0x84).toNat + 75 < offset + w widest + 10), widest)])

/-! BLOCK (R214, R215, R219, R224, R228, R231, R236, R237, R243, R254, R261, R263, R264, R267, R271, R278, R283, R286, R290, R293, R295,
R415). -/

/-- The SREF r names output q of an instance of a type. -/
def names (v : Words) (n : Nat) (r : BitVec 16) (types : List Nat) (q : Nat) : Bool :=
  srefKind r == 2 && decide (srefInst r < n) && types.contains (typeOf v (srefInst r)) && srefOut r == q

/-- An SREF meets R214 and R215, KIND k being allowed where bit k of the mask is set. -/
def srefOk (v : Words) (n : Nat) (kinds : BitVec 3) (r : BitVec 16) : Bool :=
  kinds.getLsbD (srefKind r) && decide (srefKind r < 3) && match srefKind r with
    | 0 => r == 0
    | 1 => decide ((r.extractLsb' 0 12).toNat < 112)
    | _ => decide (srefInst r < n) && (outputsOf (typeOf v (srefInst r))).getLsbD (srefOut r)

/-- A field's value meets its rule. -/
def fieldOk (v : Words) (n : Nat) (f : Field) (p : Nat → Word) : Bool :=
  let x := f.val p
  match f.kind with
  | .sref kinds => srefOk v n kinds (BitVec.ofNat 16 x)
  | .rst => names v n (BitVec.ofNat 16 x) [0x0B] 0
  | .num lo hi zero => (zero && x == 0) || decide (lo ≤ x ∧ x ≤ hi)

/-- The bits of parameter word k that a type defines. -/
def definedBits (t k : Nat) : Word :=
  (fieldsOf t).foldl (fun m f => if f.word = k then m ||| BitVec.ofNat 32 ((2 ^ f.width - 1) * 2 ^ f.lo) else m) 0

/-- No signal of the list occurs twice. -/
def distinct : List (BitVec 16) → Bool
  | [] => true
  | r :: rs => !rs.contains r && distinct rs

/-- The signals of an instance that must differ from one another. -/
def distinctGroups (t : Nat) (p : Nat → Word) : List (List (BitVec 16)) :=
  match t with
  | 0x03 => [[lo16 (p 1), hi16 (p 1)], [lo16 (p 2), hi16 (p 2)]]
  | 0x04 => [[lo16 (p 1), hi16 (p 1), lo16 (p 2), hi16 (p 2)]]
  | 0x07 => [[lo16 (p 1), hi16 (p 1), lo16 (p 2), hi16 (p 2)]]
  | t => if t = 1 ∨ t = 2 ∨ t = 5 ∨ t = 6 ∨ t = 0x1B then [[lo16 (p 1), hi16 (p 1)]] else []

/-- BRIDGE_CHK of an instance (R242, R247, R249). -/
def bridgeChk (t : Nat) (p : Nat → Word) : Bool :=
  (decide (t = 1 ∨ t = 2) && (p 3).getLsbD 0) || (decide (t = 3) && (p 5).getLsbD 18)

/-- The inputs of an instance that no trip set may name: reset buttons, NC contacts, and a muted curtain (R231, R254, R267). -/
def untripped (t : Nat) (p : Nat → Word) : List (BitVec 16) :=
  match t with
  | 0x0B => [lo16 (p 1), hi16 (p 1)]
  | 0x04 => [hi16 (p 1), hi16 (p 2)]
  | 0x05 => if srefKind (hi16 (p 3)) = 2 then [lo16 (p 1), hi16 (p 1)] else []
  | _ => []

/-- The eight inputs of an AND or OR (R295). -/
def gateRefs (p : Nat → Word) : List (BitVec 16) := (List.range 4).flatMap fun k => [lo16 (p (k + 1)), hi16 (p (k + 1))]

/-- The POS inputs of a MODESEL follow POS0 without gaps, at least two of them (R290). -/
def posOk (p : Nat → Word) : Bool :=
  let l := (List.range 3).flatMap fun k => [lo16 (p (k + 1)), hi16 (p (k + 1))]
  (l.dropWhile (· != 0)).all (· == 0)

/-- The rules of a type beyond its parameter table. -/
def typeRules (compat : Bool) (v : Words) (n i : Nat) : Bool :=
  let t := typeOf v i
  let p := blockWord v i
  match t with
  | 0x05 =>
    let r := hi16 (p 3)
    srefKind r == 0 || (names v n r [6, 7] 0 &&
      lo16 (blockWord v (srefInst r) (if typeOf v (srefInst r) = 6 then 2 else 3)) == BitVec.ofNat 16 (0x2000 + 8 * i + 4))
  | 0x06 => names v n (lo16 (p 2)) [5] 4 && hi16 (blockWord v (srefInst (lo16 (p 2))) 3) == BitVec.ofNat 16 (0x2000 + 8 * i)
  | 0x07 => names v n (lo16 (p 3)) [5] 4 && hi16 (blockWord v (srefInst (lo16 (p 3))) 3) == BitVec.ofNat 16 (0x2000 + 8 * i)
  | 0x08 => counted p
  | 0x09 => counted p
  | 0x0A => names v n (lo16 (p 1)) [0x0C] 0
  | 0x0C =>
    ((p 2).getLsbD 16 == (lo16 (p 3) != 0)) && ((p 2).getLsbD 15 || bitsOf (p 2) 8 6 == 0)
      && !((p 2).getLsbD 15 && bitsOf (p 2) 0 6 == bitsOf (p 2) 8 6)
  | 0x10 => decide (2 ≤ ((gateRefs p).filter (· != 0)).length)
  | 0x11 => decide (2 ≤ ((gateRefs p).filter (· != 0)).length)
  | 0x19 => posOk p
  | 0x1A => !compat || bitsOf (p 1) 0 2 == 0
  | _ => true
where
  counted (p : Nat → Word) : Bool :=
    let ok := fun (r : BitVec 16) => srefKind r != 1 || (inCfgOf v (srefInput r)).getLsbD 30
    ok (lo16 (p 1)) && ok (hi16 (p 1))

/-- SAFE_RESET on an instance after the first that has it, or an output that an earlier OUTPAIR names (R228, R236). -/
def repeated (v : Words) (i : Nat) : Bool :=
  let p := blockWord v i
  (typeOf v i == 0x0B && (p 3).getLsbD 0 && (List.range i).any fun j => typeOf v j == 0x0B && (blockWord v j 3).getLsbD 0)
    || (typeOf v i == 0x0C && (List.range i).any fun j =>
      typeOf v j == 0x0C && (pairOutputs (blockWord v j)).any fun o => (pairOutputs p).contains o)

/-- An entry breaks a rule other than R264. -/
def entryBad (compat : Bool) (v : Words) (n i : Nat) : Bool :=
  let t := typeOf v i
  let p := blockWord v i
  blockWord v i 0 != BitVec.ofNat 32 (t * 2 ^ 24 + i) || outputsOf t == 0
    || (List.range 7).any (fun k => p (k + 1) &&& ~~~definedBits t (k + 1) != 0)
    || !(fieldsOf t).all (fun f => fieldOk v n f p)
    || !(distinctGroups t p).all distinct
    || (untripped t p).any (fun r => srefKind r == 1 && memberOf v (srefInput r))
    || (bridgeChk t p && !(modeOf v (srefInput (lo16 (p 1))) == 1 && modeOf v (srefInput (hi16 (p 1))) == 1
      && sourceOf v (srefInput (lo16 (p 1))) != sourceOf v (srefInput (hi16 (p 1)))))
    || !typeRules compat v n i || repeated v i

/-- The signals that an AND or a TON passes on. -/
def passedRefs (v : Words) (i : Nat) : List (BitVec 16) :=
  match typeOf v i with
  | 0x10 => (gateRefs (blockWord v i)).filter (· != 0)
  | 0x14 => [lo16 (blockWord v i 1)]
  | _ => []

/-- The SREF names an instance of a set. -/
def inSet (l : Array Bool) (r : BitVec 16) : Bool := srefKind r == 2 && l.getD (srefInst r) false

/-- One round of R264: the instances whose output is host-derived, given those found so far. -/
def deriveRound (v : Words) (n : Nat) (l : Array Bool) : Array Bool :=
  ((List.range n).map fun i => typeOf v i == 0x1A || (passedRefs v i).any (inSet l)).toArray

/-- One round for host-only signals. -/
def onlyRound (v : Words) (n : Nat) (l : Array Bool) : Array Bool :=
  ((List.range n).map fun i => typeOf v i == 0x1A || (!(passedRefs v i).isEmpty && (passedRefs v i).all (inSet l))).toArray

/-- n rounds of a closure, from the empty set. -/
def rounds (f : Array Bool → Array Bool) : Nat → Array Bool
  | 0 => #[]
  | n + 1 => f (rounds f n)

/-- An instance names a host-derived signal where R264 forbids it. -/
def hostBad (v : Words) (derived only : Array Bool) (i : Nat) : Bool :=
  let t := typeOf v i
  let p := blockWord v i
  (fieldsOf t).any fun f =>
    let r := BitVec.ofNat 16 (f.val p)
    f.isSref && inSet derived r
      && !(t == 0x10 || t == 0x14 || (t == 0x0C && f.word == 1 && f.lo == 0 && !inSet only r))

/-- The lowest instance that breaks a rule. -/
def blockFault (compat : Bool) (v : Words) : Option Nat :=
  let n := blockCount v
  let derived := rounds (deriveRound v n) (n + 1)
  let only := rounds (onlyRound v n) (n + 1)
  (List.range n).find? fun i => entryBad compat v n i || hostBad v derived only i

/-! PROGRAM (R416, R417). -/

/-- Word j of CODE. -/
def codeOf (v : Words) (j : Nat) : Word := rd v (secAt v 4 + 4 * j)

/-- The instances of a word meet the rules of their fields: FIRST, COUNT, the bits between. -/
def rangeOk (n most : Nat) (w : Word) : Bool :=
  decide (bitsOf w 19 9 = 0 ∧ 1 ≤ bitsOf w 0 10 ∧ bitsOf w 0 10 ≤ most ∧ bitsOf w 10 9 + bitsOf w 0 10 ≤ n)

/-- The second word of a PUB: its bank is a publish bank, and its records lie inside it. -/
def pubOk (v : Words) (count : Nat) (w : Word) : Bool :=
  w &&& 0xFFF0803F == 0 && (rd v 0xA4).getLsbD (16 + bitsOf w 16 4) && decide (64 * (bitsOf w 6 9 + count) ≤ 32768)

/-- Walks a path from word j: the words reached, or the failing index. EVAL words follow one another from instance `next` on. -/
def walk (v : Words) (n : Nat) (handler : Bool) (start : Nat) : Nat → Nat → Nat → List Nat → Except Nat (List Nat)
  | 0, _, _, _ => .error start
  | fuel + 1, j, next, seen =>
    let w := codeOf v j
    let count := bitsOf w 0 10
    if secSize v 4 ≤ 4 * j then .error start
    else match bitsOf w 28 4 with
      | 1 =>
        if handler || !rangeOk n 512 w || bitsOf w 10 9 != next then .error j
        else walk v n handler start fuel (j + 1) (next + count) (j :: seen)
      | 2 => if !handler || !rangeOk n 512 w then .error j else walk v n handler start fuel (j + 1) next (j :: seen)
      | 3 =>
        if !rangeOk n 64 w then .error j
        else if secSize v 4 ≤ 4 * (j + 1) then .error start
        else if !pubOk v count (codeOf v (j + 1)) then .error (j + 1)
        else walk v n handler start fuel (j + 2) next ((j + 1) :: j :: seen)
      | 15 => if bitsOf w 0 28 != 0 || (!handler && next != n) then .error j else .ok (j :: seen)
      | _ => .error j

/-- The address names a word inside CODE, with no other bit set. -/
def entryOk (v : Words) (w : Word) : Bool :=
  w &&& 0xFFF00003 == 0 && decide (secAt v 4 ≤ w.toNat ∧ w.toNat < secAt v 4 + secSize v 4)

/-- The index of the program's fault. -/
def programFault (v : Words) : Option Nat :=
  let n := blockCount v
  let fuel := secSize v 4 / 4 + 1
  let at' := fun (w : Word) => (w.toNat - secAt v 4) / 4
  let main := rd v 0x94
  let trap := rd v 0x98
  if !entryOk v main then some 0xFF94
  else if !entryOk v trap then some 0xFF98
  else match walk v n false (at' main) fuel (at' main) 0 [] with
    | .error j => some j
    | .ok a => match walk v n true (at' trap) fuel (at' trap) 0 [] with
      | .error j => some j
      | .ok b => (a.filter b.contains).min?

/-! LIVE, INIT, OWNERSHIP, REACTION (R143, R419 to R422). -/

/-- The first range that breaks a rule; pos and total in units of 64 bytes. -/
def liveWalk (v : Words) (n : Nat) : Nat → Nat → Nat → Option Nat
  | 0, _, _ => none
  | k + 1, pos, total =>
    let r := n - (k + 1)
    let w := rd v (secAt v 5 + 4 * r)
    let a := bitsOf w 16 10
    let len := bitsOf w 0 8
    if w &&& 0xFC00FF00 != 0 || decide (len < 1 ∨ 192 < len ∨ a < pos ∨ 1024 < a + len ∨ 192 < total + len) then some r
    else liveWalk v n k (a + len) (total + len)

def liveFault (v : Words) : Option Nat := liveWalk v (secSize v 5 / 4) (secSize v 5 / 4) 0 0

/-- The first record of INIT that breaks a rule. -/
def initFault (v : Words) : Option Nat :=
  let n := blockCount v
  (List.range (min 512 (secSize v 6 / 64))).find? fun i =>
    (List.range 16).any fun k => rd v (secAt v 6 + 64 * i + 4 * k) != if i < n ∧ k = 0 then blockWord v i 0 else 0

/-- The word of a page in the ownership map breaks a rule. -/
def ownBad (p : Page) (w : Word) : Bool :=
  let flask := bitsOf w 0 4
  w &&& 0x000FFCF0 != 0 || bitsOf w 20 12 != p.number
    || !(if p.assignable then decide (flask ≤ 3) else flask == (resetFlask p).toNat)

/-- The first word of OWN that breaks R421; a version 1 ingot has none. -/
def ownershipFault (pages : List Page) (old : Bool) (v : Words) : Option Nat :=
  if old then none else firstBad (pages.zipIdx.map fun x => (ownBad x.1 (rd v (secAt v 7 + 4 * x.2)), x.2))

/-- The first entry of REACT that breaks R422. -/
def reactionFault (pages : List Page) (v : Words) : Option Nat :=
  let word := fun (e j : Nat) => rd v (secAt v 8 + 16 * e + 4 * j)
  (List.range (secSize v 8 / 16)).find? fun e =>
    let page := bitsOf (word e 0) 20 12
    decide (bitsOf (word e 0) 0 20 ≠ 0 ∨ bitsOf (word e 2) 13 19 ≠ 0 ∨ bitsOf (word e 3) 8 24 ≠ 0)
      || !(pages.any fun p => p.number == page)
      || (decide (0 < e) && decide (page ≤ bitsOf (word (e - 1) 0) 20 12))

/-! The verdict. -/

/-- The image key can be used: programmed, its stored check not failed (R433, R479, R484). -/
def State.imageKeyOk (s : State) : Bool := s.otp.img.isSome && !s.otp.imgBad

/-- Context 6 cannot check the sectors (R528). -/
def State.ctx6Bad (s : State) : Bool := (s.ctx 6).fenced || (s.hdr .chk).latch.getLsbD 22

/-- The check code and INDEX of the first failing check (R433). -/
def State.verdict (s : State) : Option (Nat × Nat) :=
  let head := s.ingotHead
  let unusable := vecOf 16 fun k => (s.spb k).unusable
  match headerFault s.ident.part s.compat unusable head with
  | some a => some (0x01, a)
  | none =>
    let v := s.ingot
    let length := (rd v 8).toNat
    let n := length / 4096
    let old := ingotVersion v == 1
    let pages := s.pages
    let code := fun (c : Nat) (f : Option Nat) => f.map fun i => (c, i)
    s.img.eccSector.map (fun j => (0x02, j.toNat))
    <|> (if s.ctx6Bad then some (0x03, 0xFFFF) else code 0x03 (sectorFault v n))
    <|> (if s.imageKeyOk then none else some (0x04, 0))
    <|> (if tagOk v length s.own.workImg then none else some (0x05, 0))
    <|> code 0x06 (partFault s.banks s.dies pages.length s.compat old v length)
    <|> code 0x07 (sectionFault pages.length s.compat old v length)
    <|> code 0x08 (frameFault s.compat v)
    <|> code 0x09 (ioFault s.banks v)
    <|> code 0x0A (tripFaultOf v)
    <|> code 0x0B (wheelFault s.banks v)
    <|> code 0x0C (blockFault s.compat v)
    <|> code 0x0D (programFault v)
    <|> code 0x0E (liveFault v)
    <|> code 0x0F (initFault v)
    <|> code 0x10 (ownershipFault pages old v)
    <|> code 0x11 (reactionFault pages v)

/-! What follows. -/

/-- Publish banks that are not fenced come ON, through FILLING where their data was lost, and a request for another state that waits is void
(R492, R493). -/
def State.publishOn (s : State) (v : Words) : State :=
  (List.range 16).foldl (fun s k =>
    let b := s.spb k
    if !(rd v 0xA4).getLsbD (16 + k) || b.fenced then s
    else if b.power == .on then s.updSpb k fun b => { b with req := 0 }
    else (s.updSpb k fun b => { b with req := 0, mem := if b.power == .retain then b.mem else [] }).bankOn k) s

/-- The ingot takes effect: in RUN, or in COMMISSION "exactly as at an entry to RUN" (R35, R436): the trip latches clear, GLOBAL, which holds
outside RUN (R193), sets them again, and they count as newly set (DESIGN CHOICE, log 109); outputs off, the first boundary (R85). The dies
that the core die configures hold the ingot's BAR_TIMEOUT from here on (R610). A latch that sets again as it does shows the frame number
before that boundary (DESIGN CHOICE, log 93). -/
def State.ingotPass (s : State) : State :=
  let v := s.ingot
  let s := ((s.publishOn v).applyConfig v).enterRun v |>.loadChannels v
  let s := { s with
    crb := { s.crb with valid := true }
    bars := s.bars.map fun (b : Bar) => if b.trained && !b.fenced then { b with held := b.timeout } else b
    img := { s.img with phase := .idle, otherSlot := false, verifyResult := 0xC0000000 } }
  let s := (if s.dev.state == .commission then s else s.changeState .run).commandsOff.clearTrips
  let s := if s.dev.state == .run then s.firstRun else s
  s.boundary false false

/-- The ingot is rejected: VERIFY_FAIL, back to LOAD (or on in COMMISSION), the other slot once (R427, R433, R436). -/
def State.ingotFail (s : State) (check index : Nat) : State :=
  let s := { s with
    crb := { s.crb with valid := false }
    img := { s.img with eccSector := none, verifyResult := BitVec.ofNat 32 (2 ^ 31 + check * 2 ^ 16 + index % 2 ^ 16) } }
  let s := (s.bump .img 0x48).raise { page := .img, cause := 1 }
  if !s.img.phase.checks then s
  else
    let s := if s.dev.state == .verify then s.enterLoad else s
    if s.img.otherSlot then s.copySlot (if s.img.source = 1 then 2 else 1) false else s.waitHost

/-- The ECC errors that VERIFY's own reads of the ingot meet (R404; DEDUCED, log 99). -/
def State.verifyEcc (s : State) (ecc : List (BitVec 17 × EccErr)) : State :=
  (ecc.filter fun x => decide (8 * x.1.toNat < (s.crb.mem.readW 0 8).toNat)).foldl (fun s x => s.crucibleError x.1 x.2) s

/-- Context 6 after VERIFY has read a whole ingot whose header it takes: it has computed the CRC of every sector, the last one last, with its
address folded in (R423, R528). -/
def State.sectorsChecked (s : State) : State :=
  if (headerFault s.ident.part s.compat (vecOf 16 fun k => (s.spb k).unusable) s.ingotHead).isSome || s.ctx6Bad then s
  else
    let v := s.ingot
    let base := 4096 * ((rd v 8).toNat / 4096 - 1)
    s.updCtx 6 fun x =>
      { x with foldBase := BitVec.ofNat 24 base
               value := crc32cOf (Word.ones ^^^ BitVec.ofNat 32 base) (sectorBytes v (base / 4096)) ^^^ Word.ones }

/-- No check up to CMAC has failed (R433). -/
def State.streamOk (s : State) : Bool :=
  match s.verdict with
  | none => true
  | some x => decide (5 < x.1)

/-- The end of the cycle in a VERIFY: PHASE reads DISTRIBUTING once "CRC and CMAC pass" (11_safety_image.md, the staged example), LENGTH / 800
MB/s after VERIFY began, which R434 gives as a limit (DESIGN CHOICE, log 115; R436, R444). -/
def State.streamed (s : State) : State :=
  if (s.frm.tb + 1 - s.img.verifyAt).toNat * 8 = (s.crb.mem.readW 0 8).toNat && s.streamOk then
    { s with img := { s.img with phase := .distributing } }
  else s

/-- VERIFY_DONE, with the ECC errors that it met. No effect where no VERIFY is in progress. -/
def doVerifyDone (ecc : List (BitVec 17 × EccErr)) (s : State) : State :=
  if s.img.phase.checks && (s.dev.state == .verify || s.dev.state == .commission) then
    let s := (s.verifyEcc ecc).sectorsChecked
    match s.verdict with
    | none => s.ingotPass
    | some x => s.ingotFail x.1 x.2
  else s

/-- The meaning of VERIFY_DONE (R404, R433, R35, R436, R528). -/
def execVerifyDone (ecc : List (BitVec 17 × EccErr)) (s : State) : Host.Outcome State Fault Refusal := .next (doVerifyDone ecc s)

end Sys2Proof.Machine
end

