-- ==== Sys2Proof/Machine/Writes.lean ====
section
/-! DEFINITION. What every register takes on a write, and what R46 asks of a write to it: the page-specific registers of each block
page, the common header, the windows, handovers and reloads (chapters 02 to 17). -/

namespace Sys2Proof.Machine

/-! What R46 asks (R50 to R62 and the register tables). -/

/-- Marks of a register: exempt from ownership (step 6), privileged (7), refused in the present STATE (8), with a field coded RW or RWS
and not LOCK-exempt (9), written by the supervisor flask only (10). -/
structure Gate where
  exempt : Bool := false
  priv : Bool := false
  closed : Bool := false
  locks : Bool := false
  rws : Bool := false
  deriving DecidableEq, Repr

/-- The registers of the common header (R53 to R62, R471). -/
def headerGate (p : Page) (off : Nat) : Gate :=
  let hp := match p with
    | .hp _ => true
    | _ => false
  match off with
  | 0x08 => { priv := true }
  | 0x0C => { priv := true }
  | 0x18 => { exempt := hp, priv := true, locks := true, rws := hp }
  | 0x24 => { exempt := hp, priv := true, locks := true, rws := hp }
  | 0x28 => { exempt := hp, priv := true, locks := true, rws := hp }
  | 0x2C => { exempt := hp, priv := true, locks := true, rws := hp }
  | _ => {}

/-- The key registers of OWN (R484). -/
def keyReg (p : Page) (off : Nat) : Bool := p == .own && (off == 0x110 || (decide (0x120 ≤ off) && decide (off < 0x130)))

/-- The marks of a register of a block page for a word written to it. The bits of LOAD_CTRL and of UNFENCE on CHK count where they are
written as 1 (log 42). -/
def State.gate (s : State) (p : Page) (off : Nat) (w : Word) : Gate :=
  if off < 0x100 then headerGate p off
  else
    let st := s.dev.state
    match p, off with
    | .hp _, 0x110 => { exempt := true, priv := true, locks := true, rws := true }
    | .own, 0x108 => { priv := true, rws := true }
    | .own, 0x10C => { priv := true, closed := st != .load, locks := true, rws := true }
    | .clk, 0x10C => { priv := true, closed := st != .load }
    | .img, 0x104 =>
      { priv := true, closed := (w.getLsbD 0 && !st.reloads) || (w.getLsbD 1 && st != .load && st != .commission) }
    | .spb _, 0x108 => { locks := true }
    | .spc, 0x110 => { priv := true, rws := true }
    | .bst, 0x10C => { priv := true, locks := true }
    | .chk, 0x104 => if w &&& 0xFF00 = 0 then {} else { priv := true, rws := true }
    | .chk, off =>
      { locks := decide (0x200 ≤ off) && decide (off < 0x380) && [0x00, 0x04, 0x0C, 0x10, 0x14, 0x20, 0x24].contains (off % 64) }
    | .cop, off => debugGate st off
    | .drg, off => debugGate st off
    | p, off => if keyReg p off then { exempt := true, closed := st != .commission, locks := true } else {}
where
  /-- The debug registers (R160, R170, R171). -/
  debugGate (st : DevState) (off : Nat) : Gate :=
    match off with
    | 0x180 => { priv := true, closed := st != .commission, locks := true }
    | 0x184 => { priv := true, closed := st != .commission, locks := true }
    | 0x18C => { priv := true, closed := st != .commission, locks := true }
    | 0x194 => { priv := true, closed := st != .commission, locks := true }
    | 0x188 => { priv := true }
    | 0x190 => { priv := true }
    | 0x198 => { priv := true }
    | _ => {}

/-! FLT_LATCH and the registers of units (R57, R324, R332, R350, R372, R393, R402, R546). -/

/-- A W1C register after a write: a bit written 1 clears, but for one that an event of the same cycle has set (R16). -/
def w1c {n : Nat} (v : BitVec n) (fresh w : Word) : BitVec n := v &&& ~~~((w &&& ~~~fresh).setWidth n)

/-- A latch after a write of 1s: bits set in the same cycle stay (R16), and bits whose condition is live, with the cause enabled, relatch
(R546). -/
def relatch {n : Nat} (latch live : BitVec n) (enable fresh w : Word) : BitVec n :=
  latch &&& ~~~((w &&& ~~~fresh).setWidth n &&& ~~~(live &&& enable.setWidth n))

/-- The incident closes where no latch bit of the page is left (R64, R546). -/
def State.closeIncident (s : State) (p : Page) : State :=
  (if s.latchOf p = 0 then s.updHdr p fun h => { h with incident := { h.incident with isOpen := false } } else s).updateTrips

/-- Clears latch bits of inputs of a bank, of outputs of a bank, of pulse sources. -/
def State.clearIns (s : State) (b : Nat) (ks : List Nat) (w : Word) : State :=
  let en := (s.hdr (fibOf b)).enable
  ks.foldl (fun t k => t.updInp (inputOf b k) fun u => { u with latch := relatch u.latch u.live en (s.freshBits (fibOf b) (0x140 + 4 * k)) w }) s

def State.clearOuts (s : State) (b : Nat) (ks : List Nat) (w : Word) : State :=
  let en := (s.hdr (fobOf b)).enable
  ks.foldl (fun t k => t.updOut (outputOf b k) fun u =>
    { u with latch := relatch u.latch (s.outLive (outputOf b k)) en (s.freshBits (fobOf b) (0x140 + 4 * k)) w }) s

/-- The same with PARTNER last: it is live by what its partner holds after the write (R350). -/
def State.clearOutFlt (s : State) (b : Nat) (ks : List Nat) (w : Word) : State :=
  (s.clearOuts b ks (w &&& ~~~0x200)).clearOuts b ks (w &&& 0x200)

def State.clearPs (s : State) (ks : List Nat) (w : Word) : State :=
  let en := (s.hdr .pwl).enable
  ks.foldl (fun t k => t.updPulse k fun u => { u with latch := relatch u.latch (s.psLive k) en (s.freshBits .pwl (0x500 + 4 * k)) w }) s

/-- A write of FLT_LATCH: the page's own causes and those of its units. -/
def State.clearLatch (s : State) (p : Page) (w : Word) : State :=
  let s := match p with
    | .fib b => s.clearIns b (List.range 14) w
    | .fob b => s.clearOuts b (List.range 8) (w &&& ~~~0x200)
    | .pwl => s.clearPs (List.range 16) w
    | _ => s
  let live := s.liveOf p
  let fresh := s.freshBits p 0x14
  let s := s.updHdr p fun h => { h with latch := relatch h.latch live h.enable fresh w }
  (match p with
    | .fob b => s.clearOuts b (List.range 8) (w &&& 0x200)
    | _ => s).closeIncident p

/-- CNT_CLR: the page-specific counters take their reset values (R67, R106). -/
def State.clearCounters (s : State) (p : Page) : State := s.updHdr p fun h => { h with counters := resetCounters p }

/-- A control register whose bit 0 is CNT_CLR. -/
def State.control (s : State) (p : Page) (w : Word) : State := if w.getLsbD 0 then s.clearCounters p else s

/-! Handover (R53, R71, R72, R483). -/

/-- A drain begins: the old owner's transactions in flight on the page are those that it waits for; jobs that read a bank end (R526). -/
def State.beginDrain (s : State) (p : Page) (target : BitVec 4) (byAssign : Bool) : State :=
  let old := (s.hdr p).own.flask.toNat
  let s := s.updHdr p fun h => { h with own := { h.own with draining := true, pending := true, byAssign := byAssign, dest := target } }
  let s := s.updHp old fun x => { x with txns := x.txns.map fun t => if t.resp.isNone && s.onPage p t then { t with drains := true } else t }
  match p with
  | .spb k => (s.jobsOn k).foldl (fun s c => if (s.ctx c).busy then s.failJob c 5 else s) s
  | _ => s

/-- RESULT of HANDOVER. -/
def State.handoverResult (s : State) (p : Page) (r : BitVec 3) : State := s.updHdr p fun h => { h with own := { h.own with result := r } }

/-- GO on HANDOVER: refused, at once DONE for the present owner, or a drain (R71, R72). -/
def State.handoverGo (s : State) (p : Page) (target : BitVec 4) : State :=
  let o := (s.hdr p).own
  if fixedOwner p || o.nohand || decide (3 < target.toNat) || (s.hp target.toNat).fenced then s.handoverResult p 2
  else if o.flask = target then s.handoverResult p 1
  else s.beginDrain p target false

/-- A write of HANDOVER: TARGET takes its value (R15, R53); a GO while PENDING is 1 is ignored, and the handover in progress keeps the
flask it goes to (R71). -/
def State.writeHandover (s : State) (p : Page) (w : Word) : State :=
  let target := w.extractLsb' 0 4
  let s := s.updHdr p fun h => { h with own := { h.own with target := target } }
  if w.getLsbD 8 && !(s.hdr p).own.pending then s.handoverGo p target else s

/-- RESULT of ASSIGN. -/
def State.assignDone (s : State) (r : BitVec 3) : State := { s with own := { s.own with assignResult := r } }

/-- GO on ASSIGN (R483); ignored on a page that is draining, as on HANDOVER. -/
def State.assignGo (s : State) (page : BitVec 12) (flask : BitVec 4) : State :=
  match pageOf page.toNat with
  | none => s.assignDone 2
  | some p =>
    if !s.mapped p || !p.assignable || decide (3 < flask.toNat) || (s.hdr p).own.nohand then s.assignDone 2
    else if (s.hdr p).own.draining then s
    else if (s.hdr p).own.flask = flask then s.assignDone 1
    else s.beginDrain p flask true

/-- A write of ASSIGN. -/
def State.writeAssign (s : State) (w : Word) : State :=
  let page := w.extractLsb' 20 12
  let flask := w.extractLsb' 0 4
  let s := { s with own := { s.own with assignPage := page, assignFlask := flask } }
  if w.getLsbD 19 then s.assignGo page flask else s

/-! OWN: keys and fences of ports (R482, R484). -/

/-- A write of KEY_CTRL. -/
def State.writeKeyCtrl (s : State) (w : Word) : State :=
  let key := w.extractLsb' 0 2
  let s := { s with own := { s.own with key := key } }
  if !w.getLsbD 2 then s
  else if s.own.keyBusy || key = 0 || key = 3 || (key = 1 && s.otp.sess.isSome) || (key = 2 && s.otp.img.isSome) then
    { s with own := { s.own with keyResult := 2 } }
  else { s with own := { s.own with keyBusy := true, keyGoing := key } }

/-- A write of KEY_DATA word j; what is being programmed no longer changes. -/
def State.writeKeyData (s : State) (j : Nat) (w : Word) : State :=
  if s.own.keyBusy then s
  else
    let d := s.own.keyData &&& ~~~((0xFFFFFFFF : BitVec 128) <<< (32 * j))
    { s with own := { s.own with keyData := d ||| ((w.setWidth 128) <<< (32 * j)) } }

/-- The fence of a port ends: its registers take their reset values, and the responses of its transactions stay (R482, R558). -/
def State.unfencePort (s : State) (n : Nat) : State :=
  if (s.hp n).fenced then
    (s.updHp n fun p =>
      { txns := p.txns, readyCount := p.readyCount, lastFetched := p.lastFetched, ack := p.ack, response := p.response
        resetting := p.resetting, unusable := p.unusable, timeout := p.timeout, everRefreshed := p.everRefreshed }).log 5 1 (hpOf n).num12 0 0
  else s

/-! IMG: COMPLETE and RELOAD (R429, R430, R432, R436). -/

/-- COMPLETE: host loading ends, and VERIFY begins. Ignored where the loader does not wait for the host. -/
def State.loadComplete (s : State) (n : Nat) : State :=
  if s.windowOpen then ({ s with img := { s.img with source := 3 } }).beginVerify (hpOf n).num12 else s

/-- The staged header and banks meet R430. -/
def State.stageOk (s : State) (bank : Nat) : Bool :=
  let v : Words := (Mem.readWs 0 (s.spb bank).mem 0 64).toArray
  let length := (rd v 8).toNat
  (s.spb bank).power == .on && headerMeets s.ident.part s.compat s.pages.length v && (List.range 32).all fun j =>
    decide (length ≤ 32768 * j) || (decide (bank + j < 16) && (s.spb (bank + j)).power == .on
      && (s.hdr (spbOf (bank + j))).own.flask == s.dev.supervisor.setWidth 4)

/-- RELOAD_RESULT of a request: 1 ACCEPTED, 2 REFUSED_STATE, 3 REFUSED_SOURCE; 4 LOST follows at the end of the cycle (R432). -/
def State.reloadResult (s : State) (src bank : Nat) : BitVec 4 :=
  if s.dev.state == .safe && s.dev.safeR36 then 2
  else if 4 < src ∨ (src = 4 ∧ !s.stageOk bank) then 3 else 1

/-- A RELOAD is accepted or refused: where accepted, it takes effect at the end of the cycle, "after all outputs are at safe state" (R35). No
effect in a STATE that admits none (R430). -/
def State.reloadDecided (s : State) (x : Reload) : State :=
  let r := s.reloadResult x.src.toNat x.bank.toNat
  if !s.dev.state.reloads then s
  else { s with img := { s.img with reloadResult := r, due := if r = 1 then some x else s.img.due } }

/-- RELOAD with the source and bank written. SRC STAGED first reads the header of its bank, but for a request that R36 refuses (R430). -/
def State.reload (s : State) (n src bank : Nat) : State :=
  let x : Reload := { port := BitVec.ofNat 2 n, src := BitVec.ofNat 3 src, bank := BitVec.ofNat 4 bank }
  if s.dev.state.reloads && src == 4 && s.reloadResult src bank != 2 then { s with img := { s.img with asked := some x } }
  else s.reloadDecided x

/-- The staged header is read through port B by LDR, its 64 words (R409): each checks its ECC (R487); a bank that is not ON counts each of them in
SLEEP_HIT (R488); a borrowed segment is abandoned (R504). DEDUCED, log 116. -/
def State.headerTaken (s : State) (k : Nat) (ecc : List (BitVec 17 × EccErr)) : State :=
  if (s.spb k).power != .on || (s.spb k).fenced then s.addCounter (spbOf k) 0x4C 64
  else
    (ecc.filter fun x => (x.1.extractLsb' 13 4).toNat == k && decide ((x.1.extractLsb' 0 13).toNat < 64)).foldl (fun s x =>
      let off := 4 * (x.1.extractLsb' 0 13).toNat
      (s.upsetWord k x.2 off).spbError k x.2 false 7 off) (s.touchSegment k 0)

/-- The header read of a staged RELOAD: an urgent patrol holds it (R505); else it is made, and the request is decided (R430). -/
def State.stageRead (s : State) (ecc : List (BitVec 17 × EccErr)) : State :=
  match s.img.asked with
  | none => s
  | some x =>
    if s.urgentHold x.bank.toNat 0 then { s with img := { s.img with waits := true } }
    else (({ s with img := { s.img with asked := none } }).headerTaken x.bank.toNat ecc).reloadDecided x

/-- A write of LOAD_CTRL by port n. -/
def State.writeLoadCtrl (s : State) (n : Nat) (w : Word) : State :=
  let s := { s with img := { s.img with stageBank := w.extractLsb' 16 4, src := w.extractLsb' 8 3 } }
  let s := if w.getLsbD 1 then s.loadComplete n else s
  if w.getLsbD 0 then s.reload n s.img.src.toNat s.img.stageBank.toNat else s

/-! CHK (R523, R524, R534, R535). -/

/-- A write to a context that is BUSY is ignored and counted (R523). -/
def State.ctxIgnored (s : State) : State := s.bump .chk 0x4C

/-- A register of a context takes a word. VALUE keeps all its bits, for CFG may follow it (R522); a 16-bit variant uses bits 15:0 (R519). -/
def Ctx.write (x : Ctx) (off : Nat) (w : Word) : Ctx :=
  match off with
  | 0x00 => { x with cfg := if w &&& 3 = 3 then w.setWidth 10 &&& 0x330 else w.setWidth 10 &&& 0x333 }
  | 0x04 => { x with value := w, feeder := none }
  | 0x0C => { x with foldBase := w.setWidth 24 }
  | 0x10 => { x with seq := w.setWidth 8 }
  | 0x14 => { x with expect := w }
  | 0x20 => { x with jobBank := w.extractLsb' 16 4, jobOffset := w.extractLsb' 2 13 }
  | 0x24 => { x with jobLen := if w.setWidth 14 = (0 : BitVec 14) then 1 else w.setWidth 14 }
  | _ => x

/-- A write of offset off of context c; contexts 6 and 7 and fenced contexts take none (R530, R534). -/
def State.writeCtx (s : State) (c off : Nat) (w : Word) : State :=
  let x := s.ctx c
  if decide (6 ≤ c) || x.fenced then s
  else if off = 0x18 then (if x.busy then (if w &&& 0x1F = 0 then s else s.ctxIgnored) else s.ctxControl c w)
  else if [0x00, 0x04, 0x0C, 0x10, 0x14, 0x20, 0x24].contains off then
    (if x.busy then s.ctxIgnored else s.updCtx c fun x => x.write off w)
  else s

/-- A word written to the feed window of a context. A word from another stream than those before makes VALUE no value that the manual
states, and it is free (R524, R535). -/
def State.feedCtx (s : State) (c port stream : Nat) (w : Word) : State :=
  let x := s.ctx c
  if decide (6 ≤ c) || x.fenced then s
  else if x.busy then s.ctxIgnored
  else
    let me := BitVec.ofNat 4 (4 * port + stream)
    let s := s.updCtx c fun x => { x.feed w with feeder := some (x.feeder.getD me) }
    if x.feeder.isSome && x.feeder != some me then
      let v := s.freeWord
      v.2.updCtx c fun x => { x with value := x.fit v.1 }
    else s

/-! The pages. -/

/-- A debug register takes a word in COMMISSION (R160 to R162, R170, R171). RESUME, STEP and HALT written together act in that order (DESIGN
CHOICE, log 87). -/
def State.writeDebug (s : State) (h : Half) (off : Nat) (w : Word) : State :=
  if s.dev.state != .commission then s
  else match off with
    | 0x180 =>
      let s := s.updChan h fun c => { c with bpEn := w.getLsbD 3 }
      let s := if w.getLsbD 2 then s.resumeChannel h else s
      let s := if w.getLsbD 1 then s.stepChannel h else s
      if w.getLsbD 0 then s.haltChannel h else s
    | 0x184 => s.updChan h fun c => { c with bp := w.setWidth 20 }
    | 0x18C => s.updChan h fun c => { c with regSel := w.setWidth 5 }
    | 0x194 => s.updChan h fun c => { c with memAddr := w.extractLsb' 2 14 }
    | _ => s

/-- COP and DRG. -/
def State.writeChan (s : State) (h : Half) (off : Nat) (w : Word) : State :=
  if off = 0x104 then s.control h.page w else s.writeDebug h off w

/-- A register of the common header takes a word (R53 to R62). -/
def State.writeHeader (s : State) (p : Page) (off : Nat) (w : Word) : State :=
  match off with
  | 0x08 => s.writeHandover p w
  | 0x0C => s.updHdr p fun h => { h with own := { h.own with locked := h.own.locked || w.getLsbD 0, nohand := h.own.nohand || w.getLsbD 1 } }
  | 0x14 => s.clearLatch p w
  | 0x18 => s.updHdr p fun h => { h with enable := enableOf p w }
  | 0x1C => s.updHdr p fun h => { h with irqEn := w }
  | 0x24 => s.updHdr p fun h => { h with fltN := fltNOf (w.extractLsb' 0 8), fltWindow := windowCode (w.extractLsb' 8 5) }
  | 0x28 => s.updHdr p fun h => { h with reactMinor := raiseReaction p (w.setWidth 4) }
  | 0x2C => s.updHdr p fun h => { h with reactSevere := raiseReaction p (w.setWidth 4) }
  | _ => s

/-- HPn (R464, R474 to R477); PORT_RESET acts once the transaction completes. -/
def State.writeHp (s : State) (n off : Nat) (w : Word) : State :=
  match off with
  | 0x104 => s.control (hpOf n) w
  | 0x108 => s.updHp n fun p => { p with events := w1c p.events (s.freshBits (hpOf n) 0x108) w }
  | 0x10C => s.updHp n fun p => { p with irqEn := w.setWidth 4 }
  | 0x110 => s.updHp n fun p =>
      let b : Byte := w.extractLsb' 16 8
      let b := if b = 0 then 1 else b
      let r : BitVec 16 := w.setWidth 16
      { p with bucket := b, refill := if r = 0 then 1 else r, tokens := if b.toNat < p.tokens.toNat then b else p.tokens }
  | 0x118 => s.updHp n fun p => { p with permitStaged := w }
  | 0x11C => s.updHp n fun p => { p with permitLo := p.permitStaged, permitHi := w, refreshed := true, everRefreshed := true }
  | _ => s

/-- OWN (R482 to R484). -/
def State.writeOwn (s : State) (off : Nat) (w : Word) : State :=
  match off with
  | 0x104 => s.control .own w
  | 0x108 => (List.range 4).foldl (fun s n => if w.getLsbD n then s.unfencePort n else s) s
  | 0x10C => s.writeAssign w
  | 0x110 => s.writeKeyCtrl w
  | off => if 0x120 ≤ off ∧ off < 0x130 then s.writeKeyData ((off - 0x120) / 4) w else s

/-- CHK (R533 to R535). -/
def State.writeChk (s : State) (port stream off : Nat) (w : Word) : State :=
  if off = 0x104 then
    let s := s.control .chk w
    (List.range 8).foldl (fun s c => if w.getLsbD (8 + c) then s.unfenceCtx c else s) s
  else if 0x200 ≤ off ∧ off < 0x400 then s.writeCtx ((off - 0x200) / 64) (off % 64) w
  else if 0x800 ≤ off then s.feedCtx ((off - 0x800) / 256) port stream w
  else s

/-- FRM (R113 to R115). -/
def State.writeFrm (s : State) (off : Nat) (w : Word) : State :=
  match off with
  | 0x134 => { s with frm := { s.frm with syncEvents := w1c s.frm.syncEvents (s.freshBits .frm 0x134) w } }
  | 0x138 => { s with frm := { s.frm with syncIrqEn := w.setWidth 3 } }
  | 0x13C => s.control .frm w
  | _ => s

/-- AGE_QUANTUM as it reads back (R627). -/
def ageQuantumOf (w : Word) : BitVec 11 :=
  let v := w.setWidth 11 &&& 0x7F0
  if v.toNat < 16 then 16 else if 1024 < v.toNat then 1024 else v

/-- CLK, SUP and DEV (R625, R627, R629). -/
def State.writeClk (s : State) (off : Nat) (w : Word) : State :=
  match off with
  | 0x104 => s.control .clk w
  | 0x10C => { s with clk := { s.clk with ageQuantum := ageQuantumOf w } }
  | _ => s

def State.writeSup (s : State) (off : Nat) (w : Word) : State :=
  match off with
  | 0x104 => s.control .sup w
  | 0x108 => { s with sup := { s.sup with events := w1c s.sup.events (s.freshBits .sup 0x108) w } }
  | 0x10C => { s with sup := { s.sup with irqEn := w.setWidth 5 } }
  | _ => s

def State.writeDev (s : State) (off : Nat) (w : Word) : State :=
  match off with
  | 0x120 => { s with dev := { s.dev with stateChg := s.dev.stateChg && !(w &&& ~~~s.freshBits .dev 0x120).getLsbD 0 } }
  | 0x124 => { s with dev := { s.dev with irqEn := w.getLsbD 0 } }
  | _ => s

/-- BST (R594, R595). -/
def State.writeBst (s : State) (off : Nat) (w : Word) : State :=
  match off with
  | 0x104 => s.control .bst w
  | 0x10C => { s with bst := { s.bst with warn := if w.setWidth 16 = (0 : BitVec 16) then 168 else w.setWidth 16 } }
  | 0x110 => { s with bst := { s.bst with due := s.bst.due && !(w &&& ~~~s.freshBits .bst 0x110).getLsbD 0 } }
  | 0x114 => { s with bst := { s.bst with irqEn := w.getLsbD 0 } }
  | _ => s

/-- SPBk and SPC (R510, R511, R516, R517). -/
def State.writeSpb (s : State) (k off : Nat) (w : Word) : State :=
  match off with
  | 0x104 => s.control (spbOf k) w
  | 0x108 => s.requestPower k (w.setWidth 2)
  | _ => s

def State.writeSpc (s : State) (off : Nat) (w : Word) : State :=
  match off with
  | 0x104 => s.control .spc w
  | 0x110 => (List.range 16).foldl (fun s k => if w.getLsbD k then s.unfenceSpb k else s) s
  | _ => s

/-- FIBb, FOBb and PWL (R329, R332, R367, R372, R398, R402). -/
def State.writeFib (s : State) (b off : Nat) (w : Word) : State :=
  if off = 0x104 then s.control (fibOf b) w
  else if 0x140 ≤ off ∧ off < 0x178 then (s.clearIns b [(off - 0x140) / 4] w).closeIncident (fibOf b)
  else s

def State.writeFob (s : State) (b off : Nat) (w : Word) : State :=
  if off = 0x104 then
    let s := s.control (fobOf b) w
    if w.getLsbD 1 then s.updOutBank b fun x => { x with minC := x.fvC, minD := x.fvD } else s
  else if 0x140 ≤ off ∧ off < 0x160 then (s.clearOutFlt b [(off - 0x140) / 4] w).closeIncident (fobOf b)
  else s

def State.writePwl (s : State) (off : Nat) (w : Word) : State :=
  if off = 0x104 then s.control .pwl w
  else if 0x500 ≤ off ∧ off < 0x540 then (s.clearPs [(off - 0x500) / 4] w).closeIncident .pwl
  else s

/-- A register of a mapped block page takes a word, from a stream of a port. Read-only and unmapped offsets ignore it (R48). -/
def State.writeReg (s : State) (port stream : Nat) (p : Page) (off : Nat) (w : Word) : State :=
  if off < 0x100 then s.writeHeader p off w
  else match p with
    | .dev => s.writeDev off w
    | .clk => s.writeClk off w
    | .sup => s.writeSup off w
    | .frm => s.writeFrm off w
    | .hp n => s.writeHp n off w
    | .own => s.writeOwn off w
    | .cop => s.writeChan .c off w
    | .drg => s.writeChan .d off w
    | .img => if off = 0x104 then s.writeLoadCtrl port w else s
    | .spb k => s.writeSpb k off w
    | .spc => s.writeSpc off w
    | .chk => s.writeChk port stream off w
    | .bst => s.writeBst off w
    | .fib b => s.writeFib b off w
    | .fob b => s.writeFob b off w
    | .pwl => s.writePwl off w
    | p => if off = 0x104 then s.control p w else s

/-- The FIB and FOB pages of a fenced field die ignore writes (R555). -/
def State.frozenPage (s : State) (p : Page) : Bool :=
  match p with
  | .fib b => (s.bar (dieOfBank b)).fenced
  | .fob b => (s.bar (dieOfBank b)).fenced
  | _ => false

/-- A word written at a native page number and offset: a bank's window, the crucible's, a block page; elsewhere ignored (R13, R76, R77,
R79, R485, R504). -/
def State.writeWord (s : State) (port stream pn off : Nat) (w : Word) : State :=
  let a := 4096 * pn + off
  if 0x400 ≤ pn ∧ pn < 0x480 then
    let k := (pn - 0x400) / 8
    let o := (a - 0x400000) % 0x8000
    (s.touchSegment k o).updSpb k fun b => { b with mem := b.mem.writeW 0 o w }
  else if 0x800 ≤ pn ∧ pn < 0x900 then { s with crb := { s.crb with mem := s.crb.mem.writeW 0 (a - 0x800000) w } }
  else match pageOf pn with
    | some p => if s.mapped p && !s.frozenPage p then s.writeReg port stream p off w else s
    | none => s

end Sys2Proof.Machine
end

