-- ==== Sys2Proof/Machine/Ports.lean ====
section
/-! DEFINITION. The host ports: cells, acknowledgments, responses, sessions, the judging of R46 and what a transaction does as it takes
effect (chapter 12; 02 R40 to R49; 13 R495 to R498). -/

namespace Sys2Proof.Machine

/-! The cell (R452 to R454). -/

/-- The header words of a cell. -/
def headWord0 (op : Nat) (c : CellHead) : Word :=
  field c.rsv0 26 ||| field c.len 20 ||| BitVec.ofNat 32 (op * 65536) ||| flag c.priv 15 ||| BitVec.ofNat 32 (c.stream.val * 8192)
    ||| BitVec.ofNat 32 (c.tag.val * 256) ||| field c.seq 0

def headWord1 (c : CellHead) : Word := field c.rsv1 24 ||| field c.addr 0

/-- Header and payload of a cell, as bytes. -/
def cellBody (op : Nat) (c : CellHead) (payload : List Word) : List Byte := bytesOf (headWord0 op c :: headWord1 c :: payload)

/-- The bytes before the CRC field. -/
def cellBytes (op : Nat) (c : CellHead) (payload : List Word) : List Byte :=
  cellBody op c payload ++ if c.priv then keyBytes c.sessTag else []

/-- A CRC field of the protocol: direction, port and sequence number fold into its seed (R453); in the SLC-1224 personality it is a
CRC-16 without folding (R671). -/
def State.crcField (s : State) (dir n : Nat) (seq : Byte) (bs : List Byte) : Word :=
  if s.compat then (crc16 0xFFFF bs).setWidth 32
  else crc32cOf (Word.ones ^^^ BitVec.ofNat 32 (dir * 65536) ^^^ BitVec.ofNat 32 (n * 256) ^^^ seq.setWidth 32) bs

/-- The operation is tagged (R454). -/
def tagged (op : Nat) : Bool := op != 0 && op != 3

/-- Header and operation fields are valid (R452, R454). -/
def formatOk (op : Nat) (c : CellHead) : Bool :=
  c.rsv0 == 0 && c.rsv1 == 0 && match op with
    | 0 => c.tag == 0 && c.stream == 0 && c.len == 0 && c.addr == 0
    | 1 => c.addr &&& 3 == 0
    | 2 => c.addr &&& 3 == 0
    | 3 => c.tag == 0 && c.stream == 0 && !c.priv && c.len == 0 && c.addr &&& 0xFFFF80 == 0
    | 4 => c.len == 0 && c.addr == 0
    | 5 => c.len == 5 && c.addr == 0
    | 6 => c.len == 0 && c.addr == 0
    | 7 => c.len == 0 && c.addr == 0 && c.priv
    | _ => false

/-- The acknowledgment code of a complete cell: the first check of R456 that fails. -/
def State.cellCode (s : State) (op : Nat) (c : CellHead) (payload : List Word) : Nat :=
  let p := s.hp c.port.val
  if c.crc != s.crcField 0 c.port.val p.expSeq (cellBytes op c payload) || c.seq != p.expSeq then 1
  else if !formatOk op c then 2
  else if p.resetting then 3
  else if p.fenced && tagged op then 4
  else if tagged op && p.txns.any (fun t => t.tag.toNat == c.tag.val) then 5
  else if tagged op && p.tokens == 0 then 6
  else 0

/-- Word 0 of an acknowledgment (R457). -/
def Hp.ackWord (p : Hp) (code : Nat) : Word :=
  field p.tokens 24 ||| BitVec.ofNat 32 (p.freeTags * 65536) ||| BitVec.ofNat 32 (code * 256) ||| field p.expSeq 0

/-- The port drives an acknowledgment, and no response. -/
def State.ackWith (s : State) (n code : Nat) : State :=
  let p := s.hp n
  let w := p.ackWord code
  s.updHp n fun p => { p with ack := [w, s.crcField 1 n p.expSeq (bytesOf [w])], response := [] }

/-- The cause of HPn that a refused cell raises (R471). -/
def nakCause (code : Nat) : Option Nat :=
  match code with
  | 1 => some 1
  | 2 => some 2
  | 5 => some 2
  | 6 => some 3
  | _ => none

/-- A cell is refused: NAKS, LAST_NAK, the acknowledgment and the cause of its port (R456, R471, R472, R478). -/
def State.nak (s : State) (c : CellHead) (code : Nat) : State :=
  let n := c.port.val
  let s := (s.bump (hpOf n) 0x4C).updHp n fun p =>
    { p with lastNak := flag true 31 ||| BitVec.ofNat 32 (code * 65536) ||| field c.seq 8 ||| field p.expSeq 0 }
  let s := s.ackWith n code
  match nakCause code with
  | some k => s.raise { page := hpOf n, cause := k }
  | none => s

/-- A cell is accepted: EXP_SEQ advances, a tagged one takes a token, and tags whose responses were fetched are free again, but for a
FETCH with REPEAT (R456, R458, R466, R472). -/
def State.accept (s : State) (op : Nat) (c : CellHead) : State :=
  let keep := op == 3 && c.addr.getLsbD 6
  (s.bump (hpOf c.port.val) 0x44).updHp c.port.val fun p =>
    { p with expSeq := p.expSeq + 1, tokens := if tagged op then p.tokens - 1 else p.tokens
             txns := if keep then p.txns else p.txns.filter fun t => !t.fetched }

/-- The session tag that a cell should carry (R463). -/
def Session.tag (x : Session) (op : Nat) (c : CellHead) (payload : List Word) : BitVec 64 :=
  ofBytesLE 64 ((cmac (keyBytes x.ks) (keyBytes x.ctr ++ cellBody op c payload)).take 8)

/-- The session tag of an accepted cell is valid. -/
def State.tagValid (s : State) (op : Nat) (c : CellHead) (payload : List Word) : Bool :=
  c.priv && match (s.hp c.port.val).session with
    | some x => x.tag op c payload == c.sessTag
    | none => false

/-- CTR advances by 1; the session ends as it reaches its last value (R463). -/
def Session.advance (x : Session) : Option Session := if x.ctr + 1 = Word.ones then none else some { x with ctr := x.ctr + 1 }

/-- The session tag of an accepted cell is checked, in SEQ order: a valid one advances CTR (R463). -/
def State.checkTag (s : State) (op : Nat) (c : CellHead) (payload : List Word) : State :=
  if s.tagValid op c payload then s.updHp c.port.val fun p => { p with session := p.session.bind Session.advance } else s

/-- The port answers: not in OFF, and only HP0 in the SLC-1224 personality (R33, R451). -/
def State.portServes (s : State) (n : Nat) : Bool := s.dev.state != .off && !(s.compat && decide (n ≠ 0))

/-- A complete cell arrives: refused by R456, or accepted and served. -/
def State.receive (s : State) (op : Nat) (c : CellHead) (payload : List Word) (serve : State → Bool → State) : State :=
  if !s.portServes c.port.val then s
  else
    let code := s.cellCode op c payload
    if code != 0 then s.nak c code
    else
      let s := s.accept op c
      serve (s.checkTag op c payload) (s.tagValid op c payload)

/-! Responses (R458, R459). -/

/-- Words 0 and 1 of a response and its payload. -/
def Response.body (r : Response) : List Word :=
  (BitVec.ofNat 32 (r.words.length * 2 ^ 20) ||| field r.op 16 ||| field r.stream 13 ||| field r.tag 8 ||| field r.reqSeq 0)
    :: (field r.teTime 8 ||| field r.status 0) :: r.words

/-- NONE_READY of a FETCH. -/
def noneReady (seq : Byte) : Response := { op := 3, reqSeq := seq, status := 0x0D }

/-- The ready transaction whose response became ready earliest. -/
def earliest (l : List Txn) : Option Txn :=
  l.foldl (fun best t => match best with
    | none => some t
    | some b => if t.order < b.order then some t else some b) none

/-- The transaction whose response a FETCH without REPEAT returns: BY_TAG, or the earliest. -/
def Hp.pick (p : Hp) (addr : BitVec 24) : Option Txn :=
  let ready := p.txns.filter fun t => t.resp.isSome && !t.fetched
  if addr.getLsbD 5 then ready.find? fun t => t.tag == addr.setWidth 5 else earliest ready

/-- The response that a FETCH returns. -/
def Hp.fetchResponse (p : Hp) (addr : BitVec 24) : Option Response :=
  if addr.getLsbD 6 then p.lastFetched else (p.pick addr).bind Txn.resp

/-- The port after a FETCH: the response counts as fetched, and a REPEAT can return it again. -/
def Hp.fetched (p : Hp) (addr : BitVec 24) : Hp :=
  if addr.getLsbD 6 then p
  else match p.pick addr with
    | some t => { p with lastFetched := t.resp, txns := p.txns.map fun u => if u.tag == t.tag then { u with fetched := true } else u }
    | none => { p with lastFetched := none }

/-! The lines IO3 to IO0 (R449, R451). -/

/-- A byte as its two nibbles, bits 7 to 4 first; bit 3 of a nibble is on IO3. -/
def nibbles (b : Byte) : List (BitVec 4) := [b.extractLsb' 4 4, b.extractLsb' 0 4]

/-- What the device drives on IO3 to IO0 at the k-th clock after the host's cell: nothing in the four turnaround clocks, then the
acknowledgment and the response, byte by byte, then 0xF. A port that does not respond leaves its lines high-Z (R451). -/
def State.lines (s : State) (n k : Nat) : Option (BitVec 4) :=
  if !s.portServes n || decide (k < 4) then none
  else some (((bytesOf ((s.hp n).ack ++ (s.hp n).response)).flatMap nibbles).getD (k - 4) 0xF)

/-- FETCH is served: the acknowledgment, then the response with its CRC. -/
def State.serveFetch (s : State) (c : CellHead) : State :=
  let n := c.port.val
  let body := (((s.hp n).fetchResponse c.addr).getD (noneReady c.seq)).body
  (s.ackWith n 0).updHp n fun p => { p.fetched c.addr with response := body ++ [s.crcField 2 n c.seq (bytesOf body)] }

/-! The judging of R46. -/

/-- A refusal: its status and whether OWN_VIOL counts it. -/
structure Refused where
  status : Byte
  counted : Bool
  deriving DecidableEq, Repr

/-- The page of the transaction, and its offset there. -/
def State.txnPage (s : State) (t : Txn) : Nat := s.pageNo t.addr
def Txn.off (t : Txn) : Nat := t.addr.toNat % 4096

/-- The offsets of the words of a READ or WRITE. -/
def Txn.offs (t : Txn) : List Nat := (List.range t.len).map fun j => t.off + 4 * j

/-- The offsets and the words that a WRITE carries. -/
def Txn.puts (t : Txn) : List (Nat × Word) := t.offs.zip t.payload

/-- A mapped block page of the page number (R41). -/
def State.blockPage (s : State) (pn : Nat) : Option Page := (pageOf pn).filter fun p => s.mapped p

/-- Flask n has the rights of a page's owner: on a page or window of the device the supervisor flask has them, and a page number that
maps nothing has no owner (R41, R42). -/
def State.owns (s : State) (n pn : Nat) : Bool :=
  let supervisor := s.dev.supervisor.toNat == n
  if 0x400 ≤ pn ∧ pn < 0x480 then (s.hdr (spbOf ((pn - 0x400) / 8))).own.flask.toNat == n
  else if (0x0A0 ≤ pn ∧ pn < 0x0B0) ∨ (0x100 ≤ pn ∧ pn < 0x108) ∨ (0x800 ≤ pn ∧ pn < 0x900) then supervisor
  else match s.blockPage pn with
    | some p => (s.ownerFlask p).toNat == n
    | none => true

/-- The words of a read are PAGE_ID and OWNER of a block page only (R44). -/
def State.readsIdent (s : State) (t : Txn) : Bool :=
  t.op == 1 && (s.blockPage (s.txnPage t)).isSome && t.offs.all fun o => o == 0 || o == 4

/-- Flask n may read the page (R41, R44). -/
def State.mayRead (s : State) (n : Nat) (t : Txn) : Bool :=
  let pn := s.txnPage t
  s.owns n pn || s.readsIdent t || pn == 0x000 || pn == 0x004 || (decide (0x100 ≤ pn) && decide (pn < 0x108))

/-- The marks of the words that a WRITE carries; windows have none. -/
def State.gates (s : State) (t : Txn) : List Gate :=
  match s.blockPage (s.txnPage t) with
  | some p => t.puts.map fun x => s.gate p x.1 x.2
  | none => t.puts.map fun _ => {}

/-- A word of the key registers: only flask 0 writes them (R484). -/
def State.touchesKeys (s : State) (t : Txn) : Bool :=
  s.blockPage (s.txnPage t) == some .own && t.offs.any fun o => keyReg .own o

/-- Step 5: a handover of the page drains, and the transaction comes from the old or the new owner after its start (R72). -/
def State.inDrain (s : State) (n : Nat) (t : Txn) : Bool :=
  match ownerPage (s.txnPage t) with
  | some p =>
    let o := (s.hdr p).own
    s.mapped p && o.draining && !t.drains && !s.readsIdent t && (o.flask.toNat == n || o.dest.toNat == n)
  | none => false

/-- Step 6: a write to a page that the flask does not own, with a word that is not exempt. -/
def State.foreignWrite (s : State) (n : Nat) (t : Txn) : Bool :=
  t.op == 2 && ((!s.owns n (s.txnPage t) && (s.gates t).any fun g => !g.exempt) || (s.touchesKeys t && decide (n ≠ 0)))

/-- Step 7: an invalid session tag, or a privileged register written without one. -/
def State.noSession (s : State) (t : Txn) : Bool :=
  if t.priv then !t.tagOk else t.op == 2 && (s.gates t).any Gate.priv

/-- Step 8: a register refused in the present STATE; the crucible window. -/
def State.wrongState (s : State) (t : Txn) : Bool :=
  let pn := s.txnPage t
  let st := s.dev.state
  (t.op == 2 && (s.gates t).any Gate.closed)
    || (decide (0x800 ≤ pn) && decide (pn < 0x900)
      && if t.op == 2 then !s.windowOpen else !(st == .load || st == .verify || st == .commission))

/-- Step 9: a locked page. -/
def State.lockedWrite (s : State) (t : Txn) : Bool :=
  match s.blockPage (s.txnPage t) with
  | some p => t.op == 2 && (s.hdr p).own.locked && (s.gates t).any Gate.locks
  | none => false

/-- Step 10: a register that only the supervisor flask writes. -/
def State.notSupervisor (s : State) (n : Nat) (t : Txn) : Bool :=
  t.op == 2 && s.dev.supervisor.toNat != n && (s.gates t).any Gate.rws

/-- The first check of R46 that fails a READ or WRITE of flask n; none where it passes every check. -/
def State.judge (s : State) (n : Nat) (t : Txn) : Option Refused :=
  let pn := s.txnPage t
  if s.dev.state == .shakeout then some ⟨0x01, false⟩
  else if s.dev.state == .start && (t.op == 2 || decide (2 < pn)) then some ⟨0x02, false⟩
  else if 4096 < t.off + 4 * t.len then some ⟨0x03, false⟩
  else if t.op == 1 && !s.mayRead n t then some ⟨0x04, false⟩
  else if s.inDrain n t then some ⟨0x04, false⟩
  else if s.foreignWrite n t then some ⟨0x04, true⟩
  else if s.noSession t then some ⟨0x05, true⟩
  else if s.wrongState t then some ⟨0x02, false⟩
  else if s.lockedWrite t then some ⟨0x06, true⟩
  else if s.notSupervisor n t then some ⟨0x04, true⟩
  else none

/-! Completion (R459, R461). -/

/-- The oldest transaction of a stream that has not taken effect (R461). -/
def State.headTxn (s : State) (n stream : Nat) : Option Txn :=
  (s.hp n).txns.find? fun t => t.stream.toNat == stream && t.resp.isNone

/-- A transaction's response becomes ready. -/
def State.answer (s : State) (n : Nat) (t : Txn) (status : Byte) (words : List Word) : State :=
  s.updHp n fun p =>
    { p with txns := p.txns.map fun u => if u.tag == t.tag && u.resp.isNone then u.finish status words s.frm.tb p.readyCount else u
             readyCount := p.readyCount + 1 }

/-- A refusal that OWN_VIOL counts (R46, R455, R471, R472, R480). -/
def State.violation (s : State) (n : Nat) : State :=
  (((s.bump (hpOf n) 0x48).bump .own (0x44 + 4 * n)).raise { page := hpOf n, cause := 0 })

/-- A transaction is refused: zeros where it reads (R47); an AUTH has ended, and the nonce with it (R462). -/
def State.refuse (s : State) (n : Nat) (t : Txn) (r : Refused) : State :=
  let s := s.answer n t r.status t.zeros
  let s := if t.op == 5 then s.updHp n fun p => { p with nonce := none } else s
  if r.counted then s.violation n else s

/-! Scratchpad windows (R80, R487, R495 to R498, R504, R505). -/

/-- The bank whose data window a page number lies in. -/
def bankOfPage (pn : Nat) : Option Nat := if 0x400 ≤ pn ∧ pn < 0x480 then some ((pn - 0x400) / 8) else none

/-- The bank window's bank and the offset in it of an offset in the page. -/
def bankOff (pn off : Nat) : Nat := pn % 8 * 4096 + off

/-- The bank is asleep to port A: not ON, or fenced (R80, R488, R501). -/
def State.asleep (s : State) (k : Nat) : Bool := (s.spb k).power != .on || (s.spb k).fenced

/-- The number of a port B master (R513). -/
def masterNum : BMaster → Nat
  | .eng => 0
  | .chk => 1
  | .bst => 2
  | .ldr => 3

/-- The tie is one of R495 and meets a word of the transaction; read with read has no effect. -/
def tieMeets (pn : Nat) (t : Txn) (x : Tie) : Bool :=
  (t.op == 2 || x.write) && (t.offs.any fun o => bankOff pn o == 4 * x.word.toNat)

/-- CASE of LAST_COLLIDE (R513). -/
def tieCase (t : Txn) (x : Tie) : Nat := if t.op == 1 then 1 else if x.write then 0 else 2

/-- A response with a collision status is counted (R472). -/
def State.collided (s : State) (n : Nat) (lost : Bool) : State := if lost then s.bump (hpOf n) 0x54 else s

/-- The effects of a tie of port n on bank k: the BUSY_N pulse, the counts, LAST_COLLIDE, and the retry of a CHK read (R495, R496, R498). -/
def State.tied (s : State) (n k : Nat) (t : Txn) (x : Tie) : State :=
  let s := (s.mark (hpOf n) 0x108 0).updHp n fun p => { p with pulse := true, events := p.events ||| 1 }
  let s := ((s.bump (spbOf k) 0x48).bump .spc (0x44 + 4 * n)).bump .spc (0x54 + 4 * masterNum x.master)
  let s := s.updSpb k fun b =>
    { b with lastCollide := flag true 31 ||| BitVec.ofNat 32 (tieCase t x * 2 ^ 29 + n * 2 ^ 26 + masterNum x.master * 2 ^ 24 + 4 * x.word.toNat) }
  let c := x.ctx.val
  if x.master == .chk && !x.write && (s.ctx c).busy && (s.ctx c).jobBank.toNat == k && (s.ctx c).jobAt == 4 * x.word.toNat then
    s.updCtx c fun y => { y with retry := true }
  else s

/-- The ties of a transaction take effect; COLLIDES counts its response where it reads COLLIDED or COLLIDED_WRITE_LOST (R472, R497). -/
def State.tiedAll (s : State) (n pn : Nat) (t : Txn) (ties : List Tie) : State :=
  match bankOfPage pn with
  | some k => (ties.foldl (fun s x => s.tied n k t x) s).collided n (ties.any (·.write))
  | none => s

/-- The ties that a transaction on a bank's window meets. -/
def tiesOf (pn : Nat) (t : Txn) (ties : List Tie) : List Tie := if (bankOfPage pn).isSome then ties.filter (tieMeets pn t) else []

/-- A tie of the list is at an offset of the page. -/
def tiesAt (pn : Nat) (ties : List Tie) (off : Nat) : Bool := ties.any fun x => bankOff pn off == 4 * x.word.toNat

/-- The page lies in the crucible window (R79). -/
def crbPage (pn : Nat) : Bool := decide (0x800 ≤ pn) && decide (pn < 0x900)

/-- The ECC errors that the reads of memory in a cell meet: those whose double-word or word lies in it (R404, R487). -/
def eccOf (pn : Nat) (t : Txn) (ecc : List (BitVec 17 × EccErr)) : List (Nat × EccErr) :=
  if (bankOfPage pn).isSome then
    (ecc.filter fun x => t.offs.any fun o => bankOff pn o == 4 * (x.1.toNat % 8192)).map fun x => (x.1.toNat % 8192, x.2)
  else if crbPage pn then
    (ecc.filter fun x => t.offs.any fun o => (4096 * (pn - 0x800) + o) / 8 == x.1.toNat).map fun x => (x.1.toNat, x.2)
  else []

/-- Some double-word of the crucible window has an uncorrectable error. -/
def lostWord (pn : Nat) (x : Nat × EccErr) : Bool := x.2.uncorr && (bankOfPage pn).isNone

/-- The ECC errors of a cell are recorded and take effect: those of a bank by port n, or those of the crucible (R404, R487). -/
def State.eccMet (s : State) (n pn : Nat) (ecc : List (Nat × EccErr)) : State :=
  match bankOfPage pn with
  | some k => ecc.foldl (fun s x => s.spbError k x.2 false n (4 * x.1)) s
  | none => ecc.foldl (fun s x => s.crucibleError (BitVec.ofNat 17 x.1) x.2) s

/-- The word at an offset is undefined: it tied with a write (R495), or it is crucible data with a multi-bit error (log 18). -/
def spoilt (pn : Nat) (ties : List Tie) (ecc : List (Nat × EccErr)) (off : Nat) : Bool :=
  tiesAt pn ties off || ecc.any fun x => lostWord pn x && (4096 * (pn - 0x800) + off) / 8 == x.1

/-- The words of a read with a free value in each word that is not what the memory holds. -/
def State.spoil (s : State) (bad : Nat → Bool) (offs : List Nat) (ws : List Word) : List Word × State :=
  ((ws.zip offs).zipIdx.map fun x => if bad x.1.2 then Config.freeWord (s.free + x.2) else x.1.1, { s with free := s.free + ws.length })

/-- An urgent patrol holds the access: it waits (R468, R505). -/
def State.heldBy (s : State) (pn : Nat) (t : Txn) : Bool :=
  match bankOfPage pn with
  | some k => t.offs.any fun o => s.urgentHold k (bankOff pn o)
  | none => false

/-- The accesses of a transaction to a bank's window abandon the patrol's borrow (R504). -/
def State.touchAll (s : State) (pn : Nat) (t : Txn) : State :=
  match bankOfPage pn with
  | some k => t.offs.foldl (fun s o => s.touchSegment k (bankOff pn o)) s
  | none => s

/-! What a transaction does. -/

/-- EXP_SEQ of HP_STATUS is that after the cell that carries the read (R473). -/
def seqFix (pn n : Nat) (t : Txn) (offs : List Nat) (ws : List Word) : List Word :=
  if pn = 8 + n then (ws.zip offs).map fun x => if x.2 = 0x100 then (x.1 &&& 0xFFFFFF00) ||| (t.seq + 1).setWidth 32 else x.1 else ws

/-- A READ that passes R46 takes effect. A word of a bank with a multi-bit error is returned as stored (R487). -/
def State.readTakes (s : State) (n : Nat) (t : Txn) (ties : List Tie) (ecc : List (BitVec 17 × EccErr)) : State :=
  let pn := s.txnPage t
  let ties := tiesOf pn t ties
  let ecc := eccOf pn t ecc
  let s := s.touchAll pn t
  let s := match bankOfPage pn with
    | some k => ecc.foldl (fun (s : State) (x : Nat × EccErr) => s.upsetWord k x.2 (4 * x.1)) s
    | none => s
  let r := s.readCell n pn t.off t.len
  let r := if !ties.isEmpty || ecc.any (lostWord pn) then r.2.spoil (spoilt pn ties ecc) t.offs r.1 else r
  let s := r.2.answer n t (if ties.isEmpty then 0 else 0x08) (seqFix pn n t t.offs r.1)
  (s.tiedAll n pn t ties).eccMet n pn ecc

/-- The words that a WRITE stores: all, but for those that tie with a write of port B (R495, R497). -/
def putsBut (pn : Nat) (t : Txn) (ties : List Tie) : List (Nat × Word) :=
  t.puts.filter fun y => !tiesAt pn (ties.filter (·.write)) y.1

/-- A write of PORT_RESET on the port's own page (R474). -/
def portReset (pn n : Nat) (t : Txn) : Bool := pn == 8 + n && t.puts.any fun x => x.1 == 0x104 && x.2.getLsbD 1

/-- The ECC errors that a WRITE meets: in the crucible window, whose write of a word reads the double-word that it lies in (R404, R406). -/
def eccWrite (pn : Nat) (t : Txn) (ecc : List (BitVec 17 × EccErr)) : List (Nat × EccErr) := if crbPage pn then eccOf pn t ecc else []

/-- A WRITE that passes R46 takes effect, its words in ascending order; the response stands before what the words set off. A RELOAD reads its
staged header, which may meet ECC errors of its bank too (R430, R487). -/
def State.writeTakes (s : State) (n : Nat) (t : Txn) (ties : List Tie) (ecc : List (BitVec 17 × EccErr) := []) : State :=
  let pn := s.txnPage t
  let ties := tiesOf pn t ties
  let s := s.answer n t (if ties.any (·.write) then 0x09 else 0) []
  let s := s.touchAll pn t
  let s := (putsBut pn t ties).foldl (fun s x => s.writeWord n t.stream.toNat pn x.1 x.2) s
  let s := ((s.tiedAll n pn t ties).eccMet n pn (eccWrite pn t ecc)).stageRead ecc
  if portReset pn n t then s.resetPort n else s

/-- An urgent patrol holds the transaction (R468, R505). -/
def State.holdTxn (s : State) (n : Nat) (t : Txn) : State :=
  s.updHp n fun p => { p with txns := p.txns.map fun u => if u.tag == t.tag && u.resp.isNone then { u with held := true } else u }

/-- A READ or WRITE takes effect: judged by R46, asleep banks answered, held by an urgent patrol, or served (R461). -/
def State.access (s : State) (n : Nat) (t : Txn) (ties : List Tie) (ecc : List (BitVec 17 × EccErr)) : State :=
  match s.judge n t with
  | some r => s.refuse n t r
  | none =>
    if (bankOfPage (s.txnPage t)).any s.asleep then s.answer n t 0x07 t.zeros
    else if s.heldBy (s.txnPage t) t then s.holdTxn n t
    else if t.op == 1 then s.readTakes n t ties ecc
    else s.writeTakes n t ties ecc

/-! Sessions (R455, R459, R462, R463). -/

/-- CHALLENGE, AUTH and CLOSE are refused: in SHAKEOUT, in START, and without the valid session tag that PRIV asks for. -/
def State.sessionRefusal (s : State) (t : Txn) : Option Refused :=
  if s.dev.state == .shakeout then some ⟨0x01, false⟩
  else if s.dev.state == .start then some ⟨0x02, false⟩
  else if t.priv && !t.tagOk then some ⟨0x05, true⟩
  else none

/-- CHALLENGE takes effect: a fresh nonce (R462). -/
def State.challengeTakes (s : State) (n : Nat) (t : Txn) : State :=
  let nd := Config.nonce s.free
  let s := { s with free := s.free + 1 }
  (s.updHp n fun p => { p with nonce := some nd }).answer n t 0 ((List.range 4).map (wordAt nd))

/-- The bytes under the CMAC of a PROOF (kind 1) or of a session key (kind 2). -/
def authBytes (kind : Byte) (n : Nat) (nd : BitVec 128) (nh : List Word) : List Byte :=
  kind :: BitVec.ofNat 8 n :: keyBytes nd ++ bytesOf nh

/-- The session key can be used: programmed, loaded, its stored check not failed (R462, R479, R484, R575). -/
def State.sessionKeyOk (s : State) : Bool := s.otp.sess.isSome && !s.otp.sessBad && s.bst.keysLoaded

/-- AUTH proves knowledge of K for the current nonce. -/
def State.proofOk (s : State) (n : Nat) (t : Txn) : Bool :=
  s.sessionKeyOk && match (s.hp n).nonce with
    | some nd => (cmac (keyBytes s.own.workSess) (authBytes 1 n nd (t.payload.take 4))).take 8 == bytesOf ((t.payload.drop 4).take 2)
    | none => false

/-- The session that an AUTH opens. -/
def State.newSession (s : State) (n : Nat) (t : Txn) : Session :=
  { ks := ofBytesLE 128 (cmac (keyBytes s.own.workSess) (authBytes 2 n ((s.hp n).nonce.getD 0) (t.payload.take 4))) }

/-- AUTH takes effect: a session, or AUTH_FAIL; the nonce has served (R462, R480). -/
def State.authTakes (s : State) (n : Nat) (t : Txn) : State :=
  if s.proofOk n t then
    let x := s.newSession n t
    ((s.updHp n fun p => { p with session := some x, nonce := none }).bump .own 0x54).answer n t 0 []
  else
    (((s.updHp n fun p => { p with nonce := none }).bump .own 0x58).answer n t 0x0C []).raise { page := hpOf n, cause := 4 }

/-- CLOSE takes effect: the session ends (R463). -/
def State.closeTakes (s : State) (n : Nat) (t : Txn) : State := (s.updHp n fun p => { p with session := none }).answer n t 0 []

/-- SHUTDOWN is refused (R455). -/
def State.shutdownRefusal (s : State) (n : Nat) (t : Txn) : Option Refused :=
  if s.dev.state == .shakeout then some ⟨0x01, false⟩
  else if s.dev.state == .start || s.dev.state == .commission then some ⟨0x02, false⟩
  else if s.dev.supervisor.toNat != n then some ⟨0x04, true⟩
  else if !t.tagOk then some ⟨0x05, true⟩
  else none

/-- SHUTDOWN takes effect: SHAKEOUT once its response is ready (R455, R576). OFF has no transactions. -/
def State.shutdownTakes (s : State) (n : Nat) (t : Txn) (secretOk : Bool) : State :=
  if s.dev.state == .off then s else (s.answer n t 0 []).enterShakeout 1 (hpOf n).num12 secretOk

/-- A transaction takes effect (R461). -/
def State.takeTxn (s : State) (n : Nat) (t : Txn) (ties : List Tie) (ecc : List (BitVec 17 × EccErr)) (secretOk : Bool) : State :=
  if t.op == 1 || t.op == 2 then s.access n t ties ecc
  else
    match (if t.op == 7 then s.shutdownRefusal n t else s.sessionRefusal t) with
    | some r => s.refuse n t r
    | none => match t.op.toNat with
      | 4 => s.challengeTakes n t
      | 5 => s.authTakes n t
      | 6 => s.closeTakes n t
      | _ => s.shutdownTakes n t secretOk

/-- The transaction that an accepted cell issues. -/
def txnOf (op : Nat) (c : CellHead) (payload : List Word) (ok : Bool) : Txn :=
  { op := BitVec.ofNat 4 op, stream := BitVec.ofNat 2 c.stream.val, tag := BitVec.ofNat 5 c.tag.val, seq := c.seq, addr := c.addr
    len := c.len.toNat + 1, priv := c.priv, tagOk := ok, payload := payload }

/-- An accepted tagged cell is queued and acknowledged. -/
def State.issue (s : State) (op : Nat) (c : CellHead) (payload : List Word) (ok : Bool) : State :=
  (s.updHp c.port.val fun p => { p with txns := p.txns ++ [txnOf op c payload ok] }).ackWith c.port.val 0

/-- An accepted CHALLENGE, AUTH, CLOSE or SHUTDOWN: it takes effect at once where it is at the head of its stream, else when
TAKE_EFFECT reaches it (log 43). -/
def State.issueNow (s : State) (op : Nat) (c : CellHead) (payload : List Word) (secretOk ok : Bool) : State :=
  let n := c.port.val
  let s := s.issue op c payload ok
  match s.headTxn n c.stream.val with
  | some t => if t.tag.toNat == c.tag.val then s.takeTxn n t [] [] secretOk else s
  | none => s

/-! The commands. -/

/-- CELL_ABORTED: the cell is discarded without acknowledgment, and LINK latches (R450). -/
def doCellAborted (n : Fin 4) (s : State) : State :=
  if s.portServes n.val then
    (s.updHp n.val fun p => { p with ack := [], response := [] }).raise { page := hpOf n.val, cause := 5 }
  else s

/-- The meaning of CELL_ABORTED (R450). -/
def execCellAborted (n : Fin 4) (s : State) : Host.Outcome State Fault Refusal := .next (doCellAborted n s)

def doNop (cell : CellHead) (s : State) : State := s.receive 0 cell [] fun s _ => s.ackWith cell.port.val 0

/-- The meaning of NOP (R454, R456, R457). -/
def execNop (cell : CellHead) (s : State) : Host.Outcome State Fault Refusal := .next (doNop cell s)

def doRead (cell : CellHead) (s : State) : State := s.receive 1 cell [] fun s ok => s.issue 1 cell [] ok

/-- The meaning of READ (R454, R456 to R458, R463). -/
def execRead (cell : CellHead) (s : State) : Host.Outcome State Fault Refusal := .next (doRead cell s)

def doWrite (cell : CellHead) (payload : List Word) (s : State) : State :=
  s.receive 2 cell payload fun s ok => s.issue 2 cell payload ok

/-- The meaning of WRITE (R452, R454, R456 to R458, R463). -/
def execWrite (cell : CellHead) (payload : List Word) (s : State) : Host.Outcome State Fault Refusal :=
  if payload.length = cell.len.toNat + 1 then .next (doWrite cell payload s) else .fault .payloadLength

def doFetch (cell : CellHead) (s : State) : State := s.receive 3 cell [] fun s _ => s.serveFetch cell

/-- The meaning of FETCH (R454, R458, R459). -/
def execFetch (cell : CellHead) (s : State) : Host.Outcome State Fault Refusal := .next (doFetch cell s)

def doChallenge (cell : CellHead) (s : State) : State := s.receive 4 cell [] fun s ok => s.issueNow 4 cell [] true ok

/-- The meaning of CHALLENGE (R459, R462). -/
def execChallenge (cell : CellHead) (s : State) : Host.Outcome State Fault Refusal := .next (doChallenge cell s)

def doAuth (cell : CellHead) (payload : List Word) (s : State) : State :=
  s.receive 5 cell payload fun s ok => s.issueNow 5 cell payload true ok

/-- The meaning of AUTH (R459, R462). -/
def execAuth (cell : CellHead) (payload : List Word) (s : State) : Host.Outcome State Fault Refusal :=
  if payload.length = cell.len.toNat + 1 then .next (doAuth cell payload s) else .fault .payloadLength

def doClose (cell : CellHead) (s : State) : State := s.receive 6 cell [] fun s ok => s.issueNow 6 cell [] true ok

/-- The meaning of CLOSE (R459, R463). -/
def execClose (cell : CellHead) (s : State) : Host.Outcome State Fault Refusal := .next (doClose cell s)

def doShutdown (cell : CellHead) (secretOk : Bool) (s : State) : State :=
  s.receive 7 cell [] fun s ok => s.issueNow 7 cell [] secretOk ok

/-- The meaning of SHUTDOWN (R35, R455). -/
def execShutdown (cell : CellHead) (secretOk : Bool) (s : State) : Host.Outcome State Fault Refusal := .next (doShutdown cell secretOk s)

/-- UNUSED_OP: refused with NAK_FORMAT where its CRC and SEQ are valid (R454, R456). -/
def doUnusedOp (op : Fin 8) (cell : CellHead) (s : State) : State := s.receive (8 + op.val) cell [] fun s _ => s

/-- The meaning of UNUSED_OP (R454, R456). -/
def execUnusedOp (op : Fin 8) (cell : CellHead) (s : State) : Host.Outcome State Fault Refusal := .next (doUnusedOp op cell s)

/-- TAKE_EFFECT: the oldest transaction of the stream. No effect where the stream has none. -/
def doTakeEffect (port stream : Fin 4) (ties : List Tie) (ecc : List (BitVec 17 × EccErr)) (secretOk : Bool) (s : State) : State :=
  if s.dev.state == .off then s
  else match s.headTxn port.val stream.val with
    | some t => s.takeTxn port.val t ties ecc secretOk
    | none => s

/-- The meaning of TAKE_EFFECT (R46 to R49, R461). -/
def execTakeEffect (port stream : Fin 4) (ties : List Tie) (ecc : List (BitVec 17 × EccErr)) (secretOk : Bool) (s : State) :
    Host.Outcome State Fault Refusal := .next (doTakeEffect port stream ties ecc secretOk s)

/-- TOKEN_REFILL: the bucket gains a token, up to BUCKET. -/
def doTokenRefill (n : Fin 4) (s : State) : State :=
  if s.dev.state == .off then s
  else s.updHp n.val fun p => { p with tokens := if p.tokens.toNat < p.bucket.toNat then p.tokens + 1 else p.tokens }

/-- The meaning of TOKEN_REFILL (R466). -/
def execTokenRefill (n : Fin 4) (s : State) : Host.Outcome State Fault Refusal := .next (doTokenRefill n s)

/-- BLOCK_RESET_END: EXP_SEQ 0, the bucket full, RESET_DONE. No effect without a block reset. -/
def doBlockResetEnd (n : Fin 4) (s : State) : State :=
  if (s.hp n.val).resetting then
    (s.mark (hpOf n) 0x108 1).updHp n.val fun p => { p with resetting := false, expSeq := 0, tokens := p.bucket, events := p.events ||| 2 }
  else s

/-- The meaning of BLOCK_RESET_END (R470, R475). -/
def execBlockResetEnd (n : Fin 4) (s : State) : Host.Outcome State Fault Refusal := .next (doBlockResetEnd n s)

/-- BUSY_N_PULSE_END: the collision pulse ends. -/
def doBusyNPulseEnd (n : Fin 4) (s : State) : State := s.updHp n.val fun p => { p with pulse := false }

/-- The meaning of BUSY_N_PULSE_END (R468). -/
def execBusyNPulseEnd (n : Fin 4) (s : State) : Host.Outcome State Fault Refusal := .next (doBusyNPulseEnd n s)

/-- The header of a page whose drain has ended. -/
def Hdr.handed (h : Hdr) : Hdr :=
  { h with own := { h.own with flask := h.own.dest, draining := false, pending := false, byAssign := false
                               result := if h.own.byAssign then h.own.result else 1 } }

/-- HANDOVER_DRAIN_DONE: FLASK takes the TARGET of the GO. No effect where the page does not drain or DRAIN_LEFT is not 0. -/
def doHandoverDrainDone (p : Page) (s : State) : State :=
  if (s.hdr p).own.draining && s.drainLeft p == 0 then
    let t := s.updHdr p Hdr.handed
    if (s.hdr p).own.byAssign then t.assignDone 1 else t
  else s

/-- The meaning of HANDOVER_DRAIN_DONE (R74, R483). -/
def execHandoverDrainDone (p : Page) (s : State) : Host.Outcome State Fault Refusal := .next (doHandoverDrainDone p s)

/-- The key that programming sets; a readback that fails leaves it unusable. -/
def Otp.program (o : Otp) (key : BitVec 2) (v : BitVec 128) (ok : Bool) : Otp :=
  if key = 1 then { o with sess := some v, sessBad := !ok } else { o with img := some v, imgBad := !ok }

/-- The working copies after programming: a key that programming has set is usable at once, unless they have been cleared (log 44). -/
def Own.programmed (o : Own) (key : BitVec 2) (loaded : Bool) : Own :=
  if !loaded then o else if key = 1 then { o with workSess := o.keyData } else { o with workImg := o.keyData }

/-- KEY_PROGRAM_DONE: the key is set, or is unusable and OTP_ERR latches; KEY_DATA is cleared. No effect where none is programmed. -/
def doKeyProgramDone (ok : Bool) (s : State) : State :=
  if !s.own.keyBusy then s
  else
    let key := s.own.keyGoing
    let o := s.own.programmed key s.bst.keysLoaded
    let s := { s with otp := s.otp.program key s.own.keyData ok
                      own := { o with keyBusy := false, keyResult := if ok then 1 else 3, keyData := 0 } }
    if ok then s else s.raise { page := .own, cause := 0 }

/-- The meaning of KEY_PROGRAM_DONE (R484). -/
def execKeyProgramDone (ok : Bool) (s : State) : Host.Outcome State Fault Refusal := .next (doKeyProgramDone ok s)

end Sys2Proof.Machine
end

