-- ==== Sys2Proof/Machine/Jtag.lean ====
section
/-! DEFINITION. The test access port: boundary scan, identification, the debug path and scan (18 R647 to R649; 16 R575). -/

namespace Sys2Proof.Machine

/-- The register between TDI and TDO. -/
inductive DataReg where
  | bypass
  | boundary
  | ident
  | debug
  | scan
  deriving DecidableEq, Repr

/-- The data register that the instruction selects; DBG_ACCESS and SCAN_EN act as BYPASS outside COMMISSION, and CLAMP selects BYPASS
(R647). IEEE 1149.1 (PRESUMED, log 11) gives EXTEST and SAMPLE/PRELOAD the boundary register and HIGHZ the bypass register. -/
def State.dataReg (s : State) : DataReg :=
  match s.jtag.ir.toNat with
  | 0x00 => .boundary
  | 0x01 => .boundary
  | 0x02 => .ident
  | 0x04 => if s.dev.state == .commission then .bypass else .boundary
  | 0x20 => if s.dev.state == .commission then .debug else .bypass
  | 0x21 => if s.dev.state == .commission then .scan else .bypass
  | _ => .bypass

/-- The boundary register drives the lands: EXTEST and CLAMP in COMMISSION (R647). -/
def State.boundaryDrives (s : State) : Bool := s.dev.state == .commission && (s.jtag.ir == 0x00 || s.jtag.ir == 0x03)

/-- The boundary-controlled outputs are high-Z: HIGHZ in COMMISSION. -/
def State.boundaryHighZ (s : State) : Bool := s.dev.state == .commission && s.jtag.ir == 0x04

/-! The signal lands and their boundary cells (R641, R643, R649). -/

/-- A signal land with boundary cells. -/
inductive Land where
  | hpSclk (n : Fin 4)
  | hpCs (n : Fin 4)
  | hpIo (n k : Fin 4)
  | hpInt (n : Fin 4)
  | hpBusy (n : Fin 4)
  | resetN
  | pwrFailN
  | syncIn
  | compat
  | commission
  | bootSel (k : Fin 2)
  | frameOut
  | err (h : Half)
  | bootSclk
  | bootCs
  | bootIo (k : Fin 4)
  deriving DecidableEq, Repr

/-- What a cell of a land serves. -/
inductive CellRole where
  | input
  | output
  | enable
  deriving DecidableEq, Repr

/-- The cells of a land in their order: one of an input, two of an output, three of a bidirectional land (R649). -/
def Land.roles : Land → List CellRole
  | .hpIo _ _ => [.input, .output, .enable]
  | .bootIo _ => [.input, .output, .enable]
  | .hpInt _ => [.output, .enable]
  | .hpBusy _ => [.output, .enable]
  | .frameOut => [.output, .enable]
  | .err _ => [.output, .enable]
  | .bootSclk => [.output, .enable]
  | .bootCs => [.output, .enable]
  | _ => [.input]

/-- The lands in the row order of R643's table, and within each row in the order of R641. -/
def allLands : List Land :=
  (List.finRange 4).map .hpSclk ++ (List.finRange 4).map .hpCs
    ++ ((List.finRange 4).flatMap fun n => (List.finRange 4).map (.hpIo n))
    ++ ((List.finRange 4).flatMap fun n => [.hpInt n, .hpBusy n])
    ++ [.resetN, .pwrFailN, .syncIn, .compat, .commission, .bootSel 0, .bootSel 1, .frameOut, .err .c, .err .d, .bootSclk, .bootCs]
    ++ (List.finRange 4).map .bootIo

/-- The cells from TDI to TDO: cell i is bit i of the boundary register (R649). -/
def boundaryCells : List (Land × CellRole) := allLands.flatMap fun l => l.roles.map fun r => (l, r)

/-- The bit of a cell in a word of the boundary register. -/
def cellBit (w : BitVec 101) (l : Land) (r : CellRole) : Bool := w.getLsbD (boundaryCells.idxOf (l, r))

/-- An open-drain land (R643): it is never driven high. -/
def Land.openDrain : Land → Bool
  | .hpInt _ => true
  | .hpBusy _ => true
  | _ => false

/-- What the device's own units drive on a land; none where the waveform of a transfer on the land decides it, which the commands hold whole
(HPn_IO0 to HPn_IO3 of a port in service, the boot flash out of OFF). In OFF the boot flash and the ports leave their lands high-Z (R610, R643). -/
def State.unitDrives (s : State) : Land → Option Drive
  | .hpIo n _ => if s.portServes n.val then none else some .hiZ
  | .hpInt n => some (if s.intLow n.val then .low else .hiZ)
  | .hpBusy n => some (if s.busyLow n.val then .low else .hiZ)
  | .frameOut => some (if s.frameOutHigh then .high else .low)
  | .err h => some (s.errDrive h)
  | .bootSclk => if s.dev.state == .off then some .hiZ else none
  | .bootCs => if s.dev.state == .off then some .hiZ else none
  | .bootIo _ => if s.dev.state == .off then some .hiZ else none
  | _ => some .hiZ

/-- What the boundary register drives on a land: nothing with the output enable cell at 0 (the polarity of that cell: PRESUMED, log 11), nothing on
an input, and an open-drain land only low (R643, R647). -/
def State.cellDrives (s : State) (l : Land) : Drive :=
  if !(l.roles.contains .output && cellBit s.jtag.boundary l .enable) then .hiZ
  else if !cellBit s.jtag.boundary l .output then .low
  else if l.openDrain then .hiZ else .high

/-- What the device drives on a signal land: the boundary register's cells under EXTEST and CLAMP, nothing under HIGHZ, else what its units do
(R647). -/
def State.landDrive (s : State) (l : Land) : Option Drive :=
  if s.boundaryDrives then some (s.cellDrives l) else if s.boundaryHighZ then some .hiZ else s.unitDrives l

/-- TDO is high-Z in OFF, where the TAP is held reset (R643); a shift that would drive it is part of no command. -/
def State.tdoDrive (s : State) : Option Drive := if s.dev.state == .off then some .hiZ else none

/-- What a cell captures, where the state shows it: the levels of RESET_N, PWR_FAIL_N and the straps, and what the device drives. -/
def State.cellNow (s : State) : Land → CellRole → Option Bool
  | .resetN, _ => some s.dev.resetN
  | .pwrFailN, _ => some s.sup.pfLevel
  | .compat, _ => some s.dev.pinsNow.compat
  | .commission, _ => some s.dev.pinsNow.commission
  | .bootSel k, _ => some (s.dev.pinsNow.bootSel.getLsbD k.val)
  | _, .input => none
  | l, .output => (s.unitDrives l).map fun d => d == .high || (d == .hiZ && l.openDrain)
  | l, .enable => (s.unitDrives l).map fun d => d != .hiZ

/-- The lands as captured: what the state shows of them, and for the other cells what the world shows. -/
def State.captureLands (s : State) (lands : BitVec 101) : BitVec 101 :=
  vecOf 101 fun i => match boundaryCells[i]? with
    | some c => (s.cellNow c.1 c.2).getD (lands.getLsbD i)
    | none => false

/-- The identification code (R648). -/
def idCode : Part → Word
  | .slc4896 => 0x1489616B
  | .slc2448 => 0x1244816B

/-- An instruction enters the instruction register; in OFF the TAP is held reset (R610, R643). -/
def State.jtagInstr (s : State) (ir : Byte) (f : Jtag → Jtag) : State :=
  if s.dev.state == .off then s else { s with jtag := { f s.jtag with ir := ir } }

/-- EXTEST: the lands are captured, and the word shifted in stands in the boundary register, which drives them in COMMISSION. -/
def doExtest (lands shifted : BitVec 101) (s : State) : State :=
  s.jtagInstr 0x00 fun j => { j with captured := s.captureLands lands, boundary := shifted }

/-- The meaning of EXTEST (R647, R649). -/
def execExtest (lands shifted : BitVec 101) (s : State) : Host.Outcome State Fault Refusal := .next (doExtest lands shifted s)

/-- SAMPLE/PRELOAD: the lands are captured without affecting them. -/
def doSamplePreload (lands shifted : BitVec 101) (s : State) : State :=
  s.jtagInstr 0x01 fun j => { j with captured := s.captureLands lands, boundary := shifted }

/-- The meaning of SAMPLE/PRELOAD (R647, R649). -/
def execSamplePreload (lands shifted : BitVec 101) (s : State) : Host.Outcome State Fault Refusal := .next (doSamplePreload lands shifted s)

/-- IDCODE: the identification register holds the part's code. -/
def doIdcode (s : State) : State := s.jtagInstr 0x02 fun j => { j with data := idCode s.ident.part }

/-- The meaning of IDCODE (R648). -/
def execIdcode (s : State) : Host.Outcome State Fault Refusal := .next (doIdcode s)

/-- CLAMP: as EXTEST with the boundary register as it stands, BYPASS selected. -/
def doClamp (lands : BitVec 101) (s : State) : State := s.jtagInstr 0x03 fun j => { j with captured := s.captureLands lands }

/-- The meaning of CLAMP (R647). -/
def execClamp (lands : BitVec 101) (s : State) : Host.Outcome State Fault Refusal := .next (doClamp lands s)

/-- HIGHZ: the boundary-controlled outputs are high-Z in COMMISSION, with BYPASS selected; in every other state it acts as SAMPLE/PRELOAD, and the
word shifted in stands in the boundary register. -/
def doHighz (lands shifted : BitVec 101) (s : State) : State :=
  s.jtagInstr 0x04 fun j =>
    { j with captured := s.captureLands lands, boundary := if s.dev.state == .commission then j.boundary else shifted }

/-- The meaning of HIGHZ (R647). -/
def execHighz (lands : BitVec 101) (s : State) (shifted : BitVec 101 := 0) : Host.Outcome State Fault Refusal := .next (doHighz lands shifted s)

/-- The debug registers of a half (R160, R168 to R171). -/
def debugOff (off : BitVec 12) : Bool := decide (0x180 ≤ off.toNat) && decide (off.toNat < 0x1A0)

/-- DBG_ACCESS: a debug register takes a word, or is read; BYPASS outside COMMISSION. -/
def doDbgAccess (h : Half) (off : BitVec 12) (data : Option Word) (s : State) : State :=
  let t := s.jtagInstr 0x20 id
  if s.dev.state == .commission && debugOff off then
    match data with
    | some w => t.writeDebug h off.toNat w
    | none => { t with jtag := { t.jtag with data := t.readDebug h off.toNat } }
  else t

/-- The meaning of DBG_ACCESS (R160, R647). -/
def execDbgAccess (h : Half) (off : BitVec 12) (data : Option Word) (s : State) : Host.Outcome State Fault Refusal :=
  .next (doDbgAccess h off data s)

/-- Scan is enabled in COMMISSION: the first time once the secrets are cleared and checked; a check that fails keeps it disabled (R575). -/
def State.enableScan (s : State) (secretOk : Bool) : State :=
  if s.bst.scanCleared then { s with bst := { s.bst with scanOn := true } }
  else
    let s := s.clearSecrets
    if secretOk then { s with bst := { s.bst with scanOn := true, scanCleared := true } }
    else s.raise { page := .bst, cause := 1 }

/-- SCAN_EN; BYPASS outside COMMISSION. -/
def doScanEn (secretOk : Bool) (s : State) : State :=
  let t := s.jtagInstr 0x21 id
  if s.dev.state == .commission then t.enableScan secretOk else t

/-- The meaning of SCAN_EN (R575, R647). -/
def execScanEn (secretOk : Bool) (s : State) : Host.Outcome State Fault Refusal := .next (doScanEn secretOk s)

/-- BYPASS, or an opcode that is not listed. -/
def doBypass (s : State) : State := s.jtagInstr 0xFF id

/-- The meaning of BYPASS (R647). -/
def execBypass (s : State) : Host.Outcome State Fault Refusal := .next (doBypass s)

end Sys2Proof.Machine
end

