-- ==== Sys2Proof/Machine/Power.lean ====
section
/-! DEFINITION. Clocks, reset and power (chapter 17): supplies, RESET_N, PWR_FAIL_N, clock monitors, error pins, the training of the
barrier links. -/

namespace Sys2Proof.Machine

/-- The number of a rail, the bit order of SUP_STATUS (R629). -/
def railNum : Rail → Nat
  | .core => 0
  | .io => 1
  | .host => 2
  | .bar => 3

/-- STATE becomes OFF for a cause of R613: loss of VDD_CORE before loss of another rail, that before RESET_N. The core die is held in
reset and its TAP with it, and a host transaction in flight is lost (R470, R610, R643). -/
def State.enterOff (s : State) (cause : BitVec 4) : State :=
  let keep := s.dev.state == .off && (s.dev.offCause == 1 || (s.dev.offCause == 3 && cause == 2))
  let s := if s.dev.state == .off then s else s.changeState .off
  { s with dev := { s.dev with offCause := if keep then s.dev.offCause else cause }
           hps := s.hps.map fun (p : Hp) => { p with txns := [], lastFetched := none, session := none, nonce := none }
           jtag := {} }

/-- RESET_N_ASSERT. -/
def doResetNAssert (s : State) : State := ({ s with dev := { s.dev with resetN := false } }).enterOff 2

/-- The meaning of RESET_N_ASSERT (R35, R609 to R611). -/
def execResetNAssert (s : State) : Host.Outcome State Fault Refusal := .next (doResetNAssert s)

/-- The timebase starts at 0: how long a level has stood is kept beside it (R34, R183). -/
def Comparator.rebased (c : Comparator) (now : Time) : Comparator :=
  { c with before := c.before + (now.toNat - c.lastChange.toNat), lastChange := 0, xAt := 0 }

/-- RESET_RELEASE: OFF gives way to START where every supply is valid and the PLL is locked; the straps are sampled, the timebase
starts, and so does the log's clock. No effect otherwise. -/
def doResetRelease (straps : Straps) (s : State) : State :=
  if s.dev.state == .off && s.sup.valid == 0xF && s.clk.locked then
    let s := { s with
      dev := { s.dev with straps := straps, pinsNow := straps, resetN := true }
      sup := { s.sup with pfSeenHigh := s.sup.pfLevel }
      frm := { s.frm with tb := 0, tbD := 0 }
      comps := s.comps.map fun (c : Comparator) => c.rebased s.frm.tb
      evl := { s.evl with newest := 0 } }
    let s := s.log 3 1 0 0 0
    (s.enterStart s.dev.offCause 0 0).updateTrips.step1End
  else s

/-- The meaning of RESET_RELEASE (R34, R612, R613). -/
def execResetRelease (straps : Straps) (s : State) : Host.Outcome State Fault Refusal := .next (doResetRelease straps s)

/-- A field die loses its supply: it forgets what its ingot gave it (R28, R603, R610). -/
def State.diesUnpowered (s : State) : State :=
  { s with
    bars := s.bars.map fun (b : Bar) => { b with powered := false, chill := true, held := 8 }
    outs := s.outs.mapIdx fun o (u : Output) => { u with held := if o < 48 then 0 else 0x08000000 } }

/-- VDD_CORE is lost: the event log, START_CNT, the class of VDD_HOST and the data of the core die's memories are lost (R569, R600, R621;
memory contents: log 4). -/
def State.coreLost (s : State) : State :=
  let s := s.setCounter .dev 0x44 0
  { s with
    evl := {}
    sup := { s.sup with classKnown := false }
    crb := { s.crb with mem := [] }
    cope := { s.cope with lsm := [], icache := [], kcache := [] }
    drag := { s.drag with lsm := [], icache := [], kcache := [] }
    spbs := s.spbs.map fun (b : Spb) => { b with mem := [] } }

/-- The PLL runs: REFCLK is present, VDD_CORE and VDD_IO are valid (R605). -/
def State.pllRuns (s : State) : Bool := s.clk.refOk && s.sup.valid.getLsbD 0 && s.sup.valid.getLsbD 1

/-- A PLL that does not run is not locked. -/
def State.pllStops (s : State) : State := { s with clk := { s.clk with locked := s.clk.locked && s.pllRuns } }

/-- SUPPLY_LOSS: without VDD_CORE or VDD_IO the PLL stops (R605). No effect on a supply that is not valid. -/
def doSupplyLoss (r : Rail) (s : State) : State :=
  if s.sup.valid.getLsbD (railNum r) then
    let s := { s with sup := { s.sup with valid := putBit s.sup.valid (railNum r) false } }.pllStops
    let s := s.enterOff (if r = .core then 1 else 3)
    match r with
    | .core => s.coreLost
    | .bar => s.diesUnpowered
    | _ => s
  else s

/-- The meaning of SUPPLY_LOSS (R601, R603). -/
def execSupplyLoss (r : Rail) (s : State) : Host.Outcome State Fault Refusal := .next (doSupplyLoss r s)

/-- SUPPLY_OV: the OV cause, live while the supply stays above its level. No effect while it does and the cause stands latched: a supply that is
above its level as START clears the latches latches it again (R601). -/
def doSupplyOv (r : Rail) (s : State) : State :=
  if s.sup.ovLive.getLsbD (railNum r) && (s.hdr .sup).latch.getLsbD (railNum r) then s
  else ({ s with sup := { s.sup with ovLive := putBit s.sup.ovLive (railNum r) true } }).onset .sup (railNum r)

/-- The meaning of SUPPLY_OV (R601, R628). -/
def execSupplyOv (r : Rail) (s : State) : Host.Outcome State Fault Refusal := .next (doSupplyOv r s)

/-- SUPPLY_WARN: WARN_LIVE, the WARN event bit and WARN_CNT; no effect while the supply is below its level. -/
def doSupplyWarn (r : Rail) (s : State) : State :=
  if s.sup.warnLive.getLsbD (railNum r) then s
  else
    ({ s with sup := { s.sup with warnLive := putBit s.sup.warnLive (railNum r) true
                                  events := putBit s.sup.events (railNum r) true } }.mark .sup 0x108 (railNum r)).bump .sup 0x4C

/-- The meaning of SUPPLY_WARN (R601, R628, R629). -/
def execSupplyWarn (r : Rail) (s : State) : Host.Outcome State Fault Refusal := .next (doSupplyWarn r s)

/-- A supply becomes valid. The class of VDD_HOST is decided when VDD_HOST first is valid with VDD_CORE (R600); a field die whose supply
returns stays in chill (R603). -/
def State.railValid (s : State) (r : Rail) (is3v3 : Bool) : State :=
  let v := putBit s.sup.valid (railNum r) true
  let decide := !s.sup.classKnown && v.getLsbD 0 && v.getLsbD 2
  let s := { s with sup := { s.sup with valid := v, host3v3 := if decide then is3v3 else s.sup.host3v3
                                        classKnown := s.sup.classKnown || decide } }
  if r = .bar then { s with bars := s.bars.map fun (b : Bar) => { b with powered := true } } else s

/-- SUPPLY_RETURN. -/
def doSupplyReturn (r : Rail) (edge : SupplyEdge) (s : State) : State :=
  match edge with
  | .valid is3v3 => s.railValid r is3v3
  | .belowOv => ({ s with sup := { s.sup with ovLive := putBit s.sup.ovLive (railNum r) false } }).setLive .sup (railNum r) false
  | .aboveWarn => { s with sup := { s.sup with warnLive := putBit s.sup.warnLive (railNum r) false } }

/-- The meaning of SUPPLY_RETURN (R599, R600, R603, R628). -/
def execSupplyReturn (r : Rail) (edge : SupplyEdge) (s : State) : Host.Outcome State Fault Refusal := .next (doSupplyReturn r edge s)

/-- The states in which a PWR_FAIL_N assertion leads to SHAKEOUT (R614). -/
def DevState.shakes : DevState → Bool
  | .start => true
  | .load => true
  | .verify => true
  | .run => true
  | .safe => true
  | _ => false

/-- PWR_FAIL_N_ASSERT: counted; the trigger of R35 where STATE allows it and the pin has been high since the release; PF_IGNORED in
COMMISSION and SHAKEOUT. After a CHIP_RESET of the same cycle START stays and holds at step 1 (R39, R615). -/
def doPwrFailNAssert (secretOk : Bool) (s : State) : State :=
  let s := { s with sup := { s.sup with pfLevel := false, pfClear := false } }.bump .sup 0x44
  if s.dev.state.shakes && s.sup.pfSeenHigh && !s.justReset then s.enterShakeout 2 0 secretOk
  else if s.dev.state == .commission || s.dev.state == .shakeout then
    { s.mark .sup 0x108 4 with sup := { s.sup with events := putBit s.sup.events 4 true } }
  else if s.dev.state == .start && (s.dev.startStep == 1 || s.justReset) then
    { s with sup := { s.sup with pfHold := true }, dev := { s.dev with startStep := 1 } }
  else s

/-- The meaning of PWR_FAIL_N_ASSERT (R614, R576). -/
def execPwrFailNAssert (secretOk : Bool) (s : State) : Host.Outcome State Fault Refusal := .next (doPwrFailNAssert secretOk s)

/-- PWR_FAIL_N_RISE: the pin is high; the 1 ms of R615 starts afresh; a pulse that was not recognised is counted. -/
def doPwrFailNRise (counted : Bool) (s : State) : State :=
  let s := { s with sup := { s.sup with pfLevel := true, pfClear := false, pfSeenHigh := true
                                        pfHold := s.sup.pfHold || (s.dev.state == .start && s.dev.startStep == 1) } }
  if counted then s.bump .sup 0x48 else s

/-- The meaning of PWR_FAIL_N_RISE (R614, R615, R628). -/
def execPwrFailNRise (counted : Bool) (s : State) : Host.Outcome State Fault Refusal := .next (doPwrFailNRise counted s)

/-- PF_HOLD_END: PWR_FAIL_N has been high for 1 ms. No effect while it is low. -/
def doPfHoldEnd (s : State) : State :=
  if s.sup.pfLevel then ({ s with sup := { s.sup with pfClear := true, pfHold := false } }).step1End else s

/-- The meaning of PF_HOLD_END (R615, R618). -/
def execPfHoldEnd (s : State) : Host.Outcome State Fault Refusal := .next (doPfHoldEnd s)

/-- REF_LOST: the PLL stops with it (R605). No effect while REFCLK is absent. -/
def doRefLost (s : State) : State :=
  if s.clk.refOk then ({ s with clk := { s.clk with refOk := false } }).pllStops.onset .clk 0 else s

/-- The meaning of REF_LOST (R607). -/
def execRefLost (s : State) : Host.Outcome State Fault Refusal := .next (doRefLost s)

/-- REFCLK_RETURN: a gap shorter than 1 µs is counted; after a loss REF_OK returns and the cause is no longer live. -/
def doRefclkReturn (short : Bool) (s : State) : State :=
  if short then s.bump .clk 0x44 else ({ s with clk := { s.clk with refOk := true } }).setLive .clk 0 false

/-- The meaning of REFCLK_RETURN (R626, R627). -/
def execRefclkReturn (short : Bool) (s : State) : Host.Outcome State Fault Refusal := .next (doRefclkReturn short s)

/-- PLL_UNLOCK. No effect where the lock detector has reported it already. -/
def doPllUnlock (s : State) : State :=
  if s.clk.locked || !(s.hdr .clk).live.getLsbD 1 then ({ s with clk := { s.clk with locked := false } }).onset .clk 1 else s

/-- The meaning of PLL_UNLOCK (R607). -/
def execPllUnlock (s : State) : Host.Outcome State Fault Refusal := .next (doPllUnlock s)

/-- PLL_LOCK: a START that waits in step 1 goes on. No effect where the PLL does not run (R605). -/
def doPllLock (s : State) : State :=
  if s.pllRuns then (({ s with clk := { s.clk with locked := true } }).setLive .clk 1 false).step1End else s

/-- The meaning of PLL_LOCK (R605, R618). -/
def execPllLock (s : State) : Host.Outcome State Fault Refusal := .next (doPllLock s)

/-- CORE_CLOCK_LOST: the tree of a channel has no edge, or has been counted over 1024 TIMEBASE cycles, with the deviation of the count from 4096;
it is lost outside 4055 to 4137 (R607). DOM_DEV_MAX takes any count (R626), one in range among them (DESIGN CHOICE, log 117). No second event
while the tree is lost. -/
def doCoreClockLost (h : Half) (deviation : Word) (noEdge : Bool) (s : State) : State :=
  let s := s.maxCounter .clk 0x48 deviation
  if !noEdge && decide (deviation.toNat ≤ 41) then s
  else match h with
  | .c => if s.clk.coreCOk then ({ s with clk := { s.clk with coreCOk := false } }).onset .clk 2 else s
  | .d => if s.clk.coreDOk then ({ s with clk := { s.clk with coreDOk := false } }).onset .clk 3 else s

/-- The meaning of CORE_CLOCK_LOST (R607, R626). -/
def execCoreClockLost (h : Half) (deviation : Word) (s : State) (noEdge : Bool := true) : Host.Outcome State Fault Refusal :=
  .next (doCoreClockLost h deviation noEdge s)

/-- ERR_PIN: the level read back at an error pin has differed from the level driven for 1 µs, or no longer differs. One cause serves both
pins: it is live while either differs, and an event as the first of them begins to (R56). -/
def doErrPin (h : Half) (differs : Bool) (s : State) : State :=
  let was := s.dev.errDiff != 0
  let s := { s with dev := { s.dev with errDiff := putBit s.dev.errDiff h.num differs } }
  let now := s.dev.errDiff != 0
  if now && !was then s.onset .dev 0 else s.setLive .dev 0 now

/-- The meaning of ERR_PIN (R56, R621). -/
def execErrPin (h : Half) (s : State) (differs : Bool := true) : Host.Outcome State Fault Refusal := .next (doErrPin h differs s)

/-- An output whose latches, force hold and timers clear (R358). -/
def Output.afresh (u : Output) : Output :=
  { u with latch := 0, live := 0, hold := false, heldSince := false, lsOpen := false, lsDue := false, rbDue := false, olDue := false
           overSince := none }

/-- The header of a FIB or FOB page whose latches clear: no cause, no lockout, no open incident. -/
def Hdr.afresh (h : Hdr) : Hdr := { h with latch := 0, live := 0, incident := { h.incident with isOpen := false } }

/-- Die d clears every latch, force hold and FV lockout, and supervision starts afresh (R358, R618). -/
def State.clearDie (s : State) (d : Nat) : State :=
  let s := { s with
    ins := s.ins.mapIdx fun i (x : Input) => if dieOfInput i = d then { x with latch := 0, live := 0 } else x
    outs := s.outs.mapIdx fun o (u : Output) => if dieOfBank (bankOfOutput o) = d then u.afresh else u
    inBanks := s.inBanks.mapIdx fun b (x : InBank) => if dieOfBank b = d then { x with refFails := 0 } else x
    outBanks := s.outBanks.mapIdx fun b (x : OutBank) =>
      if dieOfBank b = d then { x with dip := none, blank := false, lockedSince := false, fvIncident := none } else x }
  (List.range 4).foldl (fun s j => (s.updHdr (fibOf (4 * d + j)) Hdr.afresh).updHdr (fobOf (4 * d + j)) Hdr.afresh) s

/-- The link of die d trains in step 2: the die leaves chill and clears its latches (R358, R618). -/
def State.trainDie (s : State) (d : Nat) : State :=
  if decide (d < s.dies) && (s.bar d).powered && !(s.bar d).fenced then
    (s.clearDie d).updBar d fun b => { b with trained := true, chill := false }
  else s

/-- BARRIER_TRAINING_DONE. No effect but in step 2 of START. -/
def doBarrierTrainingDone (s : State) : State :=
  if s.dev.state == .start && s.dev.startStep == 2 then
    let s := (s.trainDie 0).trainDie 1
    { s with dev := { s.dev with startStep := 3 } }
  else s

/-- The meaning of BARRIER_TRAINING_DONE (R618, R358, R670). -/
def execBarrierTrainingDone (s : State) : Host.Outcome State Fault Refusal := .next (doBarrierTrainingDone s)

/-- TRAIN_FAIL: the cause with the reaction IRQ to owner alone, and the mark and fence of the die. No effect but in step 2 of START
on a die in service. -/
def doTrainFail (d : Fin 2) (s : State) : State :=
  if s.dev.state == .start && s.dev.startStep == 2 && decide (d.val < s.dies) && !(s.bar d).fenced then
    let s := s.raise { page := .bar d, cause := 4, fixed := some 1 }
    let s := s.updBar d fun b => { b with unusable := true }
    (s.fenceDie d (some (reactionKey (.bar d) 4))).openShadow (s.dieSet d) (.bar d) (s.hdr (.bar d)).incident.serial
  else s

/-- The meaning of TRAIN_FAIL (R619). -/
def execTrainFail (d : Fin 2) (s : State) : Host.Outcome State Fault Refusal := .next (doTrainFail d s)

end Sys2Proof.Machine
end

