-- ==== Sys2Proof/Machine/Tick.lean ====
section
/-! DEFINITION. The timebase, and what falls at the end of a cycle (03 R101, R102; 01 R39; 11 R430 to R436; 13 R498). -/

namespace Sys2Proof.Machine

/-- The loader's step in progress ends: the headers have been read, or the ingot's CRC and CMAC have passed (R427, R436, R444). -/
def State.loaderStep (s : State) : State :=
  match s.img.phase with
  | .readingHeaders => if s.dev.state == .load || s.dev.state == .commission then s.headersRead else s
  | .verifying => if s.dev.state == .verify || s.dev.state == .commission then s.streamed else s
  | _ => s

/-- The conflict counters: of the masters that an urgent patrol has kept waiting in this cycle of the timebase, which holds two fabric cycles, and
of those that waited for a bank port held by another master, one entry of the list for each fabric cycle (R498, R605; log 5). -/
def State.waited (s : State) (waits : List (Fin 8)) : State :=
  let s := (List.range 4).foldl (fun s n => if (s.hp n).hold then s.addCounter .spc (0x44 + 4 * n) 2 else s) s
  let s := if s.ctxs.any (·.waits) then s.addCounter .spc 0x58 2 else s
  let s := if s.img.waits then s.addCounter .spc 0x60 2 else s
  waits.foldl (fun s m => s.bump .spc (0x44 + 4 * m.val)) s

/-- The snapshot of a SHAKEOUT entered in this cycle takes the entries of the whole cycle (R39, R576). -/
def State.lateEntries (s : State) : State :=
  if s.dev.state == .shakeout && s.dev.stateTime == s.frm.tb then { s with bst := { s.bst with snapshot := s.logSnapshot } } else s

/-- The end of a cycle: a staged header that waited is read, an accepted RELOAD takes effect or is LOST (R432), else the loader's step ends;
waits are counted. -/
def State.cycleEnd (s : State) (waits : List (Fin 8) := []) : State :=
  let s := s.stageRead []
  ((match s.img.due with
    | some r => s.reloadDue r
    | none => s.loaderStep).waited waits).lateEntries

/-- DEV_PINS follows the strap pins (R623). -/
def State.seePins (s : State) (pins : Option Straps) : State :=
  match pins with
  | some x => { s with dev := { s.dev with pinsNow := x } }
  | none => s

/-- A measurement every 10 µs: of the supplies and, for the dies of the part that are powered, of theirs. No rule gives the values, which are
free (R630, R634, log 7). -/
def State.measure (s : State) : State :=
  if s.frm.tb.toNat % 1000 = 0 then
    let a := s.freeWord
    let b := a.2.freeWord
    let c := b.2.freeWord
    let t := { c.2 with sup := { c.2.sup with vCoreIo := a.1, vHostBar := b.1, iCore := c.1 &&& 0xFFFF } }
    (List.range 2).foldl (fun t d =>
      if decide (d < t.dies) && (t.bar d).powered then
        let w := t.freeWord
        w.2.updBar d fun x => { x with fdSupply := w.1 }
      else t) t
  else s

/-- TIMEBASE_TICK: the cycle ends, and both copies count, DRAG's with an upset on it; TB_SPLIT is live while they differ. A change of the strap
pins comes with it (DESIGN CHOICE, log 103), as do the waits of the masters of a bank port (log 5). No effect in OFF. -/
def doTimebaseTick (upset : Time) (pins : Option Straps) (waits : List (Fin 8)) (s : State) : State :=
  if s.dev.state == .off then s
  else
    let s := (s.cycleEnd waits).seePins pins
    let was := s.frm.tb != s.frm.tbD
    let s := { s with frm := { s.frm with tb := s.frm.tb + 1, tbD := (s.frm.tbD + 1) ^^^ upset } }.measure
    if s.frm.tb != s.frm.tbD then (if (s.hdr .frm).live.getLsbD 3 then s else s.onset .frm 3)
    else if was then s.setLive .frm 3 false else s

/-- The meaning of TIMEBASE_TICK (R39, R101, R102, R430, R432, R436, R498, R623, R630, R634). -/
def execTimebaseTick (upset : Time) (s : State) (pins : Option Straps := none) (waits : List (Fin 8) := []) :
    Host.Outcome State Fault Refusal := .next (doTimebaseTick upset pins waits s)

end Sys2Proof.Machine
end

