-- ==== Sys2Proof/Machine/Dispatch.lean ====
section
/-! DEFINITION. The meaning of every command: one arm per row of the opcode table. -/

namespace Sys2Proof.Machine

/-- The effect of a command on everything but the queue. -/
def exec (i : Instr) (s : State) : Host.Outcome State Fault Refusal :=
  match i with
  | .resetNAssert => Sys2Proof.Machine.execResetNAssert s
  | .resetRelease straps => Sys2Proof.Machine.execResetRelease straps s
  | .supplyLoss r => Sys2Proof.Machine.execSupplyLoss r s
  | .supplyOv r => Sys2Proof.Machine.execSupplyOv r s
  | .supplyWarn r => Sys2Proof.Machine.execSupplyWarn r s
  | .pwrFailNAssert secretOk => Sys2Proof.Machine.execPwrFailNAssert secretOk s
  | .pfHoldEnd => Sys2Proof.Machine.execPfHoldEnd s
  | .refLost => Sys2Proof.Machine.execRefLost s
  | .pllUnlock => Sys2Proof.Machine.execPllUnlock s
  | .coreClockLost h deviation noEdge => Sys2Proof.Machine.execCoreClockLost h deviation s noEdge
  | .errPin h differs => Sys2Proof.Machine.execErrPin h s differs
  | .timebaseTick upset pins waits => Sys2Proof.Machine.execTimebaseTick upset s pins waits
  | .barrierTrainingDone => Sys2Proof.Machine.execBarrierTrainingDone s
  | .trainFail d => Sys2Proof.Machine.execTrainFail d s
  | .recordReadDone flashOk cmpOk => Sys2Proof.Machine.execRecordReadDone flashOk cmpOk s
  | .sliceDone slice sig patterns failed => Sys2Proof.Machine.execSliceDone slice sig patterns failed s
  | .sliceBudgetExpiry slice patterns failed => Sys2Proof.Machine.execSliceBudgetExpiry slice patterns failed s
  | .startExit => Sys2Proof.Machine.execStartExit s
  | .slotCopyDone => Sys2Proof.Machine.execSlotCopyDone s
  | .stagedCopyDone ecc => Sys2Proof.Machine.execStagedCopyDone s ecc
  | .verifyDone ecc => Sys2Proof.Machine.execVerifyDone ecc s
  | .recordStampDone ok => Sys2Proof.Machine.execRecordStampDone ok s
  | .stampTimeout => Sys2Proof.Machine.execStampTimeout s
  | .frameBoundary => Sys2Proof.Machine.execFrameBoundary s
  | .syncInEdge rising => Sys2Proof.Machine.execSyncInEdge s rising
  | .earliestBoundary => Sys2Proof.Machine.execEarliestBoundary s
  | .syncWindowEnd => Sys2Proof.Machine.execSyncWindowEnd s
  | .rawVectorArrival => Sys2Proof.Machine.execRawVectorArrival s
  | .exchangeRawTimeout d h failed => Sys2Proof.Machine.execExchangeRawTimeout d h s failed
  | .xchgTimeout h => Sys2Proof.Machine.execXchgTimeout h s
  | .exercisePair u => Sys2Proof.Machine.execExercisePair u s
  | .agreeCompare u => Sys2Proof.Machine.execAgreeCompare u s
  | .evaluateStart u => Sys2Proof.Machine.execEvaluateStart s u
  | .eval u => Sys2Proof.Machine.execEval u s
  | .force u => Sys2Proof.Machine.execForce u s
  | .pub u => Sys2Proof.Machine.execPub u s
  | .endWord u => Sys2Proof.Machine.execEndWord u s
  | .armAck d h => Sys2Proof.Machine.execArmAck d h s
  | .cacheFill ecc again => Sys2Proof.Machine.execCacheFill ecc again s
  | .stallTimeout h => Sys2Proof.Machine.execStallTimeout h s
  | .overrun => Sys2Proof.Machine.execOverrun s
  | .commitAt => Sys2Proof.Machine.execCommitAt s
  | .strobeApply d => Sys2Proof.Machine.execStrobeApply d s
  | .commitSplit d => Sys2Proof.Machine.execCommitSplit d s
  | .permitLatch faults => Sys2Proof.Machine.execPermitLatch faults s
  | .frameOutEnd => Sys2Proof.Machine.execFrameOutEnd s
  | .inputLevelChange n h level => Sys2Proof.Machine.execInputLevelChange n h level s
  | .tripTolExpiry n h => Sys2Proof.Machine.execTripTolExpiry n h s
  | .ownMaskEnd n => Sys2Proof.Machine.execOwnMaskEnd n s
  | .tripMessage src h code check toDie => Sys2Proof.Machine.execTripMessage src h code check toDie s
  | .heartbeat d h err rawLate pwrLow clkDiff => Sys2Proof.Machine.execHeartbeat d h err rawLate pwrLow clkDiff s
  | .hbMiss d h => Sys2Proof.Machine.execHbMiss d h s
  | .chill d => Sys2Proof.Machine.execChill d s
  | .laneTestEcho h echo => Sys2Proof.Machine.execLaneTestEcho h echo s
  | .laneFail h => Sys2Proof.Machine.execLaneFail h s
  | .darkPulseStart gateC gateD onC onD openC openD => Sys2Proof.Machine.execDarkPulseStart gateC gateD onC onD openC openD s
  | .darkPulseEnd => Sys2Proof.Machine.execDarkPulseEnd s
  | .ownWindowEnd maskErrs => Sys2Proof.Machine.execOwnWindowEnd maskErrs s
  | .psShortHi k => Sys2Proof.Machine.execPsShortHi k s
  | .psOverload k => Sys2Proof.Machine.execPsOverload k s
  | .inputExercise d => Sys2Proof.Machine.execInputExercise d s
  | .inputExerciseEnd wrong => Sys2Proof.Machine.execInputExerciseEnd wrong s
  | .filterExpiry n h => Sys2Proof.Machine.execFilterExpiry n h s
  | .currentMeasure readings => Sys2Proof.Machine.execCurrentMeasure readings s
  | .openWire n live => Sys2Proof.Machine.execOpenWire n live s
  | .refCheck b bad => Sys2Proof.Machine.execRefCheck b bad s
  | .shortHi o => Sys2Proof.Machine.execShortHi o s
  | .lsOpenDelay o => Sys2Proof.Machine.execLsOpenDelay o s
  | .overload o => Sys2Proof.Machine.execOverload o s
  | .openLoad o => Sys2Proof.Machine.execOpenLoad o s
  | .overtemp o => Sys2Proof.Machine.execOvertemp o s
  | .rbMismatch o => Sys2Proof.Machine.execRbMismatch o s
  | .fvMeasure b fvC fvD => Sys2Proof.Machine.execFvMeasure b fvC fvD s
  | .fvHigh b => Sys2Proof.Machine.execFvHigh b s
  | .fvMeas b => Sys2Proof.Machine.execFvMeas b s
  | .fvRecovery b => Sys2Proof.Machine.execFvRecovery b s
  | .fvHighRecovery b => Sys2Proof.Machine.execFvHighRecovery b s
  | .fvBlankEnd b => Sys2Proof.Machine.execFvBlankEnd b s
  | .blockResetEnd n => Sys2Proof.Machine.execBlockResetEnd n s
  | .classificationWindowEnd p => Sys2Proof.Machine.execClassificationWindowEnd p s
  | .shadowEnd => Sys2Proof.Machine.execShadowEnd s
  | .logEntryWrite => Sys2Proof.Machine.execLogEntryWrite s
  | .cellAborted n => Sys2Proof.Machine.execCellAborted n s
  | .nop cell => Sys2Proof.Machine.execNop cell s
  | .read cell => Sys2Proof.Machine.execRead cell s
  | .write cell payload => Sys2Proof.Machine.execWrite cell payload s
  | .fetch cell => Sys2Proof.Machine.execFetch cell s
  | .challenge cell => Sys2Proof.Machine.execChallenge cell s
  | .auth cell payload => Sys2Proof.Machine.execAuth cell payload s
  | .close cell => Sys2Proof.Machine.execClose cell s
  | .shutdown cell secretOk => Sys2Proof.Machine.execShutdown cell secretOk s
  | .takeEffect port stream ties ecc secretOk => Sys2Proof.Machine.execTakeEffect port stream ties ecc secretOk s
  | .portBRetry c ecc => Sys2Proof.Machine.execPortBRetry c s ecc
  | .tokenRefill n => Sys2Proof.Machine.execTokenRefill n s
  | .handoverDrainDone p => Sys2Proof.Machine.execHandoverDrainDone p s
  | .keyProgramDone ok => Sys2Proof.Machine.execKeyProgramDone ok s
  | .jobWordRead c ecc parity => Sys2Proof.Machine.execJobWordRead c ecc s parity
  | .bankPowerChange k => Sys2Proof.Machine.execBankPowerChange k s
  | .breakpointHit h => Sys2Proof.Machine.execBreakpointHit h s
  | .scratchSegmentStart => Sys2Proof.Machine.execScratchSegmentStart s
  | .scratchSegmentDone marchFail ecc => Sys2Proof.Machine.execScratchSegmentDone marchFail ecc s
  | .arbiterAging => Sys2Proof.Machine.execArbiterAging s
  | .cruciblePatrolRead ecc => Sys2Proof.Machine.execCruciblePatrolRead ecc s
  | .lsmPatrolRead errC errD => Sys2Proof.Machine.execLsmPatrolRead errC errD s
  | .recordWriteDone ok => Sys2Proof.Machine.execRecordWriteDone ok s
  | .shakeoutAgeTick => Sys2Proof.Machine.execShakeoutAgeTick s
  | .extest lands shifted => Sys2Proof.Machine.execExtest lands shifted s
  | .samplePreload lands shifted => Sys2Proof.Machine.execSamplePreload lands shifted s
  | .idcode => Sys2Proof.Machine.execIdcode s
  | .clamp lands => Sys2Proof.Machine.execClamp lands s
  | .highz lands shifted => Sys2Proof.Machine.execHighz lands s shifted
  | .dbgAccess h off data => Sys2Proof.Machine.execDbgAccess h off data s
  | .scanEn secretOk => Sys2Proof.Machine.execScanEn secretOk s
  | .bypass => Sys2Proof.Machine.execBypass s
  | .pllLock => Sys2Proof.Machine.execPllLock s
  | .supplyReturn r edge => Sys2Proof.Machine.execSupplyReturn r edge s
  | .refclkReturn short => Sys2Proof.Machine.execRefclkReturn short s
  | .pwrFailNRise counted => Sys2Proof.Machine.execPwrFailNRise counted s
  | .unusedOp op cell => Sys2Proof.Machine.execUnusedOp op cell s
  | .busyNPulseEnd n => Sys2Proof.Machine.execBusyNPulseEnd n s
  | .outputSenseChange t sense => Sys2Proof.Machine.execOutputSenseChange t sense s

end Sys2Proof.Machine
end

