-- ==== Sys2Proof/Safety.lean ====
section
/-! DEFINITION. What counts as a safe run, in the terms that claims use: the invariants of the state, what an event of the fault engine
may change, what a host reads of a cause. -/

namespace Sys2Proof.Machine

/-- An outcome that is a next state. -/
def completes (o : Host.Outcome State Fault Refusal) : Prop := ∃ t, o = .next t

/-- Every memory keeps its canonical form. -/
def State.memOk (s : State) : Bool :=
  Mem.wf 0 s.cope.lsm && Mem.wf 0 s.cope.icache && Mem.wf 0 s.cope.kcache
    && Mem.wf 0xFF s.drag.lsm && Mem.wf 0xFF s.drag.icache && Mem.wf 0xFF s.drag.kcache
    && Mem.wf 0 s.crb.mem && Mem.wf 0 s.evl.mem && Mem.wf 0 s.fbs && Mem.wf 0 s.fbsBuf && Mem.wf 0xFF s.flash.sector
    && (s.spbs.all fun b => Mem.wf 0 b.mem) && s.prog.replaced.all fun x => Mem.wf 0 x.1

/-- A header has its fifteen counter words and its eight history entries (R67, R68). -/
def Hdr.shaped (h : Hdr) : Bool := h.counters.length == 15 && h.hist.entries.length == 8

/-- Every table of units has one entry for each unit of the full part (R3, R5, R41). -/
def State.shaped (s : State) : Bool :=
  s.hdrs.length == 53 && s.hdrs.all Hdr.shaped && s.comps.length == 224 && s.ins.length == 112 && s.inBanks.length == 8
    && s.outs.length == 64 && s.outBanks.length == 8 && s.bars.length == 2 && s.ps.length == 16 && s.hps.length == 4
    && s.spbs.length == 16 && s.ctxs.length == 8

/-- GLOBAL holds every trip latch outside RUN (R189, R193). -/
def State.tripsHeld (s : State) : Bool :=
  s.dev.state == .run || (s.trp.tlC == BitVec.allOnes 48 && s.trp.tlD == BitVec.allOnes 48)

/-- A cause of a page gives an event whose latch stays: the device is not OFF, no CHIP_RESET has come in this cycle (R39), the core die
receives the page's causes, and the cause is enabled (R537, R556). -/
def State.hears (s : State) (p : Page) (c : Nat) : Bool :=
  s.dev.state != .off && !s.resetCycle && s.received p && (s.hdr p).enable.getLsbD c

/-- FLT_LATCH of a page reads 1 at a cause (R57). -/
def State.shows (s : State) (p : Page) (c : Nat) : Bool := (s.latchOf p).getLsbD c

/-- No page selects CHIP_RESET, the one reaction after which no latch of the event is left (R562). -/
def State.noChipReset (s : State) : Bool :=
  s.hdrs.all fun h => (h.reactMinor &&& 7) != 6 && (h.reactSevere &&& 7) != 6

/-- A channel but for what a reaction or an upset of its LSM can change: its mode, where it stopped, a refetch that the stop
ends, pending traps, LSM_ERR (R120, R122, R149, R153). -/
def Chan.held (c : Chan) : Chan := { c with mode := .idle, stopPc := 0, lockstep := false, refill := none, trapPend := 0, lsmErr := 0 }

/-- The trip matrix but for its latches, captures, records of the latest trip and fault, and trip messages (R186, R191, R194, R209, R210). -/
def Trp.held (t : Trp) : Trp :=
  { t with tlC := 0, tlD := 0, capC := 0, capD := 0, lastTrip := 0, lastTripTime := 0, lastTripFrame := 0, faultInfo := 0, laneSent := []
           flight := [] }

/-- The frame in progress but for its first channel cause, and what that cause undoes in the cycle of COMMIT_AT (R93, R157). -/
def Progress.quiet (p : Progress) : Progress := { p with channelCauseAt := none, strobe := .none, replaced := none }

/-- Field outputs' bank records but for the incident in which FV_SAG or FV_HIGH latched (R355). -/
def OutBank.quiet (b : OutBank) : OutBank := { b with fvIncident := none }

/-- What an event and its reaction leave as it was, CHIP_RESET apart: the units that no reaction acts on keep their state, and no
latched cause is lost (R536, R539). A channel cause of the cycle of the commit decision can withdraw the frame's strobe and its publication
(R93, R157); no other event touches them. -/
def Quiet (s t : State) : Prop :=
  t.ident = s.ident ∧ t.otp = s.otp ∧ t.clk = s.clk ∧ t.sup = s.sup ∧ t.comps = s.comps ∧ t.pwl = s.pwl ∧ t.img = s.img
    ∧ t.flash = s.flash ∧ t.own = s.own ∧ t.bst = s.bst ∧ t.fbsBuf = s.fbsBuf ∧ t.jtag = s.jtag
    ∧ { t.frm with result := 0 } = { s.frm with result := 0 }
    ∧ (s.prog.decidedAt ≠ some s.frm.tb → t.frm = s.frm ∧ t.chk = s.chk ∧ t.fbs = s.fbs
      ∧ t.prog.strobe = s.prog.strobe ∧ t.prog.replaced = s.prog.replaced)
    ∧ t.free = s.free ∧ t.pending = s.pending ∧ t.crb.mem = s.crb.mem ∧ t.crb.valid = s.crb.valid ∧ t.crb.eccAddr = s.crb.eccAddr
    ∧ t.cope.held = s.cope.held ∧ t.drag.held = s.drag.held ∧ { t.cmp with active := false } = { s.cmp with active := false }
    ∧ t.prog.quiet = s.prog.quiet ∧ t.evl.mem = s.evl.mem ∧ t.outBanks.map OutBank.quiet = s.outBanks.map OutBank.quiet
    ∧ t.trp.held = s.trp.held
    ∧ ∀ p c, s.shows p c = true → t.shows p c = true

/-- What a boundary that SYNC_IN placed (sy) or deferred to E (de) leaves: the next frame's number, boundary and phase, a new frame in
progress, no raw bit where demand was captured since the SAMPLE before; trip latches and commands stay (R81, R87, R103, R194). -/
def Begun (s t : State) (sy de : Bool) : Prop :=
  t.frm.running = true ∧ t.frm.frameNum = s.frm.frameNum + 1 ∧ t.frm.lastBnd = s.frm.tb ∧ t.frm.synced = sy ∧ t.frm.deferred = de
    ∧ t.prog = { evalFrame := t.evaluates } ∧ t.frm.phase = (if t.evaluates then 1 else 0)
    ∧ t.cope.raw &&& s.trp.capC = 0 ∧ t.drag.raw &&& s.trp.capD = 0 ∧ t.trp.tlC = s.trp.tlC ∧ t.trp.tlD = s.trp.tlD
    ∧ t = { s with
        hdrs := t.hdrs, pwl := t.pwl, ps := t.ps, comps := t.comps, cope := t.cope, drag := t.drag, trp := t.trp, inBanks := t.inBanks
        outBanks := t.outBanks, outs := s.outs.map fun (u : Output) => { u with heldSince := u.hold }, prog := t.prog
        frm := { s.frm with running := true, frameNum := t.frm.frameNum, lastBnd := s.frm.tb, synced := sy, deferred := de
                            frameOut := t.frm.frameOut, frameOutAt := t.frm.frameOutAt, phase := t.frm.phase } }

/-- Both channels hold the same: their LSMs and constants as true values, the vectors of the exchange, the forces (R117, R119, R126). -/
def State.agree (s : State) : Prop :=
  (∀ a, s.lsmWord .c a = s.lsmWord .d a) ∧ (∀ i j, s.constWord .c i j = s.constWord .d i j) ∧ s.cope.agreed = s.drag.agreed
    ∧ s.cope.qual = s.drag.qual ∧ s.cope.oqual = s.drag.oqual ∧ s.cope.forceNow = s.drag.forceNow ∧ s.cope.forcePrev = s.drag.forcePrev

/-! Cells and register accesses, as the statements name them. -/

/-- The cell command of an operation number: a payload belongs to WRITE and AUTH only (R452, R454). -/
def cellCommand (op : Fin 16) (c : CellHead) (ws : List Word) (ok : Bool) : Instr :=
  match op.val with
  | 0 => .nop c
  | 1 => .read c
  | 2 => .write c ws
  | 3 => .fetch c
  | 4 => .challenge c
  | 5 => .auth c ws
  | 6 => .close c
  | 7 => .shutdown c ok
  | k => .unusedOp (Fin.ofNat 8 k) c

/-- The oldest transaction of a stream of port n accesses one word of a mapped block page and passes every check of R46. The FIB and FOB pages
of a fenced field die are apart (R555), and so is a staged header that still waits to be read (R430). -/
def State.serves (s : State) (n stream : Fin 4) (x : Txn) (p : Page) (off : Nat) : Prop :=
  s.dev.state ≠ .off ∧ s.headTxn n stream = some x ∧ x.len = 1 ∧ s.txnPage x = p.number ∧ x.off = off ∧ s.judge n x = none
    ∧ s.mapped p = true ∧ s.frozenPage p = false ∧ s.img.asked = none

/-- It writes w there. -/
def State.puts (s : State) (n stream : Fin 4) (x : Txn) (p : Page) (off : Nat) (w : Word) : Prop :=
  s.serves n stream x p off ∧ x.op = 2 ∧ x.payload = [w]

/-- TAKE_EFFECT of that stream answers t, whatever ties and ECC errors its operands name: a block page meets none. -/
def State.effect (s : State) (n stream : Fin 4) (t : State) : Prop :=
  ∀ (ties : List Tie) (ecc : List (BitVec 17 × EccErr)) (ok : Bool), exec (.takeEffect n stream ties ecc ok) s = .next t

/-- The unit that an event names exists on its page, and its cause bit is one of those kept for it (R324, R350, R393). -/
def Ev.placed (e : Ev) : Bool :=
  decide (e.cause < 32) && match e.page, e.unit with
    | .fib _, some k => decide (k < 14) && decide (e.cause < 5)
    | .fob _, some k => decide (k < 8) && decide (e.cause < 10)
    | .pwl, some k => decide (k < 16) && decide (e.cause < 3)
    | _, _ => true

end Sys2Proof.Machine
end

