-- ==== Sys2Proof/WellFormed.lean ====
section
/-! DEFINITION. Which commands a host cell can carry: the payload of WRITE and AUTH has LEN + 1 words (R452). -/

namespace Sys2Proof

/-- A payload of LEN + 1 words (R452). -/
def payloadFits (cell : CellHead) (payload : List Word) : Bool := payload.length == cell.len.toNat + 1

/-- A command is well formed when its payload, if it has one, has the length its header states (R452). Every other operand is
bounded by its type. -/
def Instr.wellFormed : Instr → Bool
  | .write cell payload => payloadFits cell payload
  | .auth cell payload => payloadFits cell payload
  | _ => true

end Sys2Proof
end

