-- ==== Sys2Proof/Certificates/Slice0/Obligations.lean ====
section
/-! DEFINITION. The statements for the provers: the rules of the spec that say what a command does, and the invariants that every step
keeps. -/

open Sys2Proof Sys2Proof.Machine

/-! The queue and reset. -/

/-- A step takes the command at the front of the queue and answers what the command's meaning answers on the rest; on an empty queue the block
idles (the model's choice, log 1). -/
def Obligations.StepRunsFrontCommand : Prop :=
  (∀ (c : Instr) (cs : List Instr) (s : State), step { s with pending := c :: cs } = exec c { s with pending := cs })
    ∧ ∀ s : State, s.pending = [] → step s = .next s

/-- State after reset by power-on: START, nothing waiting, no ingot, no frame, no session, every output commanded off under a set trip latch and
every field die in chill; every page with FLT_N 1, FLT_WINDOW 12, no latch, no incident, MINOR reaction at least IRQ to owner, SEVERE at
FENCE on SPB, CHK, FIB and FOB, BLOCK_RESET on HP and SAFE_STOP with ERR elsewhere; memories and tables in form (R33, R61 to R64, R191,
R193, R618). The memories' contents are the model's choice (log 4). -/
def Obligations.ResetState : Prop :=
  let s := State.reset
  s.dev.state = .start ∧ s.pending = [] ∧ s.img.phase = .idle ∧ s.crb.valid = false ∧ s.frm.running = false
    ∧ (∀ u ∈ s.outs, u.cmdC = false ∧ u.cmdD = false) ∧ (∀ b ∈ s.bars, b.chill = true) ∧ (∀ h ∈ s.hps, h.session = none ∧ h.txns = [])
    ∧ s.trp.tlC = BitVec.allOnes 48 ∧ s.trp.tlD = BitVec.allOnes 48
    ∧ (∀ p ∈ allPages, (s.hdr p).fltN = 1 ∧ (s.hdr p).fltWindow = 12 ∧ (s.hdr p).latch = 0 ∧ (s.hdr p).incident.isOpen = false
      ∧ (s.hdr p).total = 0 ∧ (s.hdr p).reactMinor ≠ 0)
    ∧ (∀ k : Fin 16, (s.hdr (.spb k)).reactSevere = 4) ∧ (∀ b : Fin 8, (s.hdr (.fib b)).reactSevere = 4 ∧ (s.hdr (.fob b)).reactSevere = 4)
    ∧ (s.hdr .chk).reactSevere = 4
    ∧ (∀ n : Fin 4, (s.hdr (.hp n)).reactSevere = 3)
    ∧ (∀ p ∈ [Page.dev, .clk, .sup, .frm, .own, .cop, .drg, .cmp, .trp, .crb, .img, .spc, .bst, .pwl, .bar 0, .bar 1],
      (s.hdr p).reactSevere = 0xD)
    ∧ s.memOk = true ∧ s.shaped = true ∧ s.tripsHeld = true ∧ s.noChipReset = true

/-! Invariants of every step; what no command changes. -/

/-- Every step keeps the canonical form of every memory. -/
def Obligations.StepKeepsMemories : Prop := ∀ s t : State, s.memOk = true → step s = .next t → t.memOk = true

/-- Every step keeps one entry for each unit of the part, fifteen counters and eight history entries for each page. -/
def Obligations.StepKeepsUnits : Prop := ∀ s t : State, s.shaped = true → step s = .next t → t.shaped = true

/-- Outside RUN every trip latch stays set, and every step that ends outside RUN leaves it so (R189, R193). -/
def Obligations.StepHoldsTrips : Prop := ∀ s t : State, s.tripsHeld = true → step s = .next t → t.tripsHeld = true

/-- The COMPAT, COMMISSION and BOOT_SEL pins are sampled at the release of RESET_N, and no other command changes the sample (R34). -/
def Obligations.StrapsSampledAtRelease : Prop :=
  (∀ (p : Straps) (s : State), s.dev.state = .off → s.sup.valid = 0xF → s.clk.locked = true → ∃ t, exec (.resetRelease p) s = .next t ∧
      t.dev.straps = p)
    ∧ ∀ (c : Instr) (s t : State), ((∀ p, c ≠ .resetRelease p) ∨ s.dev.state ≠ .off) → exec c s = .next t → t.dev.straps = s.dev.straps

/-- Every command completes, but for a WRITE or an AUTH whose payload has not the length that its header states: such a cell cannot exist by
R452, and the fault payloadLength that an ill-formed command gives is the model's choice (log 15). -/
def Obligations.CommandsComplete : Prop :=
  ∀ (c : Instr) (s : State), if c.wellFormed then completes (exec c s) else exec c s = .fault .payloadLength

/-- OFF is left only by RESET_RELEASE (R35, R612). No command changes what the part is, its boot-flash slots or the queue; only KEY_PROGRAM_DONE
changes the one-time-programmable keys (R484). -/
def Obligations.OffAndIdentityKept : Prop :=
  (∀ (c : Instr) (s t : State), (∀ straps, c ≠ .resetRelease straps) → s.dev.state = .off → exec c s = .next t → t.dev.state = .off)
    ∧ (∀ (c : Instr) (s t : State), exec c s = .next t →
      t.ident = s.ident ∧ t.flash.slotA = s.flash.slotA ∧ t.flash.slotB = s.flash.slotB ∧ t.pending = s.pending
        ∧ ((∀ ok, c ≠ .keyProgramDone ok) → t.otp = s.otp))

/-! Reset, supplies, clock monitors (R600 to R628). -/

/-- RESET_N_ASSERT: STATE is OFF for this cause, boundaries end with FRAME_OUT inactive, the ports forget what was in flight, the TAP is reset;
the timebase, the supplies, the keys, the event log, the channels' memories, the scratchpad and the field dies stay (R35, R100, R610, R611,
R643); that the crucible's contents stay over OFF is the model's choice (log 4). SUPPLY_LOSS of a valid supply: STATE is OFF for that cause,
the supply reads as not valid; VDD_CORE takes the event log, START_CNT and the class of VDD_HOST with it, VDD_BAR leaves the field dies
unpowered and in chill; without VDD_CORE or VDD_IO the PLL is not locked (R35, R569, R600, R601, R603, R605, R613, R621). That the loss of a
supply that is not valid changes nothing is the model's choice (log 2). -/
def Obligations.OffEntered : Prop :=
  (∀ s : State, ∃ t, exec .resetNAssert s = .next t ∧ t.dev.state = .off ∧ t.dev.resetN = false
      ∧ (s.dev.state ≠ .off → t.dev.offCause = 2 ∧ t.dev.prev = s.dev.state ∧ t.frm.running = false ∧ t.frm.frameOut = false)
      ∧ t.crb.mem = s.crb.mem ∧ t.frm.tb = s.frm.tb
      ∧ t.jtag = {} ∧ t.frameOutHigh = false
      ∧ t.ctxs.map (fun x : Ctx => { x with waits := false }) = s.ctxs.map (fun x : Ctx => { x with waits := false })
      ∧ t = { s with
          dev := t.dev, crb := t.crb, frm := t.frm, prog := t.prog, pwl := t.pwl, comps := t.comps, outs := t.outs, hdrs := t.hdrs
          spc := t.spc, trp := t.trp, marks := t.marks, cut := t.cut, ctxs := t.ctxs, img := { s.img with waits := t.img.waits }, jtag := t.jtag
          cope := { s.cope with mode := t.cope.mode }, drag := { s.drag with mode := t.drag.mode }
          hps := s.hps.map fun (p : Hp) => { p with txns := [], lastFetched := none, session := none, nonce := none } })
    ∧ (∀ (r : Rail) (s : State), s.shaped = true →
      (s.sup.valid.getLsbD (railNum r) = false → exec (.supplyLoss r) s = .next s)
      ∧ (s.sup.valid.getLsbD (railNum r) = true → ∃ t, exec (.supplyLoss r) s = .next t ∧ t.dev.state = .off
        ∧ t.sup.valid = putBit s.sup.valid (railNum r) false
        ∧ (s.dev.state ≠ .off → t.dev.offCause = if r = .core then 1 else 3)
        ∧ (r = .core → t.evl = {} ∧ t.counter .dev 0x44 = 0 ∧ t.sup.classKnown = false)
        ∧ (r ≠ .core → t.evl = s.evl ∧ t.crb.mem = s.crb.mem ∧ t.spbs = s.spbs ∧ t.sup.classKnown = s.sup.classKnown)
        ∧ (r = .bar → ∀ b ∈ t.bars, b.powered = false ∧ b.chill = true) ∧ (r ≠ .bar → t.bars = s.bars)
        ∧ t.clk = { s.clk with locked := s.clk.locked && t.pllRuns } ∧ (r = .core ∨ r = .io → t.clk.locked = false)
        ∧ t = { s with
            dev := t.dev, crb := t.crb, frm := t.frm, prog := t.prog, pwl := t.pwl, comps := t.comps, outs := t.outs, hdrs := t.hdrs
            spc := t.spc, trp := t.trp, hps := t.hps, sup := t.sup, evl := t.evl, cope := t.cope, drag := t.drag, spbs := t.spbs
            bars := t.bars, marks := t.marks, clk := t.clk, cut := t.cut, ctxs := t.ctxs, img := { s.img with waits := t.img.waits }, jtag := {} }))

/-- RESET_RELEASE in OFF, with every supply valid and the PLL locked: START begins at once with the straps as the pins show them, the timebase
at 0, the cause of the OFF in LAST_START, every trip latch set, no fence but of a scratchpad bank marked unusable, no session, every die in
chill with what its last ingot gave it; the supplies, the keys and the flash's contents stay. Step 1 waits while PWR_FAIL_N has not been
high for 1 ms, else START is in step 2, where no programmed key fails its check (R34, R101, R479, R500, R558, R610, R612, R613, R615, R618).
That the crucible's contents stay is the model's choice (log 4). -/
def Obligations.ReleaseStarts : Prop :=
  ∀ (p : Straps) (s : State), s.dev.state = .off → s.sup.valid = 0xF → s.clk.locked = true →
    s.sup.pfClear = false ∨ s.otpFails = false →
    ∃ t, exec (.resetRelease p) s = .next t ∧ t.dev.state = .start ∧ t.dev.prev = .off ∧ t.dev.straps = p ∧ t.dev.resetN = true
      ∧ t.frm.tb = 0 ∧ t.frm.tbD = 0 ∧ t.dev.startCause = s.dev.offCause ∧ t.dev.startStep = (if s.sup.pfClear then 2 else 1)
      ∧ t.trp.tlC = BitVec.allOnes 48 ∧ t.trp.tlD = BitVec.allOnes 48 ∧ t.flash = s.flash ∧ t.otp = s.otp
      ∧ t.fences = ((List.range 16).filter fun k => (s.spb k).unusable).map (fun k => ((spbOf k).num12, 0))
      ∧ t.bars.map (·.held) = s.bars.map (·.held) ∧ t.dev.pinsNow = p ∧ t.crb.mem = s.crb.mem
      ∧ t.sup = { s.sup with
          events := 0, irqEn := 0, pfHold := !s.sup.pfClear, pfSeenHigh := s.sup.pfLevel, vCoreIo := 0, vHostBar := 0, iCore := 0 }
      ∧ (∀ h ∈ t.hps, h.session = none ∧ h.txns = [] ∧ h.fenced = false) ∧ t.bars.all (·.chill) = true

/-- SUPPLY_OV, REF_LOST, PLL_UNLOCK, CORE_CLOCK_LOST and ERR_PIN: the level or lock that failed reads so, the cause is latched where the core
die hears it, and every unit on which no reaction acts keeps its state; without REFCLK the PLL is not locked; a count of a core clock within
4055 to 4137 only moves DOM_DEV_MAX (brought by this row: the model's choice, log 117); the other error pin only keeps the one live
condition (R56, R601, R605, R607, R621, R626, R628). SUPPLY_RETURN in its three forms: the supply is valid again, and the class of VDD_HOST
is decided where VDD_CORE and VDD_HOST then first are valid together; it falls back below its OV level; it rises above its WARN level (R599,
R600, R603, R628). SUPPLY_WARN sets the WARN bit and counts, and acts on nothing; the ends of a WARN-free event, of a glitch of REFCLK and
of a pulse of PWR_FAIL_N that was ignored are counted alone (R601, R614, R626, R628). -/
def Obligations.MonitorsLatch : Prop :=
  (∀ s : State, s.shaped = true → s.noChipReset = true →
      (∀ r : Rail, (s.sup.ovLive.getLsbD (railNum r) && (s.hdr .sup).latch.getLsbD (railNum r)) = false → ∃ t, exec (.supplyOv r) s = .next t
        ∧ t.sup.ovLive = putBit s.sup.ovLive (railNum r) true ∧ (s.hears .sup (railNum r) = true → t.shows .sup (railNum r) = true)
        ∧ Quiet { s with sup := { s.sup with ovLive := t.sup.ovLive } } t)
      ∧ (s.clk.refOk = true → ∃ t, exec .refLost s = .next t ∧ (s.hears .clk 0 = true → t.shows .clk 0 = true)
        ∧ Quiet { s with clk := { s.clk with refOk := false, locked := false } } t)
      ∧ ((s.clk.locked = true ∨ (s.hdr .clk).live.getLsbD 1 = false) → ∃ t, exec .pllUnlock s = .next t ∧ (s.hears .clk 1 = true → t.shows .clk 1 = true)
        ∧ Quiet { s with clk := { s.clk with locked := false } } t)
      ∧ (∀ (n : Word) (e : Bool), (e = true ∨ 41 < n.toNat) → s.clk.coreCOk = true → ∃ t, exec (.coreClockLost .c n e) s = .next t
        ∧ (s.hears .clk 2 = true → t.shows .clk 2 = true) ∧ Quiet { s with clk := { s.clk with coreCOk := false } } t)
      ∧ (∀ (n : Word) (e : Bool), (e = true ∨ 41 < n.toNat) → s.clk.coreDOk = true → ∃ t, exec (.coreClockLost .d n e) s = .next t
        ∧ (s.hears .clk 3 = true → t.shows .clk 3 = true) ∧ Quiet { s with clk := { s.clk with coreDOk := false } } t)
      ∧ (∀ (h : Half) (n : Word), n.toNat ≤ 41 → ∃ t, exec (.coreClockLost h n false) s = .next t
        ∧ (t.counter .clk 0x48).toNat = max (s.counter .clk 0x48).toNat n.toNat ∧ t = { s with hdrs := t.hdrs })
      ∧ (∀ h : Half, s.dev.errDiff = 0 → ∃ t, exec (.errPin h true) s = .next t ∧ (s.hears .dev 0 = true → t.shows .dev 0 = true) ∧ Quiet s t)
      ∧ (∀ h : Half, s.dev.errDiff ≠ 0 → exec (.errPin h true) s
        = .next (({ s with dev := { s.dev with errDiff := putBit s.dev.errDiff h.num true } }).setLive .dev 0 true))
      ∧ ∀ h : Half, exec (.errPin h false) s = .next (({ s with dev := { s.dev with errDiff := putBit s.dev.errDiff h.num false } }).setLive .dev 0
        (putBit s.dev.errDiff h.num false != 0)))
    ∧ ((∀ (r : Rail) (v : Bool) (s : State), r ≠ .bar → s.sup.classKnown = true →
        exec (.supplyReturn r (.valid v)) s = .next { s with sup := { s.sup with valid := putBit s.sup.valid (railNum r) true } })
      ∧ (∀ (v : Bool) (s : State), s.sup.classKnown = false → s.sup.valid.getLsbD 0 = true →
        exec (.supplyReturn .host (.valid v)) s
          = .next { s with sup := { s.sup with valid := putBit s.sup.valid 2 true, host3v3 := v, classKnown := true } })
      ∧ (∀ (v : Bool) (s : State), s.sup.classKnown = false → s.sup.valid.getLsbD 2 = true →
        exec (.supplyReturn .core (.valid v)) s
          = .next { s with sup := { s.sup with valid := putBit s.sup.valid 0 true, host3v3 := v, classKnown := true } })
      ∧ (∀ (r : Rail) (v : Bool) (s : State), r ≠ .bar → s.sup.classKnown = false →
        ((putBit s.sup.valid (railNum r) true).getLsbD 0 && (putBit s.sup.valid (railNum r) true).getLsbD 2) = false →
        exec (.supplyReturn r (.valid v)) s = .next { s with sup := { s.sup with valid := putBit s.sup.valid (railNum r) true } })
      ∧ (∀ (v : Bool) (s : State), (s.sup.classKnown = true ∨ s.sup.valid.getLsbD 0 = false ∨ s.sup.valid.getLsbD 2 = false) →
        ∃ t, exec (.supplyReturn .bar (.valid v)) s = .next t
        ∧ (∀ d, d < s.bars.length → t.bar d = { s.bar d with powered := true })
        ∧ t = { s with sup := { s.sup with valid := putBit s.sup.valid 3 true }, bars := t.bars })
      ∧ (∀ (r : Rail) (s : State), exec (.supplyReturn r .belowOv) s
        = .next (({ s with sup := { s.sup with ovLive := putBit s.sup.ovLive (railNum r) false } }).setLive .sup (railNum r) false))
      ∧ ∀ (r : Rail) (s : State), exec (.supplyReturn r .aboveWarn) s
        = .next { s with sup := { s.sup with warnLive := putBit s.sup.warnLive (railNum r) false } })
    ∧ (∀ s : State, s.shaped = true →
      (∀ r : Rail, s.sup.warnLive.getLsbD (railNum r) = false → ∃ t, exec (.supplyWarn r) s = .next t
        ∧ t.sup = { s.sup with warnLive := putBit s.sup.warnLive (railNum r) true, events := putBit s.sup.events (railNum r) true }
        ∧ t.counter .sup 0x4C = satInc (s.counter .sup 0x4C) ∧ t = { s with sup := t.sup, hdrs := t.hdrs, marks := t.marks })
      ∧ (∃ t, exec (.refclkReturn true) s = .next t ∧ t.counter .clk 0x44 = satInc (s.counter .clk 0x44) ∧ t = { s with hdrs := t.hdrs })
      ∧ (∃ t, exec (.refclkReturn false) s = .next t ∧ t.clk = { s.clk with refOk := true } ∧ (t.hdr .clk).live.getLsbD 0 = false
        ∧ (t.hdr .clk).latch = (s.hdr .clk).latch ∧ t = { s with clk := t.clk, hdrs := t.hdrs })
      ∧ ∃ t, exec (.pwrFailNRise true) s = .next t ∧ t.sup.pfLevel = true ∧ t.sup.pfClear = false ∧ t.sup.pfSeenHigh = true
        ∧ t.counter .sup 0x48 = satInc (s.counter .sup 0x48) ∧ t = { s with sup := t.sup, hdrs := t.hdrs })

/-- PWR_FAIL_N_ASSERT: in START, LOAD, VERIFY, RUN or SAFE, once the pin has been seen high, STATE is SHAKEOUT, with the session keys and the
working copies of the keys cleared; while the pin has not been seen high STATE stays, and START's step 1 holds; in COMMISSION and SHAKEOUT
it sets PF_IGNORED alone; after a CHIP_RESET of the same cycle START stays and holds in step 1; each time it is counted (R35, R39, R573,
R576, R614, R615, R628). -/
def Obligations.PowerFailShakes : Prop :=
  ∀ (ok : Bool) (s : State), s.shaped = true →
    (s.dev.state.shakes = true → s.sup.pfSeenHigh = true → s.noChipReset = true → s.justReset = false → ∃ t, exec (.pwrFailNAssert ok) s = .next t
      ∧ t.dev.state = .shakeout ∧ t.bst.trigger = 2 ∧ t.bst.shakePrev = s.takeBack.dev.state
      ∧ t.sup = { s.sup with pfLevel := false, pfClear := false } ∧ t.own.workSess = 0 ∧ t.own.workImg = 0 ∧ t.bst.keysLoaded = false
      ∧ t.counter .sup 0x44 = satInc (s.counter .sup 0x44)
      ∧ (∀ h ∈ t.hps, h.session = none ∧ h.nonce = none) ∧ t.otp = s.otp ∧ t.img = { s.img with waits := t.img.waits } ∧ t.flash = s.flash)
    ∧ (s.dev.state.shakes = true → s.sup.pfSeenHigh = false → s.justReset = false → ∃ t, exec (.pwrFailNAssert ok) s = .next t
      ∧ t.sup = { s.sup with
          pfLevel := false, pfClear := false, pfHold := s.sup.pfHold || (s.dev.state == .start && s.dev.startStep == 1) }
      ∧ t.counter .sup 0x44 = satInc (s.counter .sup 0x44) ∧ t = { s with sup := t.sup, hdrs := t.hdrs })
    ∧ ((s.dev.state = .commission ∨ s.dev.state = .shakeout) → ∃ t, exec (.pwrFailNAssert ok) s = .next t
      ∧ t.sup = { s.sup with pfLevel := false, pfClear := false, events := putBit s.sup.events 4 true }
      ∧ t.counter .sup 0x44 = satInc (s.counter .sup 0x44) ∧ t = { s with sup := t.sup, hdrs := t.hdrs, marks := t.marks })
    ∧ (s.justReset = true → ∃ t, exec (.pwrFailNAssert ok) s = .next t ∧ t.dev = { s.dev with startStep := 1 }
      ∧ t.sup = { s.sup with pfLevel := false, pfClear := false, pfHold := true }
      ∧ t.counter .sup 0x44 = satInc (s.counter .sup 0x44) ∧ t = { s with dev := t.dev, sup := t.sup, hdrs := t.hdrs })

/-- PF_HOLD_END and PLL_LOCK let a START that waits in step 1 go on to step 2 where the other wait is over; neither changes anything else than
its own condition where no START waits; a PLL without REFCLK, VDD_CORE or VDD_IO does not lock (R605, R615, R618). BARRIER_TRAINING_DONE
ends step 2 of START: each die in service that has its supply and is not fenced leaves chill and clears its latches and holds, the other
does not change (R358, R618). TRAIN_FAIL in step 2 of START: the die is marked unusable and fenced, the cause is latched, and START goes on
(R619). -/
def Obligations.StartStepsEnd : Prop :=
  ((∀ s : State, s.sup.pfLevel = true → s.dev.state = .start → s.dev.startStep = 1 → s.clk.locked = true → s.otpFails = false →
        exec .pfHoldEnd s = .next { s with sup := { s.sup with pfClear := true, pfHold := false }, dev := { s.dev with startStep := 2 } })
      ∧ (∀ s : State, s.sup.pfLevel = true → (s.dev.state ≠ .start ∨ s.dev.startStep ≠ 1 ∨ s.clk.locked = false) →
        exec .pfHoldEnd s = .next { s with sup := { s.sup with pfClear := true, pfHold := false } })
      ∧ (∀ s : State, s.pllRuns = true → s.dev.state = .start → s.dev.startStep = 1 → s.sup.pfHold = false → s.otpFails = false →
        exec .pllLock s = .next { (s.setLive .clk 1 false) with clk := { s.clk with locked := true }, dev := { s.dev with startStep := 2 } })
      ∧ (∀ s : State, s.pllRuns = true → (s.dev.state ≠ .start ∨ s.dev.startStep ≠ 1 ∨ s.sup.pfHold = true) →
        exec .pllLock s = .next { (s.setLive .clk 1 false) with clk := { s.clk with locked := true } })
      ∧ ∀ s : State, s.pllRuns = false → exec .pllLock s = .next s)
    ∧ (∀ s : State, s.shaped = true → s.dev.state = .start → s.dev.startStep = 2 → ∃ t, exec .barrierTrainingDone s = .next t
      ∧ t.dev = { s.dev with startStep := 3 }
      ∧ (∀ d, d < 2 → t.bar d = if d < s.dies ∧ (s.bar d).powered = true ∧ (s.bar d).fenced = false
          then { s.bar d with trained := true, chill := false } else s.bar d)
      ∧ (∀ d, d < 2 → d < s.dies → (s.bar d).powered = true → (s.bar d).fenced = false →
        (∀ i, i < 112 → dieOfInput i = d → (t.inp i).latch = 0) ∧ (∀ o, o < 64 → dieOfBank (bankOfOutput o) = d → (t.out o).latch = 0 ∧ (t.out o).hold = false)
        ∧ ∀ b : Fin 8, dieOfBank b = d → (t.hdr (.fib b)).latch = 0 ∧ (t.hdr (.fob b)).latch = 0)
      ∧ (∀ d, d < 2 → ¬(d < s.dies ∧ (s.bar d).powered = true ∧ (s.bar d).fenced = false) →
        (∀ i, i < 112 → dieOfInput i = d → t.inp i = s.inp i) ∧ ∀ o, o < 64 → dieOfBank (bankOfOutput o) = d → t.out o = s.out o)
      ∧ t = { s with dev := t.dev, bars := t.bars, ins := t.ins, outs := t.outs, inBanks := t.inBanks, outBanks := t.outBanks, hdrs := t.hdrs })
    ∧ (∀ (d : Fin 2) (s : State), s.shaped = true → s.noChipReset = true → s.dev.state = .start → s.dev.startStep = 2 → d.val < s.dies →
      (s.bar d).fenced = false → (s.hdr (.bar d)).enable.getLsbD 4 = true →
      ∃ t, exec (.trainFail d) s = .next t ∧ (t.bar d).fenced = true ∧ (t.bar d).unusable = true
        ∧ t.dev = { s.dev with shakeFault := t.dev.shakeFault }
        ∧ t.shows (.bar d) 4 = true ∧ Quiet s t)

/-- TIMEBASE_TICK: once what falls due at the cycle's end has taken place, both copies of the timebase add 1; where they then differ, by a bit
upset or from before, TB_SPLIT is latched, live from then on. A cycle at whose end nothing falls due moves nothing else but what is measured
every 10 us (R101, R102, R630, R634) and DEV_PINS where the strap pins change (R623). What falls due at a cycle's end, that the measurements
fall at multiples of 1000 ticks, and that a change of the pins comes with a tick are the model's choices (logs 7, 53, 96, 103). -/
def Obligations.TimebaseTicks : Prop :=
  ∀ (x : Time) (pins : Option Straps) (waits : List (Fin 8)) (s : State), s.shaped = true → s.dev.state ≠ .off →
    let c := s.cycleEnd waits
    c.noChipReset = true → ∃ t, exec (.timebaseTick x pins waits) s = .next t ∧ t.frm.tb = c.frm.tb + 1 ∧ t.frm.tbD = (c.frm.tbD + 1) ^^^ x
      ∧ (t.frm.tb ≠ t.frm.tbD → ({ c with frm := { c.frm with tb := c.frm.tb + 1 } }).hears .frm 3 = true → (c.hdr .frm).live.getLsbD 3 = false →
        t.shows .frm 3 = true)
      ∧ t.dev.pinsNow = pins.getD c.dev.pinsNow
      ∧ (s.noChipReset = true → s.img.due = none → s.img.asked = none → c.frm.tb = s.frm.tb ∧ c.frm.tbD = s.frm.tbD)
      ∧ (c = s → s.frm.tb = s.frm.tbD → x = 0 →
        ((s.frm.tb + 1).toNat % 1000 ≠ 0 → t.sup = s.sup ∧ t.bars = s.bars ∧ t.free = s.free)
        ∧ t = { s with
          frm := { s.frm with tb := t.frm.tb, tbD := t.frm.tbD }, bars := t.bars, free := t.free, dev := { s.dev with pinsNow := t.dev.pinsNow }
          sup := { s.sup with vCoreIo := t.sup.vCoreIo, vHostBar := t.sup.vHostBar, iCore := t.sup.iCore } })

/-! Start, self-test, loading, shakeout (R427 to R444, R490, R570 to R590). -/

/-- RECORD_READ_DONE in step 3 of START: the start kind and its reason, the SSEQ of the next stamp; a quick start makes the comparator test and
goes on to step 4 or latches STARTUP_CMP, a full start begins the slices and stays in step 3 (R159, R581, R582, R584). SLICE_DONE and
SLICE_BUDGET_EXPIRY end the slice that runs, with its signature compared or none; the other slices' results stay (R571, R572). -/
def Obligations.RecordReadChoosesStart : Prop :=
  (∀ (flashOk cmpOk : Bool) (s : State), s.shaped = true → s.noChipReset = true → s.dev.state = .start → s.dev.startStep = 3 →
      s.bst.startKind = 0 → ∃ t, exec (.recordReadDone flashOk cmpOk) s = .next t
        ∧ t.bst.reason = s.startReason flashOk ∧ t.bst.nextSseq = s.sseqAfter flashOk
        ∧ (s.startReason flashOk = 0 → t.bst.startKind = 1 ∧ (cmpOk = true → t.dev = { s.dev with startStep := 4 } ∧ t.cmp.startupPass = true)
          ∧ (cmpOk = false → s.hears .cmp 10 = true → t.shows .cmp 10 = true))
        ∧ (s.startReason flashOk ≠ 0 → t.bst.startKind = 2 ∧ t.dev = s.dev ∧ t.bst.testing = true ∧ t.bst.slices.length = 12
          ∧ ∀ k : Fin 12, (t.bst.slices.getD k {}).ended = true ↔ k = 10 ∧ s.dies < 2)
        ∧ t.ident = s.ident ∧ t.otp = s.otp ∧ t.clk = s.clk ∧ t.sup = s.sup ∧ t.crb.mem = s.crb.mem ∧ t.img = s.img)
    ∧ (∀ (k : Fin 12) (sig : Word) (n : BitVec 24) (u : Units) (s : State), s.shaped = true → s.noChipReset = true → s.sliceRuns k = true →
      k.val < s.bst.slices.length →
      (∃ t, exec (.sliceDone k sig n u) s = .next t ∧ (t.bst.slices.getD k {}).ended = true ∧ (t.bst.slices.getD k {}).complete = true
        ∧ (t.bst.slices.getD k {}).matched = (sig == Config.expectedSig k (s.dev.state == .start))
        ∧ (t.bst.slices.getD k {}).sig = sig ∧ (t.bst.slices.getD k {}).patterns = n
        ∧ (∀ j : Fin 12, j ≠ k → t.bst.slices.getD j {} = s.bst.slices.getD j {}) ∧ t.otp = s.otp ∧ t.flash = s.flash ∧ t.img = s.img)
      ∧ ∃ t, exec (.sliceBudgetExpiry k n u) s = .next t ∧ (t.bst.slices.getD k {}).ended = true ∧ (t.bst.slices.getD k {}).complete = false
        ∧ (t.bst.slices.getD k {}).matched = false ∧ (t.bst.slices.getD k {}).patterns = n
        ∧ (∀ j : Fin 12, j ≠ k → t.bst.slices.getD j {} = s.bst.slices.getD j {}) ∧ t.otp = s.otp ∧ t.flash = s.flash ∧ t.img = s.img)

/-- START_EXIT in step 4 of START: STATE is LOAD, or COMMISSION by the strap; the keys are loaded, every bank that is not marked unusable is ON
and reads 0, and the loader begins to read the slots' headers (R35, R427, R490, R574, R618). The loader takes the slot that BOOT_SEL names,
or, under 0b00, the one valid slot or the newer of two; it waits for the host under 0b11, and where the slot it would take has no valid
header (R427). That the headers have been read at the next TIMEBASE_TICK is the model's choice (log 96). -/
def Obligations.StartExitLoads : Prop :=
  (∀ s : State, s.noChipReset = true → s.dev.state = .start → s.dev.startStep = 4 → ∃ t, exec .startExit s = .next t
      ∧ t.dev.state = (if s.dev.straps.commission then DevState.commission else .load)
      ∧ t.bst.keysLoaded = true ∧ t.bst.age = 0 ∧ t.own.workSess = s.otp.sess.getD 0 ∧ t.own.workImg = s.otp.img.getD 0
      ∧ (∀ b ∈ t.spbs, b.unusable = false → b.power = .on ∧ b.mem = [])
      ∧ t.img.phase = .readingHeaders ∧ t.img.reading = 0
      ∧ t.otp = s.otp ∧ t.flash = s.flash ∧ t.ident = s.ident ∧ t.clk = s.clk ∧ t.sup = s.sup)
    ∧ (∀ s : State, s.noChipReset = true → (s.dev.state = .load ∨ s.dev.state = .commission) → s.img.phase = .readingHeaders → s.img.reading = 0 →
      s.img.due = none → s.img.asked = none → s.frm.tb = s.frm.tbD →
      let a := s.slotOk s.flash.slotA
      let b := s.slotOk s.flash.slotB
      ∃ t, exec (.timebaseTick 0) s = .next t
        ∧ (s.dev.straps.bootSel = 1 → a = true → t.img.phase = .copying ∧ t.img.source = 1 ∧ t.img.otherSlot = false)
        ∧ (s.dev.straps.bootSel = 2 → b = true → t.img.phase = .copying ∧ t.img.source = 2 ∧ t.img.otherSlot = false)
        ∧ (s.dev.straps.bootSel = 3 → t.img.phase = .waitingHost)
        ∧ (s.dev.straps.bootSel = 1 → a = false → t.img.phase = .waitingHost) ∧ (s.dev.straps.bootSel = 2 → b = false → t.img.phase = .waitingHost)
        ∧ (s.dev.straps.bootSel = 0 → a = false → b = false → t.img.phase = .waitingHost)
        ∧ (s.dev.straps.bootSel = 0 → a = true → b = false → t.img.phase = .copying ∧ t.img.source = 1 ∧ t.img.otherSlot = false)
        ∧ (s.dev.straps.bootSel = 0 → a = false → b = true → t.img.phase = .copying ∧ t.img.source = 2 ∧ t.img.otherSlot = false)
        ∧ (s.dev.straps.bootSel = 0 → a = true → b = true → t.img.phase = .copying ∧ t.img.otherSlot = true
          ∧ t.img.source = if seqNewer (s.flash.slotB.readW 0xFF 0xC) (s.flash.slotA.readW 0xFF 0xC) then 2 else 1))

/-- SLOT_COPY_DONE and STAGED_COPY_DONE: STATE is VERIFY (COMMISSION stays), the crucible's first bytes are the slot's or the banks', the bytes
above them stay; a bank that has not stayed ON gives zeros; an urgent patrol holds the staged copy (R35, R428, R429, R431, R436, R443, R491,
R505). -/
def Obligations.CopiesBeginVerify : Prop :=
  ∀ s : State, s.memOk = true → s.copying = true →
    (∀ m : Mem, Mem.wf 0xFF m = true → s.bst.sector ≠ .erasing →
      (s.img.source = 1 ∧ m = s.flash.slotA) ∨ (s.img.source = 2 ∧ m = s.flash.slotB) → ∃ t, exec .slotCopyDone s = .next t
      ∧ t.dev.state = (if s.dev.state = .commission then DevState.commission else .verify) ∧ t.img.phase = .verifying
      ∧ t.img.tries = satInc s.img.tries
      ∧ (∀ a, Mem.read 0 t.crb.mem a = if a < (m.readW 0xFF 8).toNat then Mem.read 0xFF m a else Mem.read 0 s.crb.mem a)
      ∧ t.flash = s.flash ∧ t.spbs = s.spbs ∧ t.hps = s.hps ∧ t.otp = s.otp)
    ∧ (s.img.source = 4 → s.stagedBorrow = false → ∃ t, exec (.stagedCopyDone []) s = .next t
      ∧ t.dev.state = (if s.dev.state = .commission then DevState.commission else .verify) ∧ t.img.phase = .verifying
      ∧ t.img.tries = satInc s.img.tries
      ∧ (∀ a, a < (s.stagedBytes s.img.staged 32 s.img.stagedLen).length →
        Mem.read 0 t.crb.mem a = (s.stagedBytes s.img.staged 32 s.img.stagedLen).getD a 0)
      ∧ (∀ a, (s.stagedBytes s.img.staged 32 s.img.stagedLen).length ≤ a → Mem.read 0 t.crb.mem a = Mem.read 0 s.crb.mem a)
      ∧ t.flash = s.flash ∧ t.spbs = s.spbs ∧ t.hps = s.hps ∧ t.otp = s.otp)
    ∧ (s.img.source = 4 → s.stagedHeld = true → ∀ ecc, exec (.stagedCopyDone ecc) s = .next { s with img := { s.img with waits := true } })

/-- VERIFY_DONE in VERIFY, while its checks run or the ingot is distributed. Every check passed: STATE is RUN, the crucible is valid,
VERIFY_RESULT reads PASS, the first boundary stands at this instant, every output is commanded off. A check failed: STATE is LOAD, the
crucible is not valid, VERIFY_RESULT names the check and the index, VERIFY_FAIL latches; the other slot is tried once where the slot was
chosen by sequence number, else the loader waits for the host (R35, R85, R427, R433, R439). -/
def Obligations.VerifyDecides : Prop :=
  ∀ (ecc : List (BitVec 17 × EccErr)) (s : State), s.shaped = true → s.noChipReset = true → s.img.phase.checks = true → s.dev.state = .verify →
    let v := (s.verifyEcc ecc).sectorsChecked.verdict
    ∃ t, exec (.verifyDone ecc) s = .next t ∧ t.crb.valid = v.isNone ∧ t.dev.state = (if v.isNone then DevState.run else .load)
      ∧ t.crb.mem = s.crb.mem ∧ t.otp = s.otp ∧ t.ident = s.ident ∧ t.flash.slotA = s.flash.slotA ∧ t.flash.slotB = s.flash.slotB
      ∧ (v = none → t.img.phase = .idle ∧ t.img.verifyResult = 0xC0000000 ∧ t.frm.running = true ∧ t.frm.lastBnd = s.frm.tb
        ∧ ∀ u ∈ t.outs, u.cmdC = false ∧ u.cmdD = false)
      ∧ ∀ c i, v = some (c, i) → t.img.verifyResult = BitVec.ofNat 32 (2 ^ 31 + c * 2 ^ 16 + i % 2 ^ 16) ∧ t.flash = s.flash
        ∧ (s.img.otherSlot = false → t.img.phase = .waitingHost)
        ∧ (s.img.otherSlot = true → s.img.source = 1 → s.img.slotBOk = true → t.img.phase = .copying ∧ t.img.source = 2
          ∧ t.img.otherSlot = false)
        ∧ (s.img.otherSlot = true → s.img.source = 2 → s.img.slotAOk = true → t.img.phase = .copying ∧ t.img.source = 1
          ∧ t.img.otherSlot = false)
        ∧ (s.hears .img 1 = true → t.shows .img 1 = true)

/-- RECORD_STAMP_DONE and STAMP_TIMEOUT end the writing of the stamp: READY, or FAILED (R581). RECORD_WRITE_DONE in SHAKEOUT, its slices over:
the device idles; with the sector READY the record page is in the sector, its first words MAGIC, SSEQ and the device number; with another
SECTOR the sector is not written (R576, R579, R580). SHAKEOUT_AGE_TICK counts seconds, saturating, and sets SHAKEOUT_DUE once per START at
the age of SHAKE_WARN hours (R589, R590). -/
def Obligations.ShakeoutRecorded : Prop :=
  (∀ s : State, s.memOk = true → s.bst.sector = .erasing →
      (∃ t, exec (.recordStampDone true) s = .next t ∧ t.bst = { s.bst with sector := .ready, sseq := s.bst.nextSseq }
        ∧ Mem.readW 0xFF t.flash.sector 0 = 0x504D5453 ∧ Mem.readW 0xFF t.flash.sector 4 = s.bst.nextSseq
        ∧ Mem.readW 0xFF t.flash.sector 8 = wordAt s.ident.devNum 0
        ∧ (∀ a, 16 ≤ a → Mem.read 0xFF t.flash.sector a = Mem.read 0xFF s.flash.sector a)
        ∧ t = { s with flash := { s.flash with sector := t.flash.sector }, bst := t.bst })
      ∧ exec (.recordStampDone false) s = .next { s with bst := { s.bst with sector := .failed } }
      ∧ exec .stampTimeout s = .next { s with bst := { s.bst with sector := .failed } })
    ∧ (∀ (ok : Bool) (s : State), s.memOk = true → s.dev.state = .shakeout → s.bst.testing = false → s.bst.idle = false →
      ∃ t, exec (.recordWriteDone ok) s = .next t ∧ t.bst = { s.bst with idle := true, scanOn := false }
        ∧ (s.bst.sector ≠ .ready → t.flash = s.flash)
        ∧ (s.bst.sector = .ready → ok = true → Mem.readW 0xFF t.flash.sector 0x100 = 0x4B414853
          ∧ Mem.readW 0xFF t.flash.sector 0x104 = s.bst.sseq ∧ Mem.readW 0xFF t.flash.sector 0x108 = wordAt s.ident.devNum 0
          ∧ Mem.readW 0xFF t.flash.sector 0x10C = wordAt s.ident.devNum 1 ∧ Mem.readW 0xFF t.flash.sector 0x110 = s.shakeInfo)
        ∧ (∀ a, a < 0x100 → Mem.read 0xFF t.flash.sector a = Mem.read 0xFF s.flash.sector a)
        ∧ t = { s with flash := { s.flash with sector := t.flash.sector }, bst := t.bst })
    ∧ (∀ s : State, s.dev.state ≠ .off → s.dev.state ≠ .start → ∃ t, exec .shakeoutAgeTick s = .next t
      ∧ t.bst.age = satInc s.bst.age
      ∧ (s.bst.dueDone = true → t.bst.due = s.bst.due)
      ∧ (s.bst.dueDone = false → s.bst.warn.toNat * 3600 ≤ (satInc s.bst.age).toNat → t.bst.due = true ∧ t.bst.dueDone = true)
      ∧ ((satInc s.bst.age).toNat < s.bst.warn.toNat * 3600 → t.bst.due = s.bst.due ∧ t.bst.dueDone = s.bst.dueDone)
      ∧ t = { s with bst := { s.bst with age := t.bst.age, due := t.bst.due, dueDone := t.bst.dueDone }, marks := t.marks })

/-! The patrols (R122, R404, R405, R502 to R506, R587, R608). -/

/-- CRUCIBLE_PATROL_READ moves the position; a corrected error is counted, an uncorrectable one is latched, and in VERIFY, or while COMMISSION
checks an ingot, it is noted for the verdict with the lowest sector; the end of a pass is counted and timed (R404, R405, R435, R438).
SCRATCH_SEGMENT_START borrows the pending segment; SCRATCH_SEGMENT_DONE gives it back tested, counts it and the error it corrects, whose
place ERR_ADDR shows, latches a cell that fails and moves on, and the accesses that an urgent patrol held go on; ARBITER_AGING ages the
segment that waits (R502, R503, R505, R506, R512, R608). LSM_PATROL_READ moves the position of each half whose channel is not HALTED, and a
half whose channel is HALTED is left as it is; a corrected error is counted, an uncorrectable one is latched (R122, R587). -/
def Obligations.PatrolsRead : Prop :=
  (∀ s : State, s.shaped = true → s.noChipReset = true → s.cruciblePatrolOn = true →
      (s.crb.pos + 1 ≠ 0 → exec (.cruciblePatrolRead none) s = .next { s with crb := { s.crb with pos := s.crb.pos + 1 } })
      ∧ (∀ k : Bool, s.crb.pos + 1 ≠ 0 → ∃ t, exec (.cruciblePatrolRead (some { uncorr := false, checkBit := k })) s = .next t
        ∧ t.counter .crb 0x44 = satInc (s.counter .crb 0x44)
        ∧ t.crb.eccAddr = (0x80000000 : Word) ||| flag k 29 ||| BitVec.ofNat 32 (8 * s.crb.pos.toNat)
        ∧ t = { s with crb := { s.crb with pos := s.crb.pos + 1, eccAddr := t.crb.eccAddr }, hdrs := t.hdrs })
      ∧ (∀ k : Bool, s.crb.pos + 1 ≠ 0 → s.dev.state ≠ .verify →
        ∃ t, exec (.cruciblePatrolRead (some { uncorr := true, checkBit := k })) s = .next t ∧ (s.hears .crb 0 = true → t.shows .crb 0 = true)
          ∧ t.crb.eccAddr = (0xC0000000 : Word) ||| BitVec.ofNat 32 (8 * s.crb.pos.toNat)
          ∧ t.img = (if s.failsVerify then { s.img with eccSector := lowerSector s.img.eccSector s.crb.pos } else s.img)
          ∧ Quiet { s with crb := { s.crb with eccAddr := t.crb.eccAddr }, img := t.img } t)
      ∧ (∀ k : Bool, s.crb.pos + 1 ≠ 0 → s.dev.state = .verify →
        ∃ t, exec (.cruciblePatrolRead (some { uncorr := true, checkBit := k })) s = .next t
          ∧ t.img = { s.img with eccSector := lowerSector s.img.eccSector s.crb.pos }
          ∧ t = { s with crb := { s.crb with pos := s.crb.pos + 1, eccAddr := t.crb.eccAddr }, img := t.img })
      ∧ (s.crb.pos + 1 = 0 → s.frm.tb.toNat - s.crb.passStart.toNat ≤ 1000000 → ∃ t, exec (.cruciblePatrolRead none) s = .next t
        ∧ t.counter .crb 0x48 = satInc (s.counter .crb 0x48)
        ∧ t.counter .crb 0x50 = BitVec.ofNat 32 ((s.frm.tb.toNat - s.crb.passStart.toNat) / 100)
        ∧ t = { s with crb := { s.crb with pos := 0, passStart := s.frm.tb }, hdrs := t.hdrs }))
    ∧ (∀ s : State, s.shaped = true → s.noChipReset = true → s.scratchPatrolOn = true →
      (s.spc.borrowed = false → s.spc.waiting = true → s.patrolled s.spc.bank.toNat = true →
        exec .scratchSegmentStart s = .next { s with spc := { s.spc with borrowed := true, waiting := false } })
      ∧ (s.spc.borrowed = false → s.spc.waiting = false → s.patrolled s.spc.bank.toNat = true →
        exec .scratchSegmentStart s = .next { s with spc := { s.spc with borrowed := true, waiting := false, level := 0 } })
      ∧ (s.spc.waiting = true → s.spc.level.toNat < 4 → exec .arbiterAging s = .next { s with spc := { s.spc with level := s.spc.level + 1 } })
      ∧ (s.spc.borrowed = true → s.patrolled s.spc.bank.toNat = true → s.spc.seg ≠ 31 →
        (∃ t, exec (.scratchSegmentDone false []) s = .next t ∧ t.spc = { s.spc with borrowed := false, level := 0, seg := s.spc.seg + 1 }
          ∧ t.counter (spbOf s.spc.bank.toNat) 0x50 = satInc (s.counter (spbOf s.spc.bank.toNat) 0x50)
          ∧ t = { s with
              spc := t.spc, hdrs := t.hdrs, ctxs := s.ctxs.map fun (x : Ctx) => { x with waits := false }, img := { s.img with waits := false }
              hps := s.hps.map fun (p : Hp) => { p with txns := p.txns.map fun (x : Txn) => { x with held := false } } })
        ∧ (∀ (i : Fin 256) (k : Bool), ∃ t, exec (.scratchSegmentDone false [(i, { uncorr := false, checkBit := k })]) s = .next t
          ∧ t.counter (spbOf s.spc.bank.toNat) 0x44 = satInc (s.counter (spbOf s.spc.bank.toNat) 0x44)
          ∧ (t.spb s.spc.bank.toNat).errAddr
            = (0x80000000 : Word) ||| flag k 29 ||| flag true 28 ||| BitVec.ofNat 32 (1024 * s.spc.seg.toNat + 4 * i.val))
        ∧ ∃ t, exec (.scratchSegmentDone true []) s = .next t
          ∧ (s.hears (spbOf s.spc.bank.toNat) 1 = true → t.shows (spbOf s.spc.bank.toNat) 1 = true)))
    ∧ (∀ s : State, s.shaped = true → s.noChipReset = true → s.frm.running = true → s.bst.posC + 1 ≠ 0 → s.bst.posD + 1 ≠ 0 →
      (∀ e e' : Option Bool, s.cope.mode = .halted → s.drag.mode = .halted → exec (.lsmPatrolRead e e') s = .next s)
      ∧ (∀ e : Option Bool, s.cope.mode = .halted → s.drag.mode ≠ .halted →
        exec (.lsmPatrolRead e none) s = .next { s with bst := { s.bst with posD := s.bst.posD + 1 } })
      ∧ (∀ e : Option Bool, s.cope.mode ≠ .halted → s.drag.mode = .halted →
        exec (.lsmPatrolRead none e) s = .next { s with bst := { s.bst with posC := s.bst.posC + 1 } })
      ∧ (s.cope.mode ≠ .halted → s.drag.mode ≠ .halted →
      exec (.lsmPatrolRead none none) s = .next { s with bst := { s.bst with posC := s.bst.posC + 1, posD := s.bst.posD + 1 } }
      ∧ (∃ t, exec (.lsmPatrolRead (some false) none) s = .next t ∧ t.counter .cop 0x58 = satInc (s.counter .cop 0x58)
        ∧ t = { s with bst := { s.bst with posC := s.bst.posC + 1, posD := s.bst.posD + 1 }, hdrs := t.hdrs
                       cope := { s.cope with lsmErr := t.cope.lsmErr } })
      ∧ (∃ t, exec (.lsmPatrolRead (some true) none) s = .next t ∧ (s.hears .cop 0 = true → t.shows .cop 0 = true))
      ∧ ∃ t, exec (.lsmPatrolRead none (some true)) s = .next t ∧ (s.hears .drg 0 = true → t.shows .drg 0 = true)))

/-! Frames (R81 to R99, R124 to R129, R465, R561). -/

/-- FRAME_BOUNDARY without SYNC_IN, SYNC_IN_EDGE in the window at or after E, EARLIEST_BOUNDARY of a deferred boundary and SYNC_WINDOW_END
without an edge begin the next frame; an edge before E defers the boundary and counts as LATE, one outside the window as STRAY, a window
without an edge as MISS; an edge of the other polarity than SYNC_POL's changes nothing (R87, R95, R96, R103, R109). That PHASE reads 0 in a
frame that is not evaluated is the model's choice (log 85). -/
def Obligations.BoundaryBegins : Prop :=
  ∀ s : State, s.shaped = true → s.frm.running = true → (s.dev.state ≠ .safe ∨ s.prog.safeReset = false) →
    (s.syncOn = false → ∃ t, exec .frameBoundary s = .next t ∧ Begun s t false false)
    ∧ (s.syncOn = true → s.prog.edgeSeen = false → s.inSyncWindow = true → s.afterE = true →
        ∃ t, exec (.syncInEdge (!s.frm.syncCfg.getLsbD 30)) s = .next t ∧ Begun s t true false)
    ∧ (s.prog.defer = true → ∃ t, exec .earliestBoundary s = .next t ∧ Begun s t false true)
    ∧ (s.syncOn = true → s.prog.edgeSeen = false → ∃ t, exec .syncWindowEnd s = .next t ∧ Begun (s.syncEvent 1) t false false
        ∧ t.frm.syncEvents = putBit s.frm.syncEvents 1 true)
    ∧ (s.syncOn = true → s.prog.edgeSeen = false → s.inSyncWindow = true → s.afterE = false →
        ∃ t, exec (.syncInEdge (!s.frm.syncCfg.getLsbD 30)) s = .next t ∧ t.counter .frm 0x44 = satInc (s.counter .frm 0x44)
        ∧ t = { s with
            prog := { s.prog with edgeSeen := true, defer := true }, hdrs := t.hdrs, marks := t.marks
            frm := { s.frm with syncEvents := putBit s.frm.syncEvents 0 true } })
    ∧ (s.syncOn = true → (s.prog.edgeSeen = true ∨ s.inSyncWindow = false) →
        ∃ t, exec (.syncInEdge (!s.frm.syncCfg.getLsbD 30)) s = .next t ∧ t.counter .frm 0x4C = satInc (s.counter .frm 0x4C)
        ∧ t = { s with hdrs := t.hdrs, marks := t.marks, frm := { s.frm with syncEvents := putBit s.frm.syncEvents 2 true } })
    ∧ exec (.syncInEdge (s.frm.syncCfg.getLsbD 30)) s = .next s

/-- RAW_VECTOR_ARRIVAL forms the agreed vector of both channels, a bit of which is 1 exactly where both raw bits are, with QUAL and OQUAL as
sampled, and moves every input's disagreement counter; EXCHANGE_RAW_TIMEOUT, for bits late or failing their check, makes a die's raw bits 0
in the channel and is a lane error of the die; XCHG_TIMEOUT latches (R124 to R129, R155, R313, R349, R631). EXERCISE_PAIR on healthy
comparators passes and is counted; a comparator that reports MATCH for the pair latches CMP_EXERCISE. AGREE_COMPARE of equal agreed vectors
presents four entries and changes nothing else; of different ones it latches AGREE_MISMATCH (R131, R140, R155, R172, R173). -/
def Obligations.ExchangeForms : Prop :=
  (∀ s : State, s.shaped = true → s.noChipReset = true → s.exchanging = true → s.prog.exchanged = false →
      (∃ t, exec .rawVectorArrival s = .next t ∧ t.prog.exchanged = true ∧ t.cope.agreed = s.cope.raw &&& s.drag.raw
        ∧ t.drag.agreed = s.cope.raw &&& s.drag.raw ∧ t.cope.qual = s.sampledQual ∧ t.drag.qual = s.sampledQual
        ∧ t.cope.oqual = s.sampledOqual ∧ t.drag.oqual = s.sampledOqual ∧ t.cope.lsm = s.cope.lsm ∧ t.drag.lsm = s.drag.lsm
        ∧ (∀ i, i < s.cope.disCount.length → t.cope.disCount.getD i 0
            = if s.cope.raw.getLsbD i = s.drag.raw.getLsbD i then 0 else satInc (s.cope.disCount.getD i 0))
        ∧ (s.prog.decidedAt = none → t.frm = s.frm) ∧ t.comps = s.comps ∧ t.crb.mem = s.crb.mem)
      ∧ (∀ (d : Fin 2) (h : Half) (failed : Bool), d.val < s.dies → ∃ t, exec (.exchangeRawTimeout d h failed) s = .next t
        ∧ (t.chan h).raw = (s.chan h).raw &&& ~~~(dieMask d.val) ∧ (t.chan h.other).raw = (s.chan h.other).raw
        ∧ ((s.bar d).fenced = false → s.hears (.bar d) 0 = true → t.shows (.bar d) 0 = true)
        ∧ t.frm = s.frm ∧ t.comps = s.comps ∧ t.crb.mem = s.crb.mem)
      ∧ ∀ h : Half, ∃ t, exec (.xchgTimeout h) s = .next t ∧ Quiet s t ∧ (s.hears .cmp 9 = true → t.shows .cmp 9 = true))
    ∧ (∀ s : State, s.shaped = true → s.noChipReset = true → s.exchanging = true → s.cmp.active = true →
      (∃ t, exec (.exercisePair {}) s = .next t ∧ t.counter .cmp 0x4C = satInc (s.counter .cmp 0x4C)
        ∧ t = { s with cmp := { s.cmp with exOk := true, exBit := BitVec.ofNat 6 (s.frm.frameNum.toNat % 64) }, hdrs := t.hdrs })
      ∧ (∀ u : Upset, u.parity = false → (u.stuckC = some true ∨ u.stuckD = some true) → ∃ t, exec (.exercisePair u) s = .next t
        ∧ t.cmp.exOk = false ∧ (s.hears .cmp 5 = true → t.shows .cmp 5 = true))
      ∧ (s.prog.exchanged = true → s.cope.agreed = s.drag.agreed →
        exec (.agreeCompare {}) s = .next { s with prog := { s.prog with entries := s.prog.entries + 4 } })
      ∧ (s.prog.exchanged = true → s.cope.agreed ≠ s.drag.agreed → ∃ t, exec (.agreeCompare {}) s = .next t
        ∧ t.prog.mismatchAt ≠ none ∧ (s.hears .cmp 3 = true → t.shows .cmp 3 = true)))

/-- EVALUATE_START: both channels begin at ENTRY, or at TRAP_VECTOR where the same trap waits in both, which moves into TRAP_SRC; CMP holds the
vectors of the frame, and context 7 takes the frame's seed; a trap that waits in one channel alone is a TRAP_MISMATCH (R81, R150, R152,
R178, R529). -/
def Obligations.EvaluateBegins : Prop :=
  ∀ s : State, s.shaped = true → s.exchanging = true →
    (s.cope.trapPend = 0 → s.drag.trapPend = 0 → ∃ t, exec (.evaluateStart {}) s = .next t ∧ t.frm = { s.frm with phase := 2 }
      ∧ t.prog = { s.prog with evaluating := true, state := s.dev.state, safeFirst := decide (s.dev.state = .safe) && !s.dev.safeFrames }
      ∧ t.cope.mode = .evaluating ∧ t.drag.mode = .evaluating ∧ t.cope.pc = s.img.entry &&& 0xFFFFC ∧ t.drag.pc = s.img.entry &&& 0xFFFFC
      ∧ t.cmp.rawC = s.cope.raw ∧ t.cmp.rawD = s.drag.raw ∧ t.cmp.agreed = s.cope.agreed ∧ t.cope.lsm = s.cope.lsm ∧ t.drag.lsm = s.drag.lsm
      ∧ ((s.ctx 7).fenced = false → (t.ctx 7).value = 0xFFFFFFFF ^^^ s.frm.frameNum)
      ∧ t.dev = { s.dev with safeFrames := s.dev.safeFrames || decide (s.dev.state = .safe) }
      ∧ t = { s with frm := t.frm, prog := t.prog, dev := t.dev, cmp := t.cmp, cope := t.cope
                     drag := t.drag, chk := { s.chk with fed := 0 }, ctxs := t.ctxs })
    ∧ (s.cope.trapPend ≠ 0 → s.drag.trapPend = s.cope.trapPend → ∃ t, exec (.evaluateStart {}) s = .next t ∧ t.cope.mode = .inHandler
      ∧ t.drag.mode = .inHandler
      ∧ t.cope.pc = s.img.trapVector &&& 0xFFFFC ∧ t.cope.retPc = some (s.img.entry &&& 0xFFFFC)
      ∧ t.cope.trapSrc = s.cope.trapPend ∧ t.cope.trapPend = 0 ∧ t.cope.trapFrame = s.frm.frameNum
      ∧ t.drag.pc = s.img.trapVector &&& 0xFFFFC ∧ t.drag.retPc = some (s.img.entry &&& 0xFFFFC)
      ∧ t.drag.trapSrc = s.cope.trapPend ∧ t.drag.trapPend = 0 ∧ t.drag.trapFrame = s.frm.frameNum
      ∧ t.counter .cop 0x60 = satInc (s.counter .cop 0x60) ∧ t.counter .drg 0x60 = satInc (s.counter .drg 0x60) ∧ t.hdr .cmp = s.hdr .cmp)
    ∧ (s.noChipReset = true → s.cmp.active = true → (s.cope.trapPend ≠ 0 ∧ s.drag.trapPend = 0) ∨ (s.cope.trapPend = 0 ∧ s.drag.trapPend ≠ 0) →
      ∃ t, exec (.evaluateStart {}) s = .next t ∧ t.prog.mismatchAt ≠ none ∧ (s.hears .cmp 2 = true → t.shows .cmp 2 = true))

/-- If EVALUATE has not ended at boundary + WCET, FRM latches OVERRUN at that instant, and the frame's COMMIT_AT sends no strobe, so that no
output changes at it (R84). -/
def Obligations.OverrunLatches : Prop :=
  ∀ s : State, s.shaped = true → s.noChipReset = true → s.inEvalFrame = true → s.evaluates = true → s.prog.evalEnded = false →
    s.prog.commitDone = false →
    (s.prog.overrun = false → ∃ t, exec .overrun s = .next t ∧ t.prog.overrun = true ∧ (s.hears .frm 0 = true → t.shows .frm 0 = true)
      ∧ t.outs.map (fun u => (u.cmdC, u.cmdD)) = s.outs.map (fun u => (u.cmdC, u.cmdD)))
    ∧ (s.prog.overrun = true → ∃ t, exec .commitAt s = .next t ∧ t.prog.commitDone = true ∧ t.prog.strobe = .none ∧ t.prog.strobed = 0
      ∧ t.frm.result = 3 ∧ ∀ d : Fin 2, exec (.strobeApply d) t = .next t)

/-- COMMIT_AT decides by the first row of R88 whose condition holds: no strobe and WITHHELD where STATE has left RUN or COMMISSION or a
SAFE_STOP of the frame is in progress, at an overrun, or without every acknowledgment (ARM_FAIL latches); off-only after a mismatch or a
channel cause of this very cycle; else full, to every die that counts. The frame is published where its EVALUATE ended in time and no
channel cause has latched, else FBS and the PUB registers stay (R88, R93, R112, R157, R529). How the first row reads a cause of COP, DRG or
CMP, and COMMISSION, is DEDUCED (log 28). ARM_ACK of a die that counts is noted while vectors are armed and the commit is not decided; a die
that was sent a strobe and has not applied it discards its vector with COMMIT_SPLIT where the other die has applied it (R88, R90). -/
def Obligations.CommitDecides : Prop :=
  (∀ s : State, s.shaped = true → s.noChipReset = true → s.inEvalFrame = true → s.prog.commitDone = false →
      ∃ t, exec .commitAt s = .next t ∧ t.prog.commitDone = true ∧ t.frm.commitFrame = s.frm.frameNum ∧ t.frm.lastBnd = s.frm.lastBnd
        ∧ (s.commitStopped = true → t.prog.strobe = .none ∧ t.prog.strobed = 0 ∧ t.frm.result = 3)
        ∧ (s.commitStopped = false → s.prog.overrun = true → t.prog.strobe = .none ∧ t.prog.strobed = 0 ∧ t.frm.result = 3)
        ∧ (s.commitStopped = false → s.prog.overrun = false → s.allArmed = false → t.prog.strobe = .none ∧ t.prog.strobed = 0
          ∧ t.frm.result = 3 ∧ (s.hears .frm 1 = true → t.shows .frm 1 = true))
        ∧ (s.commitStopped = false → s.prog.overrun = false → s.allArmed = true → (s.prog.mismatchAt ≠ none ∨ s.causeNow = true) →
          t.prog.strobe = .offOnly ∧ t.frm.result = 2 ∧ t.prog.strobed = vecOf 2 s.dieCounts)
        ∧ (s.commitStopped = false → s.prog.overrun = false → s.allArmed = true → s.prog.mismatchAt = none → s.causeNow = false →
          t.prog.strobe = .full ∧ t.frm.result = 1 ∧ t.prog.strobed = vecOf 2 s.dieCounts)
        ∧ (s.publishes = false → t.fbs = s.fbs ∧ t.chk = s.chk)
        ∧ (s.publishes = true → t.fbs = s.fbsBuf ∧ t.chk.pubFrame = s.frm.frameNum ∧ t.chk.pubWords = s.chk.fed
          ∧ ((s.ctx 7).fenced = false → t.chk.pubCrc = (s.ctx 7).value ^^^ 0xFFFFFFFF)))
    ∧ ((∀ (d : Fin 2) (h : Half) (s : State), s.prog.armedC ≠ none → s.prog.armedD ≠ none → s.prog.commitDone = false → s.dieCounts d.val = true →
        exec (.armAck d h) s = .next { s with prog := { s.prog with acks := putBit s.prog.acks (2 * d.val + h.num) true } })
      ∧ ∀ (d : Fin 2) (s : State), s.shaped = true → s.noChipReset = true → s.prog.strobed.getLsbD d = true →
        s.prog.applied.getLsbD d = false → s.prog.applied.getLsbD (1 - d.val) = true → (s.bar d).fenced = false →
        ∃ t, exec (.commitSplit d) s = .next t ∧ (s.hears .frm 2 = true → t.shows .frm 2 = true)
          ∧ Quiet { s with prog := { s.prog with applied := putBit s.prog.applied d true } } t)

/-- STROBE_APPLY at a die that has its strobe and is not in chill: the commands of its outputs become the armed bits, of an off-only strobe only
where they turn an output off; a latch whose output is commanded off and not in trip demand clears, and every other latch stays; no other
die's commands change. A die in chill applies nothing (R88, R89, R99, R192, R357). That FRAME_OUT of mode 3 rises at the frame's first
STROBE_APPLY is DEDUCED (log 30). -/
def Obligations.StrobeApplies : Prop :=
  ∀ (d : Fin 2) (s : State), s.shaped = true → s.prog.strobe ≠ .none → s.prog.strobed.getLsbD d = true → s.prog.applied.getLsbD d = false →
    let f := if s.prog.applied = 0 ∧ s.frm.frameOutCfg.extractLsb' 8 2 = 3 then { s.frm with frameOut := true, frameOutAt := s.frm.tb } else s.frm
    ((s.bar d).chill = true → exec (.strobeApply d) s = .next { s with frm := f, prog := { s.prog with applied := putBit s.prog.applied d true } })
    ∧ ((s.bar d).chill = false → ∃ t, exec (.strobeApply d) s = .next t ∧ t.prog.applied = putBit s.prog.applied d true
      ∧ (∀ o, o < 64 → dieOfBank (bankOfOutput o) = d.val →
        (t.out o).cmdC = ((s.prog.armedC.getD 0).getLsbD o && (s.prog.strobe == .full || (s.out o).cmdC))
        ∧ (t.out o).cmdD = ((s.prog.armedD.getD 0).getLsbD o && (s.prog.strobe == .full || (s.out o).cmdD)))
      ∧ (∀ o, o < 64 → dieOfBank (bankOfOutput o) ≠ d.val → (t.out o).cmdC = (s.out o).cmdC ∧ (t.out o).cmdD = (s.out o).cmdD
        ∧ (t.out o).hold = (s.out o).hold)
      ∧ (∀ n, n < 48 → t.trp.tlC.getLsbD n
        = ((s.tripVec .c).getLsbD n || (s.trp.tlC.getLsbD n && !(n / 24 == d.val && !(t.out n).cmdC))))
      ∧ (∀ n, n < 48 → t.trp.tlD.getLsbD n
        = ((s.tripVec .d).getLsbD n || (s.trp.tlD.getLsbD n && !(n / 24 == d.val && !(t.out n).cmdD))))
      ∧ t = { s with prog := { s.prog with applied := t.prog.applied }, frm := f, outs := t.outs, trp := t.trp, hdrs := t.hdrs })

/-- PERMIT_LATCH, where no port times out anew: the word in force of a port is its staged word while its host refreshes in time, else 0 with
TIMED_OUT; a port that has been refreshed and times out latches PERMIT_TO; the configuration check of BACKGROUND latches CFG_ERR of an input
bank's page found corrupt. FRAME_OUT_END ends a pulse of FRAME_OUT once FO_WIDTH has passed, and not before (R94, R99, R110, R321, R465,
R471). -/
def Obligations.PermitsLatch : Prop :=
  (∀ s : State, s.hps.length = 4 → s.frm.running = true → s.prog.published = false → (s.prog.commitDone = true ∨ s.inEvalFrame = false) →
      (∀ n, n < 4 → (s.hp n).timedOut = true ∨ ((s.hp n).refreshed = true ∧ (s.hp n).everRefreshed = true ∧ (s.hp n).timeout ≠ 0)) →
      ∃ t, exec (.permitLatch []) s = .next t ∧ t.prog.published = true
        ∧ (∀ n, n < 4 → (s.hp n).refreshed = true → (s.hp n).everRefreshed = true → (s.hp n).timeout ≠ 0 →
          (t.hp n).used = (s.hp n).permitHi ++ (s.hp n).permitLo ∧ (t.hp n).timedOut = false ∧ (t.hp n).age = 0)
        ∧ (∀ n, n < 4 → (s.hp n).everRefreshed = false → (t.hp n).used = 0 ∧ (t.hp n).timedOut = true)
        ∧ (∀ n, n < 4 → (t.hp n).refreshed = false ∧ (t.hp n).permitLo = (s.hp n).permitLo ∧ (t.hp n).txns = (s.hp n).txns)
        ∧ t = { s with
          hps := t.hps, prog := { s.prog with published := true }, frm := { s.frm with phase := if s.prog.evalFrame then 6 else s.frm.phase } })
    ∧ (∀ (b : Fin 8) (s : State), s.shaped = true → s.noChipReset = true → s.frm.running = true → s.prog.published = false →
      (s.prog.commitDone = true ∨ s.inEvalFrame = false) → (∀ n, n < 4 → (s.hp n).timedOut = true) →
      ∃ t, exec (.permitLatch [.fib b]) s = .next t ∧ t.prog.published = true ∧ (s.hears (.fib b) 9 = true → t.shows (.fib b) 9 = true))
    ∧ (∀ (n : Fin 4) (s : State), s.shaped = true → s.noChipReset = true → s.frm.running = true → s.prog.published = false →
      (s.prog.commitDone = true ∨ s.inEvalFrame = false) → (∀ k, k < 4 → k ≠ n.val → (s.hp k).timedOut = true) → (s.hp n).timedOut = false →
      (s.hp n).refreshed = false → (s.hp n).everRefreshed = true → (s.hp n).timeout ≤ satInc (s.hp n).age →
      ∃ t, exec (.permitLatch []) s = .next t ∧ t.prog.published = true ∧ (s.hears (hpOf n) 6 = true → t.shows (hpOf n) 6 = true))
    ∧ ∀ s : State, s.frm.frameOutCfg.extractLsb' 8 2 = 1 ∨ s.frm.frameOutCfg.extractLsb' 8 2 = 3 →
      exec .frameOutEnd s = .next (if s.frm.frameOutAt.toNat + s.frameOutWidth ≤ s.frm.tb.toNat then { s with frm := { s.frm with frameOut := false } } else s)

/-! The evaluation channels (R117 to R171, R404 to R418). -/

/-- EVAL whose instances' types are defined and whose next cache line is there runs in both channels alike: the PC moves on, the instances are
marked done, no other LSM byte changes, nothing latches, and the channels agree as before; of one instance, each channel's record becomes
what the block computes of it (R117, R135, R416). -/
def Obligations.EvalKeepsLockstep : Prop :=
  (∀ s : State, s.shaped = true → s.memOk = true → s.dev.dbgSplit = false → s.cope.mode = .evaluating → s.cope.refill = none →
      s.prog.evaluating = true → opOf (s.fetch .c 0) = 1 → s.illegalWord .c = false → s.trapDue = false → s.agree →
      (∀ i ∈ instancesOf (s.fetch .c 0), ∀ h : Half, outputsOf ((s.constWord h i 0).extractLsb' 24 8).toNat ≠ 0) →
      ∃ t, exec (.eval {}) s = .next t ∧ t.cope.pc = s.cope.pc + 4 ∧ t.drag.pc = s.drag.pc + 4 ∧ t.agree
        ∧ (∀ i ∈ instancesOf (s.fetch .c 0), i < 512 → t.cope.done.getLsbD i = true)
        ∧ t.prog.mismatchAt = s.prog.mismatchAt ∧ t.hdrs = s.hdrs ∧ t.frm = s.frm ∧ t.outs = s.outs ∧ t.trp = s.trp ∧ t.crb = s.crb
        ∧ (∀ a, (∀ i ∈ instancesOf (s.fetch .c 0), a < 64 * i ∨ 64 * i + 64 ≤ a) → Mem.read 0 t.cope.lsm a = Mem.read 0 s.cope.lsm a))
    ∧ (∀ (s : State) (i : Nat), s.memOk = true → s.dev.dbgSplit = false → s.cope.mode = .evaluating → s.cope.refill = none →
      s.prog.evaluating = true → opOf (s.fetch .c 0) = 1 → s.illegalWord .c = false → instancesOf (s.fetch .c 0) = [i] → i < 512 →
        s.trapDue = false → s.agree → s.cope.done.getLsbD i = false →
      outputsOf ((s.constWord .c i 0).extractLsb' 24 8).toNat ≠ 0 →
      ∃ t, exec (.eval {}) s = .next t ∧ t.recordOf .c i = (evalBlock (s.recordOf .c i) (s.blockIn .c i)).1
        ∧ t.recordOf .d i = (evalBlock (s.recordOf .d i) (s.blockIn .d i)).1)

/-- FORCE in the handler marks its instances in both channels and moves on; END of the handler returns to where the trap was taken (R152, R416,
R418). PUB: the records of its instances reach the publish bank word by word, COPE's and DRAG's entries alike; both channels move on, and no
LSM changes (R134, R416, R494, R529). -/
def Obligations.HandlerWordsRun : Prop :=
  (∀ s : State, s.dev.dbgSplit = false → s.cope.mode = .inHandler → s.cope.refill = none → s.prog.evaluating = true →
      s.illegalWord .c = false →
      (opOf (s.fetch .c 0) = 2 → ∃ t, exec (.force {}) s = .next t
        ∧ (∀ i, i < 512 → t.cope.forceNow.getLsbD i = (s.cope.forceNow.getLsbD i || (instancesOf (s.fetch .c 0)).contains i))
        ∧ (∀ i, i < 512 → t.drag.forceNow.getLsbD i = (s.drag.forceNow.getLsbD i || (instancesOf (s.fetch .c 0)).contains i))
        ∧ t = { s with
            cope := { s.cope with forceNow := t.cope.forceNow, pc := s.cope.pc + 4, regGen := s.cope.regGen + 1 }
            drag := { s.drag with forceNow := t.drag.forceNow, pc := s.drag.pc + 4, regGen := s.drag.regGen + 1 } })
      ∧ (opOf (s.fetch .c 0) = 15 → exec (.endWord {}) s = .next { s with
          cope := { s.cope with mode := .evaluating, pc := s.cope.retPc.getD s.cope.pc, retPc := none, regGen := s.cope.regGen + 1 }
          drag := { s.drag with mode := .evaluating, pc := s.drag.retPc.getD s.drag.pc, retPc := none, regGen := s.drag.regGen + 1 } }))
    ∧ (∀ s : State, s.shaped = true → s.memOk = true → s.dev.dbgSplit = false → s.cope.runs = true → s.cope.refill = none →
      s.prog.evaluating = true → s.cmp.active = true → opOf (s.fetch .c 0) = 3 → s.illegalWord .c = false → s.agree →
      let bank := ((s.fetch .c 4).extractLsb' 16 4).toNat
      let off := 64 * ((s.fetch .c 4).extractLsb' 6 9).toNat
      let a := 64 * firstOf (s.fetch .c 0)
      let n := 16 * countOf (s.fetch .c 0)
      ∃ t, exec (.pub {}) s = .next t ∧ t.cope.pc = s.cope.pc + 8 ∧ t.drag.pc = s.drag.pc + 8 ∧ t.cope.lsm = s.cope.lsm ∧ t.drag.lsm = s.drag.lsm
        ∧ ((s.spb bank).power = .on → (s.spb bank).fenced = false → ∀ k, k < n →
          (t.spb bank).mem.readW 0 (off + 4 * k) = s.lsmWord .c (a + 4 * k))
        ∧ ((s.spb bank).power = .on → (s.spb bank).fenced = false → ∀ b, b < off ∨ off + 4 * n ≤ b →
          Mem.read 0 (t.spb bank).mem b = Mem.read 0 (s.spb bank).mem b)
        ∧ (((s.spb bank).power ≠ .on ∨ (s.spb bank).fenced = true) → (t.spb bank).mem = (s.spb bank).mem)
        ∧ (∀ k, k < 16 → k ≠ bank → t.spb k = s.spb k) ∧ t.prog.mismatchAt = s.prog.mismatchAt ∧ t.fbs = s.fbs)

/-- END of the main program ends EVALUATE: the output words are formed and armed, a safety output's bit being Q0 of its OUTPAIR, and the
fingerprints of the frame are computed; alike in both channels they latch nothing (R88, R131, R143 to R147, R164). The bits of the AX
outputs are free: no rule states which block drives them. -/
def Obligations.EndArmsOutputs : Prop :=
  ∀ s : State, s.shaped = true → s.dev.dbgSplit = false → s.cope.mode = .evaluating → s.cope.refill = none → s.prog.evaluating = true →
    opOf (s.fetch .c 0) = 15 → s.illegalWord .c = false → s.agree → ∃ t, exec (.endWord {}) s = .next t ∧ t.prog.evalEnded = true
      ∧ t.prog.evaluating = false
      ∧ t.cope.mode = .idle ∧ t.drag.mode = .idle
      ∧ t.frm = { s.frm with phase := if s.prog.commitDone || s.prog.published then s.frm.phase else 3 }
      ∧ t.prog.armedC = some t.cope.out ∧ t.prog.armedD = some t.cope.out ∧ t.cope.out = t.drag.out ∧ t.cope.out.setWidth 48 = s.soWord .c
      ∧ t.cmp.fpFrame = s.frm.frameNum ∧ t.cmp.fpCope = s.fingerprint .c ∧ t.cmp.fpDrag = t.cmp.fpCope
      ∧ t.prog.mismatchAt = s.prog.mismatchAt ∧ (∀ p : Page, (t.hdr p).latch = (s.hdr p).latch) ∧ t.cope.lsm = s.cope.lsm
      ∧ t.drag.lsm = s.drag.lsm ∧ t.outs = s.outs

/-- CACHE_FILL ends the stall of both channels: a line of CODE or of BLOCKS holds the crucible's bytes, complemented in DRAG, and the refetch is
counted; where the copy of a half reads with a parity error again, both stall anew, and the second such error of a frame latches CACHE_HARD;
without a stall it changes nothing. STALL_TIMEOUT latches on the page of a channel that executes a program and changes nothing of one that
does not (R119, R120, R123, R164, R438). That a line is a double-word is DEDUCED (log 45); that an uncorrectable one fills the line as it is
stored (log 80), and that CACHE_FILL without a stall and STALL_TIMEOUT of a channel that runs nothing change nothing (log 2), are the
model's choices. -/
def Obligations.CacheRefills : Prop :=
  ∀ s : State, s.shaped = true → s.memOk = true →
    (∀ line, s.cope.refill = some line → s.img.codeAt ≤ 8 * line.toNat → 8 * line.toNat < s.img.codeAt + s.img.codeSize →
      ∃ t, exec (.cacheFill none none) s = .next t ∧ t.cope.refill = none ∧ t.drag.refill = none
        ∧ (∀ k, k < 8 → Mem.read 0 t.cope.icache (8 * line.toNat + k - s.img.codeAt) = Mem.read 0 s.crb.mem (8 * line.toNat + k)
          ∧ Mem.read 0xFF t.drag.icache (8 * line.toNat + k - s.img.codeAt) = ~~~(Mem.read 0 s.crb.mem (8 * line.toNat + k)))
        ∧ t.counter .crb 0x4C = satInc (s.counter .crb 0x4C)
        ∧ t = { s with
            hdrs := t.hdrs, cope := { s.cope with icache := t.cope.icache, refill := none }
            drag := { s.drag with icache := t.drag.icache, refill := none } })
    ∧ (∀ line, s.cope.refill = some line → (8 * line.toNat < s.img.codeAt ∨ s.img.codeAt + s.img.codeSize ≤ 8 * line.toNat) →
      s.img.blocksAt ≤ 8 * line.toNat → ∃ t, exec (.cacheFill none none) s = .next t
        ∧ (∀ k, k < 8 → Mem.read 0 t.cope.kcache (8 * line.toNat + k - s.img.blocksAt) = Mem.read 0 s.crb.mem (8 * line.toNat + k)
          ∧ Mem.read 0xFF t.drag.kcache (8 * line.toNat + k - s.img.blocksAt) = ~~~(Mem.read 0 s.crb.mem (8 * line.toNat + k)))
        ∧ t = { s with
            hdrs := t.hdrs, cope := { s.cope with kcache := t.cope.kcache, refill := none }
            drag := { s.drag with kcache := t.drag.kcache, refill := none } })
    ∧ (s.cope.refill = none → ∀ ecc again, exec (.cacheFill ecc again) s = .next s)
    ∧ (∀ (line : BitVec 17) (e : EccErr), s.noChipReset = true → s.cope.refill = some line → s.img.codeAt ≤ 8 * line.toNat →
      8 * line.toNat < s.img.codeAt + s.img.codeSize → ∃ t, exec (.cacheFill (some e) none) s = .next t ∧ t.cope.refill = none
        ∧ t.drag.refill = none ∧ ∀ k, k < 8 →
          Mem.read 0 t.cope.icache (8 * line.toNat + k - s.img.codeAt) = Mem.read 0 s.crb.mem (8 * line.toNat + k)
          ∧ Mem.read 0xFF t.drag.icache (8 * line.toNat + k - s.img.codeAt) = ~~~(Mem.read 0 s.crb.mem (8 * line.toNat + k)))
    ∧ (∀ (line : BitVec 17) (h : Half), s.noChipReset = true → s.cope.refill = some line → ∃ t, exec (.cacheFill none (some h)) s = .next t
      ∧ (t.chan h).refetched = line :: (s.chan h).refetched
      ∧ (s.cope.refetched.contains line = false → s.drag.refetched.contains line = false → t.cope.refill = some line
        ∧ t.drag.refill = some line ∧ t.counter h.page 0x5C = satInc (s.counter h.page 0x5C))
      ∧ (s.cope.refetched.contains line = true ∨ s.drag.refetched.contains line = true → s.hears h.page 5 = true → t.shows h.page 5 = true))
    ∧ (∀ h : Half, s.noChipReset = true → (s.chan h).runs = true → ∃ t, exec (.stallTimeout h) s = .next t
      ∧ Quiet s t ∧ (s.hears h.page 2 = true → t.shows h.page 2 = true))
    ∧ (∀ h : Half, (s.chan h).runs = false → exec (.stallTimeout h) s = .next s)

/-- BREAKPOINT_HIT in COMMISSION halts the channel at its breakpoint, parks the other, splits them and closes the comparators, and so does HALT
by DBG_ACCESS; both channels' memories stay. DBG_ACCESS in COMMISSION reads and writes the debug registers: STEP of a stopped channel runs
the one word at its PC alone and leaves it HALTED, RESUME lets it run on from its PC; elsewhere it acts as BYPASS. STOP_PC and LSM_ERR of
the page read the stop point, 0 in other modes, and the latest LSM error (R160 to R162, R169 to R171, R647). -/
def Obligations.DebugActs : Prop :=
  ∀ (h : Half) (s : State), s.shaped = true → s.noChipReset = true →
    (s.dev.state = .commission → (s.chan h).bpEn = true → (s.chan h).runs = true → (s.chan h).pc = (s.chan h).bp → s.dev.dbgSplit = false →
      (s.chan h.other).mode ≠ .trapped → ∃ t, exec (.breakpointHit h) s = .next t ∧ t.dev.dbgSplit = true ∧ (t.chan h).mode = .halted
        ∧ (t.chan h.other).mode = .parked ∧ (t.chan h).stopPc = (s.chan h).pc ∧ t.cmp.active = false
        ∧ (t.chan h).lsm = (s.chan h).lsm ∧ (t.chan h.other).lsm = (s.chan h.other).lsm
        ∧ (s.prog.decidedAt ≠ some s.frm.tb → t.frm = s.frm)
        ∧ (s.hears h.page 4 = true → t.shows h.page 4 = true))
    ∧ (s.dev.state = .commission →
      exec (.dbgAccess h 0x180 none) s = .next { s with jtag := { s.jtag with ir := 0x20, data := flag (s.chan h).bpEn 3 } })
    ∧ (s.dev.state = .commission →
      exec (.dbgAccess h 0x184 none) s = .next { s with jtag := { s.jtag with ir := 0x20, data := (s.chan h).bp.setWidth 32 } }
      ∧ exec (.dbgAccess h 0x188 none) s = .next { s with jtag := { s.jtag with ir := 0x20, data := (s.chan h).pc.setWidth 32 } }
      ∧ exec (.dbgAccess h 0x18C none) s = .next { s with jtag := { s.jtag with ir := 0x20, data := (s.chan h).regSel.setWidth 32 } }
      ∧ exec (.dbgAccess h 0x194 none) s = .next { s with jtag := { s.jtag with ir := 0x20, data := (s.chan h).memAddr.setWidth 32 <<< 2 } }
      ∧ (((s.chan h).mode = .halted ∨ (s.chan h).mode = .parked) → exec (.dbgAccess h 0x198 none) s
        = .next { s with jtag := { s.jtag with ir := 0x20, data := s.lsmWord h (4 * (s.chan h).memAddr.toNat) } })
      ∧ ((s.chan h).mode ≠ .halted → (s.chan h).mode ≠ .parked →
        exec (.dbgAccess h 0x190 none) s = .next { s with jtag := { s.jtag with ir := 0x20, data := 0 } }
        ∧ exec (.dbgAccess h 0x198 none) s = .next { s with jtag := { s.jtag with ir := 0x20, data := 0 } }))
    ∧ (∀ w : Word, s.dev.state = .commission →
      exec (.dbgAccess h 0x184 (some w)) s
        = .next { s.updChan h (fun c => { c with bp := w.setWidth 20 }) with jtag := { s.jtag with ir := 0x20 } }
      ∧ exec (.dbgAccess h 0x18C (some w)) s
        = .next { s.updChan h (fun c => { c with regSel := w.setWidth 5 }) with jtag := { s.jtag with ir := 0x20 } }
      ∧ exec (.dbgAccess h 0x194 (some w)) s
        = .next { s.updChan h (fun c => { c with memAddr := w.extractLsb' 2 14 }) with jtag := { s.jtag with ir := 0x20 } }
      ∧ exec (.dbgAccess h 0x188 (some w)) s = .next { s with jtag := { s.jtag with ir := 0x20 } })
    ∧ (s.dev.state = .commission → s.dev.dbgSplit = false → (s.chan h).mode ≠ .halted → (s.chan h).mode ≠ .trapped →
      (s.chan h.other).mode ≠ .trapped → ∃ t, exec (.dbgAccess h 0x180 (some 1)) s = .next t ∧ t.dev.dbgSplit = true ∧ (t.chan h).mode = .halted
        ∧ (t.chan h.other).mode = .parked ∧ (t.chan h).stopPc = (s.chan h).pc ∧ (t.chan h.other).stopPc = (s.chan h.other).pc
        ∧ (t.chan h).lockstep = false ∧ (t.chan h.other).lockstep = false ∧ t.cmp.active = false ∧ (t.chan h).lsm = (s.chan h).lsm
        ∧ (t.chan h.other).lsm = (s.chan h.other).lsm ∧ (s.hears h.page 4 = true → t.shows h.page 4 = true))
    ∧ (s.dev.state = .commission → ((s.chan h).mode = .halted ∨ (s.chan h).mode = .parked) →
      exec (.dbgAccess h 0x180 (some 4)) s = .next { s.updChan h (fun c =>
          { c with bpEn := false, mode := if c.retPc.isSome then .inHandler else .evaluating, stopPc := 0 }) with
        jtag := { s.jtag with ir := 0x20 } }
      ∧ (s.illegalWord h = false → opOf (s.fetch h 0) = 2 → ∃ t, exec (.dbgAccess h 0x180 (some 2)) s = .next t
        ∧ (∀ i, i < 512 → (t.chan h).forceNow.getLsbD i = ((s.chan h).forceNow.getLsbD i || (instancesOf (s.fetch h 0)).contains i))
        ∧ t = { s.updChan h (fun c =>
            { c with bpEn := false, forceNow := (t.chan h).forceNow, pc := c.pc + 4, regGen := c.regGen + 1, mode := .halted, stopPc := c.pc + 4 })
            with jtag := { s.jtag with ir := 0x20 } }))
    ∧ (s.readWord h.page.number 0x118 0 = if (s.chan h).mode = .trapped ∨ (s.chan h).mode = .halted ∨ (s.chan h).mode = .parked then
        (s.chan h).stopPc.setWidth 32 else 0)
    ∧ s.readWord h.page.number 0x11C 0 = (s.chan h).lsmErr
    ∧ ∀ (off : BitVec 12) (data : Option Word), s.dev.state ≠ .commission → s.dev.state ≠ .off →
      exec (.dbgAccess h off data) s = .next { s with jtag := { s.jtag with ir := 0x20 } }

/-! The function blocks (R214 to R297). -/

/-- What every block with a reset keeps, whatever its record and inputs: in FENCED every output is 0; in a lockout or fault state Q0 stays 0
unless RST reads 1 with STATE RUN, and outside RUN no reset is counted; the first frame evaluated with STATE SAFE takes Q0 away from a block
that had it on; a record with a fault shows LOCKOUT and FAULT. And of the catalogue: ESTOP is on only after an accepted reset with both
contacts 1, an OUTPAIR whose OQUAL is 0 goes to its fault with Q0 0, a RESETQ gives Q0 in the frame of a release that ends a press of the
right length, HOSTPERM shows its permit bit, the logic blocks their functions (R220 to R229, R233, R238, R239, R244, R245, R287, R295,
R297). -/
def Obligations.BlocksKeepTheirPromises : Prop :=
  ∀ (old : List Word) (i : BlockIn),
    let new := (evalBlock old i).1
    let type := ((old.getD 0 0).extractLsb' 24 8).toNat
    let st := ((old.getD 0 0).extractLsb' 20 4).toNat
    let st' := ((new.getD 0 0).extractLsb' 20 4).toNat
    let q := fun (k : Nat) => (new.getD 1 0).getLsbD k
    let wasFenced := (old.getD 1 0).getLsbD 18
    let resets : List (Nat × List Nat × BitVec 16) := [(0x01, [4, 5], hi16 (i.p 2)), (0x02, [4, 5], hi16 (i.p 2)), (0x03, [6, 7], hi16 (i.p 4)),
      (0x04, [5], lo16 (i.p 4)), (0x05, [4, 5], hi16 (i.p 2)), (0x06, [6], hi16 (i.p 2)), (0x07, [6], hi16 (i.p 3)), (0x08, [3, 4], hi16 (i.p 4)),
      (0x09, [4], hi16 (i.p 4)), (0x0A, [5], hi16 (i.p 2)), (0x0C, [3], hi16 (i.p 3)), (0x19, [3, 4], hi16 (i.p 4)), (0x1B, [3], hi16 (i.p 2))]
    let starts : List (Nat × List Nat) :=
      [(0x01, [1]), (0x02, [1]), (0x03, [1]), (0x04, [3]), (0x05, [1, 7]), (0x06, [3, 4]), (0x07, [3, 4]), (0x08, [1]), (0x19, [1])]
    (((new.getD 0 0).extractLsb' 24 8).toNat = type ∧ (new.getD 0 0).extractLsb' 0 9 = (old.getD 0 0).extractLsb' 0 9)
    ∧ (i.fenced = true → (∀ k, k < 8 → q k = false) ∧ q 18 = true ∧ st' = fencedCode type)
    ∧ (i.fenced = false → type ∈ (resets.map (·.1)) → q 18 = false)
    ∧ (∀ x ∈ resets, type = x.1 → i.fenced = false →
      (st ∈ x.2.1 → wasFenced = false → ¬(i.run = true ∧ i.sref x.2.2 = true) → q 0 = false)
      ∧ (¬(i.run = true ∧ i.sref x.2.2 = true) → (new.getD 6 0).extractLsb' 0 16 = (old.getD 6 0).extractLsb' 0 16)
      ∧ ((new.getD 2 0).extractLsb' 0 16 ≠ 0 → q 16 = true ∧ q 17 = true))
    ∧ (∀ x ∈ starts, type = x.1 → st ∈ x.2 → i.fenced = false → wasFenced = false → i.run = false → i.safeFirst = true → q 0 = false)
    ∧ (type = 0x01 → i.fenced = false → i.safeFirst = false →
      let a := i.sref (lo16 (i.p 1))
      let b := i.sref (hi16 (i.p 1))
      let sure := i.qual (lo16 (i.p 1)) = true ∧ i.qual (hi16 (i.p 1)) = true
      ((a = false ∨ b = false ∨ ¬sure) → q 0 = false)
      ∧ (st ≠ 1 → ¬(i.run = true ∧ i.sref (hi16 (i.p 2)) = true) → q 0 = false)
      ∧ (st = 4 → wasFenced = false → sure → a = true → b = true → i.run = true → i.sref (hi16 (i.p 2)) = true →
        st' = 1 ∧ (new.getD 2 0).extractLsb' 0 16 = 0 ∧ (new.getD 6 0).extractLsb' 0 16 = satInc ((old.getD 6 0).extractLsb' 0 16)))
    ∧ (type = 0x0C → i.fenced = false → wasFenced = false → i.safeFirst = false →
      ((∃ o ∈ pairOutputs i.p, i.oqual o = false) → st' = 3 ∧ q 0 = false ∧ q 1 = true ∧ (new.getD 2 0).getLsbD 0 = true)
      ∧ (st = 1 → (∀ o ∈ pairOutputs i.p, i.oqual o = true) → i.sref (lo16 (i.p 1)) = true → q 0 = true)
      ∧ (st = 0 → i.sref (lo16 (i.p 1)) = false → q 0 = false)
      ∧ (st = 1 → i.sref (lo16 (i.p 1)) = false → (i.p 2).getLsbD 16 = false → q 0 = false))
    ∧ (type = 0x0B → i.fenced = false → wasFenced = false → i.safeFirst = false → i.compat = false →
      let a := lo16 (i.p 1)
      let b := hi16 (i.p 1)
      let low := if lo16 (i.p 2) = 0 then 100 else (lo16 (i.p 2)).toNat
      (q 0 = true ↔ st = 3 ∧ ¬(i.sref a = true ∧ (srefKind b = 0 ∨ i.sref b = true)) ∧ i.qual a = true ∧ i.qual b = true
        ∧ low * 100000 ≤ (i.now.setWidth 32 - old.getD 8 0).toNat))
    ∧ (type = 0x1A → i.fenced = false →
      let w := i.permit ((i.p 1).extractLsb' 0 2).toNat
      q 0 = w.1.getLsbD ((i.p 1).extractLsb' 8 6).toNat ∧ q 1 = w.2)
    ∧ (i.fenced = false → (type = 0x10 → q 0 = (gateInputs i).all i.sref) ∧ (type = 0x11 → q 0 = (gateInputs i).any i.sref)
      ∧ (type = 0x12 → q 0 = !i.sref (lo16 (i.p 1))) ∧ (type = 0x13 → q 0 = (i.sref (lo16 (i.p 1)) != i.sref (hi16 (i.p 1))))
      ∧ (type = 0x14 → i.sref (lo16 (i.p 1)) = false → q 0 = false) ∧ (type = 0x15 → i.sref (lo16 (i.p 1)) = true → q 0 = true))

/-! Field inputs and the trip matrix (R179 to R213, R303 to R334, R356, R631 to R634). -/

/-- INPUT_LEVEL_CHANGE: the comparator takes the level, no other does; every latch whose output is then in trip demand sets, those of the
input's local masks among them, and none clears; a die whose lanes are no longer those of its latest trip message sends one; a rising edge
counts while boundaries run; a second foreign gap of one slot, one revolution after the first, latches GAP_FOREIGN (R180, R184 to R186,
R191, R316, R385, R386). -/
def Obligations.LevelChangeSetsLatches : Prop :=
  ∀ (i : Fin 112) (h : Half) (level : Bool) (s : State), s.shaped = true → s.inputServed i = true → (s.comp i h).level ≠ level →
    s.exercising i h = false →
    (((s.comp i h).foreignZero = false ∨ level = false) → ∃ t, exec (.inputLevelChange i h level) s = .next t ∧ (t.comp i h).level = level
      ∧ (t.comp i h).lastChange = s.frm.tb
      ∧ (∀ (j : Nat) (g : Half), j < 112 → (j ≠ i.val ∨ g ≠ h) → t.comp j g = s.comp j g)
      ∧ (∀ n, n < 48 → t.trp.tlC.getLsbD n = (s.trp.tlC.getLsbD n || (t.tripVec .c).getLsbD n))
      ∧ (∀ n, n < 48 → t.trp.tlD.getLsbD n = (s.trp.tlD.getLsbD n || (t.tripVec .d).getLsbD n))
      ∧ (level = false → s.isInput i = true → s.tripMode i = 0 → ∀ n, n < 48 → dieOfBank (n / 6) = dieOfInput i →
        (s.localMask n).getLsbD (dieLocal i) = true → (t.tl h).getLsbD n = true)
      ∧ (level = false → (t.comp i h).count = (s.comp i h).count)
      ∧ (level = true → s.frm.running = true → (t.comp i h).count = (s.comp i h).count + 1)
      ∧ (∀ (d : Fin 2) (g : Half), s.linked d = true → s.trp.laneSent.length = 4 → s.trp.flight.length = 4 →
        t.laneSource g d ≠ s.trp.laneSent.getD (2 * d.val + g.num) 0 →
        (t.trp.flight.getD (2 * d.val + g.num) []).getLast? = some (t.laneSource g d))
      ∧ t.frm = s.frm ∧ t.cope = s.cope ∧ t.drag = s.drag ∧ t.crb = s.crb ∧ t.hps = s.hps)
    ∧ (s.noChipReset = true → level = true → s.tripMode i = 1 → s.pwl.window = none → (s.comp i h).foreignZero = true →
      s.frm.tb.toNat ≤ s.pwl.windowEnd.toNat + 50 → (s.comp i h).forPend = some (s.pwl.lastSlot.getD 0) →
      ∃ t, exec (.inputLevelChange i h level) s = .next t ∧ (t.comp i h).level = true
        ∧ (s.hears (fibOf (bankOfInput i)) 3 = true → t.shows (fibOf (bankOfInput i)) 3 = true))

/-- FILTER_EXPIRY, once the filter's input has held for FILT and not before, passes it to the filter's output; TRIP_TOL_EXPIRY makes a lasting 0
of a FOREIGN input demand, and OWN_MASK_END ends the mask of an own window, and the latches of the outputs then in demand set (R182, R183,
R191, R311, R312). -/
def Obligations.FiltersAndMasksEnd : Prop :=
  (∀ (i : Fin 112) (h : Half) (s : State), s.shaped = true → (s.comp i h).xAt.toNat + s.filtTicks i ≤ s.frm.tb.toNat →
      ∃ t, exec (.filterExpiry i h) s = .next t ∧ t.comp i h = { s.comp i h with y := (s.comp i h).held.getD (s.comp i h).level }
      ∧ (∀ (j : Nat) (g : Half), j < 112 → (j ≠ i.val ∨ g ≠ h) → t.comp j g = s.comp j g) ∧ t = { s with comps := t.comps })
    ∧ (∀ (i : Fin 112) (h : Half) (s : State), s.frm.tb.toNat < (s.comp i h).xAt.toNat + s.filtTicks i → exec (.filterExpiry i h) s = .next s)
    ∧ (∀ (i : Fin 112) (h : Half) (s : State), s.shaped = true → s.tripMode i = 2 → (s.comp i h).level = false →
      ∃ t, exec (.tripTolExpiry i h) s = .next t ∧ t.comp i h = { s.comp i h with tolExpired := true } ∧ (s.isInput i = true → t.demand h i = true)
        ∧ (∀ n, n < 48 → t.trp.tlC.getLsbD n = (s.trp.tlC.getLsbD n || (t.tripVec .c).getLsbD n))
        ∧ t = { s with comps := t.comps, trp := t.trp, hdrs := t.hdrs, outs := t.outs })
    ∧ ∀ (i : Fin 112) (s : State), s.shaped = true → s.masked i = true → ∃ t, exec (.ownMaskEnd i) s = .next t ∧ t.masked i = false
      ∧ (t.comp i .c).held = none ∧ (t.comp i .d).held = none ∧ (s.isInput i = true → (s.comp i .c).level = false → t.demand .c i = true)
      ∧ (∀ n, n < 48 → t.trp.tlC.getLsbD n = (s.trp.tlC.getLsbD n || (t.tripVec .c).getLsbD n))
      ∧ t = { s with ins := t.ins, comps := t.comps, trp := t.trp, hdrs := t.hdrs, outs := t.outs }

/-- CURRENT_MEASURE stores a reading, at most 3.00 mA, and since when the readings are below 0.15 mA or at 0.30 mA or more; OPEN_WIRE with OW_EN
latches after 1.0 ms of the one, ends after 1.0 ms of the other, and does nothing before; the tenth consecutive failed REF_CHECK latches, a
passed one clears the count; the comparator exercise begins on a die whose exercise is due, a moved one counted, and ends on each die after
20 ns, passed, or latches COMP_FAIL (R306 to R309, R314, R321, R327, R334). -/
def Obligations.InputChecksLatch : Prop :=
  ∀ s : State, s.shaped = true → s.noChipReset = true →
    (∀ (i : Fin 112) (v : BitVec 9), s.inputServed i = true → exec (.currentMeasure [(i, v)]) s
      = .next (s.updInp i fun u => { u with
          cur := BitVec.ofNat 9 (min 300 v.toNat), lowSince := if min 300 v.toNat < 15 then some (u.lowSince.getD s.frm.tb) else none
          highSince := if 30 ≤ min 300 v.toNat then some (u.highSince.getD s.frm.tb) else none }))
    ∧ (∀ (i : Fin 112) (t₀ : Time), (s.inp i).cfg.getLsbD 29 = true → (s.inp i).live.getLsbD 1 = false → (s.inp i).lowSince = some t₀ →
      t₀.toNat + 100000 ≤ s.frm.tb.toNat → ∃ t, exec (.openWire i true) s = .next t ∧ (t.inp i).live = putBit (s.inp i).live 1 true
        ∧ (s.hears (fibOf (bankOfInput i)) 1 = true → t.shows (fibOf (bankOfInput i)) 1 = true) ∧ Quiet s t)
    ∧ (∀ (i : Fin 112) (x : Bool), s.wireHeld i x = false → exec (.openWire i x) s = .next s)
    ∧ (∀ (i : Fin 112) (t₀ : Time), (s.inp i).cfg.getLsbD 29 = true → (s.inp i).live.getLsbD 1 = true → (s.inp i).highSince = some t₀ →
      t₀.toNat + 100000 ≤ s.frm.tb.toNat → exec (.openWire i false) s = .next (s.updInp i fun u => { u with live := putBit u.live 1 false }))
    ∧ (∀ b : Fin 8, (s.inBank b).refFails = 9 → ∃ t, exec (.refCheck b true) s = .next t
      ∧ (s.hears (.fib b) 8 = true → t.shows (.fib b) 8 = true) ∧ Quiet s t)
    ∧ (∀ b : Fin 8, (s.inBank b).refFails.toNat < 9 →
      exec (.refCheck b true) s = .next (s.updInBank b fun x => { x with refFails := (s.inBank b).refFails + 1 }))
    ∧ (∀ b : Fin 8, ∃ t, exec (.refCheck b false) s = .next t ∧ (t.inBank b).refFails = 0 ∧ (t.hdr (.fib b)).live.getLsbD 8 = false
      ∧ (t.hdr (.fib b)).latch = (s.hdr (.fib b)).latch ∧ t = { s with inBanks := t.inBanks, hdrs := t.hdrs })
    ∧ (∀ d : Fin 2, s.exerciseDue.getLsbD d = true → ∃ t, exec (.inputExercise d) s = .next t
      ∧ t.prog = { s.prog with
          exercise := some (s.frm.frameNum.setWidth 2), exDies := putBit s.prog.exDies d true, exercised := putBit s.prog.exercised d true
          exStart := s.prog.exStart.set d s.frm.tb }
      ∧ (∀ b : Fin 8, dieOfBank b = d.val → s.exerciseAt d ≠ s.exerciseFrom → s.exercised b ≠ [] →
        t.counter (.fib b) 0x4C = satInc (s.counter (.fib b) 0x4C))
      ∧ (s.exerciseAt d = s.exerciseFrom → t.hdrs = s.hdrs)
      ∧ t = { s with prog := t.prog, hdrs := t.hdrs })
    ∧ (∀ f, s.prog.exercise = some f → ∃ t, exec (.inputExerciseEnd 0) s = .next t
      ∧ t.prog = { s.prog with
          exercise := if s.prog.exDies &&& ~~~s.exerciseEnds = 0 then none else some f, exDies := s.prog.exDies &&& ~~~s.exerciseEnds }
      ∧ t = { s with prog := t.prog, hdrs := t.hdrs })
    ∧ (∀ (f : BitVec 2) (b : Fin 8) (k : Nat) (w : BitVec 112), s.prog.exercise = some f → s.exerciseEnds.getLsbD (dieOfBank b) = true →
      k ∈ s.exercised b → w.getLsbD (inputOf b k) = true → (∀ j, j ≠ inputOf b k → w.getLsbD j = false) →
      ∃ t, exec (.inputExerciseEnd w) s = .next t ∧ t.prog.exDies = s.prog.exDies &&& ~~~s.exerciseEnds
        ∧ (s.hears (.fib b) 2 = true → t.shows (.fib b) 2 = true))

/-- TRIP_MESSAGE and HEARTBEAT: a valid message leaves the lanes that it carries, as of its sending, as the lane state of the stage it reached,
a valid heartbeat restores both stages and ends what a bad message or a miss held; a bad message and HB_MISS make every lane of the die
demand on the half, and the heartbeat that reports a bad message received by its die acts as one at the core die; HB_MISS latches; CHILL
puts the die in chill (R25, R184 to R188, R356, R631, R633). That a message that no change of the lanes has sent carries those of its
arrival, and what a heartbeat does with messages on the way, are the model's choices (log 98). The lane test: an echo with exactly the
tested lane toggled is counted, once; without it LANE_FAIL latches (R200, R201, R203). That the echo is compared with the source's lanes of
that moment (log 64), and that the test runs in the first frame of its slot (log 83), is DEDUCED. -/
def Obligations.LanesCarryDemand : Prop :=
  (∀ (d : Fin 2) (h : Half) (s : State), s.shaped = true → s.noChipReset = true → s.linked d = true → s.trp.laneCore.length = 4 →
      s.trp.laneDest.length = 4 →
      let i := 2 * d.val + h.num
      let o := 2 * (1 - d.val) + h.num
      (∃ t, exec (.tripMessage d h false false false) s = .next t ∧ t.trp.laneCore.getD i 0 = s.sentLanes d h
        ∧ t.trp.coreBad.getLsbD i = false ∧ t.trp.laneDest = s.trp.laneDest ∧ t = { s with trp := t.trp, hdrs := t.hdrs, outs := t.outs })
      ∧ (∃ t, exec (.tripMessage d h false false true) s = .next t ∧ t.trp.laneDest.getD i 0 = s.forwarded d h
        ∧ t.trp.laneCore = s.trp.laneCore ∧ t = { s with trp := t.trp, hdrs := t.hdrs, outs := t.outs })
      ∧ (∀ code check : Bool, (code || check) = true → ∃ t, exec (.tripMessage d h code check true) s = .next t ∧ t.laneDemand h d = 0xFFF
        ∧ t.trp.destReport.getLsbD i = true
        ∧ t = { s with trp := t.trp, hdrs := t.hdrs, outs := t.outs })
      ∧ (∀ code check : Bool, (code || check) = true → (s.bar d).fenced = false →
        ∃ t, exec (.tripMessage d h code check false) s = .next t ∧ t.laneState h d = 0xFFF
        ∧ t.trp.zeroNext.getLsbD i = true ∧ (s.hears (.bar d) 0 = true → t.shows (.bar d) 0 = true))
      ∧ ((s.hdr (.bar d)).live = 0 → (s.bar d).fenced = false → s.trp.destReport.getLsbD o = false →
        ∃ t, exec (.heartbeat d h none false false false) s = .next t ∧ t.trp.laneCore.getD i 0 = s.laneSource h d
          ∧ t.trp.laneDest.getD i 0 = s.laneSource h d ∧ t.laneState h d = s.laneSource h d ∧ t.trp.hbMissed.getLsbD i = false
          ∧ t = { s with trp := t.trp, hdrs := t.hdrs, outs := t.outs, bars := t.bars })
      ∧ (s.trp.destReport.getLsbD o = true → (s.bar (1 - d.val)).fenced = false → (s.hdr (.bar d)).live = 0 →
        ∃ t, exec (.heartbeat d h none false false false) s = .next t ∧ t.trp.destReport.getLsbD o = false ∧ t.trp.zeroNext.getLsbD o = true
          ∧ (s.hears (barOf (1 - d.val)) 0 = true → t.shows (barOf (1 - d.val)) 0 = true))
      ∧ ((s.bar d).fenced = false → (s.hdr (.bar d)).live.getLsbD 1 = false → ∃ t, exec (.hbMiss d h) s = .next t
        ∧ t.laneState h d = 0xFFF ∧ t.laneDemand h d = 0xFFF ∧ (s.hears (.bar d) 1 = true → t.shows (.bar d) 1 = true))
      ∧ ∃ t, exec (.chill d) s = .next t ∧ (t.bar d).chill = true)
    ∧ (∀ (h : Half) (s : State), s.shaped = true → s.laneTesting h = true → s.prog.laneOk.getLsbD h.num = false →
      (∃ t, exec (.laneTestEcho h ((s.laneSource h (s.slotOf h / 12)) ^^^ bitMask 12 (s.slotOf h % 12))) s = .next t
        ∧ t.prog.laneOk = putBit s.prog.laneOk h.num true ∧ t.counter .trp 0x50 = satInc (s.counter .trp 0x50)
        ∧ t = { s with prog := { s.prog with laneOk := t.prog.laneOk }, hdrs := t.hdrs }
        ∧ exec (.laneFail h) t = .next t)
      ∧ (s.noChipReset = true → ∃ t, exec (.laneFail h) s = .next t ∧ (s.hears .trp 2 = true → t.shows .trp 2 = true) ∧ Quiet s t))

/-! The pulse wheel (R375 to R402). -/

/-- DARK_PULSE_START in a pulse source's slot: the source is dark, judged, and its own window in progress, every mask begins anew; in a safety
output's slot the trip gates and switches are tested and counted, a gate that fails latches GATE_FAIL. DARK_PULSE_END ends the dark pulse
alone. OWN_WINDOW_END ends the window, which is not judged where the bank of its source is fenced (R199, R200, R343, R377, R383, R384,
R554). PS_SHORT_HI of a dark source and PS_OVERLOAD of one that drives high latch and hold the source high-Z (R393, R394). -/
def Obligations.WheelRuns : Prop :=
  (∀ s : State, s.shaped = true →
      (∀ a b c d e f : Bool, s.pulseDue = true → s.pwl.slotC.toNat < 16 → ∃ t, exec (.darkPulseStart a b c d e f) s = .next t
        ∧ t.pwl = { s.pwl with dark := some s.pwl.slotC, window := some s.pwl.slotC, windowStart := s.frm.tb }
        ∧ (t.pulse s.pwl.slotC.toNat).judged = true
        ∧ (∀ i, i < 112 → (t.inp i).maskEnded = false)
        ∧ t = { s with pwl := t.pwl, comps := t.comps, ins := t.ins, outs := t.outs, ps := t.ps })
      ∧ (s.pulseDue = true → 16 ≤ s.pwl.slotC.toNat → ∃ t, exec (.darkPulseStart true true true true true true) s = .next t
        ∧ t.pwl.dark = some s.pwl.slotC ∧ t.pwl.window = some s.pwl.slotC
        ∧ t.counter (fobOf ((s.pwl.slotC.toNat - 16) / 6)) 0x48 = satInc (s.counter (fobOf ((s.pwl.slotC.toNat - 16) / 6)) 0x48)
        ∧ t = { s with pwl := t.pwl, comps := t.comps, ins := t.ins, outs := t.outs, ps := t.ps, hdrs := t.hdrs })
      ∧ (s.noChipReset = true → s.pulseDue = true → 16 ≤ s.pwl.slotC.toNat →
        ∃ t, exec (.darkPulseStart false true true true true true) s = .next t ∧ t.pwl.dark = some s.pwl.slotC
          ∧ (s.hears .trp 1 = true → t.shows .trp 1 = true))
      ∧ (∃ t, exec .darkPulseEnd s = .next t ∧ t.pwl = { s.pwl with dark := none }
        ∧ t = { s with pwl := t.pwl, trp := t.trp, hdrs := t.hdrs, outs := t.outs })
      ∧ (∀ slot, s.noChipReset = true → s.pwl.window = some slot → ∃ t, exec (.ownWindowEnd []) s = .next t
        ∧ t.pwl = { s.pwl with dark := none, window := none, lastSlot := some slot, windowEnd := s.frm.tb } ∧ t.frm = s.frm
        ∧ (s.bankFenced (bankOfSlot slot.toNat) = true → ∀ p c, t.shows p c = s.shows p c)))
    ∧ (∀ (k : Fin 16) (s : State), s.shaped = true → s.noChipReset = true →
      (s.psDrive k = .low → ∃ t, exec (.psShortHi k) s = .next t ∧ (t.pulse k).hold = true ∧ t.psDrive k = .hiZ
        ∧ (s.hears .pwl 0 = true → t.shows .pwl 0 = true))
      ∧ (s.psDrive k = .high → ∃ t, exec (.psOverload k) s = .next t ∧ (t.pulse k).hold = true ∧ t.psDrive k = .hiZ
        ∧ (s.hears .pwl 1 = true → t.shows .pwl 1 = true)))

/-! Field outputs (R336 to R362). -/

/-- The causes of a safety output or AX output that is on the part, where they do not stand already: OVERLOAD and OPEN_LOAD where it drives
high, SHORT_HI where LS sinks, OVERTEMP and RB_MISMATCH; each latches, and all but OPEN_LOAD hold the output off; what needs the field
supply waits while the bank is blanked; a standing OVERTEMP is no new event; LS opens at LS_OPEN_DELAY after SHORT_HI (R342, R344, R347,
R536, R678). CONTENTION latches in place of SHORT_HI where another output's source current has been above its level for 1 µs, and holds both
outputs; on that other output it stands in the place of an OVERLOAD of the same cycle (R344, R345). -/
def Obligations.OutputCausesHold : Prop :=
  (∀ (o : Fin 64) (s : State), s.shaped = true → s.noChipReset = true → bankOfOutput o < s.banks →
      let p := fobOf (bankOfOutput o)
      (s.drive o = .high → s.standing o 1 = false → ∃ t, exec (.overload o) s = .next t ∧ (t.out o).hold = true ∧ t.drive o ≠ .high ∧ Quiet s t
        ∧ (s.hears p 1 = true → t.shows p 1 = true))
      ∧ (s.sinks o = true → s.standing o 0 = false → (48 ≤ o.val ∨ s.contenders o = []) → ∃ t, exec (.shortHi o) s = .next t
        ∧ (t.out o).hold = true ∧ Quiet s t ∧ (s.hears p 0 = true → t.shows p 0 = true))
      ∧ (s.standing o 4 = false → ∃ t, exec (.overtemp o) s = .next t ∧ (t.out o).hold = true ∧ t.drive o ≠ .high ∧ Quiet s t
        ∧ (s.hears p 4 = true → t.shows p 4 = true))
      ∧ (s.standing o 4 = true → exec (.overtemp o) s = .next s)
      ∧ (s.standing o 5 = false → (s.expectHigh o = false ∨ (s.outBank (bankOfOutput o)).blank = false) → ∃ t, exec (.rbMismatch o) s = .next t
        ∧ (t.out o).hold = true ∧ Quiet s t ∧ (s.hears p 5 = true → t.shows p 5 = true))
      ∧ (s.expectHigh o = true → (s.outBank (bankOfOutput o)).blank = true →
        exec (.rbMismatch o) s = .next (s.updOut o fun u => { u with rbDue := true }))
      ∧ (o.val < 48 → (s.out o).cfg.getLsbD 29 = true → s.drive o = .high → (s.outBank (bankOfOutput o)).blank = false →
        s.standing o 3 = false → ∃ t, exec (.openLoad o) s = .next t ∧ Quiet s t ∧ (s.hears p 3 = true → t.shows p 3 = true))
      ∧ (o.val < 48 → (s.out o).cfg.getLsbD 29 = true → s.drive o = .high → (s.outBank (bankOfOutput o)).blank = true →
        exec (.openLoad o) s = .next (s.updOut o fun u => { u with olDue := true }))
      ∧ ((s.out o).lsDue = true → (s.out o).hold = true →
        exec (.lsOpenDelay o) s = .next (s.updOut o fun u => { u with lsOpen := true, lsDue := false })))
    ∧ (∀ (o p : Fin 64) (s : State), s.shaped = true → s.noChipReset = true → o.val < 48 → p.val < 48 → s.sinks o = true →
      s.contenders o = [p.val] → bankOfOutput o < s.banks → bankOfOutput p < s.banks → s.standing o 2 = false →
      ((s.out p).hold = true ∨ ((s.freshOut p).getLsbD 1 = false ∧ (s.freshOut p).getLsbD 2 = false)) → ∃ t, exec (.shortHi o) s = .next t ∧ (t.out o).hold = true ∧ (t.out p).hold = true
        ∧ (s.hears (fobOf (bankOfOutput o)) 2 = true → t.shows (fobOf (bankOfOutput o)) 2 = true)
        ∧ ((s.freshOut p).getLsbD 1 = false → Quiet s t)
        ∧ ((s.freshOut p).getLsbD 1 = true → (s.freshOut p).getLsbD 2 = false → (s.out p).latch.getLsbD 1 = true →
          (t.out p).latch.getLsbD 1 = false ∧ (t.out p).latch.getLsbD 2 = true))

/-- OUTPUT_SENSE_CHANGE: the senses of the terminal are those given, CUR at most 4000, a source or sink current that rises above its level
counts in LIMIT_EVT, a source current above its level is timed, in a judged window the wheel sees a readback at 0 and what is not expected
of another slot's receivers, a foreign observation that has ended within 0.5 µs of the window is pending or, confirmed, latches GAP_FOREIGN;
no command or hold changes otherwise, and of the other outputs only live conditions end (R340, R344, R345, R350, R374, R384 to R386, R394).
FV_MEASURE stores both readings and, below FV_TRIP, blanks the bank and begins a dip; FV_HIGH above 32.0 V and FV_MEAS at more than 0.6 V of
difference latch and lock the bank out; FV_RECOVERY from FV_TRIP + 4.4 V on, and not below, and FV_HIGH_RECOVERY below 30.5 V end the live
condition alone; FV_BLANK_END ends the blanking (R342, R348, R351 to R353). -/
def Obligations.SensesFollow : Prop :=
  (∀ (x : Sense) (s : State), s.shaped = true →
      (∀ o : Fin 64, (s.pwl.window ≠ none ∨ (s.out o).foreignOn = false) → ∃ t, exec (.outputSenseChange (.out o) x) s = .next t
        ∧ (let u := s.out o
          t.out o = { u with
            sense := { x with cur := BitVec.ofNat 12 (min 4000 x.cur.toNat) }
            overSince := if x.srcOver then (if u.sense.srcOver then u.overSince else some s.frm.tb) else none
            seenC := u.seenC || (u.judged && s.pwl.window.isSome && !x.rbC), seenD := u.seenD || (u.judged && s.pwl.window.isSome && !x.rbD)
            foreignHit := u.foreignHit || (u.foreignOn && s.pwl.window.isSome && (!x.rbC || !x.rbD || x.srcOver))
            live := (t.out o).live, rbDue := (t.out o).rbDue, olDue := (t.out o).olDue })
        ∧ (∀ j, j < 64 → j ≠ o.val →
          t.out j = { s.out j with live := (t.out j).live, rbDue := (t.out j).rbDue, olDue := (t.out j).olDue })
        ∧ (∀ j, j < 64 → (t.out j).live &&& (s.out j).live = (t.out j).live)
        ∧ (let n := s.counter (fobOf (bankOfOutput o)) 0x44
          let n := if x.srcOver = true ∧ (s.out o).sense.srcOver = false then satInc n else n
          t.counter (fobOf (bankOfOutput o)) 0x44 = if x.sinkOver = true ∧ (s.out o).sense.sinkOver = false then satInc n else n)
        ∧ t = { s with outs := t.outs, hdrs := t.hdrs })
      ∧ (∀ (o : Fin 64) (slot : BitVec 6), s.noChipReset = true → o.val < 48 → bankOfOutput o < s.banks → s.pwl.window = none →
        s.pwl.lastSlot = some slot → (s.out o).foreignOn = true → (s.out o).foreignHit = true → x.rbC = true → x.rbD = true → x.srcOver = false →
        s.frm.tb.toNat ≤ s.pwl.windowEnd.toNat + 50 →
        ((s.out o).forPend = none → ∃ t, exec (.outputSenseChange (.out o) x) s = .next t ∧ (t.out o).forPend = some slot
          ∧ (t.out o).foreignOn = false ∧ (t.out o).latch = (s.out o).latch ∧ (t.out o).hold = (s.out o).hold)
        ∧ ((s.out o).forPend = some slot → s.standing o 7 = false → ∃ t, exec (.outputSenseChange (.out o) x) s = .next t
          ∧ (t.out o).forPend = none ∧ (t.out o).hold = true
          ∧ (s.hears (fobOf (bankOfOutput o)) 7 = true → t.shows (fobOf (bankOfOutput o)) 7 = true)))
      ∧ ∀ k : Fin 16, ∃ t, exec (.outputSenseChange (.ps k) x) s = .next t
        ∧ (let p := s.pulse k
          t.pulse k = { p with
            sense := x, seenC := p.seenC || (p.judged && s.pwl.window.isSome && !x.rbC)
            seenD := p.seenD || (p.judged && s.pwl.window.isSome && !x.rbD) })
        ∧ (∀ j, j < 16 → j ≠ k.val → t.pulse j = s.pulse j)
        ∧ t = { s with ps := t.ps })
    ∧ (∀ (b : Fin 8) (s : State), s.shaped = true → s.noChipReset = true →
      (∀ c d : BitVec 16, b.val < s.banks → (s.bar (dieOfBank b)).powered = true → ∃ t, exec (.fvMeasure b c d) s = .next t
        ∧ (t.outBank b).fvC = BitVec.ofNat 16 (min 3600 c.toNat) ∧ (t.outBank b).fvD = BitVec.ofNat 16 (min 3600 d.toNat)
        ∧ (min c.toNat d.toNat < (s.outBank b).trip → (t.outBank b).blank = true ∧ (t.outBank b).dip.isSome = true)
        ∧ ((s.outBank b).trip ≤ min (min 3600 c.toNat) (min 3600 d.toNat) → (t.outBank b).dip = none)
        ∧ (∀ e : Fin 8, e ≠ b → t.outBank e = s.outBank e) ∧ Quiet { s with outBanks := t.outBanks } t)
      ∧ (3200 < (s.outBank b).high → (s.hdr (.fob b)).live.getLsbD 17 = false → ∃ t, exec (.fvHigh b) s = .next t
        ∧ (s.hears (.fob b) 17 = true → t.shows (.fob b) 17 = true ∧ t.fvLock b = true)
        ∧ (∀ e : Fin 8, e ≠ b → t.outBank e = s.outBank e) ∧ Quiet { s with outBanks := t.outBanks } t)
      ∧ (60 < (s.outBank b).high - (s.outBank b).low → (s.hdr (.fob b)).live.getLsbD 18 = false → ∃ t, exec (.fvMeas b) s = .next t
        ∧ (s.hears (.fob b) 18 = true → t.shows (.fob b) 18 = true ∧ t.fvLock b = true)
        ∧ (∀ e : Fin 8, e ≠ b → t.outBank e = s.outBank e) ∧ Quiet { s with outBanks := t.outBanks } t)
      ∧ ((s.outBank b).trip + 440 ≤ (s.outBank b).low → ∃ t, exec (.fvRecovery b) s = .next t ∧ (t.hdr (.fob b)).live.getLsbD 16 = false
        ∧ (t.hdr (.fob b)).latch = (s.hdr (.fob b)).latch
        ∧ t = { s with hdrs := t.hdrs })
      ∧ ((s.outBank b).low < (s.outBank b).trip + 440 → exec (.fvRecovery b) s = .next s)
      ∧ ((s.outBank b).high < 3050 → ∃ t, exec (.fvHighRecovery b) s = .next t ∧ (t.hdr (.fob b)).live.getLsbD 17 = false
        ∧ (t.hdr (.fob b)).latch = (s.hdr (.fob b)).latch ∧ t = { s with hdrs := t.hdrs })
      ∧ ((s.outBank b).dip = none → (s.outBank b).blank = true → ∃ t, exec (.fvBlankEnd b) s = .next t ∧ (t.outBank b).blank = false
        ∧ (∀ e : Fin 8, e ≠ b → t.outBank e = s.outBank e) ∧ Quiet { s with outBanks := t.outBanks } t))

/-! Host ports (R42 to R49, R74, R449 to R484). -/

/-- A cell that fails a check of R456 is refused: LAST_NAK names the first check that fails (a wrong CRC or SEQ, a field that is not valid or an
operation that is not used, a block reset in progress, a fenced port, a tag in use, no token), EXP_SEQ, tokens and the acknowledged sequence
stay, no transaction is issued, and the cause of R471 latches (R452, R454, R456, R457, R471, R472, R478). -/
def Obligations.CellsRefused : Prop :=
  ∀ (op : Fin 16) (c : CellHead) (ws : List Word) (ok : Bool) (s : State), s.shaped = true → s.portServes c.port = true →
    s.noChipReset = true → ws.length = (if op.val = 2 ∨ op.val = 5 then c.len.toNat + 1 else 0) →
    let n := c.port.val
    let p := s.hp n
    let whole := c.crc = s.crcField 0 n p.expSeq (cellBytes op c ws) ∧ c.seq = p.expSeq
    let refused := fun (code : Nat) (t : State) => exec (cellCommand op c ws ok) s = .next t ∧ (t.hp n).lastNak.getLsbD 31 = true
      ∧ ((t.hp n).lastNak.extractLsb' 16 4).toNat = code ∧ (t.hp n).lastNak.extractLsb' 8 8 = c.seq ∧ (t.hp n).expSeq = p.expSeq
      ∧ (t.hp n).tokens = p.tokens ∧ (t.hp n).txns.length = p.txns.length ∧ (t.hp n).response = [] ∧ Quiet s t
    let latches := fun (k : Nat) (t : State) => s.hears (hpOf n) k = true → t.shows (hpOf n) k = true
    (c.crc ≠ s.crcField 0 n p.expSeq (cellBytes op c ws) → ∃ t, refused 1 t ∧ latches 1 t)
    ∧ (c.seq ≠ p.expSeq → ∃ t, refused 1 t ∧ latches 1 t)
    ∧ (whole → 8 ≤ op.val → ∃ t, refused 2 t ∧ latches 2 t)
    ∧ (whole → formatOk op c = false → ∃ t, refused 2 t ∧ latches 2 t)
    ∧ (whole → formatOk op c = true → p.resetting = true → ∃ t, refused 3 t ∧ t = { s with hps := t.hps, hdrs := t.hdrs })
    ∧ (whole → formatOk op c = true → p.resetting = false → op.val ≠ 0 → op.val ≠ 3 →
      (p.fenced = true → ∃ t, refused 4 t ∧ t = { s with hps := t.hps, hdrs := t.hdrs })
      ∧ (p.fenced = false → ∀ x ∈ p.txns, x.tag.toNat = c.tag.val → ∃ t, refused 5 t ∧ latches 2 t)
      ∧ (p.fenced = false → (∀ x ∈ p.txns, x.tag.toNat ≠ c.tag.val) → p.tokens = 0 → ∃ t, refused 6 t ∧ latches 3 t))

/-- An accepted NOP advances EXP_SEQ and is acknowledged; an accepted READ or WRITE takes a token and stands as the newest transaction of its
port, to take effect later; an accepted FETCH returns the response that became ready earliest, BY_TAG that of its tag, with REPEAT the one
fetched last, and NONE_READY where none is ready (R454, R456 to R459, R466, R472). -/
def Obligations.CellsAccepted : Prop :=
  ∀ (c : CellHead) (s : State), s.hps.length = 4 → s.portServes c.port = true →
    let n := c.port.val
    let p := s.hp n
    (s.cellCode 0 c [] = 0 → ∃ t, exec (.nop c) s = .next t ∧ (t.hp n).expSeq = p.expSeq + 1 ∧ (t.hp n).tokens = p.tokens
      ∧ (t.hp n).txns = p.txns.filter (fun x => !x.fetched) ∧ (t.hp n).ack.length = 2 ∧ (t.hp n).response = []
      ∧ (∀ m, m < 4 → m ≠ n → t.hp m = s.hp m) ∧ t = { s with hps := t.hps, hdrs := t.hdrs })
    ∧ (s.cellCode 1 c [] = 0 → ∃ t x, exec (.read c) s = .next t ∧ (t.hp n).expSeq = p.expSeq + 1 ∧ (t.hp n).tokens = p.tokens - 1
      ∧ (t.hp n).txns = p.txns.filter (fun x => !x.fetched) ++ [x] ∧ x.op = 1 ∧ x.addr = c.addr ∧ x.len = c.len.toNat + 1
      ∧ x.tag.toNat = c.tag.val ∧ x.stream.toNat = c.stream.val ∧ x.resp = none
      ∧ (∀ m, m < 4 → m ≠ n → t.hp m = s.hp m) ∧ t = { s with hps := t.hps, hdrs := t.hdrs })
    ∧ (∀ ws : List Word, ws.length = c.len.toNat + 1 → s.cellCode 2 c ws = 0 → ∃ t x, exec (.write c ws) s = .next t
      ∧ (t.hp n).expSeq = p.expSeq + 1 ∧ (t.hp n).tokens = p.tokens - 1
      ∧ (t.hp n).txns = p.txns.filter (fun x => !x.fetched) ++ [x] ∧ x.op = 2 ∧ x.addr = c.addr ∧ x.payload = ws
      ∧ x.tag.toNat = c.tag.val ∧ x.resp = none
      ∧ (∀ m, m < 4 → m ≠ n → t.hp m = s.hp m) ∧ t = { s with hps := t.hps, hdrs := t.hdrs })
    ∧ (s.cellCode 3 c [] = 0 → ∀ x ∈ p.txns, ∀ r, x.fetched = false → x.resp = some r → (∀ y ∈ p.txns, y.tag = x.tag → y = x) →
      (c.addr = 0x20 ||| x.tag.setWidth 24
        ∨ c.addr = 0 ∧ ∀ y ∈ p.txns, y.fetched = false → y.resp.isSome = true → y = x ∨ x.order < y.order) → ∃ t, exec (.fetch c) s = .next t
      ∧ (t.hp n).lastFetched = some r ∧ (t.hp n).response.dropLast = r.body
      ∧ (t.hp n).txns = (p.txns.filter fun y => !y.fetched).map (fun y => if y = x then { y with fetched := true } else y)
      ∧ (t.hp n).tokens = p.tokens ∧ (t.hp n).expSeq = p.expSeq + 1 ∧ t = { s with hps := t.hps, hdrs := t.hdrs })
    ∧ (s.cellCode 3 c [] = 0 → c.addr = 0x40 → ∃ t, exec (.fetch c) s = .next t ∧ (∀ r, p.lastFetched = some r → (t.hp n).response.dropLast = r.body)
      ∧ (t.hp n).txns = p.txns ∧ (t.hp n).lastFetched = p.lastFetched ∧ (t.hp n).tokens = p.tokens ∧ (t.hp n).expSeq = p.expSeq + 1
      ∧ t = { s with hps := t.hps, hdrs := t.hdrs })
    ∧ (s.cellCode 3 c [] = 0 → c.addr = 0 → (∀ y ∈ p.txns, y.fetched = true ∨ y.resp = none) → ∃ (t : State) (r : Response), exec (.fetch c) s = .next t
      ∧ (t.hp n).response.dropLast = r.body ∧ r.status = 0x0D ∧ r.words = [] ∧ r.reqSeq = c.seq ∧ (t.hp n).tokens = p.tokens
      ∧ (t.hp n).expSeq = p.expSeq + 1 ∧ t = { s with hps := t.hps, hdrs := t.hdrs })

/-- CHALLENGE answers a fresh nonce; AUTH with the proof for it opens a session and uses the nonce up, with a wrong proof it latches AUTH_FAIL;
CLOSE ends the session; SHUTDOWN of the supervisor in its session begins SHAKEOUT (R35, R455, R459, R462, R463, R576). They take effect in
the step in which they are accepted where their stream has no older transaction (the model's choice, log 43). -/
def Obligations.SessionsRun : Prop :=
  ∀ (c : CellHead) (s : State), s.shaped = true → s.noChipReset = true → s.portServes c.port = true → s.dev.state ≠ .start →
    s.dev.state ≠ .shakeout → (s.hp c.port).txns = [] →
    let n := c.port.val
    (s.cellCode 4 c [] = 0 → (c.priv = false ∨ s.tagValid 4 c [] = true) → ∃ t nd y, exec (.challenge c) s = .next t
      ∧ (t.hp n).nonce = some nd ∧ (t.hp n).txns = [y] ∧ y.tag.toNat = c.tag.val
      ∧ y.resp.map (·.words) = some ((List.range 4).map (wordAt nd)) ∧ y.resp.map (·.status) = some 0
      ∧ t = { s with hps := t.hps, hdrs := t.hdrs, free := s.free + 1 })
    ∧ (∀ ws : List Word, ws.length = 6 → s.cellCode 5 c ws = 0 → (c.priv = false ∨ s.tagValid 5 c ws = true) →
      let x := txnOf 5 c ws (s.tagValid 5 c ws)
      (s.proofOk n x = true → ∃ t, exec (.auth c ws) s = .next t ∧ (t.hp n).nonce = none ∧ (t.hp n).session.isSome = true
        ∧ t.counter .own 0x54 = satInc (s.counter .own 0x54) ∧ t = { s with hps := t.hps, hdrs := t.hdrs })
      ∧ (s.proofOk n x = false → ∃ t, exec (.auth c ws) s = .next t ∧ Quiet s t
        ∧ (s.hears (.hp c.port) 4 = true → t.shows (.hp c.port) 4 = true)))
    ∧ (s.cellCode 6 c [] = 0 → (c.priv = false ∨ s.tagValid 6 c [] = true) → ∃ t, exec (.close c) s = .next t
      ∧ (t.hp n).session = none ∧ (t.hp n).nonce = (s.hp n).nonce ∧ t = { s with hps := t.hps, hdrs := t.hdrs })
    ∧ ∀ ok, s.cellCode 7 c [] = 0 → s.tagValid 7 c [] = true → s.dev.state ≠ .commission → s.dev.supervisor.toNat = n →
      ∃ t, exec (.shutdown c ok) s = .next t ∧ t.dev.state = .shakeout ∧ t.bst.trigger = 1

/-- A refused read returns zeros in every payload word (R47). -/
def Obligations.RefusedReadReturnsZeros : Prop :=
  ∀ (n stream : Fin 4) (ties : List Tie) (ecc : List (BitVec 17 × EccErr)) (ok : Bool) (s : State) (x : Txn) (r : Refused),
    s.shaped = true → s.noChipReset = true → s.dev.state ≠ .off → s.headTxn n stream = some x → x.op = 1 → s.judge n x = some r →
    ∃ t y w, exec (.takeEffect n stream ties ecc ok) s = .next t ∧ y ∈ (t.hp n).txns ∧ y.tag = x.tag ∧ y.resp = some w
      ∧ w.status = r.status ∧ w.words = List.replicate x.len 0

/-- PAGE_ID and OWNER of every mapped block page are readable by every flask, whoever owns the page (R44). -/
def Obligations.IdentityReadable : Prop :=
  ∀ (n stream : Fin 4) (p : Page) (ties : List Tie) (ecc : List (BitVec 17 × EccErr)) (ok : Bool) (s : State) (x : Txn),
    s.shaped = true → s.dev.state ≠ .off → s.dev.state ≠ .shakeout → s.dev.state ≠ .start → s.mapped p = true → s.compat = false →
    s.headTxn n stream = some x → x.op = 1 → x.priv = false →
    (x.addr = BitVec.ofNat 24 (4096 * p.number) ∧ (x.len = 1 ∨ x.len = 2) ∨ x.addr = BitVec.ofNat 24 (4096 * p.number + 4) ∧ x.len = 1) →
    ∃ t y w, exec (.takeEffect n stream ties ecc ok) s = .next t ∧ y ∈ (t.hp n).txns ∧ y.tag = x.tag ∧ y.resp = some w ∧ w.status = 0
      ∧ w.words.length = x.len ∧ ((∀ d : Fin 2, (s.bar d).fenced = false) → x.addr = BitVec.ofNat 24 (4096 * p.number) →
        w.words.head? = some (pageId p))

/-- A WRITE of one word that passes R46 answers SUCCESS with no payload and gives the register its meaning: FLT_ENABLE takes the implemented
causes that can be disabled, FLT_IRQ_EN the word, FLT_N reads 0 as 1 and FLT_WINDOW a code above 21 as 21, the reactions stand at the floor
of the page at least, read-only offsets of the header ignore the word. Each reads back as written. One that fails R46 stores nothing; a
counted one latches OWN_VIOL and counts on its port and on OWN. A READ of one word that passes R46 answers the word that the register holds
(R15, R16, R46 to R48, R58 to R63, R471, R480, R543). -/
def Obligations.RegisterWritesTakeEffect : Prop :=
  ∀ (n stream : Fin 4) (p : Page) (w : Word) (s : State) (x : Txn), s.shaped = true →
    let u := s.answer n x 0 []
    let set := fun (off : Nat) (v : Word) (f : Hdr → Hdr) => s.puts n stream x p off w →
      s.effect n stream (u.updHdr p f) ∧ ∀ k, (u.updHdr p f).readReg p off k = v
    (∀ off, s.puts n stream x p off w → ∃ y ∈ (u.hp n).txns, y.tag = x.tag ∧ y.resp.map (fun r => (r.status, r.words)) = some (0, []))
    ∧ set 0x18 (if floorOf p = 0 then w &&& resetEnable p else resetEnable p)
        (fun h => { h with enable := if floorOf p = 0 then w &&& resetEnable p else resetEnable p })
    ∧ set 0x1C w (fun h => { h with irqEn := w })
    ∧ (s.puts n stream x p 0x24 w → s.effect n stream (u.updHdr p fun h =>
        { h with fltN := if w.extractLsb' 0 8 = 0 then 1 else w.extractLsb' 0 8
                 fltWindow := if 21 < (w.extractLsb' 8 5).toNat then 21 else w.extractLsb' 8 5 }))
    ∧ set 0x28 ((raiseReaction p (w.setWidth 4)).setWidth 32) (fun h => { h with reactMinor := raiseReaction p (w.setWidth 4) })
    ∧ set 0x2C ((raiseReaction p (w.setWidth 4)).setWidth 32) (fun h => { h with reactSevere := raiseReaction p (w.setWidth 4) })
    ∧ ((floorOf p &&& 7).toNat ≤ (raiseReaction p (w.setWidth 4) &&& 7).toNat
      ∧ (raiseReaction p (w.setWidth 4)).getLsbD 3 = (w.getLsbD 3 || (floorOf p).getLsbD 3))
    ∧ (∀ off, s.puts n stream x p off w → off < 0x100 → off ∉ [0x08, 0x0C, 0x14, 0x18, 0x1C, 0x24, 0x28, 0x2C] → s.effect n stream u)
    ∧ (s.dev.state ≠ .off → s.headTxn n stream = some x → x.op = 2 → ∀ r, s.judge n x = some r →
      (r.counted = false → ∃ t, s.effect n stream t ∧ t = { s with hps := t.hps }
        ∧ ∃ y ∈ (t.hp n).txns, y.tag = x.tag ∧ y.resp.map (fun r => (r.status, r.words)) = some (r.status, []))
      ∧ (r.counted = true → s.noChipReset = true → ∃ t, s.effect n stream t ∧ Quiet s t ∧ t.spbs = s.spbs
        ∧ t.counter (hpOf n) 0x48 = satInc (s.counter (hpOf n) 0x48) ∧ t.counter .own (0x44 + 4 * n.val) = satInc (s.counter .own (0x44 + 4 * n.val))
        ∧ (s.hears (hpOf n) 0 = true → t.shows (hpOf n) 0 = true)
        ∧ ∀ q : Page, (t.hdr q).enable = (s.hdr q).enable ∧ (t.hdr q).irqEn = (s.hdr q).irqEn ∧ (t.hdr q).fltN = (s.hdr q).fltN
          ∧ (t.hdr q).reactMinor = (s.hdr q).reactMinor ∧ (t.hdr q).reactSevere = (s.hdr q).reactSevere
          ∧ (t.hdr q).own.locked = (s.hdr q).own.locked ∧ (t.hdr q).own.flask = (s.hdr q).own.flask))
    ∧ ∀ off, s.serves n stream x p off → x.op = 1 → p ≠ .frm → (p = hpOf n → off ≠ 0x100) → ∃ t, s.effect n stream t
      ∧ (∃ y ∈ (t.hp n).txns, y.tag = x.tag ∧ y.resp.map (fun r => (r.status, r.words)) = some (0, [s.readReg p off s.free]))
      ∧ t = { s with hps := t.hps, free := s.free + 1 }

/-- Writes of the fault and lock registers: FLT_LATCH clears the causes written 1, but those whose condition is live stay, PARTNER goes with the
causes of its pair that the write clears, and the incident closes as no cause is left; LOCK only sets, and a locked page takes none of the
registers that it protects; CNT_CLR sets the page's counters to their reset values; SUP_EVENTS clears bits (R16, R53 to R64, R67, R106,
R350, R546, R629). -/
def Obligations.FaultRegistersTakeEffect : Prop :=
  ∀ (n stream : Fin 4) (p : Page) (w : Word) (s : State) (x : Txn), s.shaped = true → (∀ off, s.freshBits p off = 0) →
    let u := s.answer n x 0 []
    (s.puts n stream x p 0x14 w → ∃ t, s.effect n stream t
      ∧ (∀ c, c < 32 → w.getLsbD c = false → t.shows p c = s.shows p c)
      ∧ (∀ c, c < 32 → w.getLsbD c = true → (s.liveOf p).getLsbD c = false → t.shows p c = false)
      ∧ (∀ c, c < 32 → (∀ b : Fin 8, p ≠ .fib b ∧ p ≠ .fob b) → p ≠ .pwl → (s.liveOf p).getLsbD c = true → (s.hdr p).enable.getLsbD c = true →
        t.shows p c = s.shows p c)
      ∧ (t.hdr p).incident.isOpen = ((s.hdr p).incident.isOpen && t.latchOf p != 0)
      ∧ (∀ (b : Fin 8) (k : Fin 8) (q : Nat), p = .fob b → w.getLsbD 9 = true → s.partner (outputOf b k) = some q → bankOfOutput q = b.val →
        (s.hdr p).latch.getLsbD 20 = false → s.ownLive q &&& 0x1F7 = 0 → (s.out q).latch &&& 0x1F7 &&& ~~~(w.setWidth 10) = 0 →
        (t.out (outputOf b k)).latch.getLsbD 9 = false)
      ∧ ∀ q : Page, q ≠ p → q ≠ .trp → t.hdr q = s.hdr q)
    ∧ (s.puts n stream x p 0x0C w → s.effect n stream (u.updHdr p fun h =>
        { h with own := { h.own with locked := h.own.locked || w.getLsbD 0, nohand := h.own.nohand || w.getLsbD 1 } }))
    ∧ (∀ off ∈ [0x18, 0x24, 0x28, 0x2C], (s.hdr p).own.locked = true → s.mapped p = true → x.op = 2 → x.payload = [w] → x.len = 1 →
      s.txnPage x = p.number → x.off = off → s.judge n x ≠ none)
    ∧ (w = 1 → p ≠ .dev → p ≠ .img → s.puts n stream x p (if p = .frm then 0x13C else 0x104) w →
      s.effect n stream (u.updHdr p fun h => { h with counters := resetCounters p }))
    ∧ (p = .sup → s.puts n stream x p 0x108 w → ∃ t, s.effect n stream t ∧ (∀ i, i < 5 → t.sup.events.getLsbD i = (s.sup.events.getLsbD i && !w.getLsbD i))
      ∧ t = { u with sup := { u.sup with events := t.sup.events } })

/-- Writes that move ownership and keys: HANDOVER takes TARGET, and a GO is ignored while PENDING, REFUSED, DONE at once for the present owner,
or starts a drain in which OWNER stays; ASSIGN acts so on the page it names; KEY_CTRL GO begins to program a key that is not set; PERMIT_HI
puts the staged low word and its own in force as one; UNFENCE ends the fence of a port, of a bank that is not marked unusable, of a context
(R15, R53, R71 to R74, R464, R482 to R484, R501, R517, R526, R530, R558). -/
def Obligations.OwnershipRegistersTakeEffect : Prop :=
  ∀ (n stream : Fin 4) (p : Page) (w : Word) (s : State) (x : Txn), s.shaped = true →
    let u := s.answer n x 0 []
    let own := fun (q : Page) (f : Ownership → Ownership) => u.updHdr q fun h => { h with own := f h.own }
    let o := (s.hdr p).own
    let target := w.extractLsb' 0 4
    (s.puts n stream x p 0x08 w →
      (w.getLsbD 8 = false ∨ o.pending = true → s.effect n stream (own p fun a => { a with target := target }))
      ∧ (w.getLsbD 8 = true → o.pending = false → (fixedOwner p = true ∨ o.nohand = true ∨ 3 < target.toNat ∨ (s.hp target.toNat).fenced = true) →
        s.effect n stream (own p fun a => { a with target := target, result := 2 }))
      ∧ (w.getLsbD 8 = true → o.pending = false → fixedOwner p = false → o.nohand = false → target.toNat ≤ 3 → (s.hp target.toNat).fenced = false →
        (o.flask = target → s.effect n stream (own p fun a => { a with target := target, result := 1 }))
        ∧ (o.flask ≠ target → (∀ k, p = .spb k → s.jobsOn k = []) → ∃ t, s.effect n stream t
          ∧ (t.hdr p).own = { o with target := target, draining := true, pending := true, byAssign := false, dest := target }
          ∧ (∀ q : Page, q ≠ p → t.hdr q = s.hdr q) ∧ (∀ k, k < 4 → k ≠ o.flask.toNat → t.hp k = u.hp k)
          ∧ (∀ y ∈ (u.hp o.flask.toNat).txns, y.resp = none → s.onPage p y = true → { y with drains := true } ∈ (t.hp o.flask.toNat).txns)
          ∧ t = { s with hps := t.hps, hdrs := t.hdrs })
        ∧ (o.flask ≠ target → ∀ k c, p = .spb k → c ∈ s.jobsOn k → (∀ j, j < 8 → (s.hdr .chk).enable.getLsbD (8 + j) = false) →
          ∃ t, s.effect n stream t ∧ (t.hdr p).own.draining = true ∧ (t.ctx c).busy = false ∧ (t.ctx c).jobRes = 5)))
    ∧ (p = .own → s.puts n stream x p 0x10C w →
      let named := { u with own := { u.own with assignPage := w.extractLsb' 20 12, assignFlask := target } }
      (w.getLsbD 19 = false → s.effect n stream named)
      ∧ (w.getLsbD 19 = true →
        (pageOf (w.extractLsb' 20 12).toNat = none → s.effect n stream { named with own := { named.own with assignResult := 2 } })
        ∧ ∀ q : Page, q.number = (w.extractLsb' 20 12).toNat →
          (s.mapped q = false ∨ q.assignable = false ∨ 3 < target.toNat ∨ (s.hdr q).own.nohand = true →
            s.effect n stream { named with own := { named.own with assignResult := 2 } })
          ∧ (s.mapped q = true → q.assignable = true → target.toNat ≤ 3 → (s.hdr q).own.nohand = false →
            ((s.hdr q).own.draining = true → s.effect n stream named)
            ∧ ((s.hdr q).own.draining = false → (s.hdr q).own.flask = target →
              s.effect n stream { named with own := { named.own with assignResult := 1 } })
            ∧ ((s.hdr q).own.draining = false → (s.hdr q).own.flask ≠ target → (∀ k, q = .spb k → s.jobsOn k = []) → ∃ t, s.effect n stream t
              ∧ (t.hdr q).own = { (s.hdr q).own with draining := true, pending := true, byAssign := true, dest := target }
              ∧ t = { named with hps := t.hps, hdrs := t.hdrs }))))
    ∧ (p = .own → s.puts n stream x p 0x110 w →
      let key := w.extractLsb' 0 2
      (w.getLsbD 2 = false → s.effect n stream { u with own := { u.own with key := key } })
      ∧ (w.getLsbD 2 = true → (s.own.keyBusy = true ∨ key = 0 ∨ key = 3 ∨ key = 1 ∧ s.otp.sess.isSome = true ∨ key = 2 ∧ s.otp.img.isSome = true) →
        s.effect n stream { u with own := { u.own with key := key, keyResult := 2 } })
      ∧ (w.getLsbD 2 = true → s.own.keyBusy = false → (key = 1 ∧ s.otp.sess = none ∨ key = 2 ∧ s.otp.img = none) →
        s.effect n stream { u with own := { u.own with key := key, keyBusy := true, keyGoing := key } }))
    ∧ (∀ m : Fin 4, p = .hp m → (s.puts n stream x p 0x118 w → s.effect n stream (u.updHp m fun y => { y with permitStaged := w }))
      ∧ (s.puts n stream x p 0x11C w → s.effect n stream (u.updHp m fun y =>
        { y with permitLo := y.permitStaged, permitHi := w, refreshed := true, everRefreshed := true })))
    ∧ (∀ m : Fin 4, p = .own → w = bitMask 32 m.val → (s.hp m).fenced = true → s.puts n stream x p 0x108 w → ∃ t, s.effect n stream t
      ∧ (t.hp m).fenced = false ∧ (t.hp m).expSeq = 0 ∧ (t.hp m).session = none ∧ (t.hp m).permitHi = 0 ∧ (t.hp m).txns = (u.hp m).txns
      ∧ (∀ k, k < 4 → k ≠ m.val → t.hp k = u.hp k) ∧ t = { s with hps := t.hps, evl := t.evl })
    ∧ (∀ k : Fin 16, p = .spc → w = bitMask 32 k.val → s.puts n stream x p 0x110 w →
      ((s.spb k).fenced = true → (s.spb k).unusable = false → ∃ t, s.effect n stream t ∧ (t.spb k).fenced = false ∧ (t.spb k).power = .filling
        ∧ (t.spb k).req = 0 ∧ (∀ j, j < 16 → j ≠ k.val → t.spb j = s.spb j) ∧ t = { u with spbs := t.spbs, evl := t.evl })
      ∧ ((s.spb k).fenced = false ∨ (s.spb k).unusable = true → s.effect n stream u))
    ∧ ∀ c : Fin 8, p = .chk → w = bitMask 32 (8 + c.val) → s.puts n stream x p 0x104 w →
      ((s.ctx c).fenced = true → ∃ t, s.effect n stream t ∧ t.ctx c = { cfg := if c.val = 6 then 0x10 else 0, unusable := (s.ctx c).unusable }
        ∧ (∀ j, j < 8 → j ≠ c.val → t.ctx j = s.ctx j) ∧ t = { u with ctxs := t.ctxs, evl := t.evl })
      ∧ ((s.ctx c).fenced = false → s.effect n stream u)

/-- Writes that set something off: RELOAD is accepted, or refused by its state or its source, a staged header that meets no ECC error and no
borrowed segment being read at once; COMPLETE begins VERIFY where the host loads; REQ asks a bank for its power state; INIT seeds a context,
CHECK compares it, JOB_GO starts a job or refuses it, a word of the feed window is fed, a write to a BUSY context is ignored and counted;
PORT_RESET ends what its port has under way, its own response first (R429, R430, R432, R434, R470, R474, R489, R493, R511, R519 to R527,
R534, R535). -/
def Obligations.ControlRegistersTakeEffect : Prop :=
  ∀ (n stream : Fin 4) (p : Page) (w : Word) (s : State) (x : Txn), s.shaped = true → s.noChipReset = true →
    let u := s.answer n x 0 []
    (p = .img → s.puts n stream x p 0x104 w → w.getLsbD 1 = false →
      let src := w.extractLsb' 8 3
      let k := (w.extractLsb' 16 4).toNat
      let asks : Reload := { port := BitVec.ofNat 2 n, src := src, bank := w.extractLsb' 16 4 }
      let named := { u with img := { u.img with stageBank := w.extractLsb' 16 4, src := src } }
      let result := fun (r : BitVec 4) (d : Option Reload) => { named with img := { named.img with reloadResult := r, due := d } }
      (w.getLsbD 0 = false → s.effect n stream named)
      ∧ (w.getLsbD 0 = true → s.dev.state.reloads = true →
        (s.dev.state = .safe → s.dev.safeR36 = true → s.effect n stream (result 2 s.img.due))
        ∧ (¬(s.dev.state = .safe ∧ s.dev.safeR36 = true) →
          (src.toNat < 4 → s.effect n stream (result 1 (some asks)))
          ∧ (4 < src.toNat → s.effect n stream (result 3 s.img.due))
          ∧ (src = 4 → (s.spb k).power = .on → (s.spb k).fenced = false → s.spc.borrowed = false → ∀ ties ok,
            exec (.takeEffect n stream ties [] ok) s = .next (if s.stageOk k then result 1 (some asks) else result 3 s.img.due))
          ∧ (src = 4 → (s.spb k).power ≠ .on → s.spc.borrowed = false → ∃ t, s.effect n stream t ∧ t.img.reloadResult = 3 ∧ t.img.due = s.img.due
            ∧ t = { named with img := t.img, hdrs := t.hdrs }))))
    ∧ (p = .img → s.puts n stream x p 0x104 w → w.getLsbD 1 = true → w.getLsbD 0 = false →
      (s.windowOpen = true → ∃ t, s.effect n stream t ∧ t.img.phase = .verifying ∧ t.img.source = 3 ∧ t.crb.mem = s.crb.mem
        ∧ t.dev.state = (if s.dev.state = .commission then .commission else .verify))
      ∧ (s.windowOpen = false → ∃ t, s.effect n stream t ∧ t = { u with img := t.img } ∧ t.img.phase = s.img.phase ∧ t.dev = s.dev))
    ∧ (∀ k : Fin 16, p = .spb k → s.puts n stream x p 0x108 w →
      let runs := s.dev.state = .run ∨ s.dev.state = .safe ∨ s.dev.state = .commission
      (w.extractLsb' 0 2 = 3 ∨ (s.spb k).fenced = true ∨ (s.spb k).unusable = true ∨ ((s.spb k).publish = true ∧ runs) → s.effect n stream u)
      ∧ (w.extractLsb' 0 2 ≠ 3 → (s.spb k).fenced = false → (s.spb k).unusable = false → ¬((s.spb k).publish = true ∧ runs) →
        s.effect n stream (u.updSpb k fun b => { b with req := w.extractLsb' 0 2
                                                        power := if b.power = .off ∧ w.extractLsb' 0 2 = 0 then .filling else b.power })))
    ∧ (∀ c : Fin 6, p = .chk → (s.ctx c).fenced = false →
      let y := s.ctx c
      let at' := 0x200 + 64 * c.val
      let seed : Word := (if y.poly = 2 then 0xFFFF else 0xFFFFFFFF) ^^^ (if y.cfg.getLsbD 4 then y.fit (y.foldBase.setWidth 32) else 0)
        ^^^ (if y.cfg.getLsbD 5 then y.fit (y.seq.setWidth 32 <<< (if y.poly = 2 then 8 else 24)) else 0)
      (y.busy = false →
        (w = 1 → s.puts n stream x p (at' + 0x18) w → s.effect n stream (u.updCtx c fun z =>
          { z with value := seed, seq := if z.cfg.getLsbD 5 then z.seq + 1 else z.seq, feeder := none }))
        ∧ (w = 2 → s.puts n stream x p (at' + 0x18) w →
          (y.fit y.expect = y.result → ∃ t, s.effect n stream t ∧ t.ctx c = { y with chkRes := 1 } ∧ t.counter .chk 0x48 = satInc (s.counter .chk 0x48)
            ∧ t = { u with ctxs := t.ctxs, hdrs := t.hdrs })
          ∧ (y.fit y.expect ≠ y.result → ∃ t, s.effect n stream t ∧ t.counter .chk 0x48 = satInc (s.counter .chk 0x48)
            ∧ (s.hears .chk c.val = true → t.shows .chk c.val = true)
            ∧ ((s.hdr .chk).enable.getLsbD c = false → t.ctx c = { y with chkRes := 2, mmValue := y.result, mmExpect := y.fit y.expect })))
        ∧ (w = 4 → s.puts n stream x p (at' + 0x18) w →
          ((s.hdr (spbOf y.jobBank.toNat)).own.flask = (s.hdr .chk).own.flask → 4 * y.jobOffset.toNat + 4 * y.jobLen.toNat ≤ 0x8000 →
            s.effect n stream (u.updCtx c fun z => { z with busy := true, jobPos := 0, jobCheck := false, retry := false, waits := false }))
          ∧ ((s.hdr (spbOf y.jobBank.toNat)).own.flask ≠ (s.hdr .chk).own.flask ∨ 0x8000 < 4 * y.jobOffset.toNat + 4 * y.jobLen.toNat →
            ∃ t, s.effect n stream t ∧ (t.ctx c).busy = false ∧ (s.hears .chk (8 + c.val) = true → t.shows .chk (8 + c.val) = true)
              ∧ ((s.hdr .chk).enable.getLsbD (8 + c.val) = false → (t.ctx c).jobRes = 2)))
        ∧ (s.puts n stream x p (0x800 + 0x100 * c.val) w → (y.feeder = none ∨ y.feeder = some (BitVec.ofNat 4 (4 * n.val + stream.val))) →
          s.effect n stream (u.updCtx c fun z => { z.feed w with feeder := some (BitVec.ofNat 4 (4 * n.val + stream.val)) }))
        ∧ (s.puts n stream x p (at' + 0x14) w → s.effect n stream (u.updCtx c fun z => { z with expect := w }))
        ∧ (s.puts n stream x p (at' + 0x04) w → s.effect n stream (u.updCtx c fun z => { z with value := w, feeder := none })))
      ∧ (y.busy = true → ∀ off ∈ [0x00, 0x04, 0x0C, 0x10, 0x14, 0x20, 0x24], s.puts n stream x p (at' + off) w →
        s.effect n stream (u.bump .chk 0x4C)))
    ∧ (p = hpOf n → w = 2 → s.puts n stream x p 0x104 w → ∃ t, s.effect n stream t ∧ (t.hp n).resetting = true ∧ (t.hp n).session = none
      ∧ (t.hp n).permitLo = 0 ∧ (t.hp n).permitHi = 0 ∧ (∀ y ∈ (t.hp n).txns, y.resp.isSome = true)
      ∧ (∃ y ∈ (t.hp n).txns, y.tag = x.tag ∧ y.resp.map (fun r => r.status) = some 0) ∧ (∀ k, k < 4 → k ≠ n.val → t.hp k = s.hp k)
      ∧ t = { s with hps := t.hps, hdrs := t.hdrs })

/-- What ends on its own at a port: TOKEN_REFILL adds a token up to BUCKET, BLOCK_RESET_END brings EXP_SEQ to 0 with a full bucket,
BUSY_N_PULSE_END ends the collision pulse, CELL_ABORTED latches LINK and acknowledges nothing (R450, R466, R468, R470, R475).
HANDOVER_DRAIN_DONE: FLASK takes the TARGET of the GO, DRAINING and PENDING clear, RESULT becomes DONE (R74). KEY_PROGRAM_DONE: the key
being programmed is set and KEY_DATA cleared; a readback that fails leaves it unusable with FAILED and latches OTP_ERR (R484). -/
def Obligations.PortTimersEnd : Prop :=
  (∀ (n : Fin 4) (s : State),
      (s.dev.state ≠ .off → exec (.tokenRefill n) s = .next (s.updHp n fun p =>
        { p with tokens := if p.tokens.toNat < p.bucket.toNat then p.tokens + 1 else p.tokens }))
      ∧ ((s.hp n).resetting = true → exec (.blockResetEnd n) s = .next ((s.mark (hpOf n) 0x108 1).updHp n fun p =>
        { p with resetting := false, expSeq := 0, tokens := p.bucket, events := p.events ||| 2 }))
      ∧ exec (.busyNPulseEnd n) s = .next (s.updHp n fun p => { p with pulse := false })
      ∧ (s.shaped = true → s.noChipReset = true → s.portServes n = true → ∃ t, exec (.cellAborted n) s = .next t
        ∧ (s.hears (.hp n) 5 = true → t.shows (.hp n) 5 = true) ∧ Quiet s t))
    ∧ (∀ (p : Page) (s : State), s.shaped = true → (s.hdr p).own.draining = true → s.drainLeft p = 0 → (s.hdr p).own.byAssign = false →
      ∃ t, exec (.handoverDrainDone p) s = .next t ∧ (t.hdr p).own.flask = (s.hdr p).own.dest ∧ (t.hdr p).own.draining = false
        ∧ (t.hdr p).own.pending = false ∧ (t.hdr p).own.result = 1 ∧ (∀ q : Page, q ≠ p → t.hdr q = s.hdr q) ∧ t = { s with hdrs := t.hdrs })
    ∧ (∀ s : State, s.own.keyBusy = true →
      (∃ t, exec (.keyProgramDone true) s = .next t ∧ t.own.keyBusy = false ∧ t.own.keyResult = 1 ∧ t.own.keyData = 0
        ∧ (s.own.keyGoing = 1 → t.otp.sess = some s.own.keyData ∧ t.otp.img = s.otp.img ∧ t.otp.sessBad = false)
        ∧ (s.own.keyGoing = 2 → t.otp.img = some s.own.keyData ∧ t.otp.sess = s.otp.sess ∧ t.otp.imgBad = false)
        ∧ t = { s with otp := t.otp, own := t.own })
      ∧ (s.shaped = true → s.noChipReset = true → ∃ t, exec (.keyProgramDone false) s = .next t
        ∧ t.own.keyBusy = false ∧ t.own.keyResult = 3 ∧ t.own.keyData = 0 ∧ (s.hears .own 0 = true → t.shows .own 0 = true)
        ∧ (s.own.keyGoing = 1 → t.otp.sessBad = true) ∧ (s.own.keyGoing = 2 → t.otp.imgBad = true)))

/-! Scratchpad banks and check contexts (R485 to R530). -/

/-- A word of a job feeds the context from the bank that is ON; the last word ends the job as DONE; a retry reads the word again; an
uncorrectable word latches UNCORR on its bank's page and ends the job as ECC; a bank that is not ON delivers 0; a parity error in the state
of a context latches CTX_PARITY (R487, R488, R495, R525, R526, R531). That JOB_WORD_READ brings that error is the model's choice (log 84).
BANK_POWER_CHANGE: a bank that is FILLING becomes ON with every word 0; ON gives way to RETAIN with its data or to OFF with its data lost,
as requested; RETAIN returns to ON with its data; no other bank changes (R488, R489, R506). -/
def Obligations.BanksServeContexts : Prop :=
  (∀ (c : Fin 8) (s : State), s.shaped = true →
      (s.noChipReset = true → ∃ t, exec (.jobWordRead c none true) s = .next t ∧ Quiet s t
        ∧ (s.hears .chk (16 + c.val) = true → t.shows .chk (16 + c.val) = true))
      ∧ ((s.ctx c).busy = true → (s.ctx c).jobPos + 1 ≠ (s.ctx c).jobLen →
      let k := (s.ctx c).jobBank.toNat
      let w := (s.spb k).mem.readW 0 (s.ctx c).jobAt
      ((s.ctx c).retry = false → (s.spb k).power = .on → (s.spb k).fenced = false → s.spc.borrowed = false →
        exec (.jobWordRead c none false) s = .next (s.updCtx c fun x => { x.feed w with jobPos := x.jobPos + 1 }))
      ∧ ((s.ctx c).retry = true → (s.spb k).power = .on → (s.spb k).fenced = false → s.spc.borrowed = false →
        ∃ t, exec (.portBRetry c none) s = .next t ∧ t.ctx c = { (s.ctx c).feed w with retry := false, jobPos := (s.ctx c).jobPos + 1 }
          ∧ t = { s with ctxs := t.ctxs })
      ∧ ((s.ctx c).retry = false → (s.spb k).power ≠ .on → ∃ t, exec (.jobWordRead c none false) s = .next t
        ∧ t.ctx c = { (s.ctx c).feed 0 with jobPos := (s.ctx c).jobPos + 1 }
        ∧ t.counter (spbOf k) 0x4C = satInc (s.counter (spbOf k) 0x4C) ∧ t = { s with ctxs := t.ctxs, hdrs := t.hdrs })
      ∧ (s.noChipReset = true → (s.ctx c).retry = false → (s.spb k).power = .on → (s.spb k).fenced = false → s.spc.borrowed = false →
        ∀ e : EccErr, e.uncorr = true → ∃ t, exec (.jobWordRead c (some e) false) s = .next t
          ∧ (s.hears (spbOf k) 0 = true → t.shows (spbOf k) 0 = true)
          ∧ ((s.hdr .chk).enable.getLsbD (8 + c) = false → (t.ctx c).busy = false ∧ (t.ctx c).jobRes = 4)))
      ∧ ((s.ctx c).busy = true → (s.ctx c).jobPos + 1 = (s.ctx c).jobLen → (s.ctx c).retry = false → (s.ctx c).jobCheck = false →
        (s.spb (s.ctx c).jobBank.toNat).power = .on → (s.spb (s.ctx c).jobBank.toNat).fenced = false → s.spc.borrowed = false →
        ∃ t, exec (.jobWordRead c none false) s = .next t
          ∧ t.ctx c = { (s.ctx c).feed ((s.spb (s.ctx c).jobBank.toNat).mem.readW 0 (s.ctx c).jobAt) with
              jobPos := (s.ctx c).jobPos + 1, busy := false, retry := false, jobRes := 1 }
          ∧ t.counter .chk 0x44 = satInc (s.counter .chk 0x44) ∧ t = { s with ctxs := t.ctxs, hdrs := t.hdrs }))
    ∧ (∀ (k : Fin 16) (s : State), s.shaped = true → (s.spb k).fenced = false → s.jobsOn k = [] →
      ((s.spb k).power = .filling → ∃ t, exec (.bankPowerChange k) s = .next t ∧ (t.spb k).power = .on ∧ (t.spb k).mem = []
        ∧ t.spc.later.getLsbD k = true ∧ (∀ j, j < 16 → j ≠ k.val → t.spb j = s.spb j) ∧ t = { s with spbs := t.spbs, spc := t.spc })
      ∧ ((s.spb k).power = .on → (s.spb k).req = 1 →
        exec (.bankPowerChange k) s = .next (s.updSpb k fun b => { b with power := .retain, left := true }))
      ∧ ((s.spb k).power = .on → (s.spb k).req = 2 →
        exec (.bankPowerChange k) s = .next (s.updSpb k fun b => { b with power := .off, mem := [], left := true }))
      ∧ ((s.spb k).power = .retain → (s.spb k).req = 0 → ∃ t, exec (.bankPowerChange k) s = .next t ∧ (t.spb k).power = .on
        ∧ (t.spb k).mem = (s.spb k).mem ∧ t = { s with spbs := t.spbs, spc := t.spc })
      ∧ ((s.spb k).power = .retain → (s.spb k).req = 2 →
        exec (.bankPowerChange k) s = .next (s.updSpb k fun b => { b with power := .off, mem := [] })))

/-! Faults and the event log (R36, R536 to R569). -/

/-- A cause whose FLT_ENABLE bit is 0 produces no event. It does not latch, count, react, enter HIST or enter the device event log. FLT_LIVE
still shows its condition (R537). -/
def Obligations.DisabledCauseSilent : Prop :=
  (∀ (e : Ev) (s : State), (s.hdr e.page).enable.getLsbD e.cause = false → s.raise e = s)
    ∧ (∀ (p : Page) (c : Nat) (s : State), s.shaped = true → c < 32 → (s.hdr p).enable.getLsbD c = false →
      s.onset p c = s.setLive p c true ∧ ((s.onset p c).liveOf p).getLsbD c = true)
    ∧ (∀ (h : Half) (s : State), (s.hdr .dev).enable.getLsbD 0 = false → s.dev.errDiff = 0 → exec (.errPin h true) s
      = .next ({ s with dev := { s.dev with errDiff := putBit s.dev.errDiff h.num true } }.setLive .dev 0 true))
    ∧ ∀ (r : Rail) (s : State), s.shaped = true → (s.hdr .sup).enable.getLsbD (railNum r) = false → s.sup.ovLive.getLsbD (railNum r) = false →
      ∃ t, exec (.supplyOv r) s = .next t ∧ (t.liveOf .sup).getLsbD (railNum r) = true ∧ t.latchOf .sup = s.latchOf .sup
        ∧ (t.hdr .sup).total = (s.hdr .sup).total ∧ (t.hdr .sup).hist = (s.hdr .sup).hist ∧ t.evl = s.evl
        ∧ t = { s with sup := { s.sup with ovLive := t.sup.ovLive }, hdrs := t.hdrs }

/-- An event of any enabled cause of any page: its cause latches, TOTAL counts it, and a CAUSE entry joins the log's queue. A new event outside
every consequence shadow counts in IN_WINDOW, takes REACT_MINOR below FLT_N events in the window and REACT_SEVERE from there on (CFG_ERR of
PWL a FENCE as SAFE_STOP), opens the incident with the first-fault record of its time and frame, or merges into an open one, where it takes
a reaction only of a higher ACTION. A consequential event takes class 0, counts in no window, takes at most a reaction that turns off or
moves toward SAFE, and counts in the incident that it follows (R57, R61, R64, R65, R68, R536, R538, R539, R544, R545, R548 to R551, R553,
R565). -/
def Obligations.EventRecorded : Prop :=
  ∀ (e : Ev) (s : State), s.shaped = true → s.hears e.page e.cause = true → e.placed = true → e.fixed = none → s.evl.queue.length < 64 →
    let p := e.page
    let h := s.hdr p
    let r := s.record e
    let t := r.1
    let severe := h.fltN.toNat ≤ h.inWindow.toNat + 1
    let own := if severe then h.reactSevere else h.reactMinor
    let react := if p = .pwl ∧ e.cause = 8 ∧ own &&& 7 = 4 then (own &&& 8) ||| 5 else own
    s.raise e = t.react p e.cause r.2.1 r.2.2.1 r.2.2.2 ∧ Quiet s t ∧ t.shows p e.cause = true ∧ (t.hdr p).total = satInc h.total
      ∧ (t.hdr p).incident.isOpen = true
      ∧ (∃ x, t.evl = { s.evl with queue := s.evl.queue ++ [x] } ∧ x.time = s.frm.tb ∧ x.w0.extractLsb' 12 4 = 1 ∧ (x.w0.extractLsb' 0 6).toNat = e.cause
        ∧ x.w1.extractLsb' 20 12 = p.num12 ∧ x.w0.getLsbD 7 = h.incident.isOpen)
      ∧ (s.shadowFor e = none → r.2.2.1 = p ∧ (t.hdr p).inWindow = satInc h.inWindow ∧ (t.hdr p).windowOpen = true
        ∧ (∀ q : Page, q ≠ p → t.hdr q = s.hdr q)
        ∧ (h.incident.isOpen = false → r.2.1 = react ∧ (t.hdr p).first = { cause := bitMask 32 e.cause, time := s.frm.tb, frame := s.frm.frameNum }
          ∧ (t.hdr p).incident.mergeCount = 0 ∧ (t.hdr p).incident.reaction = react ∧ (t.hdr p).incident.severity = (if severe then 2 else 1))
        ∧ (h.incident.isOpen = true →
          r.2.1 = (if (react &&& 7).toNat ≤ (h.incident.reaction &&& 7).toNat then 0 else react)
          ∧ (t.hdr p).incident.mergeCount = satInc h.incident.mergeCount ∧ (t.hdr p).incident.reaction.getLsbD 3 = (h.incident.reaction ||| react).getLsbD 3
          ∧ (t.hdr p).incident.reaction.extractLsb' 0 3
            = (if (h.incident.reaction &&& 7).toNat < (react &&& 7).toNat then react else h.incident.reaction).extractLsb' 0 3
          ∧ (h.first.time ≠ s.frm.tb → (t.hdr p).first = h.first)))
      ∧ (∀ sh, s.shadowFor e = some sh → (t.hdr p).inWindow = h.inWindow ∧ r.2.1 = (if turnsOff p react then react else 0) ∧ r.2.2.1 = sh.origin
        ∧ (∀ x ∈ t.evl.queue.drop s.evl.queue.length, x.w0.getLsbD 6 = true ∧ x.w1.extractLsb' 0 3 = 0)
        ∧ (sh.origin ≠ p → (s.hdr sh.origin).incident.isOpen = true → (s.hdr sh.origin).incident.serial = sh.serial →
          (t.hdr sh.origin).incident.mergeCount = satInc (s.hdr sh.origin).incident.mergeCount ∧ (t.hdr sh.origin).incident.conseq = true))
      ∧ (h.hist.next < 8 → (h.incident.isOpen = false ∨ h.incident.events < 7) → ∃ x, (t.hdr p).hist.entries[h.hist.next]? = some x
        ∧ x.valid = true ∧ x.merged = h.incident.isOpen ∧ x.cause.toNat = e.cause ∧ x.frame = s.frm.frameNum ∧ x.timeLo = s.frm.tb.setWidth 32
        ∧ ((s.shadowFor e).isSome = true → x.conseq = true) ∧ (s.shadowFor e = none → x.reaction = react ∧ x.origin = p.num12))

/-- What a reaction does to its unit: TRAP pends its subsystem at both channels; BLOCK_RESET and FENCE of a port end its transactions, session
and permit, and a fence keeps it out; of a bank, its data and the jobs that read it, FILLING or OFF; of a context, its job, and its state is
cleared or it is out; FENCE of an I/O bank or a field die puts its outputs in trip demand and ends accesses of its pages; every unit that
the reaction does not name is as before, and a unit fenced already takes nothing more. CHIP_RESET moves STATE to START and resets the ports,
but acts as SAFE_STOP in COMMISSION and in a SHAKEOUT of an earlier cycle, and has no effect in OFF (R35, R39, R149, R185, R189, R470, R501,
R530, R539, R549, R554 to R556, R559, R562). -/
def Obligations.ReactionsTaken : Prop :=
  ∀ (p : Page) (c serial : Nat) (r : BitVec 4) (o : Page) (s : State), s.shaped = true → c < 32 →
    let t := s.react p c r o serial
    (r &&& 7 = 2 → t.cope = { s.cope with trapPend := s.cope.trapPend ||| bitMask 16 (subsystem p - 1) }
      ∧ t.drag = { s.drag with trapPend := s.drag.trapPend ||| bitMask 16 (subsystem p - 1) } ∧ t = { s with cope := t.cope, drag := t.drag })
    ∧ (r &&& 7 = 0 ∨ r &&& 7 = 1 → t = s)
    ∧ (∀ n : Fin 4, p = .hp n → (r &&& 7 = 3 ∨ r &&& 7 = 4) → (s.hp n).fenced = false →
      (t.hp n).session = none ∧ (t.hp n).permitLo = 0 ∧ (t.hp n).permitHi = 0 ∧ (∀ y ∈ (t.hp n).txns, y.resp.isSome = true)
        ∧ (t.hp n).resetting = true ∧ (t.hp n).fenced = (r &&& 7 == 4) ∧ (∀ m, m < 4 → m ≠ n.val → t.hp m = s.hp m)
        ∧ t = { s with hps := t.hps, hdrs := t.hdrs, evl := t.evl, shadows := t.shadows })
    ∧ (∀ k : Fin 16, p = .spb k → (r &&& 7 = 3 ∨ r &&& 7 = 4) → (s.spb k).fenced = false → (s.jobsOn k = [] ∨ s.noChipReset = true) →
      (t.spb k).mem = [] ∧ (t.spb k).fenced = (r &&& 7 == 4) ∧ (t.spb k).power = (if r &&& 7 = 4 then .off else .filling)
        ∧ (∀ m, m < 16 → m ≠ k.val → t.spb m = s.spb m)
        ∧ (∀ i ∈ s.jobsOn k, (t.ctx i).busy = false ∧ (t.ctx i).jobRes = 3)
        ∧ (s.jobsOn k = [] → t = { s with spbs := t.spbs, hps := t.hps, hdrs := t.hdrs, evl := t.evl, shadows := t.shadows }))
    ∧ (p = .chk → (r &&& 7 = 3 ∨ r &&& 7 = 4) → (∀ i, i < 8 → (s.ctx i).busy = false) → ∀ i, i < 8 →
      (i ∈ s.latchedCtxs → (s.ctx i).fenced = false →
        t.ctx i = if r &&& 7 = 4 then { s.ctx i with fenced := true } else { cfg := if i = 6 then 0x10 else 0, unusable := (s.ctx i).unusable })
      ∧ (i ∉ s.latchedCtxs ∨ (s.ctx i).fenced = true → t.ctx i = s.ctx i))
    ∧ (∀ b : Fin 8, (p = .fib b ∨ p = .fob b) → r &&& 7 = 4 → s.bankFenced b = false → t.bankFenced b = true
      ∧ (∀ e, e < 8 → e ≠ b.val → t.bankFenced e = s.bankFenced e)
      ∧ (∀ k, k < 6 → t.trp.tlC.getLsbD (6 * b.val + k) = true ∧ t.trp.tlD.getLsbD (6 * b.val + k) = true)
      ∧ t.ctxs = s.ctxs ∧ t.spbs = s.spbs ∧ t.cope = s.cope ∧ t.drag = s.drag ∧ t.dev = s.dev ∧ t.bars = s.bars ∧ t.pwl = s.pwl ∧ t.ins = s.ins)
    ∧ (∀ d : Fin 2, p = .bar d → r &&& 7 = 4 → (s.bar d).fenced = false → (t.bar d).fenced = true ∧ (∀ e, e < 2 → e ≠ d.val → t.bar e = s.bar e)
      ∧ (∀ k, k < 24 → t.trp.tlC.getLsbD (24 * d.val + k) = true ∧ t.trp.tlD.getLsbD (24 * d.val + k) = true)
      ∧ t.inBanks = s.inBanks ∧ t.ctxs = s.ctxs ∧ t.spbs = s.spbs ∧ t.cope = s.cope ∧ t.drag = s.drag ∧ t.dev = s.dev ∧ t.pwl = s.pwl ∧ t.ins = s.ins)
    ∧ ((∀ n : Fin 4, p = .hp n → (s.hp n).fenced = true) → (∀ k : Fin 16, p = .spb k → (s.spb k).fenced = true) →
      (∀ b : Fin 8, p = .fib b ∨ p = .fob b → s.bankFenced b = true) → (∀ d : Fin 2, p = .bar d → (s.bar d).fenced = true) → p ≠ .chk → p ≠ .pwl →
      (r &&& 7 = 3 ∨ r &&& 7 = 4) → t = s)
    ∧ (r &&& 7 = 6 → s.dev.state = .off → t.dev.state = .off)
    ∧ (r &&& 7 = 6 → s.dev.state = .commission → t.dev.state = .commission)
    ∧ (r &&& 7 = 6 → s.dev.state = .shakeout → s.dev.stateTime ≠ s.frm.tb → t.dev.state = .shakeout)
    ∧ (r &&& 7 = 6 → (s.dev.state = .load ∨ s.dev.state = .verify ∨ s.dev.state = .run ∨ s.dev.state = .safe) → s.otpFails = false →
      t.dev.state = .start ∧ t.dev.startCause = 4 ∧ t.dev.startPage = p.num12 ∧ t.dev.startCode.toNat = c ∧ t.frm.running = false
        ∧ t.trp.tlC = BitVec.allOnes 48 ∧ t.trp.tlD = BitVec.allOnes 48 ∧ (∀ n, n < 4 → (t.hp n).resetting = true ∧ (t.hp n).session = none
          ∧ (t.hp n).expSeq = (s.hp n).expSeq ∧ ∀ y ∈ (t.hp n).txns, y.resp.isSome = true)
        ∧ t.evl.mem = s.evl.mem ∧ t.otp = s.otp ∧ t.ident = s.ident)

/-- CLASSIFICATION_WINDOW_END clears the page's window count, SHADOW_END ends the shadow opened first, LOG_ENTRY_WRITE writes the earliest entry
of the queue, by time and then by page and cause, under the next SEQ once it is 500 ns old, and an OVERFLOW entry joins the queue where
entries were lost (R538, R549, R566 to R568). -/
def Obligations.LogAndWindowsEnd : Prop :=
  ∀ s : State,
    (∀ p : Page, s.dev.state ≠ .off → s.received p = true → (s.hdr p).windowOpen = true →
      exec (.classificationWindowEnd p) s = .next (s.updHdr p fun h => { h with windowOpen := false, inWindow := 0 }))
    ∧ exec .shadowEnd s = .next { s with shadows := s.shadows.drop 1 }
    ∧ (∀ it ∈ s.evl.queue, s.memOk = true → s.dev.state ≠ .off → it.w0.toNat < 65536 → it.time.toNat + 50 ≤ s.frm.tb.toNat →
      (∀ y ∈ s.evl.queue, y = it ∨ it.time < y.time ∨ it.time = y.time ∧ (it.page < y.page ∨ it.page = y.page ∧ (it.code < y.code
        ∨ it.code = y.code ∧ it.group < y.group))) →
      ∃ t, exec .logEntryWrite s = .next t ∧ t.evl.seq = s.evl.seq + 1 ∧ t.evl.lost = 0
        ∧ (s.evl.lost = 0 → t.evl.queue = s.evl.queue.erase it)
        ∧ (s.evl.lost ≠ 0 → ∃ o, t.evl.queue = s.evl.queue.erase it ++ [o] ∧ o.w0.extractLsb' 12 4 = 6 ∧ o.w1.extractLsb' 8 12 = s.evl.lost)
        ∧ Mem.readW 0 t.evl.mem (16 * (s.evl.seq.toNat % 4096) + 4) = it.w1
        ∧ (Mem.readW 0 t.evl.mem (16 * (s.evl.seq.toNat % 4096))).extractLsb' 16 16 = s.evl.seq
        ∧ Mem.readW 0 t.evl.mem (16 * (s.evl.seq.toNat % 4096) + 8)
          = wordAt (if it.time.toNat < s.evl.newest.toNat then s.evl.newest else it.time) 0
        ∧ (∀ a, (a < 16 * (s.evl.seq.toNat % 4096) ∨ 16 * (s.evl.seq.toNat % 4096) + 16 ≤ a) → Mem.read 0 t.evl.mem a = Mem.read 0 s.evl.mem a)
        ∧ t = { s with evl := t.evl })

/-- SAFE_STOP taken in RUN: STATE is SAFE, every trip latch sets, and a cause of R36 stops both channels (R36, R153, R189, R560). SAFE gives way
to RUN at the boundary after an evaluated frame in which SAFE was held for no cause of R36, no page held an open incident that took
SAFE_STOP, and SAFE_RESET read 1; every output is commanded off then; with any of the four missing, SAFE stays (R561). -/
def Obligations.SafeEnteredAndLeft : Prop :=
  (∀ (p : Page) (c : Nat) (s : State), s.shaped = true → s.dev.state = .run → s.hears p c = true → s.shadows = [] →
      (s.hdr p).incident.isOpen = false → ((s.hdr p).classify.2 &&& 7) = 5 → c < 32 →
      let t := s.raise { page := p, cause := c }
      t.dev.state = .safe ∧ t.dev.prev = .run ∧ t.dev.safeR36 = s.isR36 p c ∧ t.trp.tlC = BitVec.allOnes 48 ∧ t.trp.tlD = BitVec.allOnes 48
        ∧ (s.isR36 p c = true → t.cope.mode = .trapped ∧ t.drag.mode = .trapped ∧ t.cmp.active = false)
        ∧ t.frm.running = s.frm.running)
    ∧ (∀ s : State, s.frm.running = true → s.syncOn = false → s.dev.state = .safe →
      (s.prog.evalEnded = true → s.dev.safeR36 = false → s.stopOpen = false → s.prog.safeReset = true → ∃ t, exec .frameBoundary s = .next t
        ∧ t.dev.state = .run
        ∧ t.dev.prev = .safe ∧ t.frm.frameNum = s.frm.frameNum + 1 ∧ (∀ u ∈ t.outs, u.cmdC = false ∧ u.cmdD = false))
      ∧ ((s.prog.evalEnded = false ∨ s.dev.safeR36 = true ∨ s.stopOpen = true ∨ s.prog.safeReset = false) → ∃ t, exec .frameBoundary s = .next t
        ∧ t.dev = s.dev
        ∧ t.frm.frameNum = s.frm.frameNum + 1))

/-! The test access port (R574, R575, R647 to R649). -/

/-- IDCODE reads 0x1489_616B on the SLC-4896 and 0x1244_816B on the SLC-2448 (R648). -/
def Obligations.IdcodeReads : Prop :=
  ∀ s : State, s.dev.state ≠ .off → ∃ t, exec .idcode s = .next t ∧ t = { s with jtag := { s.jtag with ir := 0x02, data := t.jtag.data } }
    ∧ t.dataReg = .ident
    ∧ (s.ident.part = .slc4896 → t.jtag.data = 0x1489616B) ∧ (s.ident.part = .slc2448 → t.jtag.data = 0x1244816B)
    ∧ t.jtag.data.extractLsb' 28 4 = 1 ∧ t.jtag.data.extractLsb' 1 11 = 0x0B5 ∧ t.jtag.data.getLsbD 0 = true
    ∧ (s.ident.part = .slc4896 → t.jtag.data.extractLsb' 12 16 = 0x4896) ∧ (s.ident.part = .slc2448 → t.jtag.data.extractLsb' 12 16 = 0x2448)

/-- EXTEST and SAMPLE/PRELOAD capture the lands and take the word shifted in, CLAMP and HIGHZ capture the lands, HIGHZ outside COMMISSION acts
as SAMPLE/PRELOAD; CLAMP, BYPASS, and DBG_ACCESS and SCAN_EN outside COMMISSION select one bit. The boundary register drives the lands only
by EXTEST and CLAMP in COMMISSION, HIGHZ there drives none, elsewhere each land is as its unit drives it, and nothing but the port changes
(R647, R649). One command captures and shifts, HIGHZ captures in COMMISSION too, the polarity of the enable cell, that the cells of RESET_N,
PWR_FAIL_N, the straps and what the device drives capture what the state shows, and no TAP command in OFF: log 11 (PRESUMED). SCAN_EN in
COMMISSION enables scan once the working copies of the keys and every session are cleared; a check that fails leaves it disabled with
SECRET_FAIL; elsewhere it acts as BYPASS (R574, R575, R647). -/
def Obligations.JtagActs : Prop :=
  (∀ (l b : BitVec 101) (s : State), s.dev.state ≠ .off →
      (∀ i, i < 101 → ∀ k : Land × CellRole, boundaryCells[i]? = some k → (s.captureLands l).getLsbD i = (s.cellNow k.1 k.2).getD (l.getLsbD i))
      ∧ exec (.extest l b) s = .next { s with jtag := { s.jtag with ir := 0x00, captured := s.captureLands l, boundary := b } }
      ∧ exec (.samplePreload l b) s = .next { s with jtag := { s.jtag with ir := 0x01, captured := s.captureLands l, boundary := b } }
      ∧ exec (.clamp l) s = .next { s with jtag := { s.jtag with ir := 0x03, captured := s.captureLands l } }
      ∧ (s.dev.state = .commission → exec (.highz l b) s = .next { s with jtag := { s.jtag with ir := 0x04, captured := s.captureLands l } })
      ∧ (s.dev.state ≠ .commission →
        exec (.highz l b) s = .next { s with jtag := { s.jtag with ir := 0x04, captured := s.captureLands l, boundary := b } })
      ∧ exec .bypass s = .next { s with jtag := { s.jtag with ir := 0xFF } }
      ∧ (∀ t, exec (.extest l b) s = .next t → t.dataReg = .boundary ∧ ∀ k : Land, t.landDrive k =
          (if s.dev.state = .commission then some (t.cellDrives k) else s.unitDrives k))
      ∧ (∀ t, exec (.clamp l) s = .next t → t.dataReg = .bypass ∧ ∀ k : Land, t.landDrive k =
          (if s.dev.state = .commission then some (t.cellDrives k) else s.unitDrives k))
      ∧ (∀ t, exec (.samplePreload l b) s = .next t → t.dataReg = .boundary ∧ ∀ k : Land, t.landDrive k = s.unitDrives k)
      ∧ (∀ t, exec (.highz l b) s = .next t → ∀ k : Land, t.landDrive k = (if s.dev.state = .commission then some .hiZ else s.unitDrives k))
      ∧ (∀ t, exec .bypass s = .next t → t.dataReg = .bypass ∧ ∀ k : Land, t.landDrive k = s.unitDrives k)
      ∧ (s.dev.state ≠ .commission → ∀ (h : Half) (o : BitVec 12) (d : Option Word) (ok : Bool) (t : State),
        exec (.dbgAccess h o d) s = .next t ∨ exec (.scanEn ok) s = .next t →
          t.dataReg = .bypass ∧ t = { s with jtag := { s.jtag with ir := t.jtag.ir } } ∧ ∀ k : Land, t.landDrive k = s.unitDrives k))
    ∧ (∀ s : State, s.shaped = true → s.noChipReset = true →
      (s.dev.state = .commission → s.bst.scanCleared = false → ∃ t, exec (.scanEn true) s = .next t ∧ t.bst.scanOn = true
        ∧ t.own.workSess = 0 ∧ t.own.workImg = 0 ∧ (∀ p ∈ t.hps, p.session = none) ∧ t.bst.keysLoaded = false ∧ t.otp = s.otp)
      ∧ (s.dev.state = .commission → s.bst.scanCleared = false → ∃ t, exec (.scanEn false) s = .next t
        ∧ t.bst.scanOn = s.bst.scanOn ∧ t.own.workSess = 0 ∧ (s.hears .bst 1 = true → t.shows .bst 1 = true))
      ∧ (s.dev.state ≠ .commission → s.dev.state ≠ .off → ∀ ok, exec (.scanEn ok) s = .next { s with jtag := { s.jtag with ir := 0x21 } }))

/-! Where the commands whose effect is an event complete. -/

/-- Where each command of reset, of the commit, of the field inputs, of the trip matrix and of the pulse wheel takes effect, under conditions on
the state alone, and what it then leaves: RESET_N_ASSERT, RESET_RELEASE, SUPPLY_LOSS, CACHE_FILL, STALL_TIMEOUT, OVERRUN, COMMIT_AT,
STROBE_APPLY, COMMIT_SPLIT, PERMIT_LATCH, FRAME_OUT_END, INPUT_LEVEL_CHANGE, TRIP_TOL_EXPIRY, OWN_MASK_END, TRIP_MESSAGE, HEARTBEAT,
HB_MISS, CHILL, LANE_TEST_ECHO, LANE_FAIL, DARK_PULSE_START, DARK_PULSE_END, OWN_WINDOW_END, PS_SHORT_HI, PS_OVERLOAD, INPUT_EXERCISE,
INPUT_EXERCISE_END, FILTER_EXPIRY, CURRENT_MEASURE, OPEN_WIRE, REF_CHECK (R35, R84, R88, R90, R99, R110, R120, R123, R182 to R184, R186,
R188, R200, R306, R307, R309, R311, R314, R321, R356, R377, R384, R393, R465, R600, R611, R613). That a fill with an uncorrectable error
ends the stall is log 80, that a message carries the lanes as they were sent and a heartbeat those of its time log 98, and the echo against
the lanes of that moment log 64. -/
def Obligations.CoreEventsTakeEffect : Prop :=
  ∀ s : State, s.shaped = true → s.noChipReset = true →
    (∃ t, exec .resetNAssert s = .next t ∧ t.dev.state = .off ∧ t.dev.resetN = false)
    ∧ (∀ p : Straps, s.dev.state = .off → s.sup.valid = 0xF → s.clk.locked = true → (s.sup.pfClear = false ∨ s.otpFails = false) →
      ∃ t, exec (.resetRelease p) s = .next t ∧ t.dev.state = .start ∧ t.dev.straps = p ∧ t.dev.resetN = true)
    ∧ (∀ r : Rail, s.sup.valid.getLsbD (railNum r) = true → ∃ t, exec (.supplyLoss r) s = .next t ∧ t.dev.state = .off
      ∧ t.sup.valid = putBit s.sup.valid (railNum r) false)
    ∧ (∀ (line : BitVec 17) (ecc : Option EccErr), s.cope.refill = some line → ∃ t, exec (.cacheFill ecc none) s = .next t
      ∧ t.cope.refill = none ∧ t.drag.refill = none)
    ∧ (∀ h : Half, (s.chan h).runs = true → ∃ t, exec (.stallTimeout h) s = .next t ∧ Quiet s t
      ∧ (s.hears h.page 2 = true → t.shows h.page 2 = true))
    ∧ (s.inEvalFrame = true → s.evaluates = true → s.prog.evalEnded = false → s.prog.overrun = false → s.prog.commitDone = false →
      ∃ t, exec .overrun s = .next t ∧ t.prog.overrun = true ∧ (s.hears .frm 0 = true → t.shows .frm 0 = true))
    ∧ (s.inEvalFrame = true → s.prog.commitDone = false → ∃ t, exec .commitAt s = .next t ∧ t.prog.commitDone = true
      ∧ t.frm.commitFrame = s.frm.frameNum ∧ t.prog.strobe = s.commitRow.strobe ∧ t.frm.result = s.commitRow.result)
    ∧ (∀ d : Fin 2, s.prog.strobe ≠ .none → s.prog.strobed.getLsbD d = true → s.prog.applied.getLsbD d = false →
      ∃ t, exec (.strobeApply d) s = .next t ∧ t.prog.applied = putBit s.prog.applied d true)
    ∧ (∀ d : Fin 2, s.prog.strobed.getLsbD d = true → s.prog.applied.getLsbD d = false → s.prog.applied.getLsbD (1 - d.val) = true →
      (s.bar d).fenced = false → ∃ t, exec (.commitSplit d) s = .next t ∧ t.prog.applied = putBit s.prog.applied d true
        ∧ (s.hears .frm 2 = true → t.shows .frm 2 = true))
    ∧ (s.frm.running = true → s.prog.published = false → (s.prog.commitDone = true ∨ s.inEvalFrame = false) →
      ∃ t, exec (.permitLatch []) s = .next t ∧ t.prog.published = true)
    ∧ ((s.frm.frameOutCfg.extractLsb' 8 2 = 1 ∨ s.frm.frameOutCfg.extractLsb' 8 2 = 3) → s.frm.frameOutAt.toNat + s.frameOutWidth ≤ s.frm.tb.toNat →
      exec .frameOutEnd s = .next { s with frm := { s.frm with frameOut := false } })
    ∧ (∀ (i : Fin 112) (h : Half) (level : Bool), s.inputServed i = true → (s.comp i h).level ≠ level → s.exercising i h = false →
      ∃ t, exec (.inputLevelChange i h level) s = .next t ∧ (t.comp i h).level = level ∧ (t.comp i h).lastChange = s.frm.tb)
    ∧ (∀ (i : Fin 112) (h : Half), s.tripMode i = 2 → (s.comp i h).level = false → ∃ t, exec (.tripTolExpiry i h) s = .next t
      ∧ (t.comp i h).tolExpired = true)
    ∧ (∀ i : Fin 112, s.masked i = true → ∃ t, exec (.ownMaskEnd i) s = .next t ∧ t.masked i = false)
    ∧ (∀ (d : Fin 2) (h : Half), s.linked d = true → s.trp.laneCore.length = 4 → s.trp.laneDest.length = 4 →
      (∃ t, exec (.tripMessage d h false false false) s = .next t ∧ t.trp.laneCore.getD (2 * d.val + h.num) 0 = s.sentLanes d h)
      ∧ (∀ late low diff : Bool, ∃ t, exec (.heartbeat d h none late low diff) s = .next t
        ∧ t.trp.laneCore.getD (2 * d.val + h.num) 0 = s.laneSource h d)
      ∧ ∃ t, exec (.hbMiss d h) s = .next t ∧ t.trp.hbMissed.getLsbD (2 * d.val + h.num) = true)
    ∧ (∀ d : Fin 2, ∃ t, exec (.chill d) s = .next t ∧ (t.bar d).chill = true)
    ∧ (∀ h : Half, s.laneTesting h = true → s.prog.laneOk.getLsbD h.num = false →
      (∃ t, exec (.laneTestEcho h ((s.laneSource h (s.slotOf h / 12)) ^^^ bitMask 12 (s.slotOf h % 12))) s = .next t
        ∧ t.prog.laneOk = putBit s.prog.laneOk h.num true)
      ∧ ∃ t, exec (.laneFail h) s = .next t ∧ Quiet s t ∧ (s.hears .trp 2 = true → t.shows .trp 2 = true))
    ∧ (∀ a b c d e f : Bool, s.pulseDue = true → ∃ t, exec (.darkPulseStart a b c d e f) s = .next t ∧ t.pwl.dark = some s.pwl.slotC
      ∧ t.pwl.window = some s.pwl.slotC ∧ t.pwl.windowStart = s.frm.tb)
    ∧ (∃ t, exec .darkPulseEnd s = .next t ∧ t.pwl = { s.pwl with dark := none })
    ∧ (∀ (slot : BitVec 6) (l : List (Fin 112 × Half)), s.pwl.window = some slot → ∃ t, exec (.ownWindowEnd l) s = .next t
      ∧ t.pwl = { s.pwl with dark := none, window := none, lastSlot := some slot, windowEnd := s.frm.tb })
    ∧ (∀ k : Fin 16, (s.psDrive k = .low → ∃ t, exec (.psShortHi k) s = .next t ∧ (t.pulse k).hold = true)
      ∧ (s.psDrive k = .high → ∃ t, exec (.psOverload k) s = .next t ∧ (t.pulse k).hold = true))
    ∧ (∀ d : Fin 2, s.exerciseDue.getLsbD d = true → ∃ t, exec (.inputExercise d) s = .next t ∧ t.prog.exercise = some (s.frm.frameNum.setWidth 2)
      ∧ t.prog.exDies = putBit s.prog.exDies d true)
    ∧ (∀ w : BitVec 112, s.prog.exercise ≠ none → s.exerciseEnds ≠ 0 → ∃ t, exec (.inputExerciseEnd w) s = .next t
      ∧ t.prog.exDies = s.prog.exDies &&& ~~~s.exerciseEnds)
    ∧ (∀ (i : Fin 112) (h : Half), (s.comp i h).xAt.toNat + 1000 * ((s.inp i).cfg.extractLsb' 0 10).toNat ≤ s.frm.tb.toNat → ∃ t, exec (.filterExpiry i h) s = .next t ∧ (t.comp i h).y = (s.comp i h).held.getD (s.comp i h).level)
    ∧ (∀ (i : Fin 112) (v : BitVec 9), s.inputServed i = true → ∃ t, exec (.currentMeasure [(i, v)]) s = .next t
      ∧ (t.inp i).cur = BitVec.ofNat 9 (min 300 v.toNat))
    ∧ (∀ i : Fin 112, (s.inp i).cfg.getLsbD 29 = true → (s.inp i).live.getLsbD 1 = false → s.wireHeld i true = true → ∃ t, exec (.openWire i true) s = .next t
      ∧ Quiet s t ∧ (s.hears (fibOf (bankOfInput i)) 1 = true → t.shows (fibOf (bankOfInput i)) 1 = true))
    ∧ ∀ b : Fin 8, ∃ t, exec (.refCheck b false) s = .next t ∧ (t.inBank b).refFails = 0

/-- Where each command of the field outputs, the field supplies, the timers, the scratchpad and the test access port takes effect, under
conditions on the state alone, and what it then leaves: SHORT_HI, LS_OPEN_DELAY, OVERLOAD, OPEN_LOAD, OVERTEMP, RB_MISMATCH, FV_MEASURE,
FV_HIGH, FV_MEAS, FV_RECOVERY, FV_HIGH_RECOVERY, FV_BLANK_END, OUTPUT_SENSE_CHANGE, BLOCK_RESET_END, CLASSIFICATION_WINDOW_END, SHADOW_END,
LOG_ENTRY_WRITE, CELL_ABORTED, BUSY_N_PULSE_END, TOKEN_REFILL, HANDOVER_DRAIN_DONE, KEY_PROGRAM_DONE, JOB_WORD_READ, PORT_B_RETRY,
BANK_POWER_CHANGE, BREAKPOINT_HIT, EXTEST, SAMPLE/PRELOAD, IDCODE, CLAMP, HIGHZ, DBG_ACCESS, SCAN_EN, BYPASS (R74, R161, R340, R342, R344,
R347, R351, R352, R450, R466, R468, R470, R484, R488, R489, R495, R525, R538, R549, R566, R574, R647). -/
def Obligations.FieldEventsTakeEffect : Prop :=
  ∀ s : State, s.shaped = true → s.noChipReset = true →
    (∀ o : Fin 64, bankOfOutput o < s.banks →
      (s.sinks o = true → s.standing o 0 = false → (48 ≤ o.val ∨ s.contenders o = []) → ∃ t, exec (.shortHi o) s = .next t ∧ (t.out o).hold = true)
      ∧ ((s.out o).lsDue = true → (s.out o).hold = true → ∃ t, exec (.lsOpenDelay o) s = .next t ∧ (t.out o).lsOpen = true)
      ∧ (s.drive o = .high → s.standing o 1 = false → ∃ t, exec (.overload o) s = .next t ∧ (t.out o).hold = true)
      ∧ (o.val < 48 → (s.out o).cfg.getLsbD 29 = true → s.drive o = .high → (s.outBank (bankOfOutput o)).blank = false →
        s.standing o 3 = false → ∃ t, exec (.openLoad o) s = .next t ∧ Quiet s t
          ∧ (s.hears (fobOf (bankOfOutput o)) 3 = true → t.shows (fobOf (bankOfOutput o)) 3 = true))
      ∧ (s.standing o 4 = false → ∃ t, exec (.overtemp o) s = .next t ∧ (t.out o).hold = true)
      ∧ (s.standing o 5 = false → (s.expectHigh o = false ∨ (s.outBank (bankOfOutput o)).blank = false) →
        ∃ t, exec (.rbMismatch o) s = .next t ∧ (t.out o).hold = true))
    ∧ (∀ b : Fin 8,
      (∀ c d : BitVec 16, b.val < s.banks → (s.bar (dieOfBank b)).powered = true → ∃ t, exec (.fvMeasure b c d) s = .next t
        ∧ (t.outBank b).fvC = BitVec.ofNat 16 (min 3600 c.toNat) ∧ (t.outBank b).fvD = BitVec.ofNat 16 (min 3600 d.toNat))
      ∧ (3200 < (s.outBank b).high → (s.hdr (.fob b)).live.getLsbD 17 = false → ∃ t, exec (.fvHigh b) s = .next t
        ∧ (s.hears (.fob b) 17 = true → t.shows (.fob b) 17 = true))
      ∧ (60 < (s.outBank b).high - (s.outBank b).low → (s.hdr (.fob b)).live.getLsbD 18 = false → ∃ t, exec (.fvMeas b) s = .next t
        ∧ (s.hears (.fob b) 18 = true → t.shows (.fob b) 18 = true))
      ∧ ((s.outBank b).trip + 440 ≤ (s.outBank b).low → ∃ t, exec (.fvRecovery b) s = .next t ∧ (t.hdr (.fob b)).live.getLsbD 16 = false)
      ∧ ((s.outBank b).high < 3050 → ∃ t, exec (.fvHighRecovery b) s = .next t ∧ (t.hdr (.fob b)).live.getLsbD 17 = false)
      ∧ ((s.outBank b).dip = none → (s.outBank b).blank = true → ∃ t, exec (.fvBlankEnd b) s = .next t ∧ (t.outBank b).blank = false))
    ∧ (∀ (k : Fin 16) (x : Sense), ∃ t, exec (.outputSenseChange (.ps k) x) s = .next t ∧ (t.pulse k).sense = x)
    ∧ (∀ n : Fin 4,
      ((s.hp n).resetting = true → ∃ t, exec (.blockResetEnd n) s = .next t ∧ (t.hp n).resetting = false ∧ (t.hp n).expSeq = 0
        ∧ (t.hp n).tokens = (s.hp n).bucket)
      ∧ (s.portServes n = true → ∃ t, exec (.cellAborted n) s = .next t ∧ Quiet s t ∧ (s.hears (.hp n) 5 = true → t.shows (.hp n) 5 = true))
      ∧ (∃ t, exec (.busyNPulseEnd n) s = .next t ∧ (t.hp n).pulse = false)
      ∧ (s.dev.state ≠ .off → (s.hp n).tokens.toNat < (s.hp n).bucket.toNat → ∃ t, exec (.tokenRefill n) s = .next t
        ∧ (t.hp n).tokens = (s.hp n).tokens + 1))
    ∧ (∀ p : Page, s.dev.state ≠ .off → s.received p = true → (s.hdr p).windowOpen = true → ∃ t, exec (.classificationWindowEnd p) s = .next t
      ∧ (t.hdr p).windowOpen = false ∧ (t.hdr p).inWindow = 0)
    ∧ (∃ t, exec .shadowEnd s = .next t ∧ t.shadows = s.shadows.drop 1)
    ∧ (∀ it : LogItem, s.dev.state ≠ .off → s.evl.queue = [it] → s.evl.lost = 0 → it.time.toNat + 50 ≤ s.frm.tb.toNat →
      ∃ t, exec .logEntryWrite s = .next t ∧ t.evl.queue = [] ∧ t.evl.seq = s.evl.seq + 1)
    ∧ (∀ p : Page, (s.hdr p).own.draining = true → s.drainLeft p = 0 → (s.hdr p).own.byAssign = false →
      ∃ t, exec (.handoverDrainDone p) s = .next t ∧ (t.hdr p).own.flask = (s.hdr p).own.dest ∧ (t.hdr p).own.draining = false)
    ∧ (∀ ok : Bool, s.own.keyBusy = true → ∃ t, exec (.keyProgramDone ok) s = .next t ∧ t.own.keyBusy = false ∧ t.own.keyData = 0)
    ∧ (∀ c : Fin 8, (s.ctx c).busy = true → (s.ctx c).jobPos + 1 ≠ (s.ctx c).jobLen → (s.spb (s.ctx c).jobBank.toNat).power = .on →
      (s.spb (s.ctx c).jobBank.toNat).fenced = false → s.spc.borrowed = false →
      ((s.ctx c).retry = false → ∃ t, exec (.jobWordRead c none false) s = .next t ∧ (t.ctx c).jobPos = (s.ctx c).jobPos + 1)
      ∧ ((s.ctx c).retry = true → ∃ t, exec (.portBRetry c none) s = .next t ∧ (t.ctx c).jobPos = (s.ctx c).jobPos + 1))
    ∧ (∀ k : Fin 16, (s.spb k).fenced = false → (s.spb k).power = .filling → ∃ t, exec (.bankPowerChange k) s = .next t ∧ (t.spb k).power = .on)
    ∧ (∀ h : Half, s.dev.state = .commission → (s.chan h).bpEn = true → (s.chan h).runs = true → (s.chan h).pc = (s.chan h).bp →
      s.dev.dbgSplit = false → (s.chan h.other).mode ≠ .trapped → ∃ t, exec (.breakpointHit h) s = .next t ∧ (t.chan h).mode = .halted
        ∧ t.dev.dbgSplit = true)
    ∧ (s.dev.state ≠ .off →
      (∀ l b : BitVec 101, (∃ t, exec (.extest l b) s = .next t ∧ t.jtag.boundary = b ∧ t.jtag.captured = s.captureLands l)
        ∧ (∃ t, exec (.samplePreload l b) s = .next t ∧ t.jtag.boundary = b ∧ t.jtag.captured = s.captureLands l)
        ∧ (∃ t, exec (.clamp l) s = .next t ∧ t.jtag.ir = 0x03) ∧ ∃ t, exec (.highz l) s = .next t ∧ t.jtag.ir = 0x04)
      ∧ (∃ t, exec .idcode s = .next t ∧ t.jtag.ir = 0x02) ∧ (∃ t, exec .bypass s = .next t ∧ t.jtag.ir = 0xFF)
      ∧ (∀ h : Half, s.dev.state = .commission → ∃ t, exec (.dbgAccess h 0x180 none) s = .next t ∧ t.jtag.ir = 0x20
        ∧ t.jtag.data = flag (s.chan h).bpEn 3)
      ∧ (s.dev.state = .commission → s.bst.scanCleared = false → ∃ t, exec (.scanEn true) s = .next t ∧ t.bst.scanOn = true))
end

