-- ==== Sys2Proof/Laws/State.lean ====
section
/-! SUPPORT. What the named updates of the state leave as it was, one lemma per field and update, and what they set. -/

namespace Sys2Proof.Machine

/-! updChan. -/

@[simp] theorem updChan_ident (s : State) (h : Half) (f : Chan → Chan) : (s.updChan h f).ident = s.ident := by cases h <;> rfl
@[simp] theorem updChan_otp (s : State) (h : Half) (f : Chan → Chan) : (s.updChan h f).otp = s.otp := by cases h <;> rfl
@[simp] theorem updChan_dev (s : State) (h : Half) (f : Chan → Chan) : (s.updChan h f).dev = s.dev := by cases h <;> rfl
@[simp] theorem updChan_clk (s : State) (h : Half) (f : Chan → Chan) : (s.updChan h f).clk = s.clk := by cases h <;> rfl
@[simp] theorem updChan_sup (s : State) (h : Half) (f : Chan → Chan) : (s.updChan h f).sup = s.sup := by cases h <;> rfl
@[simp] theorem updChan_frm (s : State) (h : Half) (f : Chan → Chan) : (s.updChan h f).frm = s.frm := by cases h <;> rfl
@[simp] theorem updChan_prog (s : State) (h : Half) (f : Chan → Chan) : (s.updChan h f).prog = s.prog := by cases h <;> rfl
@[simp] theorem updChan_hdrs (s : State) (h : Half) (f : Chan → Chan) : (s.updChan h f).hdrs = s.hdrs := by cases h <;> rfl
@[simp] theorem updChan_shadows (s : State) (h : Half) (f : Chan → Chan) : (s.updChan h f).shadows = s.shadows := by cases h <;> rfl
@[simp] theorem updChan_cmp (s : State) (h : Half) (f : Chan → Chan) : (s.updChan h f).cmp = s.cmp := by cases h <;> rfl
@[simp] theorem updChan_trp (s : State) (h : Half) (f : Chan → Chan) : (s.updChan h f).trp = s.trp := by cases h <;> rfl
@[simp] theorem updChan_comps (s : State) (h : Half) (f : Chan → Chan) : (s.updChan h f).comps = s.comps := by cases h <;> rfl
@[simp] theorem updChan_ins (s : State) (h : Half) (f : Chan → Chan) : (s.updChan h f).ins = s.ins := by cases h <;> rfl
@[simp] theorem updChan_inBanks (s : State) (h : Half) (f : Chan → Chan) : (s.updChan h f).inBanks = s.inBanks := by cases h <;> rfl
@[simp] theorem updChan_outs (s : State) (h : Half) (f : Chan → Chan) : (s.updChan h f).outs = s.outs := by cases h <;> rfl
@[simp] theorem updChan_outBanks (s : State) (h : Half) (f : Chan → Chan) : (s.updChan h f).outBanks = s.outBanks := by cases h <;> rfl
@[simp] theorem updChan_bars (s : State) (h : Half) (f : Chan → Chan) : (s.updChan h f).bars = s.bars := by cases h <;> rfl
@[simp] theorem updChan_pwl (s : State) (h : Half) (f : Chan → Chan) : (s.updChan h f).pwl = s.pwl := by cases h <;> rfl
@[simp] theorem updChan_ps (s : State) (h : Half) (f : Chan → Chan) : (s.updChan h f).ps = s.ps := by cases h <;> rfl
@[simp] theorem updChan_crb (s : State) (h : Half) (f : Chan → Chan) : (s.updChan h f).crb = s.crb := by cases h <;> rfl
@[simp] theorem updChan_img (s : State) (h : Half) (f : Chan → Chan) : (s.updChan h f).img = s.img := by cases h <;> rfl
@[simp] theorem updChan_flash (s : State) (h : Half) (f : Chan → Chan) : (s.updChan h f).flash = s.flash := by cases h <;> rfl
@[simp] theorem updChan_hps (s : State) (h : Half) (f : Chan → Chan) : (s.updChan h f).hps = s.hps := by cases h <;> rfl
@[simp] theorem updChan_own (s : State) (h : Half) (f : Chan → Chan) : (s.updChan h f).own = s.own := by cases h <;> rfl
@[simp] theorem updChan_spbs (s : State) (h : Half) (f : Chan → Chan) : (s.updChan h f).spbs = s.spbs := by cases h <;> rfl
@[simp] theorem updChan_spc (s : State) (h : Half) (f : Chan → Chan) : (s.updChan h f).spc = s.spc := by cases h <;> rfl
@[simp] theorem updChan_chk (s : State) (h : Half) (f : Chan → Chan) : (s.updChan h f).chk = s.chk := by cases h <;> rfl
@[simp] theorem updChan_ctxs (s : State) (h : Half) (f : Chan → Chan) : (s.updChan h f).ctxs = s.ctxs := by cases h <;> rfl
@[simp] theorem updChan_bst (s : State) (h : Half) (f : Chan → Chan) : (s.updChan h f).bst = s.bst := by cases h <;> rfl
@[simp] theorem updChan_evl (s : State) (h : Half) (f : Chan → Chan) : (s.updChan h f).evl = s.evl := by cases h <;> rfl
@[simp] theorem updChan_fbs (s : State) (h : Half) (f : Chan → Chan) : (s.updChan h f).fbs = s.fbs := by cases h <;> rfl
@[simp] theorem updChan_fbsBuf (s : State) (h : Half) (f : Chan → Chan) : (s.updChan h f).fbsBuf = s.fbsBuf := by cases h <;> rfl
@[simp] theorem updChan_jtag (s : State) (h : Half) (f : Chan → Chan) : (s.updChan h f).jtag = s.jtag := by cases h <;> rfl
@[simp] theorem updChan_marks (s : State) (h : Half) (f : Chan → Chan) : (s.updChan h f).marks = s.marks := by cases h <;> rfl
@[simp] theorem updChan_free (s : State) (h : Half) (f : Chan → Chan) : (s.updChan h f).free = s.free := by cases h <;> rfl
@[simp] theorem updChan_cut (s : State) (h : Half) (f : Chan → Chan) : (s.updChan h f).cut = s.cut := by cases h <;> rfl
@[simp] theorem updChan_pending (s : State) (h : Half) (f : Chan → Chan) : (s.updChan h f).pending = s.pending := by cases h <;> rfl

/-! updComp. -/

@[simp] theorem updComp_ident (s : State) (i : Nat) (h : Half) (f : Comparator → Comparator) : (s.updComp i h f).ident = s.ident := rfl
@[simp] theorem updComp_otp (s : State) (i : Nat) (h : Half) (f : Comparator → Comparator) : (s.updComp i h f).otp = s.otp := rfl
@[simp] theorem updComp_dev (s : State) (i : Nat) (h : Half) (f : Comparator → Comparator) : (s.updComp i h f).dev = s.dev := rfl
@[simp] theorem updComp_clk (s : State) (i : Nat) (h : Half) (f : Comparator → Comparator) : (s.updComp i h f).clk = s.clk := rfl
@[simp] theorem updComp_sup (s : State) (i : Nat) (h : Half) (f : Comparator → Comparator) : (s.updComp i h f).sup = s.sup := rfl
@[simp] theorem updComp_frm (s : State) (i : Nat) (h : Half) (f : Comparator → Comparator) : (s.updComp i h f).frm = s.frm := rfl
@[simp] theorem updComp_prog (s : State) (i : Nat) (h : Half) (f : Comparator → Comparator) : (s.updComp i h f).prog = s.prog := rfl
@[simp] theorem updComp_hdrs (s : State) (i : Nat) (h : Half) (f : Comparator → Comparator) : (s.updComp i h f).hdrs = s.hdrs := rfl
@[simp] theorem updComp_shadows (s : State) (i : Nat) (h : Half) (f : Comparator → Comparator) : (s.updComp i h f).shadows = s.shadows := rfl
@[simp] theorem updComp_cope (s : State) (i : Nat) (h : Half) (f : Comparator → Comparator) : (s.updComp i h f).cope = s.cope := rfl
@[simp] theorem updComp_drag (s : State) (i : Nat) (h : Half) (f : Comparator → Comparator) : (s.updComp i h f).drag = s.drag := rfl
@[simp] theorem updComp_cmp (s : State) (i : Nat) (h : Half) (f : Comparator → Comparator) : (s.updComp i h f).cmp = s.cmp := rfl
@[simp] theorem updComp_trp (s : State) (i : Nat) (h : Half) (f : Comparator → Comparator) : (s.updComp i h f).trp = s.trp := rfl
@[simp] theorem updComp_ins (s : State) (i : Nat) (h : Half) (f : Comparator → Comparator) : (s.updComp i h f).ins = s.ins := rfl
@[simp] theorem updComp_inBanks (s : State) (i : Nat) (h : Half) (f : Comparator → Comparator) : (s.updComp i h f).inBanks = s.inBanks := rfl
@[simp] theorem updComp_outs (s : State) (i : Nat) (h : Half) (f : Comparator → Comparator) : (s.updComp i h f).outs = s.outs := rfl
@[simp] theorem updComp_outBanks (s : State) (i : Nat) (h : Half) (f : Comparator → Comparator) : (s.updComp i h f).outBanks = s.outBanks := rfl
@[simp] theorem updComp_bars (s : State) (i : Nat) (h : Half) (f : Comparator → Comparator) : (s.updComp i h f).bars = s.bars := rfl
@[simp] theorem updComp_pwl (s : State) (i : Nat) (h : Half) (f : Comparator → Comparator) : (s.updComp i h f).pwl = s.pwl := rfl
@[simp] theorem updComp_ps (s : State) (i : Nat) (h : Half) (f : Comparator → Comparator) : (s.updComp i h f).ps = s.ps := rfl
@[simp] theorem updComp_crb (s : State) (i : Nat) (h : Half) (f : Comparator → Comparator) : (s.updComp i h f).crb = s.crb := rfl
@[simp] theorem updComp_img (s : State) (i : Nat) (h : Half) (f : Comparator → Comparator) : (s.updComp i h f).img = s.img := rfl
@[simp] theorem updComp_flash (s : State) (i : Nat) (h : Half) (f : Comparator → Comparator) : (s.updComp i h f).flash = s.flash := rfl
@[simp] theorem updComp_hps (s : State) (i : Nat) (h : Half) (f : Comparator → Comparator) : (s.updComp i h f).hps = s.hps := rfl
@[simp] theorem updComp_own (s : State) (i : Nat) (h : Half) (f : Comparator → Comparator) : (s.updComp i h f).own = s.own := rfl
@[simp] theorem updComp_spbs (s : State) (i : Nat) (h : Half) (f : Comparator → Comparator) : (s.updComp i h f).spbs = s.spbs := rfl
@[simp] theorem updComp_spc (s : State) (i : Nat) (h : Half) (f : Comparator → Comparator) : (s.updComp i h f).spc = s.spc := rfl
@[simp] theorem updComp_chk (s : State) (i : Nat) (h : Half) (f : Comparator → Comparator) : (s.updComp i h f).chk = s.chk := rfl
@[simp] theorem updComp_ctxs (s : State) (i : Nat) (h : Half) (f : Comparator → Comparator) : (s.updComp i h f).ctxs = s.ctxs := rfl
@[simp] theorem updComp_bst (s : State) (i : Nat) (h : Half) (f : Comparator → Comparator) : (s.updComp i h f).bst = s.bst := rfl
@[simp] theorem updComp_evl (s : State) (i : Nat) (h : Half) (f : Comparator → Comparator) : (s.updComp i h f).evl = s.evl := rfl
@[simp] theorem updComp_fbs (s : State) (i : Nat) (h : Half) (f : Comparator → Comparator) : (s.updComp i h f).fbs = s.fbs := rfl
@[simp] theorem updComp_fbsBuf (s : State) (i : Nat) (h : Half) (f : Comparator → Comparator) : (s.updComp i h f).fbsBuf = s.fbsBuf := rfl
@[simp] theorem updComp_jtag (s : State) (i : Nat) (h : Half) (f : Comparator → Comparator) : (s.updComp i h f).jtag = s.jtag := rfl
@[simp] theorem updComp_marks (s : State) (i : Nat) (h : Half) (f : Comparator → Comparator) : (s.updComp i h f).marks = s.marks := rfl
@[simp] theorem updComp_free (s : State) (i : Nat) (h : Half) (f : Comparator → Comparator) : (s.updComp i h f).free = s.free := rfl
@[simp] theorem updComp_cut (s : State) (i : Nat) (h : Half) (f : Comparator → Comparator) : (s.updComp i h f).cut = s.cut := rfl
@[simp] theorem updComp_pending (s : State) (i : Nat) (h : Half) (f : Comparator → Comparator) : (s.updComp i h f).pending = s.pending := rfl

/-! updInp. -/

@[simp] theorem updInp_ident (s : State) (i : Nat) (f : Input → Input) : (s.updInp i f).ident = s.ident := rfl
@[simp] theorem updInp_otp (s : State) (i : Nat) (f : Input → Input) : (s.updInp i f).otp = s.otp := rfl
@[simp] theorem updInp_dev (s : State) (i : Nat) (f : Input → Input) : (s.updInp i f).dev = s.dev := rfl
@[simp] theorem updInp_clk (s : State) (i : Nat) (f : Input → Input) : (s.updInp i f).clk = s.clk := rfl
@[simp] theorem updInp_sup (s : State) (i : Nat) (f : Input → Input) : (s.updInp i f).sup = s.sup := rfl
@[simp] theorem updInp_frm (s : State) (i : Nat) (f : Input → Input) : (s.updInp i f).frm = s.frm := rfl
@[simp] theorem updInp_prog (s : State) (i : Nat) (f : Input → Input) : (s.updInp i f).prog = s.prog := rfl
@[simp] theorem updInp_hdrs (s : State) (i : Nat) (f : Input → Input) : (s.updInp i f).hdrs = s.hdrs := rfl
@[simp] theorem updInp_shadows (s : State) (i : Nat) (f : Input → Input) : (s.updInp i f).shadows = s.shadows := rfl
@[simp] theorem updInp_cope (s : State) (i : Nat) (f : Input → Input) : (s.updInp i f).cope = s.cope := rfl
@[simp] theorem updInp_drag (s : State) (i : Nat) (f : Input → Input) : (s.updInp i f).drag = s.drag := rfl
@[simp] theorem updInp_cmp (s : State) (i : Nat) (f : Input → Input) : (s.updInp i f).cmp = s.cmp := rfl
@[simp] theorem updInp_trp (s : State) (i : Nat) (f : Input → Input) : (s.updInp i f).trp = s.trp := rfl
@[simp] theorem updInp_comps (s : State) (i : Nat) (f : Input → Input) : (s.updInp i f).comps = s.comps := rfl
@[simp] theorem updInp_inBanks (s : State) (i : Nat) (f : Input → Input) : (s.updInp i f).inBanks = s.inBanks := rfl
@[simp] theorem updInp_outs (s : State) (i : Nat) (f : Input → Input) : (s.updInp i f).outs = s.outs := rfl
@[simp] theorem updInp_outBanks (s : State) (i : Nat) (f : Input → Input) : (s.updInp i f).outBanks = s.outBanks := rfl
@[simp] theorem updInp_bars (s : State) (i : Nat) (f : Input → Input) : (s.updInp i f).bars = s.bars := rfl
@[simp] theorem updInp_pwl (s : State) (i : Nat) (f : Input → Input) : (s.updInp i f).pwl = s.pwl := rfl
@[simp] theorem updInp_ps (s : State) (i : Nat) (f : Input → Input) : (s.updInp i f).ps = s.ps := rfl
@[simp] theorem updInp_crb (s : State) (i : Nat) (f : Input → Input) : (s.updInp i f).crb = s.crb := rfl
@[simp] theorem updInp_img (s : State) (i : Nat) (f : Input → Input) : (s.updInp i f).img = s.img := rfl
@[simp] theorem updInp_flash (s : State) (i : Nat) (f : Input → Input) : (s.updInp i f).flash = s.flash := rfl
@[simp] theorem updInp_hps (s : State) (i : Nat) (f : Input → Input) : (s.updInp i f).hps = s.hps := rfl
@[simp] theorem updInp_own (s : State) (i : Nat) (f : Input → Input) : (s.updInp i f).own = s.own := rfl
@[simp] theorem updInp_spbs (s : State) (i : Nat) (f : Input → Input) : (s.updInp i f).spbs = s.spbs := rfl
@[simp] theorem updInp_spc (s : State) (i : Nat) (f : Input → Input) : (s.updInp i f).spc = s.spc := rfl
@[simp] theorem updInp_chk (s : State) (i : Nat) (f : Input → Input) : (s.updInp i f).chk = s.chk := rfl
@[simp] theorem updInp_ctxs (s : State) (i : Nat) (f : Input → Input) : (s.updInp i f).ctxs = s.ctxs := rfl
@[simp] theorem updInp_bst (s : State) (i : Nat) (f : Input → Input) : (s.updInp i f).bst = s.bst := rfl
@[simp] theorem updInp_evl (s : State) (i : Nat) (f : Input → Input) : (s.updInp i f).evl = s.evl := rfl
@[simp] theorem updInp_fbs (s : State) (i : Nat) (f : Input → Input) : (s.updInp i f).fbs = s.fbs := rfl
@[simp] theorem updInp_fbsBuf (s : State) (i : Nat) (f : Input → Input) : (s.updInp i f).fbsBuf = s.fbsBuf := rfl
@[simp] theorem updInp_jtag (s : State) (i : Nat) (f : Input → Input) : (s.updInp i f).jtag = s.jtag := rfl
@[simp] theorem updInp_marks (s : State) (i : Nat) (f : Input → Input) : (s.updInp i f).marks = s.marks := rfl
@[simp] theorem updInp_free (s : State) (i : Nat) (f : Input → Input) : (s.updInp i f).free = s.free := rfl
@[simp] theorem updInp_cut (s : State) (i : Nat) (f : Input → Input) : (s.updInp i f).cut = s.cut := rfl
@[simp] theorem updInp_pending (s : State) (i : Nat) (f : Input → Input) : (s.updInp i f).pending = s.pending := rfl

/-! updOut. -/

@[simp] theorem updOut_ident (s : State) (o : Nat) (f : Output → Output) : (s.updOut o f).ident = s.ident := rfl
@[simp] theorem updOut_otp (s : State) (o : Nat) (f : Output → Output) : (s.updOut o f).otp = s.otp := rfl
@[simp] theorem updOut_dev (s : State) (o : Nat) (f : Output → Output) : (s.updOut o f).dev = s.dev := rfl
@[simp] theorem updOut_clk (s : State) (o : Nat) (f : Output → Output) : (s.updOut o f).clk = s.clk := rfl
@[simp] theorem updOut_sup (s : State) (o : Nat) (f : Output → Output) : (s.updOut o f).sup = s.sup := rfl
@[simp] theorem updOut_frm (s : State) (o : Nat) (f : Output → Output) : (s.updOut o f).frm = s.frm := rfl
@[simp] theorem updOut_prog (s : State) (o : Nat) (f : Output → Output) : (s.updOut o f).prog = s.prog := rfl
@[simp] theorem updOut_hdrs (s : State) (o : Nat) (f : Output → Output) : (s.updOut o f).hdrs = s.hdrs := rfl
@[simp] theorem updOut_shadows (s : State) (o : Nat) (f : Output → Output) : (s.updOut o f).shadows = s.shadows := rfl
@[simp] theorem updOut_cope (s : State) (o : Nat) (f : Output → Output) : (s.updOut o f).cope = s.cope := rfl
@[simp] theorem updOut_drag (s : State) (o : Nat) (f : Output → Output) : (s.updOut o f).drag = s.drag := rfl
@[simp] theorem updOut_cmp (s : State) (o : Nat) (f : Output → Output) : (s.updOut o f).cmp = s.cmp := rfl
@[simp] theorem updOut_trp (s : State) (o : Nat) (f : Output → Output) : (s.updOut o f).trp = s.trp := rfl
@[simp] theorem updOut_comps (s : State) (o : Nat) (f : Output → Output) : (s.updOut o f).comps = s.comps := rfl
@[simp] theorem updOut_ins (s : State) (o : Nat) (f : Output → Output) : (s.updOut o f).ins = s.ins := rfl
@[simp] theorem updOut_inBanks (s : State) (o : Nat) (f : Output → Output) : (s.updOut o f).inBanks = s.inBanks := rfl
@[simp] theorem updOut_outBanks (s : State) (o : Nat) (f : Output → Output) : (s.updOut o f).outBanks = s.outBanks := rfl
@[simp] theorem updOut_bars (s : State) (o : Nat) (f : Output → Output) : (s.updOut o f).bars = s.bars := rfl
@[simp] theorem updOut_pwl (s : State) (o : Nat) (f : Output → Output) : (s.updOut o f).pwl = s.pwl := rfl
@[simp] theorem updOut_ps (s : State) (o : Nat) (f : Output → Output) : (s.updOut o f).ps = s.ps := rfl
@[simp] theorem updOut_crb (s : State) (o : Nat) (f : Output → Output) : (s.updOut o f).crb = s.crb := rfl
@[simp] theorem updOut_img (s : State) (o : Nat) (f : Output → Output) : (s.updOut o f).img = s.img := rfl
@[simp] theorem updOut_flash (s : State) (o : Nat) (f : Output → Output) : (s.updOut o f).flash = s.flash := rfl
@[simp] theorem updOut_hps (s : State) (o : Nat) (f : Output → Output) : (s.updOut o f).hps = s.hps := rfl
@[simp] theorem updOut_own (s : State) (o : Nat) (f : Output → Output) : (s.updOut o f).own = s.own := rfl
@[simp] theorem updOut_spbs (s : State) (o : Nat) (f : Output → Output) : (s.updOut o f).spbs = s.spbs := rfl
@[simp] theorem updOut_spc (s : State) (o : Nat) (f : Output → Output) : (s.updOut o f).spc = s.spc := rfl
@[simp] theorem updOut_chk (s : State) (o : Nat) (f : Output → Output) : (s.updOut o f).chk = s.chk := rfl
@[simp] theorem updOut_ctxs (s : State) (o : Nat) (f : Output → Output) : (s.updOut o f).ctxs = s.ctxs := rfl
@[simp] theorem updOut_bst (s : State) (o : Nat) (f : Output → Output) : (s.updOut o f).bst = s.bst := rfl
@[simp] theorem updOut_evl (s : State) (o : Nat) (f : Output → Output) : (s.updOut o f).evl = s.evl := rfl
@[simp] theorem updOut_fbs (s : State) (o : Nat) (f : Output → Output) : (s.updOut o f).fbs = s.fbs := rfl
@[simp] theorem updOut_fbsBuf (s : State) (o : Nat) (f : Output → Output) : (s.updOut o f).fbsBuf = s.fbsBuf := rfl
@[simp] theorem updOut_jtag (s : State) (o : Nat) (f : Output → Output) : (s.updOut o f).jtag = s.jtag := rfl
@[simp] theorem updOut_marks (s : State) (o : Nat) (f : Output → Output) : (s.updOut o f).marks = s.marks := rfl
@[simp] theorem updOut_free (s : State) (o : Nat) (f : Output → Output) : (s.updOut o f).free = s.free := rfl
@[simp] theorem updOut_cut (s : State) (o : Nat) (f : Output → Output) : (s.updOut o f).cut = s.cut := rfl
@[simp] theorem updOut_pending (s : State) (o : Nat) (f : Output → Output) : (s.updOut o f).pending = s.pending := rfl

/-! updInBank. -/

@[simp] theorem updInBank_ident (s : State) (b : Nat) (f : InBank → InBank) : (s.updInBank b f).ident = s.ident := rfl
@[simp] theorem updInBank_otp (s : State) (b : Nat) (f : InBank → InBank) : (s.updInBank b f).otp = s.otp := rfl
@[simp] theorem updInBank_dev (s : State) (b : Nat) (f : InBank → InBank) : (s.updInBank b f).dev = s.dev := rfl
@[simp] theorem updInBank_clk (s : State) (b : Nat) (f : InBank → InBank) : (s.updInBank b f).clk = s.clk := rfl
@[simp] theorem updInBank_sup (s : State) (b : Nat) (f : InBank → InBank) : (s.updInBank b f).sup = s.sup := rfl
@[simp] theorem updInBank_frm (s : State) (b : Nat) (f : InBank → InBank) : (s.updInBank b f).frm = s.frm := rfl
@[simp] theorem updInBank_prog (s : State) (b : Nat) (f : InBank → InBank) : (s.updInBank b f).prog = s.prog := rfl
@[simp] theorem updInBank_hdrs (s : State) (b : Nat) (f : InBank → InBank) : (s.updInBank b f).hdrs = s.hdrs := rfl
@[simp] theorem updInBank_shadows (s : State) (b : Nat) (f : InBank → InBank) : (s.updInBank b f).shadows = s.shadows := rfl
@[simp] theorem updInBank_cope (s : State) (b : Nat) (f : InBank → InBank) : (s.updInBank b f).cope = s.cope := rfl
@[simp] theorem updInBank_drag (s : State) (b : Nat) (f : InBank → InBank) : (s.updInBank b f).drag = s.drag := rfl
@[simp] theorem updInBank_cmp (s : State) (b : Nat) (f : InBank → InBank) : (s.updInBank b f).cmp = s.cmp := rfl
@[simp] theorem updInBank_trp (s : State) (b : Nat) (f : InBank → InBank) : (s.updInBank b f).trp = s.trp := rfl
@[simp] theorem updInBank_comps (s : State) (b : Nat) (f : InBank → InBank) : (s.updInBank b f).comps = s.comps := rfl
@[simp] theorem updInBank_ins (s : State) (b : Nat) (f : InBank → InBank) : (s.updInBank b f).ins = s.ins := rfl
@[simp] theorem updInBank_outs (s : State) (b : Nat) (f : InBank → InBank) : (s.updInBank b f).outs = s.outs := rfl
@[simp] theorem updInBank_outBanks (s : State) (b : Nat) (f : InBank → InBank) : (s.updInBank b f).outBanks = s.outBanks := rfl
@[simp] theorem updInBank_bars (s : State) (b : Nat) (f : InBank → InBank) : (s.updInBank b f).bars = s.bars := rfl
@[simp] theorem updInBank_pwl (s : State) (b : Nat) (f : InBank → InBank) : (s.updInBank b f).pwl = s.pwl := rfl
@[simp] theorem updInBank_ps (s : State) (b : Nat) (f : InBank → InBank) : (s.updInBank b f).ps = s.ps := rfl
@[simp] theorem updInBank_crb (s : State) (b : Nat) (f : InBank → InBank) : (s.updInBank b f).crb = s.crb := rfl
@[simp] theorem updInBank_img (s : State) (b : Nat) (f : InBank → InBank) : (s.updInBank b f).img = s.img := rfl
@[simp] theorem updInBank_flash (s : State) (b : Nat) (f : InBank → InBank) : (s.updInBank b f).flash = s.flash := rfl
@[simp] theorem updInBank_hps (s : State) (b : Nat) (f : InBank → InBank) : (s.updInBank b f).hps = s.hps := rfl
@[simp] theorem updInBank_own (s : State) (b : Nat) (f : InBank → InBank) : (s.updInBank b f).own = s.own := rfl
@[simp] theorem updInBank_spbs (s : State) (b : Nat) (f : InBank → InBank) : (s.updInBank b f).spbs = s.spbs := rfl
@[simp] theorem updInBank_spc (s : State) (b : Nat) (f : InBank → InBank) : (s.updInBank b f).spc = s.spc := rfl
@[simp] theorem updInBank_chk (s : State) (b : Nat) (f : InBank → InBank) : (s.updInBank b f).chk = s.chk := rfl
@[simp] theorem updInBank_ctxs (s : State) (b : Nat) (f : InBank → InBank) : (s.updInBank b f).ctxs = s.ctxs := rfl
@[simp] theorem updInBank_bst (s : State) (b : Nat) (f : InBank → InBank) : (s.updInBank b f).bst = s.bst := rfl
@[simp] theorem updInBank_evl (s : State) (b : Nat) (f : InBank → InBank) : (s.updInBank b f).evl = s.evl := rfl
@[simp] theorem updInBank_fbs (s : State) (b : Nat) (f : InBank → InBank) : (s.updInBank b f).fbs = s.fbs := rfl
@[simp] theorem updInBank_fbsBuf (s : State) (b : Nat) (f : InBank → InBank) : (s.updInBank b f).fbsBuf = s.fbsBuf := rfl
@[simp] theorem updInBank_jtag (s : State) (b : Nat) (f : InBank → InBank) : (s.updInBank b f).jtag = s.jtag := rfl
@[simp] theorem updInBank_marks (s : State) (b : Nat) (f : InBank → InBank) : (s.updInBank b f).marks = s.marks := rfl
@[simp] theorem updInBank_free (s : State) (b : Nat) (f : InBank → InBank) : (s.updInBank b f).free = s.free := rfl
@[simp] theorem updInBank_cut (s : State) (b : Nat) (f : InBank → InBank) : (s.updInBank b f).cut = s.cut := rfl
@[simp] theorem updInBank_pending (s : State) (b : Nat) (f : InBank → InBank) : (s.updInBank b f).pending = s.pending := rfl

/-! updOutBank. -/

@[simp] theorem updOutBank_ident (s : State) (b : Nat) (f : OutBank → OutBank) : (s.updOutBank b f).ident = s.ident := rfl
@[simp] theorem updOutBank_otp (s : State) (b : Nat) (f : OutBank → OutBank) : (s.updOutBank b f).otp = s.otp := rfl
@[simp] theorem updOutBank_dev (s : State) (b : Nat) (f : OutBank → OutBank) : (s.updOutBank b f).dev = s.dev := rfl
@[simp] theorem updOutBank_clk (s : State) (b : Nat) (f : OutBank → OutBank) : (s.updOutBank b f).clk = s.clk := rfl
@[simp] theorem updOutBank_sup (s : State) (b : Nat) (f : OutBank → OutBank) : (s.updOutBank b f).sup = s.sup := rfl
@[simp] theorem updOutBank_frm (s : State) (b : Nat) (f : OutBank → OutBank) : (s.updOutBank b f).frm = s.frm := rfl
@[simp] theorem updOutBank_prog (s : State) (b : Nat) (f : OutBank → OutBank) : (s.updOutBank b f).prog = s.prog := rfl
@[simp] theorem updOutBank_hdrs (s : State) (b : Nat) (f : OutBank → OutBank) : (s.updOutBank b f).hdrs = s.hdrs := rfl
@[simp] theorem updOutBank_shadows (s : State) (b : Nat) (f : OutBank → OutBank) : (s.updOutBank b f).shadows = s.shadows := rfl
@[simp] theorem updOutBank_cope (s : State) (b : Nat) (f : OutBank → OutBank) : (s.updOutBank b f).cope = s.cope := rfl
@[simp] theorem updOutBank_drag (s : State) (b : Nat) (f : OutBank → OutBank) : (s.updOutBank b f).drag = s.drag := rfl
@[simp] theorem updOutBank_cmp (s : State) (b : Nat) (f : OutBank → OutBank) : (s.updOutBank b f).cmp = s.cmp := rfl
@[simp] theorem updOutBank_trp (s : State) (b : Nat) (f : OutBank → OutBank) : (s.updOutBank b f).trp = s.trp := rfl
@[simp] theorem updOutBank_comps (s : State) (b : Nat) (f : OutBank → OutBank) : (s.updOutBank b f).comps = s.comps := rfl
@[simp] theorem updOutBank_ins (s : State) (b : Nat) (f : OutBank → OutBank) : (s.updOutBank b f).ins = s.ins := rfl
@[simp] theorem updOutBank_inBanks (s : State) (b : Nat) (f : OutBank → OutBank) : (s.updOutBank b f).inBanks = s.inBanks := rfl
@[simp] theorem updOutBank_outs (s : State) (b : Nat) (f : OutBank → OutBank) : (s.updOutBank b f).outs = s.outs := rfl
@[simp] theorem updOutBank_bars (s : State) (b : Nat) (f : OutBank → OutBank) : (s.updOutBank b f).bars = s.bars := rfl
@[simp] theorem updOutBank_pwl (s : State) (b : Nat) (f : OutBank → OutBank) : (s.updOutBank b f).pwl = s.pwl := rfl
@[simp] theorem updOutBank_ps (s : State) (b : Nat) (f : OutBank → OutBank) : (s.updOutBank b f).ps = s.ps := rfl
@[simp] theorem updOutBank_crb (s : State) (b : Nat) (f : OutBank → OutBank) : (s.updOutBank b f).crb = s.crb := rfl
@[simp] theorem updOutBank_img (s : State) (b : Nat) (f : OutBank → OutBank) : (s.updOutBank b f).img = s.img := rfl
@[simp] theorem updOutBank_flash (s : State) (b : Nat) (f : OutBank → OutBank) : (s.updOutBank b f).flash = s.flash := rfl
@[simp] theorem updOutBank_hps (s : State) (b : Nat) (f : OutBank → OutBank) : (s.updOutBank b f).hps = s.hps := rfl
@[simp] theorem updOutBank_own (s : State) (b : Nat) (f : OutBank → OutBank) : (s.updOutBank b f).own = s.own := rfl
@[simp] theorem updOutBank_spbs (s : State) (b : Nat) (f : OutBank → OutBank) : (s.updOutBank b f).spbs = s.spbs := rfl
@[simp] theorem updOutBank_spc (s : State) (b : Nat) (f : OutBank → OutBank) : (s.updOutBank b f).spc = s.spc := rfl
@[simp] theorem updOutBank_chk (s : State) (b : Nat) (f : OutBank → OutBank) : (s.updOutBank b f).chk = s.chk := rfl
@[simp] theorem updOutBank_ctxs (s : State) (b : Nat) (f : OutBank → OutBank) : (s.updOutBank b f).ctxs = s.ctxs := rfl
@[simp] theorem updOutBank_bst (s : State) (b : Nat) (f : OutBank → OutBank) : (s.updOutBank b f).bst = s.bst := rfl
@[simp] theorem updOutBank_evl (s : State) (b : Nat) (f : OutBank → OutBank) : (s.updOutBank b f).evl = s.evl := rfl
@[simp] theorem updOutBank_fbs (s : State) (b : Nat) (f : OutBank → OutBank) : (s.updOutBank b f).fbs = s.fbs := rfl
@[simp] theorem updOutBank_fbsBuf (s : State) (b : Nat) (f : OutBank → OutBank) : (s.updOutBank b f).fbsBuf = s.fbsBuf := rfl
@[simp] theorem updOutBank_jtag (s : State) (b : Nat) (f : OutBank → OutBank) : (s.updOutBank b f).jtag = s.jtag := rfl
@[simp] theorem updOutBank_marks (s : State) (b : Nat) (f : OutBank → OutBank) : (s.updOutBank b f).marks = s.marks := rfl
@[simp] theorem updOutBank_free (s : State) (b : Nat) (f : OutBank → OutBank) : (s.updOutBank b f).free = s.free := rfl
@[simp] theorem updOutBank_cut (s : State) (b : Nat) (f : OutBank → OutBank) : (s.updOutBank b f).cut = s.cut := rfl
@[simp] theorem updOutBank_pending (s : State) (b : Nat) (f : OutBank → OutBank) : (s.updOutBank b f).pending = s.pending := rfl

/-! updBar. -/

@[simp] theorem updBar_ident (s : State) (d : Nat) (f : Bar → Bar) : (s.updBar d f).ident = s.ident := rfl
@[simp] theorem updBar_otp (s : State) (d : Nat) (f : Bar → Bar) : (s.updBar d f).otp = s.otp := rfl
@[simp] theorem updBar_dev (s : State) (d : Nat) (f : Bar → Bar) : (s.updBar d f).dev = s.dev := rfl
@[simp] theorem updBar_clk (s : State) (d : Nat) (f : Bar → Bar) : (s.updBar d f).clk = s.clk := rfl
@[simp] theorem updBar_sup (s : State) (d : Nat) (f : Bar → Bar) : (s.updBar d f).sup = s.sup := rfl
@[simp] theorem updBar_frm (s : State) (d : Nat) (f : Bar → Bar) : (s.updBar d f).frm = s.frm := rfl
@[simp] theorem updBar_prog (s : State) (d : Nat) (f : Bar → Bar) : (s.updBar d f).prog = s.prog := rfl
@[simp] theorem updBar_hdrs (s : State) (d : Nat) (f : Bar → Bar) : (s.updBar d f).hdrs = s.hdrs := rfl
@[simp] theorem updBar_shadows (s : State) (d : Nat) (f : Bar → Bar) : (s.updBar d f).shadows = s.shadows := rfl
@[simp] theorem updBar_cope (s : State) (d : Nat) (f : Bar → Bar) : (s.updBar d f).cope = s.cope := rfl
@[simp] theorem updBar_drag (s : State) (d : Nat) (f : Bar → Bar) : (s.updBar d f).drag = s.drag := rfl
@[simp] theorem updBar_cmp (s : State) (d : Nat) (f : Bar → Bar) : (s.updBar d f).cmp = s.cmp := rfl
@[simp] theorem updBar_trp (s : State) (d : Nat) (f : Bar → Bar) : (s.updBar d f).trp = s.trp := rfl
@[simp] theorem updBar_comps (s : State) (d : Nat) (f : Bar → Bar) : (s.updBar d f).comps = s.comps := rfl
@[simp] theorem updBar_ins (s : State) (d : Nat) (f : Bar → Bar) : (s.updBar d f).ins = s.ins := rfl
@[simp] theorem updBar_inBanks (s : State) (d : Nat) (f : Bar → Bar) : (s.updBar d f).inBanks = s.inBanks := rfl
@[simp] theorem updBar_outs (s : State) (d : Nat) (f : Bar → Bar) : (s.updBar d f).outs = s.outs := rfl
@[simp] theorem updBar_outBanks (s : State) (d : Nat) (f : Bar → Bar) : (s.updBar d f).outBanks = s.outBanks := rfl
@[simp] theorem updBar_pwl (s : State) (d : Nat) (f : Bar → Bar) : (s.updBar d f).pwl = s.pwl := rfl
@[simp] theorem updBar_ps (s : State) (d : Nat) (f : Bar → Bar) : (s.updBar d f).ps = s.ps := rfl
@[simp] theorem updBar_crb (s : State) (d : Nat) (f : Bar → Bar) : (s.updBar d f).crb = s.crb := rfl
@[simp] theorem updBar_img (s : State) (d : Nat) (f : Bar → Bar) : (s.updBar d f).img = s.img := rfl
@[simp] theorem updBar_flash (s : State) (d : Nat) (f : Bar → Bar) : (s.updBar d f).flash = s.flash := rfl
@[simp] theorem updBar_hps (s : State) (d : Nat) (f : Bar → Bar) : (s.updBar d f).hps = s.hps := rfl
@[simp] theorem updBar_own (s : State) (d : Nat) (f : Bar → Bar) : (s.updBar d f).own = s.own := rfl
@[simp] theorem updBar_spbs (s : State) (d : Nat) (f : Bar → Bar) : (s.updBar d f).spbs = s.spbs := rfl
@[simp] theorem updBar_spc (s : State) (d : Nat) (f : Bar → Bar) : (s.updBar d f).spc = s.spc := rfl
@[simp] theorem updBar_chk (s : State) (d : Nat) (f : Bar → Bar) : (s.updBar d f).chk = s.chk := rfl
@[simp] theorem updBar_ctxs (s : State) (d : Nat) (f : Bar → Bar) : (s.updBar d f).ctxs = s.ctxs := rfl
@[simp] theorem updBar_bst (s : State) (d : Nat) (f : Bar → Bar) : (s.updBar d f).bst = s.bst := rfl
@[simp] theorem updBar_evl (s : State) (d : Nat) (f : Bar → Bar) : (s.updBar d f).evl = s.evl := rfl
@[simp] theorem updBar_fbs (s : State) (d : Nat) (f : Bar → Bar) : (s.updBar d f).fbs = s.fbs := rfl
@[simp] theorem updBar_fbsBuf (s : State) (d : Nat) (f : Bar → Bar) : (s.updBar d f).fbsBuf = s.fbsBuf := rfl
@[simp] theorem updBar_jtag (s : State) (d : Nat) (f : Bar → Bar) : (s.updBar d f).jtag = s.jtag := rfl
@[simp] theorem updBar_marks (s : State) (d : Nat) (f : Bar → Bar) : (s.updBar d f).marks = s.marks := rfl
@[simp] theorem updBar_free (s : State) (d : Nat) (f : Bar → Bar) : (s.updBar d f).free = s.free := rfl
@[simp] theorem updBar_cut (s : State) (d : Nat) (f : Bar → Bar) : (s.updBar d f).cut = s.cut := rfl
@[simp] theorem updBar_pending (s : State) (d : Nat) (f : Bar → Bar) : (s.updBar d f).pending = s.pending := rfl

/-! updPulse. -/

@[simp] theorem updPulse_ident (s : State) (k : Nat) (f : PulseSource → PulseSource) : (s.updPulse k f).ident = s.ident := rfl
@[simp] theorem updPulse_otp (s : State) (k : Nat) (f : PulseSource → PulseSource) : (s.updPulse k f).otp = s.otp := rfl
@[simp] theorem updPulse_dev (s : State) (k : Nat) (f : PulseSource → PulseSource) : (s.updPulse k f).dev = s.dev := rfl
@[simp] theorem updPulse_clk (s : State) (k : Nat) (f : PulseSource → PulseSource) : (s.updPulse k f).clk = s.clk := rfl
@[simp] theorem updPulse_sup (s : State) (k : Nat) (f : PulseSource → PulseSource) : (s.updPulse k f).sup = s.sup := rfl
@[simp] theorem updPulse_frm (s : State) (k : Nat) (f : PulseSource → PulseSource) : (s.updPulse k f).frm = s.frm := rfl
@[simp] theorem updPulse_prog (s : State) (k : Nat) (f : PulseSource → PulseSource) : (s.updPulse k f).prog = s.prog := rfl
@[simp] theorem updPulse_hdrs (s : State) (k : Nat) (f : PulseSource → PulseSource) : (s.updPulse k f).hdrs = s.hdrs := rfl
@[simp] theorem updPulse_shadows (s : State) (k : Nat) (f : PulseSource → PulseSource) : (s.updPulse k f).shadows = s.shadows := rfl
@[simp] theorem updPulse_cope (s : State) (k : Nat) (f : PulseSource → PulseSource) : (s.updPulse k f).cope = s.cope := rfl
@[simp] theorem updPulse_drag (s : State) (k : Nat) (f : PulseSource → PulseSource) : (s.updPulse k f).drag = s.drag := rfl
@[simp] theorem updPulse_cmp (s : State) (k : Nat) (f : PulseSource → PulseSource) : (s.updPulse k f).cmp = s.cmp := rfl
@[simp] theorem updPulse_trp (s : State) (k : Nat) (f : PulseSource → PulseSource) : (s.updPulse k f).trp = s.trp := rfl
@[simp] theorem updPulse_comps (s : State) (k : Nat) (f : PulseSource → PulseSource) : (s.updPulse k f).comps = s.comps := rfl
@[simp] theorem updPulse_ins (s : State) (k : Nat) (f : PulseSource → PulseSource) : (s.updPulse k f).ins = s.ins := rfl
@[simp] theorem updPulse_inBanks (s : State) (k : Nat) (f : PulseSource → PulseSource) : (s.updPulse k f).inBanks = s.inBanks := rfl
@[simp] theorem updPulse_outs (s : State) (k : Nat) (f : PulseSource → PulseSource) : (s.updPulse k f).outs = s.outs := rfl
@[simp] theorem updPulse_outBanks (s : State) (k : Nat) (f : PulseSource → PulseSource) : (s.updPulse k f).outBanks = s.outBanks := rfl
@[simp] theorem updPulse_bars (s : State) (k : Nat) (f : PulseSource → PulseSource) : (s.updPulse k f).bars = s.bars := rfl
@[simp] theorem updPulse_pwl (s : State) (k : Nat) (f : PulseSource → PulseSource) : (s.updPulse k f).pwl = s.pwl := rfl
@[simp] theorem updPulse_crb (s : State) (k : Nat) (f : PulseSource → PulseSource) : (s.updPulse k f).crb = s.crb := rfl
@[simp] theorem updPulse_img (s : State) (k : Nat) (f : PulseSource → PulseSource) : (s.updPulse k f).img = s.img := rfl
@[simp] theorem updPulse_flash (s : State) (k : Nat) (f : PulseSource → PulseSource) : (s.updPulse k f).flash = s.flash := rfl
@[simp] theorem updPulse_hps (s : State) (k : Nat) (f : PulseSource → PulseSource) : (s.updPulse k f).hps = s.hps := rfl
@[simp] theorem updPulse_own (s : State) (k : Nat) (f : PulseSource → PulseSource) : (s.updPulse k f).own = s.own := rfl
@[simp] theorem updPulse_spbs (s : State) (k : Nat) (f : PulseSource → PulseSource) : (s.updPulse k f).spbs = s.spbs := rfl
@[simp] theorem updPulse_spc (s : State) (k : Nat) (f : PulseSource → PulseSource) : (s.updPulse k f).spc = s.spc := rfl
@[simp] theorem updPulse_chk (s : State) (k : Nat) (f : PulseSource → PulseSource) : (s.updPulse k f).chk = s.chk := rfl
@[simp] theorem updPulse_ctxs (s : State) (k : Nat) (f : PulseSource → PulseSource) : (s.updPulse k f).ctxs = s.ctxs := rfl
@[simp] theorem updPulse_bst (s : State) (k : Nat) (f : PulseSource → PulseSource) : (s.updPulse k f).bst = s.bst := rfl
@[simp] theorem updPulse_evl (s : State) (k : Nat) (f : PulseSource → PulseSource) : (s.updPulse k f).evl = s.evl := rfl
@[simp] theorem updPulse_fbs (s : State) (k : Nat) (f : PulseSource → PulseSource) : (s.updPulse k f).fbs = s.fbs := rfl
@[simp] theorem updPulse_fbsBuf (s : State) (k : Nat) (f : PulseSource → PulseSource) : (s.updPulse k f).fbsBuf = s.fbsBuf := rfl
@[simp] theorem updPulse_jtag (s : State) (k : Nat) (f : PulseSource → PulseSource) : (s.updPulse k f).jtag = s.jtag := rfl
@[simp] theorem updPulse_marks (s : State) (k : Nat) (f : PulseSource → PulseSource) : (s.updPulse k f).marks = s.marks := rfl
@[simp] theorem updPulse_free (s : State) (k : Nat) (f : PulseSource → PulseSource) : (s.updPulse k f).free = s.free := rfl
@[simp] theorem updPulse_cut (s : State) (k : Nat) (f : PulseSource → PulseSource) : (s.updPulse k f).cut = s.cut := rfl
@[simp] theorem updPulse_pending (s : State) (k : Nat) (f : PulseSource → PulseSource) : (s.updPulse k f).pending = s.pending := rfl

/-! updHp. -/

@[simp] theorem updHp_ident (s : State) (n : Nat) (f : Hp → Hp) : (s.updHp n f).ident = s.ident := rfl
@[simp] theorem updHp_otp (s : State) (n : Nat) (f : Hp → Hp) : (s.updHp n f).otp = s.otp := rfl
@[simp] theorem updHp_dev (s : State) (n : Nat) (f : Hp → Hp) : (s.updHp n f).dev = s.dev := rfl
@[simp] theorem updHp_clk (s : State) (n : Nat) (f : Hp → Hp) : (s.updHp n f).clk = s.clk := rfl
@[simp] theorem updHp_sup (s : State) (n : Nat) (f : Hp → Hp) : (s.updHp n f).sup = s.sup := rfl
@[simp] theorem updHp_frm (s : State) (n : Nat) (f : Hp → Hp) : (s.updHp n f).frm = s.frm := rfl
@[simp] theorem updHp_prog (s : State) (n : Nat) (f : Hp → Hp) : (s.updHp n f).prog = s.prog := rfl
@[simp] theorem updHp_hdrs (s : State) (n : Nat) (f : Hp → Hp) : (s.updHp n f).hdrs = s.hdrs := rfl
@[simp] theorem updHp_shadows (s : State) (n : Nat) (f : Hp → Hp) : (s.updHp n f).shadows = s.shadows := rfl
@[simp] theorem updHp_cope (s : State) (n : Nat) (f : Hp → Hp) : (s.updHp n f).cope = s.cope := rfl
@[simp] theorem updHp_drag (s : State) (n : Nat) (f : Hp → Hp) : (s.updHp n f).drag = s.drag := rfl
@[simp] theorem updHp_cmp (s : State) (n : Nat) (f : Hp → Hp) : (s.updHp n f).cmp = s.cmp := rfl
@[simp] theorem updHp_trp (s : State) (n : Nat) (f : Hp → Hp) : (s.updHp n f).trp = s.trp := rfl
@[simp] theorem updHp_comps (s : State) (n : Nat) (f : Hp → Hp) : (s.updHp n f).comps = s.comps := rfl
@[simp] theorem updHp_ins (s : State) (n : Nat) (f : Hp → Hp) : (s.updHp n f).ins = s.ins := rfl
@[simp] theorem updHp_inBanks (s : State) (n : Nat) (f : Hp → Hp) : (s.updHp n f).inBanks = s.inBanks := rfl
@[simp] theorem updHp_outs (s : State) (n : Nat) (f : Hp → Hp) : (s.updHp n f).outs = s.outs := rfl
@[simp] theorem updHp_outBanks (s : State) (n : Nat) (f : Hp → Hp) : (s.updHp n f).outBanks = s.outBanks := rfl
@[simp] theorem updHp_bars (s : State) (n : Nat) (f : Hp → Hp) : (s.updHp n f).bars = s.bars := rfl
@[simp] theorem updHp_pwl (s : State) (n : Nat) (f : Hp → Hp) : (s.updHp n f).pwl = s.pwl := rfl
@[simp] theorem updHp_ps (s : State) (n : Nat) (f : Hp → Hp) : (s.updHp n f).ps = s.ps := rfl
@[simp] theorem updHp_crb (s : State) (n : Nat) (f : Hp → Hp) : (s.updHp n f).crb = s.crb := rfl
@[simp] theorem updHp_img (s : State) (n : Nat) (f : Hp → Hp) : (s.updHp n f).img = s.img := rfl
@[simp] theorem updHp_flash (s : State) (n : Nat) (f : Hp → Hp) : (s.updHp n f).flash = s.flash := rfl
@[simp] theorem updHp_own (s : State) (n : Nat) (f : Hp → Hp) : (s.updHp n f).own = s.own := rfl
@[simp] theorem updHp_spbs (s : State) (n : Nat) (f : Hp → Hp) : (s.updHp n f).spbs = s.spbs := rfl
@[simp] theorem updHp_spc (s : State) (n : Nat) (f : Hp → Hp) : (s.updHp n f).spc = s.spc := rfl
@[simp] theorem updHp_chk (s : State) (n : Nat) (f : Hp → Hp) : (s.updHp n f).chk = s.chk := rfl
@[simp] theorem updHp_ctxs (s : State) (n : Nat) (f : Hp → Hp) : (s.updHp n f).ctxs = s.ctxs := rfl
@[simp] theorem updHp_bst (s : State) (n : Nat) (f : Hp → Hp) : (s.updHp n f).bst = s.bst := rfl
@[simp] theorem updHp_evl (s : State) (n : Nat) (f : Hp → Hp) : (s.updHp n f).evl = s.evl := rfl
@[simp] theorem updHp_fbs (s : State) (n : Nat) (f : Hp → Hp) : (s.updHp n f).fbs = s.fbs := rfl
@[simp] theorem updHp_fbsBuf (s : State) (n : Nat) (f : Hp → Hp) : (s.updHp n f).fbsBuf = s.fbsBuf := rfl
@[simp] theorem updHp_jtag (s : State) (n : Nat) (f : Hp → Hp) : (s.updHp n f).jtag = s.jtag := rfl
@[simp] theorem updHp_marks (s : State) (n : Nat) (f : Hp → Hp) : (s.updHp n f).marks = s.marks := rfl
@[simp] theorem updHp_free (s : State) (n : Nat) (f : Hp → Hp) : (s.updHp n f).free = s.free := rfl
@[simp] theorem updHp_cut (s : State) (n : Nat) (f : Hp → Hp) : (s.updHp n f).cut = s.cut := rfl
@[simp] theorem updHp_pending (s : State) (n : Nat) (f : Hp → Hp) : (s.updHp n f).pending = s.pending := rfl

/-! updSpb. -/

@[simp] theorem updSpb_ident (s : State) (k : Nat) (f : Spb → Spb) : (s.updSpb k f).ident = s.ident := rfl
@[simp] theorem updSpb_otp (s : State) (k : Nat) (f : Spb → Spb) : (s.updSpb k f).otp = s.otp := rfl
@[simp] theorem updSpb_dev (s : State) (k : Nat) (f : Spb → Spb) : (s.updSpb k f).dev = s.dev := rfl
@[simp] theorem updSpb_clk (s : State) (k : Nat) (f : Spb → Spb) : (s.updSpb k f).clk = s.clk := rfl
@[simp] theorem updSpb_sup (s : State) (k : Nat) (f : Spb → Spb) : (s.updSpb k f).sup = s.sup := rfl
@[simp] theorem updSpb_frm (s : State) (k : Nat) (f : Spb → Spb) : (s.updSpb k f).frm = s.frm := rfl
@[simp] theorem updSpb_prog (s : State) (k : Nat) (f : Spb → Spb) : (s.updSpb k f).prog = s.prog := rfl
@[simp] theorem updSpb_hdrs (s : State) (k : Nat) (f : Spb → Spb) : (s.updSpb k f).hdrs = s.hdrs := rfl
@[simp] theorem updSpb_shadows (s : State) (k : Nat) (f : Spb → Spb) : (s.updSpb k f).shadows = s.shadows := rfl
@[simp] theorem updSpb_cope (s : State) (k : Nat) (f : Spb → Spb) : (s.updSpb k f).cope = s.cope := rfl
@[simp] theorem updSpb_drag (s : State) (k : Nat) (f : Spb → Spb) : (s.updSpb k f).drag = s.drag := rfl
@[simp] theorem updSpb_cmp (s : State) (k : Nat) (f : Spb → Spb) : (s.updSpb k f).cmp = s.cmp := rfl
@[simp] theorem updSpb_trp (s : State) (k : Nat) (f : Spb → Spb) : (s.updSpb k f).trp = s.trp := rfl
@[simp] theorem updSpb_comps (s : State) (k : Nat) (f : Spb → Spb) : (s.updSpb k f).comps = s.comps := rfl
@[simp] theorem updSpb_ins (s : State) (k : Nat) (f : Spb → Spb) : (s.updSpb k f).ins = s.ins := rfl
@[simp] theorem updSpb_inBanks (s : State) (k : Nat) (f : Spb → Spb) : (s.updSpb k f).inBanks = s.inBanks := rfl
@[simp] theorem updSpb_outs (s : State) (k : Nat) (f : Spb → Spb) : (s.updSpb k f).outs = s.outs := rfl
@[simp] theorem updSpb_outBanks (s : State) (k : Nat) (f : Spb → Spb) : (s.updSpb k f).outBanks = s.outBanks := rfl
@[simp] theorem updSpb_bars (s : State) (k : Nat) (f : Spb → Spb) : (s.updSpb k f).bars = s.bars := rfl
@[simp] theorem updSpb_pwl (s : State) (k : Nat) (f : Spb → Spb) : (s.updSpb k f).pwl = s.pwl := rfl
@[simp] theorem updSpb_ps (s : State) (k : Nat) (f : Spb → Spb) : (s.updSpb k f).ps = s.ps := rfl
@[simp] theorem updSpb_crb (s : State) (k : Nat) (f : Spb → Spb) : (s.updSpb k f).crb = s.crb := rfl
@[simp] theorem updSpb_img (s : State) (k : Nat) (f : Spb → Spb) : (s.updSpb k f).img = s.img := rfl
@[simp] theorem updSpb_flash (s : State) (k : Nat) (f : Spb → Spb) : (s.updSpb k f).flash = s.flash := rfl
@[simp] theorem updSpb_hps (s : State) (k : Nat) (f : Spb → Spb) : (s.updSpb k f).hps = s.hps := rfl
@[simp] theorem updSpb_own (s : State) (k : Nat) (f : Spb → Spb) : (s.updSpb k f).own = s.own := rfl
@[simp] theorem updSpb_spc (s : State) (k : Nat) (f : Spb → Spb) : (s.updSpb k f).spc = s.spc := rfl
@[simp] theorem updSpb_chk (s : State) (k : Nat) (f : Spb → Spb) : (s.updSpb k f).chk = s.chk := rfl
@[simp] theorem updSpb_ctxs (s : State) (k : Nat) (f : Spb → Spb) : (s.updSpb k f).ctxs = s.ctxs := rfl
@[simp] theorem updSpb_bst (s : State) (k : Nat) (f : Spb → Spb) : (s.updSpb k f).bst = s.bst := rfl
@[simp] theorem updSpb_evl (s : State) (k : Nat) (f : Spb → Spb) : (s.updSpb k f).evl = s.evl := rfl
@[simp] theorem updSpb_fbs (s : State) (k : Nat) (f : Spb → Spb) : (s.updSpb k f).fbs = s.fbs := rfl
@[simp] theorem updSpb_fbsBuf (s : State) (k : Nat) (f : Spb → Spb) : (s.updSpb k f).fbsBuf = s.fbsBuf := rfl
@[simp] theorem updSpb_jtag (s : State) (k : Nat) (f : Spb → Spb) : (s.updSpb k f).jtag = s.jtag := rfl
@[simp] theorem updSpb_marks (s : State) (k : Nat) (f : Spb → Spb) : (s.updSpb k f).marks = s.marks := rfl
@[simp] theorem updSpb_free (s : State) (k : Nat) (f : Spb → Spb) : (s.updSpb k f).free = s.free := rfl
@[simp] theorem updSpb_cut (s : State) (k : Nat) (f : Spb → Spb) : (s.updSpb k f).cut = s.cut := rfl
@[simp] theorem updSpb_pending (s : State) (k : Nat) (f : Spb → Spb) : (s.updSpb k f).pending = s.pending := rfl

/-! updCtx. -/

@[simp] theorem updCtx_ident (s : State) (c : Nat) (f : Ctx → Ctx) : (s.updCtx c f).ident = s.ident := rfl
@[simp] theorem updCtx_otp (s : State) (c : Nat) (f : Ctx → Ctx) : (s.updCtx c f).otp = s.otp := rfl
@[simp] theorem updCtx_dev (s : State) (c : Nat) (f : Ctx → Ctx) : (s.updCtx c f).dev = s.dev := rfl
@[simp] theorem updCtx_clk (s : State) (c : Nat) (f : Ctx → Ctx) : (s.updCtx c f).clk = s.clk := rfl
@[simp] theorem updCtx_sup (s : State) (c : Nat) (f : Ctx → Ctx) : (s.updCtx c f).sup = s.sup := rfl
@[simp] theorem updCtx_frm (s : State) (c : Nat) (f : Ctx → Ctx) : (s.updCtx c f).frm = s.frm := rfl
@[simp] theorem updCtx_prog (s : State) (c : Nat) (f : Ctx → Ctx) : (s.updCtx c f).prog = s.prog := rfl
@[simp] theorem updCtx_hdrs (s : State) (c : Nat) (f : Ctx → Ctx) : (s.updCtx c f).hdrs = s.hdrs := rfl
@[simp] theorem updCtx_shadows (s : State) (c : Nat) (f : Ctx → Ctx) : (s.updCtx c f).shadows = s.shadows := rfl
@[simp] theorem updCtx_cope (s : State) (c : Nat) (f : Ctx → Ctx) : (s.updCtx c f).cope = s.cope := rfl
@[simp] theorem updCtx_drag (s : State) (c : Nat) (f : Ctx → Ctx) : (s.updCtx c f).drag = s.drag := rfl
@[simp] theorem updCtx_cmp (s : State) (c : Nat) (f : Ctx → Ctx) : (s.updCtx c f).cmp = s.cmp := rfl
@[simp] theorem updCtx_trp (s : State) (c : Nat) (f : Ctx → Ctx) : (s.updCtx c f).trp = s.trp := rfl
@[simp] theorem updCtx_comps (s : State) (c : Nat) (f : Ctx → Ctx) : (s.updCtx c f).comps = s.comps := rfl
@[simp] theorem updCtx_ins (s : State) (c : Nat) (f : Ctx → Ctx) : (s.updCtx c f).ins = s.ins := rfl
@[simp] theorem updCtx_inBanks (s : State) (c : Nat) (f : Ctx → Ctx) : (s.updCtx c f).inBanks = s.inBanks := rfl
@[simp] theorem updCtx_outs (s : State) (c : Nat) (f : Ctx → Ctx) : (s.updCtx c f).outs = s.outs := rfl
@[simp] theorem updCtx_outBanks (s : State) (c : Nat) (f : Ctx → Ctx) : (s.updCtx c f).outBanks = s.outBanks := rfl
@[simp] theorem updCtx_bars (s : State) (c : Nat) (f : Ctx → Ctx) : (s.updCtx c f).bars = s.bars := rfl
@[simp] theorem updCtx_pwl (s : State) (c : Nat) (f : Ctx → Ctx) : (s.updCtx c f).pwl = s.pwl := rfl
@[simp] theorem updCtx_ps (s : State) (c : Nat) (f : Ctx → Ctx) : (s.updCtx c f).ps = s.ps := rfl
@[simp] theorem updCtx_crb (s : State) (c : Nat) (f : Ctx → Ctx) : (s.updCtx c f).crb = s.crb := rfl
@[simp] theorem updCtx_img (s : State) (c : Nat) (f : Ctx → Ctx) : (s.updCtx c f).img = s.img := rfl
@[simp] theorem updCtx_flash (s : State) (c : Nat) (f : Ctx → Ctx) : (s.updCtx c f).flash = s.flash := rfl
@[simp] theorem updCtx_hps (s : State) (c : Nat) (f : Ctx → Ctx) : (s.updCtx c f).hps = s.hps := rfl
@[simp] theorem updCtx_own (s : State) (c : Nat) (f : Ctx → Ctx) : (s.updCtx c f).own = s.own := rfl
@[simp] theorem updCtx_spbs (s : State) (c : Nat) (f : Ctx → Ctx) : (s.updCtx c f).spbs = s.spbs := rfl
@[simp] theorem updCtx_spc (s : State) (c : Nat) (f : Ctx → Ctx) : (s.updCtx c f).spc = s.spc := rfl
@[simp] theorem updCtx_chk (s : State) (c : Nat) (f : Ctx → Ctx) : (s.updCtx c f).chk = s.chk := rfl
@[simp] theorem updCtx_bst (s : State) (c : Nat) (f : Ctx → Ctx) : (s.updCtx c f).bst = s.bst := rfl
@[simp] theorem updCtx_evl (s : State) (c : Nat) (f : Ctx → Ctx) : (s.updCtx c f).evl = s.evl := rfl
@[simp] theorem updCtx_fbs (s : State) (c : Nat) (f : Ctx → Ctx) : (s.updCtx c f).fbs = s.fbs := rfl
@[simp] theorem updCtx_fbsBuf (s : State) (c : Nat) (f : Ctx → Ctx) : (s.updCtx c f).fbsBuf = s.fbsBuf := rfl
@[simp] theorem updCtx_jtag (s : State) (c : Nat) (f : Ctx → Ctx) : (s.updCtx c f).jtag = s.jtag := rfl
@[simp] theorem updCtx_marks (s : State) (c : Nat) (f : Ctx → Ctx) : (s.updCtx c f).marks = s.marks := rfl
@[simp] theorem updCtx_free (s : State) (c : Nat) (f : Ctx → Ctx) : (s.updCtx c f).free = s.free := rfl
@[simp] theorem updCtx_cut (s : State) (c : Nat) (f : Ctx → Ctx) : (s.updCtx c f).cut = s.cut := rfl
@[simp] theorem updCtx_pending (s : State) (c : Nat) (f : Ctx → Ctx) : (s.updCtx c f).pending = s.pending := rfl

/-! updHdr. -/

@[simp] theorem updHdr_ident (s : State) (p : Page) (f : Hdr → Hdr) : (s.updHdr p f).ident = s.ident := rfl
@[simp] theorem updHdr_otp (s : State) (p : Page) (f : Hdr → Hdr) : (s.updHdr p f).otp = s.otp := rfl
@[simp] theorem updHdr_dev (s : State) (p : Page) (f : Hdr → Hdr) : (s.updHdr p f).dev = s.dev := rfl
@[simp] theorem updHdr_clk (s : State) (p : Page) (f : Hdr → Hdr) : (s.updHdr p f).clk = s.clk := rfl
@[simp] theorem updHdr_sup (s : State) (p : Page) (f : Hdr → Hdr) : (s.updHdr p f).sup = s.sup := rfl
@[simp] theorem updHdr_frm (s : State) (p : Page) (f : Hdr → Hdr) : (s.updHdr p f).frm = s.frm := rfl
@[simp] theorem updHdr_prog (s : State) (p : Page) (f : Hdr → Hdr) : (s.updHdr p f).prog = s.prog := rfl
@[simp] theorem updHdr_shadows (s : State) (p : Page) (f : Hdr → Hdr) : (s.updHdr p f).shadows = s.shadows := rfl
@[simp] theorem updHdr_cope (s : State) (p : Page) (f : Hdr → Hdr) : (s.updHdr p f).cope = s.cope := rfl
@[simp] theorem updHdr_drag (s : State) (p : Page) (f : Hdr → Hdr) : (s.updHdr p f).drag = s.drag := rfl
@[simp] theorem updHdr_cmp (s : State) (p : Page) (f : Hdr → Hdr) : (s.updHdr p f).cmp = s.cmp := rfl
@[simp] theorem updHdr_trp (s : State) (p : Page) (f : Hdr → Hdr) : (s.updHdr p f).trp = s.trp := rfl
@[simp] theorem updHdr_comps (s : State) (p : Page) (f : Hdr → Hdr) : (s.updHdr p f).comps = s.comps := rfl
@[simp] theorem updHdr_ins (s : State) (p : Page) (f : Hdr → Hdr) : (s.updHdr p f).ins = s.ins := rfl
@[simp] theorem updHdr_inBanks (s : State) (p : Page) (f : Hdr → Hdr) : (s.updHdr p f).inBanks = s.inBanks := rfl
@[simp] theorem updHdr_outs (s : State) (p : Page) (f : Hdr → Hdr) : (s.updHdr p f).outs = s.outs := rfl
@[simp] theorem updHdr_outBanks (s : State) (p : Page) (f : Hdr → Hdr) : (s.updHdr p f).outBanks = s.outBanks := rfl
@[simp] theorem updHdr_bars (s : State) (p : Page) (f : Hdr → Hdr) : (s.updHdr p f).bars = s.bars := rfl
@[simp] theorem updHdr_pwl (s : State) (p : Page) (f : Hdr → Hdr) : (s.updHdr p f).pwl = s.pwl := rfl
@[simp] theorem updHdr_ps (s : State) (p : Page) (f : Hdr → Hdr) : (s.updHdr p f).ps = s.ps := rfl
@[simp] theorem updHdr_crb (s : State) (p : Page) (f : Hdr → Hdr) : (s.updHdr p f).crb = s.crb := rfl
@[simp] theorem updHdr_img (s : State) (p : Page) (f : Hdr → Hdr) : (s.updHdr p f).img = s.img := rfl
@[simp] theorem updHdr_flash (s : State) (p : Page) (f : Hdr → Hdr) : (s.updHdr p f).flash = s.flash := rfl
@[simp] theorem updHdr_hps (s : State) (p : Page) (f : Hdr → Hdr) : (s.updHdr p f).hps = s.hps := rfl
@[simp] theorem updHdr_own (s : State) (p : Page) (f : Hdr → Hdr) : (s.updHdr p f).own = s.own := rfl
@[simp] theorem updHdr_spbs (s : State) (p : Page) (f : Hdr → Hdr) : (s.updHdr p f).spbs = s.spbs := rfl
@[simp] theorem updHdr_spc (s : State) (p : Page) (f : Hdr → Hdr) : (s.updHdr p f).spc = s.spc := rfl
@[simp] theorem updHdr_chk (s : State) (p : Page) (f : Hdr → Hdr) : (s.updHdr p f).chk = s.chk := rfl
@[simp] theorem updHdr_ctxs (s : State) (p : Page) (f : Hdr → Hdr) : (s.updHdr p f).ctxs = s.ctxs := rfl
@[simp] theorem updHdr_bst (s : State) (p : Page) (f : Hdr → Hdr) : (s.updHdr p f).bst = s.bst := rfl
@[simp] theorem updHdr_evl (s : State) (p : Page) (f : Hdr → Hdr) : (s.updHdr p f).evl = s.evl := rfl
@[simp] theorem updHdr_fbs (s : State) (p : Page) (f : Hdr → Hdr) : (s.updHdr p f).fbs = s.fbs := rfl
@[simp] theorem updHdr_fbsBuf (s : State) (p : Page) (f : Hdr → Hdr) : (s.updHdr p f).fbsBuf = s.fbsBuf := rfl
@[simp] theorem updHdr_jtag (s : State) (p : Page) (f : Hdr → Hdr) : (s.updHdr p f).jtag = s.jtag := rfl
@[simp] theorem updHdr_marks (s : State) (p : Page) (f : Hdr → Hdr) : (s.updHdr p f).marks = s.marks := rfl
@[simp] theorem updHdr_free (s : State) (p : Page) (f : Hdr → Hdr) : (s.updHdr p f).free = s.free := rfl
@[simp] theorem updHdr_cut (s : State) (p : Page) (f : Hdr → Hdr) : (s.updHdr p f).cut = s.cut := rfl
@[simp] theorem updHdr_pending (s : State) (p : Page) (f : Hdr → Hdr) : (s.updHdr p f).pending = s.pending := rfl

/-! bump. -/

@[simp] theorem bump_ident (s : State) (p : Page) (off : Nat) : (s.bump p off).ident = s.ident := rfl
@[simp] theorem bump_otp (s : State) (p : Page) (off : Nat) : (s.bump p off).otp = s.otp := rfl
@[simp] theorem bump_dev (s : State) (p : Page) (off : Nat) : (s.bump p off).dev = s.dev := rfl
@[simp] theorem bump_clk (s : State) (p : Page) (off : Nat) : (s.bump p off).clk = s.clk := rfl
@[simp] theorem bump_sup (s : State) (p : Page) (off : Nat) : (s.bump p off).sup = s.sup := rfl
@[simp] theorem bump_frm (s : State) (p : Page) (off : Nat) : (s.bump p off).frm = s.frm := rfl
@[simp] theorem bump_prog (s : State) (p : Page) (off : Nat) : (s.bump p off).prog = s.prog := rfl
@[simp] theorem bump_shadows (s : State) (p : Page) (off : Nat) : (s.bump p off).shadows = s.shadows := rfl
@[simp] theorem bump_cope (s : State) (p : Page) (off : Nat) : (s.bump p off).cope = s.cope := rfl
@[simp] theorem bump_drag (s : State) (p : Page) (off : Nat) : (s.bump p off).drag = s.drag := rfl
@[simp] theorem bump_cmp (s : State) (p : Page) (off : Nat) : (s.bump p off).cmp = s.cmp := rfl
@[simp] theorem bump_trp (s : State) (p : Page) (off : Nat) : (s.bump p off).trp = s.trp := rfl
@[simp] theorem bump_comps (s : State) (p : Page) (off : Nat) : (s.bump p off).comps = s.comps := rfl
@[simp] theorem bump_ins (s : State) (p : Page) (off : Nat) : (s.bump p off).ins = s.ins := rfl
@[simp] theorem bump_inBanks (s : State) (p : Page) (off : Nat) : (s.bump p off).inBanks = s.inBanks := rfl
@[simp] theorem bump_outs (s : State) (p : Page) (off : Nat) : (s.bump p off).outs = s.outs := rfl
@[simp] theorem bump_outBanks (s : State) (p : Page) (off : Nat) : (s.bump p off).outBanks = s.outBanks := rfl
@[simp] theorem bump_bars (s : State) (p : Page) (off : Nat) : (s.bump p off).bars = s.bars := rfl
@[simp] theorem bump_pwl (s : State) (p : Page) (off : Nat) : (s.bump p off).pwl = s.pwl := rfl
@[simp] theorem bump_ps (s : State) (p : Page) (off : Nat) : (s.bump p off).ps = s.ps := rfl
@[simp] theorem bump_crb (s : State) (p : Page) (off : Nat) : (s.bump p off).crb = s.crb := rfl
@[simp] theorem bump_img (s : State) (p : Page) (off : Nat) : (s.bump p off).img = s.img := rfl
@[simp] theorem bump_flash (s : State) (p : Page) (off : Nat) : (s.bump p off).flash = s.flash := rfl
@[simp] theorem bump_hps (s : State) (p : Page) (off : Nat) : (s.bump p off).hps = s.hps := rfl
@[simp] theorem bump_own (s : State) (p : Page) (off : Nat) : (s.bump p off).own = s.own := rfl
@[simp] theorem bump_spbs (s : State) (p : Page) (off : Nat) : (s.bump p off).spbs = s.spbs := rfl
@[simp] theorem bump_spc (s : State) (p : Page) (off : Nat) : (s.bump p off).spc = s.spc := rfl
@[simp] theorem bump_chk (s : State) (p : Page) (off : Nat) : (s.bump p off).chk = s.chk := rfl
@[simp] theorem bump_ctxs (s : State) (p : Page) (off : Nat) : (s.bump p off).ctxs = s.ctxs := rfl
@[simp] theorem bump_bst (s : State) (p : Page) (off : Nat) : (s.bump p off).bst = s.bst := rfl
@[simp] theorem bump_evl (s : State) (p : Page) (off : Nat) : (s.bump p off).evl = s.evl := rfl
@[simp] theorem bump_fbs (s : State) (p : Page) (off : Nat) : (s.bump p off).fbs = s.fbs := rfl
@[simp] theorem bump_fbsBuf (s : State) (p : Page) (off : Nat) : (s.bump p off).fbsBuf = s.fbsBuf := rfl
@[simp] theorem bump_jtag (s : State) (p : Page) (off : Nat) : (s.bump p off).jtag = s.jtag := rfl
@[simp] theorem bump_marks (s : State) (p : Page) (off : Nat) : (s.bump p off).marks = s.marks := rfl
@[simp] theorem bump_free (s : State) (p : Page) (off : Nat) : (s.bump p off).free = s.free := rfl
@[simp] theorem bump_cut (s : State) (p : Page) (off : Nat) : (s.bump p off).cut = s.cut := rfl
@[simp] theorem bump_pending (s : State) (p : Page) (off : Nat) : (s.bump p off).pending = s.pending := rfl

/-! setCounter. -/

@[simp] theorem setCounter_ident (s : State) (p : Page) (off : Nat) (w : Word) : (s.setCounter p off w).ident = s.ident := rfl
@[simp] theorem setCounter_otp (s : State) (p : Page) (off : Nat) (w : Word) : (s.setCounter p off w).otp = s.otp := rfl
@[simp] theorem setCounter_dev (s : State) (p : Page) (off : Nat) (w : Word) : (s.setCounter p off w).dev = s.dev := rfl
@[simp] theorem setCounter_clk (s : State) (p : Page) (off : Nat) (w : Word) : (s.setCounter p off w).clk = s.clk := rfl
@[simp] theorem setCounter_sup (s : State) (p : Page) (off : Nat) (w : Word) : (s.setCounter p off w).sup = s.sup := rfl
@[simp] theorem setCounter_frm (s : State) (p : Page) (off : Nat) (w : Word) : (s.setCounter p off w).frm = s.frm := rfl
@[simp] theorem setCounter_prog (s : State) (p : Page) (off : Nat) (w : Word) : (s.setCounter p off w).prog = s.prog := rfl
@[simp] theorem setCounter_shadows (s : State) (p : Page) (off : Nat) (w : Word) : (s.setCounter p off w).shadows = s.shadows := rfl
@[simp] theorem setCounter_cope (s : State) (p : Page) (off : Nat) (w : Word) : (s.setCounter p off w).cope = s.cope := rfl
@[simp] theorem setCounter_drag (s : State) (p : Page) (off : Nat) (w : Word) : (s.setCounter p off w).drag = s.drag := rfl
@[simp] theorem setCounter_cmp (s : State) (p : Page) (off : Nat) (w : Word) : (s.setCounter p off w).cmp = s.cmp := rfl
@[simp] theorem setCounter_trp (s : State) (p : Page) (off : Nat) (w : Word) : (s.setCounter p off w).trp = s.trp := rfl
@[simp] theorem setCounter_comps (s : State) (p : Page) (off : Nat) (w : Word) : (s.setCounter p off w).comps = s.comps := rfl
@[simp] theorem setCounter_ins (s : State) (p : Page) (off : Nat) (w : Word) : (s.setCounter p off w).ins = s.ins := rfl
@[simp] theorem setCounter_inBanks (s : State) (p : Page) (off : Nat) (w : Word) : (s.setCounter p off w).inBanks = s.inBanks := rfl
@[simp] theorem setCounter_outs (s : State) (p : Page) (off : Nat) (w : Word) : (s.setCounter p off w).outs = s.outs := rfl
@[simp] theorem setCounter_outBanks (s : State) (p : Page) (off : Nat) (w : Word) : (s.setCounter p off w).outBanks = s.outBanks := rfl
@[simp] theorem setCounter_bars (s : State) (p : Page) (off : Nat) (w : Word) : (s.setCounter p off w).bars = s.bars := rfl
@[simp] theorem setCounter_pwl (s : State) (p : Page) (off : Nat) (w : Word) : (s.setCounter p off w).pwl = s.pwl := rfl
@[simp] theorem setCounter_ps (s : State) (p : Page) (off : Nat) (w : Word) : (s.setCounter p off w).ps = s.ps := rfl
@[simp] theorem setCounter_crb (s : State) (p : Page) (off : Nat) (w : Word) : (s.setCounter p off w).crb = s.crb := rfl
@[simp] theorem setCounter_img (s : State) (p : Page) (off : Nat) (w : Word) : (s.setCounter p off w).img = s.img := rfl
@[simp] theorem setCounter_flash (s : State) (p : Page) (off : Nat) (w : Word) : (s.setCounter p off w).flash = s.flash := rfl
@[simp] theorem setCounter_hps (s : State) (p : Page) (off : Nat) (w : Word) : (s.setCounter p off w).hps = s.hps := rfl
@[simp] theorem setCounter_own (s : State) (p : Page) (off : Nat) (w : Word) : (s.setCounter p off w).own = s.own := rfl
@[simp] theorem setCounter_spbs (s : State) (p : Page) (off : Nat) (w : Word) : (s.setCounter p off w).spbs = s.spbs := rfl
@[simp] theorem setCounter_spc (s : State) (p : Page) (off : Nat) (w : Word) : (s.setCounter p off w).spc = s.spc := rfl
@[simp] theorem setCounter_chk (s : State) (p : Page) (off : Nat) (w : Word) : (s.setCounter p off w).chk = s.chk := rfl
@[simp] theorem setCounter_ctxs (s : State) (p : Page) (off : Nat) (w : Word) : (s.setCounter p off w).ctxs = s.ctxs := rfl
@[simp] theorem setCounter_bst (s : State) (p : Page) (off : Nat) (w : Word) : (s.setCounter p off w).bst = s.bst := rfl
@[simp] theorem setCounter_evl (s : State) (p : Page) (off : Nat) (w : Word) : (s.setCounter p off w).evl = s.evl := rfl
@[simp] theorem setCounter_fbs (s : State) (p : Page) (off : Nat) (w : Word) : (s.setCounter p off w).fbs = s.fbs := rfl
@[simp] theorem setCounter_fbsBuf (s : State) (p : Page) (off : Nat) (w : Word) : (s.setCounter p off w).fbsBuf = s.fbsBuf := rfl
@[simp] theorem setCounter_jtag (s : State) (p : Page) (off : Nat) (w : Word) : (s.setCounter p off w).jtag = s.jtag := rfl
@[simp] theorem setCounter_marks (s : State) (p : Page) (off : Nat) (w : Word) : (s.setCounter p off w).marks = s.marks := rfl
@[simp] theorem setCounter_free (s : State) (p : Page) (off : Nat) (w : Word) : (s.setCounter p off w).free = s.free := rfl
@[simp] theorem setCounter_cut (s : State) (p : Page) (off : Nat) (w : Word) : (s.setCounter p off w).cut = s.cut := rfl
@[simp] theorem setCounter_pending (s : State) (p : Page) (off : Nat) (w : Word) : (s.setCounter p off w).pending = s.pending := rfl

/-! maxCounter. -/

@[simp] theorem maxCounter_ident (s : State) (p : Page) (off : Nat) (w : Word) : (s.maxCounter p off w).ident = s.ident := rfl
@[simp] theorem maxCounter_otp (s : State) (p : Page) (off : Nat) (w : Word) : (s.maxCounter p off w).otp = s.otp := rfl
@[simp] theorem maxCounter_dev (s : State) (p : Page) (off : Nat) (w : Word) : (s.maxCounter p off w).dev = s.dev := rfl
@[simp] theorem maxCounter_clk (s : State) (p : Page) (off : Nat) (w : Word) : (s.maxCounter p off w).clk = s.clk := rfl
@[simp] theorem maxCounter_sup (s : State) (p : Page) (off : Nat) (w : Word) : (s.maxCounter p off w).sup = s.sup := rfl
@[simp] theorem maxCounter_frm (s : State) (p : Page) (off : Nat) (w : Word) : (s.maxCounter p off w).frm = s.frm := rfl
@[simp] theorem maxCounter_prog (s : State) (p : Page) (off : Nat) (w : Word) : (s.maxCounter p off w).prog = s.prog := rfl
@[simp] theorem maxCounter_shadows (s : State) (p : Page) (off : Nat) (w : Word) : (s.maxCounter p off w).shadows = s.shadows := rfl
@[simp] theorem maxCounter_cope (s : State) (p : Page) (off : Nat) (w : Word) : (s.maxCounter p off w).cope = s.cope := rfl
@[simp] theorem maxCounter_drag (s : State) (p : Page) (off : Nat) (w : Word) : (s.maxCounter p off w).drag = s.drag := rfl
@[simp] theorem maxCounter_cmp (s : State) (p : Page) (off : Nat) (w : Word) : (s.maxCounter p off w).cmp = s.cmp := rfl
@[simp] theorem maxCounter_trp (s : State) (p : Page) (off : Nat) (w : Word) : (s.maxCounter p off w).trp = s.trp := rfl
@[simp] theorem maxCounter_comps (s : State) (p : Page) (off : Nat) (w : Word) : (s.maxCounter p off w).comps = s.comps := rfl
@[simp] theorem maxCounter_ins (s : State) (p : Page) (off : Nat) (w : Word) : (s.maxCounter p off w).ins = s.ins := rfl
@[simp] theorem maxCounter_inBanks (s : State) (p : Page) (off : Nat) (w : Word) : (s.maxCounter p off w).inBanks = s.inBanks := rfl
@[simp] theorem maxCounter_outs (s : State) (p : Page) (off : Nat) (w : Word) : (s.maxCounter p off w).outs = s.outs := rfl
@[simp] theorem maxCounter_outBanks (s : State) (p : Page) (off : Nat) (w : Word) : (s.maxCounter p off w).outBanks = s.outBanks := rfl
@[simp] theorem maxCounter_bars (s : State) (p : Page) (off : Nat) (w : Word) : (s.maxCounter p off w).bars = s.bars := rfl
@[simp] theorem maxCounter_pwl (s : State) (p : Page) (off : Nat) (w : Word) : (s.maxCounter p off w).pwl = s.pwl := rfl
@[simp] theorem maxCounter_ps (s : State) (p : Page) (off : Nat) (w : Word) : (s.maxCounter p off w).ps = s.ps := rfl
@[simp] theorem maxCounter_crb (s : State) (p : Page) (off : Nat) (w : Word) : (s.maxCounter p off w).crb = s.crb := rfl
@[simp] theorem maxCounter_img (s : State) (p : Page) (off : Nat) (w : Word) : (s.maxCounter p off w).img = s.img := rfl
@[simp] theorem maxCounter_flash (s : State) (p : Page) (off : Nat) (w : Word) : (s.maxCounter p off w).flash = s.flash := rfl
@[simp] theorem maxCounter_hps (s : State) (p : Page) (off : Nat) (w : Word) : (s.maxCounter p off w).hps = s.hps := rfl
@[simp] theorem maxCounter_own (s : State) (p : Page) (off : Nat) (w : Word) : (s.maxCounter p off w).own = s.own := rfl
@[simp] theorem maxCounter_spbs (s : State) (p : Page) (off : Nat) (w : Word) : (s.maxCounter p off w).spbs = s.spbs := rfl
@[simp] theorem maxCounter_spc (s : State) (p : Page) (off : Nat) (w : Word) : (s.maxCounter p off w).spc = s.spc := rfl
@[simp] theorem maxCounter_chk (s : State) (p : Page) (off : Nat) (w : Word) : (s.maxCounter p off w).chk = s.chk := rfl
@[simp] theorem maxCounter_ctxs (s : State) (p : Page) (off : Nat) (w : Word) : (s.maxCounter p off w).ctxs = s.ctxs := rfl
@[simp] theorem maxCounter_bst (s : State) (p : Page) (off : Nat) (w : Word) : (s.maxCounter p off w).bst = s.bst := rfl
@[simp] theorem maxCounter_evl (s : State) (p : Page) (off : Nat) (w : Word) : (s.maxCounter p off w).evl = s.evl := rfl
@[simp] theorem maxCounter_fbs (s : State) (p : Page) (off : Nat) (w : Word) : (s.maxCounter p off w).fbs = s.fbs := rfl
@[simp] theorem maxCounter_fbsBuf (s : State) (p : Page) (off : Nat) (w : Word) : (s.maxCounter p off w).fbsBuf = s.fbsBuf := rfl
@[simp] theorem maxCounter_jtag (s : State) (p : Page) (off : Nat) (w : Word) : (s.maxCounter p off w).jtag = s.jtag := rfl
@[simp] theorem maxCounter_marks (s : State) (p : Page) (off : Nat) (w : Word) : (s.maxCounter p off w).marks = s.marks := rfl
@[simp] theorem maxCounter_free (s : State) (p : Page) (off : Nat) (w : Word) : (s.maxCounter p off w).free = s.free := rfl
@[simp] theorem maxCounter_cut (s : State) (p : Page) (off : Nat) (w : Word) : (s.maxCounter p off w).cut = s.cut := rfl
@[simp] theorem maxCounter_pending (s : State) (p : Page) (off : Nat) (w : Word) : (s.maxCounter p off w).pending = s.pending := rfl

/-! addCounter. -/

@[simp] theorem addCounter_ident (s : State) (p : Page) (off n : Nat) : (s.addCounter p off n).ident = s.ident := rfl
@[simp] theorem addCounter_otp (s : State) (p : Page) (off n : Nat) : (s.addCounter p off n).otp = s.otp := rfl
@[simp] theorem addCounter_dev (s : State) (p : Page) (off n : Nat) : (s.addCounter p off n).dev = s.dev := rfl
@[simp] theorem addCounter_clk (s : State) (p : Page) (off n : Nat) : (s.addCounter p off n).clk = s.clk := rfl
@[simp] theorem addCounter_sup (s : State) (p : Page) (off n : Nat) : (s.addCounter p off n).sup = s.sup := rfl
@[simp] theorem addCounter_frm (s : State) (p : Page) (off n : Nat) : (s.addCounter p off n).frm = s.frm := rfl
@[simp] theorem addCounter_prog (s : State) (p : Page) (off n : Nat) : (s.addCounter p off n).prog = s.prog := rfl
@[simp] theorem addCounter_shadows (s : State) (p : Page) (off n : Nat) : (s.addCounter p off n).shadows = s.shadows := rfl
@[simp] theorem addCounter_cope (s : State) (p : Page) (off n : Nat) : (s.addCounter p off n).cope = s.cope := rfl
@[simp] theorem addCounter_drag (s : State) (p : Page) (off n : Nat) : (s.addCounter p off n).drag = s.drag := rfl
@[simp] theorem addCounter_cmp (s : State) (p : Page) (off n : Nat) : (s.addCounter p off n).cmp = s.cmp := rfl
@[simp] theorem addCounter_trp (s : State) (p : Page) (off n : Nat) : (s.addCounter p off n).trp = s.trp := rfl
@[simp] theorem addCounter_comps (s : State) (p : Page) (off n : Nat) : (s.addCounter p off n).comps = s.comps := rfl
@[simp] theorem addCounter_ins (s : State) (p : Page) (off n : Nat) : (s.addCounter p off n).ins = s.ins := rfl
@[simp] theorem addCounter_inBanks (s : State) (p : Page) (off n : Nat) : (s.addCounter p off n).inBanks = s.inBanks := rfl
@[simp] theorem addCounter_outs (s : State) (p : Page) (off n : Nat) : (s.addCounter p off n).outs = s.outs := rfl
@[simp] theorem addCounter_outBanks (s : State) (p : Page) (off n : Nat) : (s.addCounter p off n).outBanks = s.outBanks := rfl
@[simp] theorem addCounter_bars (s : State) (p : Page) (off n : Nat) : (s.addCounter p off n).bars = s.bars := rfl
@[simp] theorem addCounter_pwl (s : State) (p : Page) (off n : Nat) : (s.addCounter p off n).pwl = s.pwl := rfl
@[simp] theorem addCounter_ps (s : State) (p : Page) (off n : Nat) : (s.addCounter p off n).ps = s.ps := rfl
@[simp] theorem addCounter_crb (s : State) (p : Page) (off n : Nat) : (s.addCounter p off n).crb = s.crb := rfl
@[simp] theorem addCounter_img (s : State) (p : Page) (off n : Nat) : (s.addCounter p off n).img = s.img := rfl
@[simp] theorem addCounter_flash (s : State) (p : Page) (off n : Nat) : (s.addCounter p off n).flash = s.flash := rfl
@[simp] theorem addCounter_hps (s : State) (p : Page) (off n : Nat) : (s.addCounter p off n).hps = s.hps := rfl
@[simp] theorem addCounter_own (s : State) (p : Page) (off n : Nat) : (s.addCounter p off n).own = s.own := rfl
@[simp] theorem addCounter_spbs (s : State) (p : Page) (off n : Nat) : (s.addCounter p off n).spbs = s.spbs := rfl
@[simp] theorem addCounter_spc (s : State) (p : Page) (off n : Nat) : (s.addCounter p off n).spc = s.spc := rfl
@[simp] theorem addCounter_chk (s : State) (p : Page) (off n : Nat) : (s.addCounter p off n).chk = s.chk := rfl
@[simp] theorem addCounter_ctxs (s : State) (p : Page) (off n : Nat) : (s.addCounter p off n).ctxs = s.ctxs := rfl
@[simp] theorem addCounter_bst (s : State) (p : Page) (off n : Nat) : (s.addCounter p off n).bst = s.bst := rfl
@[simp] theorem addCounter_evl (s : State) (p : Page) (off n : Nat) : (s.addCounter p off n).evl = s.evl := rfl
@[simp] theorem addCounter_fbs (s : State) (p : Page) (off n : Nat) : (s.addCounter p off n).fbs = s.fbs := rfl
@[simp] theorem addCounter_fbsBuf (s : State) (p : Page) (off n : Nat) : (s.addCounter p off n).fbsBuf = s.fbsBuf := rfl
@[simp] theorem addCounter_jtag (s : State) (p : Page) (off n : Nat) : (s.addCounter p off n).jtag = s.jtag := rfl
@[simp] theorem addCounter_marks (s : State) (p : Page) (off n : Nat) : (s.addCounter p off n).marks = s.marks := rfl
@[simp] theorem addCounter_free (s : State) (p : Page) (off n : Nat) : (s.addCounter p off n).free = s.free := rfl
@[simp] theorem addCounter_cut (s : State) (p : Page) (off n : Nat) : (s.addCounter p off n).cut = s.cut := rfl
@[simp] theorem addCounter_pending (s : State) (p : Page) (off n : Nat) : (s.addCounter p off n).pending = s.pending := rfl

/-! setLive. -/

@[simp] theorem setLive_ident (s : State) (p : Page) (c : Nat) (b : Bool) : (s.setLive p c b).ident = s.ident := rfl
@[simp] theorem setLive_otp (s : State) (p : Page) (c : Nat) (b : Bool) : (s.setLive p c b).otp = s.otp := rfl
@[simp] theorem setLive_dev (s : State) (p : Page) (c : Nat) (b : Bool) : (s.setLive p c b).dev = s.dev := rfl
@[simp] theorem setLive_clk (s : State) (p : Page) (c : Nat) (b : Bool) : (s.setLive p c b).clk = s.clk := rfl
@[simp] theorem setLive_sup (s : State) (p : Page) (c : Nat) (b : Bool) : (s.setLive p c b).sup = s.sup := rfl
@[simp] theorem setLive_frm (s : State) (p : Page) (c : Nat) (b : Bool) : (s.setLive p c b).frm = s.frm := rfl
@[simp] theorem setLive_prog (s : State) (p : Page) (c : Nat) (b : Bool) : (s.setLive p c b).prog = s.prog := rfl
@[simp] theorem setLive_shadows (s : State) (p : Page) (c : Nat) (b : Bool) : (s.setLive p c b).shadows = s.shadows := rfl
@[simp] theorem setLive_cope (s : State) (p : Page) (c : Nat) (b : Bool) : (s.setLive p c b).cope = s.cope := rfl
@[simp] theorem setLive_drag (s : State) (p : Page) (c : Nat) (b : Bool) : (s.setLive p c b).drag = s.drag := rfl
@[simp] theorem setLive_cmp (s : State) (p : Page) (c : Nat) (b : Bool) : (s.setLive p c b).cmp = s.cmp := rfl
@[simp] theorem setLive_trp (s : State) (p : Page) (c : Nat) (b : Bool) : (s.setLive p c b).trp = s.trp := rfl
@[simp] theorem setLive_comps (s : State) (p : Page) (c : Nat) (b : Bool) : (s.setLive p c b).comps = s.comps := rfl
@[simp] theorem setLive_ins (s : State) (p : Page) (c : Nat) (b : Bool) : (s.setLive p c b).ins = s.ins := rfl
@[simp] theorem setLive_inBanks (s : State) (p : Page) (c : Nat) (b : Bool) : (s.setLive p c b).inBanks = s.inBanks := rfl
@[simp] theorem setLive_outs (s : State) (p : Page) (c : Nat) (b : Bool) : (s.setLive p c b).outs = s.outs := rfl
@[simp] theorem setLive_outBanks (s : State) (p : Page) (c : Nat) (b : Bool) : (s.setLive p c b).outBanks = s.outBanks := rfl
@[simp] theorem setLive_bars (s : State) (p : Page) (c : Nat) (b : Bool) : (s.setLive p c b).bars = s.bars := rfl
@[simp] theorem setLive_pwl (s : State) (p : Page) (c : Nat) (b : Bool) : (s.setLive p c b).pwl = s.pwl := rfl
@[simp] theorem setLive_ps (s : State) (p : Page) (c : Nat) (b : Bool) : (s.setLive p c b).ps = s.ps := rfl
@[simp] theorem setLive_crb (s : State) (p : Page) (c : Nat) (b : Bool) : (s.setLive p c b).crb = s.crb := rfl
@[simp] theorem setLive_img (s : State) (p : Page) (c : Nat) (b : Bool) : (s.setLive p c b).img = s.img := rfl
@[simp] theorem setLive_flash (s : State) (p : Page) (c : Nat) (b : Bool) : (s.setLive p c b).flash = s.flash := rfl
@[simp] theorem setLive_hps (s : State) (p : Page) (c : Nat) (b : Bool) : (s.setLive p c b).hps = s.hps := rfl
@[simp] theorem setLive_own (s : State) (p : Page) (c : Nat) (b : Bool) : (s.setLive p c b).own = s.own := rfl
@[simp] theorem setLive_spbs (s : State) (p : Page) (c : Nat) (b : Bool) : (s.setLive p c b).spbs = s.spbs := rfl
@[simp] theorem setLive_spc (s : State) (p : Page) (c : Nat) (b : Bool) : (s.setLive p c b).spc = s.spc := rfl
@[simp] theorem setLive_chk (s : State) (p : Page) (c : Nat) (b : Bool) : (s.setLive p c b).chk = s.chk := rfl
@[simp] theorem setLive_ctxs (s : State) (p : Page) (c : Nat) (b : Bool) : (s.setLive p c b).ctxs = s.ctxs := rfl
@[simp] theorem setLive_bst (s : State) (p : Page) (c : Nat) (b : Bool) : (s.setLive p c b).bst = s.bst := rfl
@[simp] theorem setLive_evl (s : State) (p : Page) (c : Nat) (b : Bool) : (s.setLive p c b).evl = s.evl := rfl
@[simp] theorem setLive_fbs (s : State) (p : Page) (c : Nat) (b : Bool) : (s.setLive p c b).fbs = s.fbs := rfl
@[simp] theorem setLive_fbsBuf (s : State) (p : Page) (c : Nat) (b : Bool) : (s.setLive p c b).fbsBuf = s.fbsBuf := rfl
@[simp] theorem setLive_jtag (s : State) (p : Page) (c : Nat) (b : Bool) : (s.setLive p c b).jtag = s.jtag := rfl
@[simp] theorem setLive_marks (s : State) (p : Page) (c : Nat) (b : Bool) : (s.setLive p c b).marks = s.marks := rfl
@[simp] theorem setLive_free (s : State) (p : Page) (c : Nat) (b : Bool) : (s.setLive p c b).free = s.free := rfl
@[simp] theorem setLive_cut (s : State) (p : Page) (c : Nat) (b : Bool) : (s.setLive p c b).cut = s.cut := rfl
@[simp] theorem setLive_pending (s : State) (p : Page) (c : Nat) (b : Bool) : (s.setLive p c b).pending = s.pending := rfl

/-! mark. -/

@[simp] theorem mark_ident (s : State) (p : Page) (off c : Nat) : (s.mark p off c).ident = s.ident := rfl
@[simp] theorem mark_otp (s : State) (p : Page) (off c : Nat) : (s.mark p off c).otp = s.otp := rfl
@[simp] theorem mark_dev (s : State) (p : Page) (off c : Nat) : (s.mark p off c).dev = s.dev := rfl
@[simp] theorem mark_clk (s : State) (p : Page) (off c : Nat) : (s.mark p off c).clk = s.clk := rfl
@[simp] theorem mark_sup (s : State) (p : Page) (off c : Nat) : (s.mark p off c).sup = s.sup := rfl
@[simp] theorem mark_frm (s : State) (p : Page) (off c : Nat) : (s.mark p off c).frm = s.frm := rfl
@[simp] theorem mark_prog (s : State) (p : Page) (off c : Nat) : (s.mark p off c).prog = s.prog := rfl
@[simp] theorem mark_hdrs (s : State) (p : Page) (off c : Nat) : (s.mark p off c).hdrs = s.hdrs := rfl
@[simp] theorem mark_shadows (s : State) (p : Page) (off c : Nat) : (s.mark p off c).shadows = s.shadows := rfl
@[simp] theorem mark_cope (s : State) (p : Page) (off c : Nat) : (s.mark p off c).cope = s.cope := rfl
@[simp] theorem mark_drag (s : State) (p : Page) (off c : Nat) : (s.mark p off c).drag = s.drag := rfl
@[simp] theorem mark_cmp (s : State) (p : Page) (off c : Nat) : (s.mark p off c).cmp = s.cmp := rfl
@[simp] theorem mark_trp (s : State) (p : Page) (off c : Nat) : (s.mark p off c).trp = s.trp := rfl
@[simp] theorem mark_comps (s : State) (p : Page) (off c : Nat) : (s.mark p off c).comps = s.comps := rfl
@[simp] theorem mark_ins (s : State) (p : Page) (off c : Nat) : (s.mark p off c).ins = s.ins := rfl
@[simp] theorem mark_inBanks (s : State) (p : Page) (off c : Nat) : (s.mark p off c).inBanks = s.inBanks := rfl
@[simp] theorem mark_outs (s : State) (p : Page) (off c : Nat) : (s.mark p off c).outs = s.outs := rfl
@[simp] theorem mark_outBanks (s : State) (p : Page) (off c : Nat) : (s.mark p off c).outBanks = s.outBanks := rfl
@[simp] theorem mark_bars (s : State) (p : Page) (off c : Nat) : (s.mark p off c).bars = s.bars := rfl
@[simp] theorem mark_pwl (s : State) (p : Page) (off c : Nat) : (s.mark p off c).pwl = s.pwl := rfl
@[simp] theorem mark_ps (s : State) (p : Page) (off c : Nat) : (s.mark p off c).ps = s.ps := rfl
@[simp] theorem mark_crb (s : State) (p : Page) (off c : Nat) : (s.mark p off c).crb = s.crb := rfl
@[simp] theorem mark_img (s : State) (p : Page) (off c : Nat) : (s.mark p off c).img = s.img := rfl
@[simp] theorem mark_flash (s : State) (p : Page) (off c : Nat) : (s.mark p off c).flash = s.flash := rfl
@[simp] theorem mark_hps (s : State) (p : Page) (off c : Nat) : (s.mark p off c).hps = s.hps := rfl
@[simp] theorem mark_own (s : State) (p : Page) (off c : Nat) : (s.mark p off c).own = s.own := rfl
@[simp] theorem mark_spbs (s : State) (p : Page) (off c : Nat) : (s.mark p off c).spbs = s.spbs := rfl
@[simp] theorem mark_spc (s : State) (p : Page) (off c : Nat) : (s.mark p off c).spc = s.spc := rfl
@[simp] theorem mark_chk (s : State) (p : Page) (off c : Nat) : (s.mark p off c).chk = s.chk := rfl
@[simp] theorem mark_ctxs (s : State) (p : Page) (off c : Nat) : (s.mark p off c).ctxs = s.ctxs := rfl
@[simp] theorem mark_bst (s : State) (p : Page) (off c : Nat) : (s.mark p off c).bst = s.bst := rfl
@[simp] theorem mark_evl (s : State) (p : Page) (off c : Nat) : (s.mark p off c).evl = s.evl := rfl
@[simp] theorem mark_fbs (s : State) (p : Page) (off c : Nat) : (s.mark p off c).fbs = s.fbs := rfl
@[simp] theorem mark_fbsBuf (s : State) (p : Page) (off c : Nat) : (s.mark p off c).fbsBuf = s.fbsBuf := rfl
@[simp] theorem mark_jtag (s : State) (p : Page) (off c : Nat) : (s.mark p off c).jtag = s.jtag := rfl
@[simp] theorem mark_free (s : State) (p : Page) (off c : Nat) : (s.mark p off c).free = s.free := rfl
@[simp] theorem mark_cut (s : State) (p : Page) (off c : Nat) : (s.mark p off c).cut = s.cut := rfl
@[simp] theorem mark_pending (s : State) (p : Page) (off c : Nat) : (s.mark p off c).pending = s.pending := rfl

/-! openShadow. -/

@[simp] theorem openShadow_ident (s : State) (l : List (Page × Word × Option (List Nat))) (p : Page) (n : Nat) : (s.openShadow l p n).ident = s.ident := rfl
@[simp] theorem openShadow_otp (s : State) (l : List (Page × Word × Option (List Nat))) (p : Page) (n : Nat) : (s.openShadow l p n).otp = s.otp := rfl
@[simp] theorem openShadow_dev (s : State) (l : List (Page × Word × Option (List Nat))) (p : Page) (n : Nat) : (s.openShadow l p n).dev = s.dev := rfl
@[simp] theorem openShadow_clk (s : State) (l : List (Page × Word × Option (List Nat))) (p : Page) (n : Nat) : (s.openShadow l p n).clk = s.clk := rfl
@[simp] theorem openShadow_sup (s : State) (l : List (Page × Word × Option (List Nat))) (p : Page) (n : Nat) : (s.openShadow l p n).sup = s.sup := rfl
@[simp] theorem openShadow_frm (s : State) (l : List (Page × Word × Option (List Nat))) (p : Page) (n : Nat) : (s.openShadow l p n).frm = s.frm := rfl
@[simp] theorem openShadow_prog (s : State) (l : List (Page × Word × Option (List Nat))) (p : Page) (n : Nat) : (s.openShadow l p n).prog = s.prog := rfl
@[simp] theorem openShadow_hdrs (s : State) (l : List (Page × Word × Option (List Nat))) (p : Page) (n : Nat) : (s.openShadow l p n).hdrs = s.hdrs := rfl
@[simp] theorem openShadow_cope (s : State) (l : List (Page × Word × Option (List Nat))) (p : Page) (n : Nat) : (s.openShadow l p n).cope = s.cope := rfl
@[simp] theorem openShadow_drag (s : State) (l : List (Page × Word × Option (List Nat))) (p : Page) (n : Nat) : (s.openShadow l p n).drag = s.drag := rfl
@[simp] theorem openShadow_cmp (s : State) (l : List (Page × Word × Option (List Nat))) (p : Page) (n : Nat) : (s.openShadow l p n).cmp = s.cmp := rfl
@[simp] theorem openShadow_trp (s : State) (l : List (Page × Word × Option (List Nat))) (p : Page) (n : Nat) : (s.openShadow l p n).trp = s.trp := rfl
@[simp] theorem openShadow_comps (s : State) (l : List (Page × Word × Option (List Nat))) (p : Page) (n : Nat) : (s.openShadow l p n).comps = s.comps := rfl
@[simp] theorem openShadow_ins (s : State) (l : List (Page × Word × Option (List Nat))) (p : Page) (n : Nat) : (s.openShadow l p n).ins = s.ins := rfl
@[simp] theorem openShadow_inBanks (s : State) (l : List (Page × Word × Option (List Nat))) (p : Page) (n : Nat) : (s.openShadow l p n).inBanks = s.inBanks := rfl
@[simp] theorem openShadow_outs (s : State) (l : List (Page × Word × Option (List Nat))) (p : Page) (n : Nat) : (s.openShadow l p n).outs = s.outs := rfl
@[simp] theorem openShadow_outBanks (s : State) (l : List (Page × Word × Option (List Nat))) (p : Page) (n : Nat) : (s.openShadow l p n).outBanks = s.outBanks := rfl
@[simp] theorem openShadow_bars (s : State) (l : List (Page × Word × Option (List Nat))) (p : Page) (n : Nat) : (s.openShadow l p n).bars = s.bars := rfl
@[simp] theorem openShadow_pwl (s : State) (l : List (Page × Word × Option (List Nat))) (p : Page) (n : Nat) : (s.openShadow l p n).pwl = s.pwl := rfl
@[simp] theorem openShadow_ps (s : State) (l : List (Page × Word × Option (List Nat))) (p : Page) (n : Nat) : (s.openShadow l p n).ps = s.ps := rfl
@[simp] theorem openShadow_crb (s : State) (l : List (Page × Word × Option (List Nat))) (p : Page) (n : Nat) : (s.openShadow l p n).crb = s.crb := rfl
@[simp] theorem openShadow_img (s : State) (l : List (Page × Word × Option (List Nat))) (p : Page) (n : Nat) : (s.openShadow l p n).img = s.img := rfl
@[simp] theorem openShadow_flash (s : State) (l : List (Page × Word × Option (List Nat))) (p : Page) (n : Nat) : (s.openShadow l p n).flash = s.flash := rfl
@[simp] theorem openShadow_hps (s : State) (l : List (Page × Word × Option (List Nat))) (p : Page) (n : Nat) : (s.openShadow l p n).hps = s.hps := rfl
@[simp] theorem openShadow_own (s : State) (l : List (Page × Word × Option (List Nat))) (p : Page) (n : Nat) : (s.openShadow l p n).own = s.own := rfl
@[simp] theorem openShadow_spbs (s : State) (l : List (Page × Word × Option (List Nat))) (p : Page) (n : Nat) : (s.openShadow l p n).spbs = s.spbs := rfl
@[simp] theorem openShadow_spc (s : State) (l : List (Page × Word × Option (List Nat))) (p : Page) (n : Nat) : (s.openShadow l p n).spc = s.spc := rfl
@[simp] theorem openShadow_chk (s : State) (l : List (Page × Word × Option (List Nat))) (p : Page) (n : Nat) : (s.openShadow l p n).chk = s.chk := rfl
@[simp] theorem openShadow_ctxs (s : State) (l : List (Page × Word × Option (List Nat))) (p : Page) (n : Nat) : (s.openShadow l p n).ctxs = s.ctxs := rfl
@[simp] theorem openShadow_bst (s : State) (l : List (Page × Word × Option (List Nat))) (p : Page) (n : Nat) : (s.openShadow l p n).bst = s.bst := rfl
@[simp] theorem openShadow_evl (s : State) (l : List (Page × Word × Option (List Nat))) (p : Page) (n : Nat) : (s.openShadow l p n).evl = s.evl := rfl
@[simp] theorem openShadow_fbs (s : State) (l : List (Page × Word × Option (List Nat))) (p : Page) (n : Nat) : (s.openShadow l p n).fbs = s.fbs := rfl
@[simp] theorem openShadow_fbsBuf (s : State) (l : List (Page × Word × Option (List Nat))) (p : Page) (n : Nat) : (s.openShadow l p n).fbsBuf = s.fbsBuf := rfl
@[simp] theorem openShadow_jtag (s : State) (l : List (Page × Word × Option (List Nat))) (p : Page) (n : Nat) : (s.openShadow l p n).jtag = s.jtag := rfl
@[simp] theorem openShadow_marks (s : State) (l : List (Page × Word × Option (List Nat))) (p : Page) (n : Nat) : (s.openShadow l p n).marks = s.marks := rfl
@[simp] theorem openShadow_free (s : State) (l : List (Page × Word × Option (List Nat))) (p : Page) (n : Nat) : (s.openShadow l p n).free = s.free := rfl
@[simp] theorem openShadow_cut (s : State) (l : List (Page × Word × Option (List Nat))) (p : Page) (n : Nat) : (s.openShadow l p n).cut = s.cut := rfl
@[simp] theorem openShadow_pending (s : State) (l : List (Page × Word × Option (List Nat))) (p : Page) (n : Nat) : (s.openShadow l p n).pending = s.pending := rfl

/-! logPush. -/

@[simp] theorem logPush_ident (s : State) (it : LogItem) : (s.logPush it).ident = s.ident := by unfold State.logPush; split <;> rfl
@[simp] theorem logPush_otp (s : State) (it : LogItem) : (s.logPush it).otp = s.otp := by unfold State.logPush; split <;> rfl
@[simp] theorem logPush_dev (s : State) (it : LogItem) : (s.logPush it).dev = s.dev := by unfold State.logPush; split <;> rfl
@[simp] theorem logPush_clk (s : State) (it : LogItem) : (s.logPush it).clk = s.clk := by unfold State.logPush; split <;> rfl
@[simp] theorem logPush_sup (s : State) (it : LogItem) : (s.logPush it).sup = s.sup := by unfold State.logPush; split <;> rfl
@[simp] theorem logPush_frm (s : State) (it : LogItem) : (s.logPush it).frm = s.frm := by unfold State.logPush; split <;> rfl
@[simp] theorem logPush_prog (s : State) (it : LogItem) : (s.logPush it).prog = s.prog := by unfold State.logPush; split <;> rfl
@[simp] theorem logPush_hdrs (s : State) (it : LogItem) : (s.logPush it).hdrs = s.hdrs := by unfold State.logPush; split <;> rfl
@[simp] theorem logPush_shadows (s : State) (it : LogItem) : (s.logPush it).shadows = s.shadows := by unfold State.logPush; split <;> rfl
@[simp] theorem logPush_cope (s : State) (it : LogItem) : (s.logPush it).cope = s.cope := by unfold State.logPush; split <;> rfl
@[simp] theorem logPush_drag (s : State) (it : LogItem) : (s.logPush it).drag = s.drag := by unfold State.logPush; split <;> rfl
@[simp] theorem logPush_cmp (s : State) (it : LogItem) : (s.logPush it).cmp = s.cmp := by unfold State.logPush; split <;> rfl
@[simp] theorem logPush_trp (s : State) (it : LogItem) : (s.logPush it).trp = s.trp := by unfold State.logPush; split <;> rfl
@[simp] theorem logPush_comps (s : State) (it : LogItem) : (s.logPush it).comps = s.comps := by unfold State.logPush; split <;> rfl
@[simp] theorem logPush_ins (s : State) (it : LogItem) : (s.logPush it).ins = s.ins := by unfold State.logPush; split <;> rfl
@[simp] theorem logPush_inBanks (s : State) (it : LogItem) : (s.logPush it).inBanks = s.inBanks := by unfold State.logPush; split <;> rfl
@[simp] theorem logPush_outs (s : State) (it : LogItem) : (s.logPush it).outs = s.outs := by unfold State.logPush; split <;> rfl
@[simp] theorem logPush_outBanks (s : State) (it : LogItem) : (s.logPush it).outBanks = s.outBanks := by unfold State.logPush; split <;> rfl
@[simp] theorem logPush_bars (s : State) (it : LogItem) : (s.logPush it).bars = s.bars := by unfold State.logPush; split <;> rfl
@[simp] theorem logPush_pwl (s : State) (it : LogItem) : (s.logPush it).pwl = s.pwl := by unfold State.logPush; split <;> rfl
@[simp] theorem logPush_ps (s : State) (it : LogItem) : (s.logPush it).ps = s.ps := by unfold State.logPush; split <;> rfl
@[simp] theorem logPush_crb (s : State) (it : LogItem) : (s.logPush it).crb = s.crb := by unfold State.logPush; split <;> rfl
@[simp] theorem logPush_img (s : State) (it : LogItem) : (s.logPush it).img = s.img := by unfold State.logPush; split <;> rfl
@[simp] theorem logPush_flash (s : State) (it : LogItem) : (s.logPush it).flash = s.flash := by unfold State.logPush; split <;> rfl
@[simp] theorem logPush_hps (s : State) (it : LogItem) : (s.logPush it).hps = s.hps := by unfold State.logPush; split <;> rfl
@[simp] theorem logPush_own (s : State) (it : LogItem) : (s.logPush it).own = s.own := by unfold State.logPush; split <;> rfl
@[simp] theorem logPush_spbs (s : State) (it : LogItem) : (s.logPush it).spbs = s.spbs := by unfold State.logPush; split <;> rfl
@[simp] theorem logPush_spc (s : State) (it : LogItem) : (s.logPush it).spc = s.spc := by unfold State.logPush; split <;> rfl
@[simp] theorem logPush_chk (s : State) (it : LogItem) : (s.logPush it).chk = s.chk := by unfold State.logPush; split <;> rfl
@[simp] theorem logPush_ctxs (s : State) (it : LogItem) : (s.logPush it).ctxs = s.ctxs := by unfold State.logPush; split <;> rfl
@[simp] theorem logPush_bst (s : State) (it : LogItem) : (s.logPush it).bst = s.bst := by unfold State.logPush; split <;> rfl
@[simp] theorem logPush_fbs (s : State) (it : LogItem) : (s.logPush it).fbs = s.fbs := by unfold State.logPush; split <;> rfl
@[simp] theorem logPush_fbsBuf (s : State) (it : LogItem) : (s.logPush it).fbsBuf = s.fbsBuf := by unfold State.logPush; split <;> rfl
@[simp] theorem logPush_jtag (s : State) (it : LogItem) : (s.logPush it).jtag = s.jtag := by unfold State.logPush; split <;> rfl
@[simp] theorem logPush_marks (s : State) (it : LogItem) : (s.logPush it).marks = s.marks := by unfold State.logPush; split <;> rfl
@[simp] theorem logPush_free (s : State) (it : LogItem) : (s.logPush it).free = s.free := by unfold State.logPush; split <;> rfl
@[simp] theorem logPush_cut (s : State) (it : LogItem) : (s.logPush it).cut = s.cut := by unfold State.logPush; split <;> rfl
@[simp] theorem logPush_pending (s : State) (it : LogItem) : (s.logPush it).pending = s.pending := by unfold State.logPush; split <;> rfl

/-! log. -/

@[simp] theorem log_ident (s : State) (k c : Nat) (p a : BitVec 12) (g : Byte) (key : Option LogKey) : (s.log k c p a g key).ident = s.ident := logPush_ident _ _
@[simp] theorem log_otp (s : State) (k c : Nat) (p a : BitVec 12) (g : Byte) (key : Option LogKey) : (s.log k c p a g key).otp = s.otp := logPush_otp _ _
@[simp] theorem log_dev (s : State) (k c : Nat) (p a : BitVec 12) (g : Byte) (key : Option LogKey) : (s.log k c p a g key).dev = s.dev := logPush_dev _ _
@[simp] theorem log_clk (s : State) (k c : Nat) (p a : BitVec 12) (g : Byte) (key : Option LogKey) : (s.log k c p a g key).clk = s.clk := logPush_clk _ _
@[simp] theorem log_sup (s : State) (k c : Nat) (p a : BitVec 12) (g : Byte) (key : Option LogKey) : (s.log k c p a g key).sup = s.sup := logPush_sup _ _
@[simp] theorem log_frm (s : State) (k c : Nat) (p a : BitVec 12) (g : Byte) (key : Option LogKey) : (s.log k c p a g key).frm = s.frm := logPush_frm _ _
@[simp] theorem log_prog (s : State) (k c : Nat) (p a : BitVec 12) (g : Byte) (key : Option LogKey) : (s.log k c p a g key).prog = s.prog := logPush_prog _ _
@[simp] theorem log_hdrs (s : State) (k c : Nat) (p a : BitVec 12) (g : Byte) (key : Option LogKey) : (s.log k c p a g key).hdrs = s.hdrs := logPush_hdrs _ _
@[simp] theorem log_shadows (s : State) (k c : Nat) (p a : BitVec 12) (g : Byte) (key : Option LogKey) : (s.log k c p a g key).shadows = s.shadows := logPush_shadows _ _
@[simp] theorem log_cope (s : State) (k c : Nat) (p a : BitVec 12) (g : Byte) (key : Option LogKey) : (s.log k c p a g key).cope = s.cope := logPush_cope _ _
@[simp] theorem log_drag (s : State) (k c : Nat) (p a : BitVec 12) (g : Byte) (key : Option LogKey) : (s.log k c p a g key).drag = s.drag := logPush_drag _ _
@[simp] theorem log_cmp (s : State) (k c : Nat) (p a : BitVec 12) (g : Byte) (key : Option LogKey) : (s.log k c p a g key).cmp = s.cmp := logPush_cmp _ _
@[simp] theorem log_trp (s : State) (k c : Nat) (p a : BitVec 12) (g : Byte) (key : Option LogKey) : (s.log k c p a g key).trp = s.trp := logPush_trp _ _
@[simp] theorem log_comps (s : State) (k c : Nat) (p a : BitVec 12) (g : Byte) (key : Option LogKey) : (s.log k c p a g key).comps = s.comps := logPush_comps _ _
@[simp] theorem log_ins (s : State) (k c : Nat) (p a : BitVec 12) (g : Byte) (key : Option LogKey) : (s.log k c p a g key).ins = s.ins := logPush_ins _ _
@[simp] theorem log_inBanks (s : State) (k c : Nat) (p a : BitVec 12) (g : Byte) (key : Option LogKey) : (s.log k c p a g key).inBanks = s.inBanks := logPush_inBanks _ _
@[simp] theorem log_outs (s : State) (k c : Nat) (p a : BitVec 12) (g : Byte) (key : Option LogKey) : (s.log k c p a g key).outs = s.outs := logPush_outs _ _
@[simp] theorem log_outBanks (s : State) (k c : Nat) (p a : BitVec 12) (g : Byte) (key : Option LogKey) : (s.log k c p a g key).outBanks = s.outBanks := logPush_outBanks _ _
@[simp] theorem log_bars (s : State) (k c : Nat) (p a : BitVec 12) (g : Byte) (key : Option LogKey) : (s.log k c p a g key).bars = s.bars := logPush_bars _ _
@[simp] theorem log_pwl (s : State) (k c : Nat) (p a : BitVec 12) (g : Byte) (key : Option LogKey) : (s.log k c p a g key).pwl = s.pwl := logPush_pwl _ _
@[simp] theorem log_ps (s : State) (k c : Nat) (p a : BitVec 12) (g : Byte) (key : Option LogKey) : (s.log k c p a g key).ps = s.ps := logPush_ps _ _
@[simp] theorem log_crb (s : State) (k c : Nat) (p a : BitVec 12) (g : Byte) (key : Option LogKey) : (s.log k c p a g key).crb = s.crb := logPush_crb _ _
@[simp] theorem log_img (s : State) (k c : Nat) (p a : BitVec 12) (g : Byte) (key : Option LogKey) : (s.log k c p a g key).img = s.img := logPush_img _ _
@[simp] theorem log_flash (s : State) (k c : Nat) (p a : BitVec 12) (g : Byte) (key : Option LogKey) : (s.log k c p a g key).flash = s.flash := logPush_flash _ _
@[simp] theorem log_hps (s : State) (k c : Nat) (p a : BitVec 12) (g : Byte) (key : Option LogKey) : (s.log k c p a g key).hps = s.hps := logPush_hps _ _
@[simp] theorem log_own (s : State) (k c : Nat) (p a : BitVec 12) (g : Byte) (key : Option LogKey) : (s.log k c p a g key).own = s.own := logPush_own _ _
@[simp] theorem log_spbs (s : State) (k c : Nat) (p a : BitVec 12) (g : Byte) (key : Option LogKey) : (s.log k c p a g key).spbs = s.spbs := logPush_spbs _ _
@[simp] theorem log_spc (s : State) (k c : Nat) (p a : BitVec 12) (g : Byte) (key : Option LogKey) : (s.log k c p a g key).spc = s.spc := logPush_spc _ _
@[simp] theorem log_chk (s : State) (k c : Nat) (p a : BitVec 12) (g : Byte) (key : Option LogKey) : (s.log k c p a g key).chk = s.chk := logPush_chk _ _
@[simp] theorem log_ctxs (s : State) (k c : Nat) (p a : BitVec 12) (g : Byte) (key : Option LogKey) : (s.log k c p a g key).ctxs = s.ctxs := logPush_ctxs _ _
@[simp] theorem log_bst (s : State) (k c : Nat) (p a : BitVec 12) (g : Byte) (key : Option LogKey) : (s.log k c p a g key).bst = s.bst := logPush_bst _ _
@[simp] theorem log_fbs (s : State) (k c : Nat) (p a : BitVec 12) (g : Byte) (key : Option LogKey) : (s.log k c p a g key).fbs = s.fbs := logPush_fbs _ _
@[simp] theorem log_fbsBuf (s : State) (k c : Nat) (p a : BitVec 12) (g : Byte) (key : Option LogKey) : (s.log k c p a g key).fbsBuf = s.fbsBuf := logPush_fbsBuf _ _
@[simp] theorem log_jtag (s : State) (k c : Nat) (p a : BitVec 12) (g : Byte) (key : Option LogKey) : (s.log k c p a g key).jtag = s.jtag := logPush_jtag _ _
@[simp] theorem log_marks (s : State) (k c : Nat) (p a : BitVec 12) (g : Byte) (key : Option LogKey) : (s.log k c p a g key).marks = s.marks := logPush_marks _ _
@[simp] theorem log_free (s : State) (k c : Nat) (p a : BitVec 12) (g : Byte) (key : Option LogKey) : (s.log k c p a g key).free = s.free := logPush_free _ _
@[simp] theorem log_cut (s : State) (k c : Nat) (p a : BitVec 12) (g : Byte) (key : Option LogKey) : (s.log k c p a g key).cut = s.cut := logPush_cut _ _
@[simp] theorem log_pending (s : State) (k c : Nat) (p a : BitVec 12) (g : Byte) (key : Option LogKey) : (s.log k c p a g key).pending = s.pending := logPush_pending _ _

/-! What they set. -/

@[simp] theorem updComp_comps (s : State) (i : Nat) (h : Half) (f : Comparator → Comparator) : (s.updComp i h f).comps = upd s.comps (2 * i + h.num) f := rfl
@[simp] theorem updInp_ins (s : State) (i : Nat) (f : Input → Input) : (s.updInp i f).ins = upd s.ins i f := rfl
@[simp] theorem updOut_outs (s : State) (o : Nat) (f : Output → Output) : (s.updOut o f).outs = upd s.outs o f := rfl
@[simp] theorem updInBank_inBanks (s : State) (b : Nat) (f : InBank → InBank) : (s.updInBank b f).inBanks = upd s.inBanks b f := rfl
@[simp] theorem updOutBank_outBanks (s : State) (b : Nat) (f : OutBank → OutBank) : (s.updOutBank b f).outBanks = upd s.outBanks b f := rfl
@[simp] theorem updBar_bars (s : State) (d : Nat) (f : Bar → Bar) : (s.updBar d f).bars = upd s.bars d f := rfl
@[simp] theorem updPulse_ps (s : State) (k : Nat) (f : PulseSource → PulseSource) : (s.updPulse k f).ps = upd s.ps k f := rfl
@[simp] theorem updHp_hps (s : State) (n : Nat) (f : Hp → Hp) : (s.updHp n f).hps = upd s.hps n f := rfl
@[simp] theorem updSpb_spbs (s : State) (k : Nat) (f : Spb → Spb) : (s.updSpb k f).spbs = upd s.spbs k f := rfl
@[simp] theorem updCtx_ctxs (s : State) (c : Nat) (f : Ctx → Ctx) : (s.updCtx c f).ctxs = upd s.ctxs c f := rfl
@[simp] theorem updHdr_hdrs (s : State) (p : Page) (f : Hdr → Hdr) : (s.updHdr p f).hdrs = upd s.hdrs p.index f := rfl
@[simp] theorem updChan_chan (s : State) (h : Half) (f : Chan → Chan) : (s.updChan h f).chan h = f (s.chan h) := by cases h <;> rfl
@[simp] theorem updChan_chan_other (s : State) (h : Half) (f : Chan → Chan) : (s.updChan h f).chan h.other = s.chan h.other := by
  cases h <;> rfl
@[simp] theorem freeWord_fst (s : State) : s.freeWord.1 = Config.freeWord s.free := rfl
@[simp] theorem freeWord_snd (s : State) : s.freeWord.2 = { s with free := s.free + 1 } := rfl

/-! One unit of a table after its update. -/

theorem getD_upd {α : Type} (l : List α) (i j : Nat) (f : α → α) (d : α) :
    (upd l i f).getD j d = if i = j ∧ j < l.length then f (l.getD j d) else l.getD j d := by
  unfold upd
  by_cases hj : j < l.length
  · rw [List.getD_eq_getElem _ _ (by simpa using hj), List.getD_eq_getElem _ _ hj, List.getElem_modify]
    split <;> simp_all
  · rw [List.getD_eq_default _ _ (by simpa using hj), List.getD_eq_default _ _ (by simpa using hj)]
    simp [hj]

@[simp] theorem length_upd {α : Type} (l : List α) (i : Nat) (f : α → α) : (upd l i f).length = l.length := List.length_modify ..

theorem map_upd {α β : Type} (l : List α) (i : Nat) (f : α → α) (g : α → β) (h : ∀ a, g (f a) = g a) :
    (upd l i f).map g = l.map g := by
  unfold upd
  induction l generalizing i with
  | nil => simp
  | cons a l ih => cases i with
    | zero => simp [h]
    | succ i => simp [ih]

theorem all_upd {α : Type} (l : List α) (i : Nat) (f : α → α) (g : α → Bool) (h : ∀ a, g a = true → g (f a) = true)
    (ha : l.all g = true) : (upd l i f).all g = true := by
  unfold upd
  induction l generalizing i with
  | nil => simp
  | cons a l ih =>
    simp only [List.all_cons, Bool.and_eq_true] at ha
    cases i with
    | zero => simpa using ⟨h a ha.1, by simpa using ha.2⟩
    | succ i => simpa using ⟨ha.1, by simpa using ih i ha.2⟩

end Sys2Proof.Machine
end

