-- ==== Sys2Proof/Laws/Access.lean ====
section
/-! SUPPORT. What TAKE_EFFECT does to one word of a block page: the whole of an accepted write, said once (R46, R461). -/

namespace Sys2Proof.Machine

/-- A block page is found by its number. -/
theorem pageOf_number (p : Page) : pageOf p.number = some p := by
  cases p <;> first | decide | (rename_i k; fin_cases k <;> decide)

/-- No block page lies in a window. -/
theorem bankOfPage_number (p : Page) : bankOfPage p.number = none := by
  cases p <;> first | decide | (rename_i k; fin_cases k <;> decide)

/-- No block page is a page of the crucible window. -/
theorem crbPage_number (p : Page) : crbPage p.number = false := by
  cases p <;> first | decide | (rename_i k; fin_cases k <;> decide)

/-- The numbers of the windows are no block page's. -/
theorem not_window (p : Page) : ¬(0x400 ≤ p.number ∧ p.number < 0x480) ∧ ¬(0x800 ≤ p.number ∧ p.number < 0x900)
    ∧ ¬(0x0A0 ≤ p.number ∧ p.number < 0x0B0) ∧ ¬(0x100 ≤ p.number ∧ p.number < 0x108) := by
  cases p <;> first | decide | (rename_i k; fin_cases k <;> decide)

/-- A word written to a mapped block page goes to its register. -/
theorem State.writeWord_block {u : State} {p : Page} (hm : u.mapped p = true) (hf : u.frozenPage p = false) (port stream off : Nat) (w : Word) :
    u.writeWord port stream p.number off w = u.writeReg port stream p off w := by
  have h := not_window p
  simp [State.writeWord, h.1, h.2.1, pageOf_number, hm, hf]

/-- Without a staged RELOAD that waits for its header, the header read does nothing. -/
theorem State.stageRead_none {u : State} (h : u.img.asked = none) (ecc : List (BitVec 17 × EccErr)) : u.stageRead ecc = u := by
  simp [State.stageRead, h]

/-- An accepted write of one word answers the write of its register on the state with its response ready; a PORT_RESET then acts. -/
theorem State.puts_takes {n stream : Fin 4} {s : State} {x : Txn} {p : Page} {off : Nat} {w : Word} (h : s.puts n stream x p off w)
    (ha : ((s.answer n x 0 []).writeReg n stream p off w).img.asked = none) (ties : List Tie) (ecc : List (BitVec 17 × EccErr)) (ok : Bool) :
    exec (.takeEffect n stream ties ecc ok) s = .next (let v := (s.answer n x 0 []).writeReg n stream p off w
      if p.number = 8 + n.val ∧ off = 0x104 ∧ w.getLsbD 1 = true then v.resetPort n else v) := by
  obtain ⟨⟨hoff, hx, hl, hp, ho, hj, hm, hf, hk⟩, hop, hw⟩ := h
  have hb := bankOfPage_number p
  have hc := crbPage_number p
  have hnw := not_window p
  have e1 : exec (.takeEffect n stream ties ecc ok) s = .next (doTakeEffect n stream ties ecc ok s) := rfl
  rw [e1]; congr 1
  have hoff' : (s.dev.state == DevState.off) = false := by simpa using hoff
  have hputs : x.puts = [(off, w)] := by simp [Txn.puts, Txn.offs, hl, hw, ho]
  have hm' : (s.answer n x 0 []).mapped p = true := hm
  have hf' : (s.answer n x 0 []).frozenPage p = false := hf
  have hww := State.writeWord_block hm' hf' n.val stream.val off w
  have hst := State.stageRead_none ha ecc
  have hs : x.stream.toNat = stream.val := by
    have := List.find?_some hx
    simpa using (by simpa using this : _ ∧ _).1
  have h2 : (x.op == 2) = true := by rw [hop]; decide
  have h1 : (x.op == 1) = false := by rw [hop]; decide
  simp only [doTakeEffect, hoff', Bool.false_eq_true, if_false, hx, State.takeTxn, h2, h1, Bool.or_true, if_true, State.access, hj, hp, hb, Option.any_none,
    State.heldBy, State.writeTakes, tiesOf, Option.isSome_none, List.any_nil, State.touchAll, putsBut, List.filter_nil, tiesAt, hputs, State.tiedAll,
    State.eccMet, eccWrite, hc, List.foldl_nil, Bool.not_false, List.filter_cons, List.foldl_cons, hs, hww, hst, portReset, List.any_cons,
    Bool.or_false, Bool.and_eq_true, beq_iff_eq]

end Sys2Proof.Machine
end

