-- ==== Sys2Proof/Laws/Bits.lean ====
section
/-! SUPPORT. The bits of the bit-vector helpers of Machine/Ops.lean. -/

namespace Sys2Proof.Machine

@[simp] theorem getLsbD_bitMask (n i j : Nat) : (bitMask n i).getLsbD j = (decide (j < n) && decide (j = i)) := by
  simp only [bitMask, BitVec.getLsbD_shiftLeft, BitVec.getLsbD_one]
  by_cases hj : j < n <;> by_cases h : j = i <;> simp_all <;> omega

@[simp] theorem getLsbD_putBit {n : Nat} (v : BitVec n) (i : Nat) (b : Bool) (j : Nat) :
    (putBit v i b).getLsbD j = if j < n ∧ j = i then b else v.getLsbD j := by
  have hm : (1#n <<< i).getLsbD j = (decide (j < n) && decide (j = i)) := getLsbD_bitMask n i j
  by_cases hj : j < n
  · unfold putBit
    cases b
    · rw [if_neg (by decide), BitVec.getLsbD_and, BitVec.getLsbD_not, hm]
      simp only [hj, true_and, decide_true, Bool.true_and]
      by_cases h : j = i <;> simp [h]
    · rw [if_pos rfl, BitVec.getLsbD_or, hm]
      simp only [hj, true_and, decide_true, Bool.true_and]
      by_cases h : j = i <;> simp [h]
  · rw [if_neg (fun h => hj h.1), BitVec.getLsbD_of_ge _ _ (by omega), BitVec.getLsbD_of_ge _ _ (by omega)]

theorem getLsbD_vecOf (n : Nat) (f : Nat → Bool) (j : Nat) : (vecOf n f).getLsbD j = (decide (j < n) && f j) := by
  have key : ∀ k ≤ n, ∀ j, ((List.range k).foldl (fun v i => if f i then v ||| bitMask n i else v) (0#n)).getLsbD j
      = (decide (j < k) && f j) := by
    intro k
    induction k with
    | zero => intro _ j; simp
    | succ k ih =>
      intro hk j
      rw [List.range_succ, List.foldl_append]
      simp only [List.foldl_cons, List.foldl_nil]
      have := ih (by omega) j
      by_cases hf : f k = true
      · rw [if_pos hf, BitVec.getLsbD_or, this, getLsbD_bitMask]
        by_cases h1 : j < k
        · have : j ≠ k := by omega
          simp [h1, this]; omega
        · by_cases h2 : j = k
          · subst h2; simp [hf]; omega
          · have : ¬ j < k + 1 := by omega
            simp [h1, h2, this]
      · rw [if_neg hf, this]
        by_cases h2 : j = k
        · subst h2; simp [hf]
        · by_cases h1 : j < k
          · simp [h1]; omega
          · have : ¬ j < k + 1 := by omega
            simp [h1, this]
  exact key n (Nat.le_refl n) j

/-- A vector whose bits are all true. -/
theorem vecOf_true {n : Nat} {f : Nat → Bool} (h : ∀ i < n, f i = true) : vecOf n f = BitVec.allOnes n := by
  apply BitVec.eq_of_getLsbD_eq
  intro i hi
  rw [getLsbD_vecOf]
  simp [hi, h i hi]

end Sys2Proof.Machine
end

