-- ==== Sys2Proof/Laws/Memory.lean ====
section
/-! SUPPORT. The memories: a read after a write, and the canonical form that every memory operation keeps. -/

namespace Sys2Proof.Machine

/-- The canonical form in its own words: addresses strictly rising, no byte equal to the fill. -/
def Mem.Canon (fill : Byte) (m : Mem) : Prop := m.Pairwise (fun x y => x.1 < y.1) ∧ ∀ x ∈ m, x.2 ≠ fill

theorem Mem.wf_iff (fill : Byte) (m : Mem) : Mem.wf fill m = true ↔ Mem.Canon fill m := by
  induction m with
  | nil => simp [Mem.wf, Mem.Canon]
  | cons c m ih =>
    obtain ⟨k, b⟩ := c
    cases m with
    | nil => simp [Mem.wf, Mem.Canon]
    | cons c' m =>
      obtain ⟨k', b'⟩ := c'
      simp only [Mem.wf, Bool.and_eq_true, decide_eq_true_eq, bne_iff_ne, ne_eq, ih]
      simp only [Mem.Canon, List.pairwise_cons, List.mem_cons, forall_eq_or_imp]
      constructor
      · rintro ⟨⟨hb, hk⟩, ⟨h1, h2⟩, h3, h4⟩
        exact ⟨⟨⟨hk, fun x hx => hk.trans (h1 x hx)⟩, h1, h2⟩, hb, h3, h4⟩
      · rintro ⟨⟨⟨hk, _⟩, h1, h2⟩, hb, h3, h4⟩
        exact ⟨⟨hb, hk⟩, ⟨h1, h2⟩, h3, h4⟩

theorem Mem.mem_write {fill : Byte} {m : Mem} {a : Nat} {v : Byte} {x : Host.Cell} (h : x ∈ Mem.write fill m a v) :
    (x = (a, v) ∧ v ≠ fill) ∨ x ∈ m := by
  induction m with
  | nil => simp only [Mem.write] at h; split at h <;> simp_all
  | cons c m ih =>
    obtain ⟨k, b⟩ := c
    simp only [Mem.write] at h
    split at h
    · split at h
      · exact .inr (List.mem_cons_of_mem _ h)
      · rcases List.mem_cons.1 h with h | h
        · exact .inl ⟨h, by assumption⟩
        · exact .inr (List.mem_cons_of_mem _ h)
    · split at h
      · split at h
        · exact .inr h
        · rcases List.mem_cons.1 h with h | h
          · exact .inl ⟨h, by assumption⟩
          · exact .inr h
      · rcases List.mem_cons.1 h with h | h
        · exact .inr (h ▸ List.mem_cons_self ..)
        · rcases ih h with h | h
          · exact .inl h
          · exact .inr (List.mem_cons_of_mem _ h)

/-- A write keeps the canonical form. -/
theorem Mem.Canon.write {fill : Byte} {m : Mem} (h : Mem.Canon fill m) (a : Nat) (v : Byte) : Mem.Canon fill (Mem.write fill m a v) := by
  refine ⟨?_, fun x hx => ?_⟩
  · induction m with
    | nil => simp only [Mem.write]; split <;> simp
    | cons c m ih =>
      obtain ⟨k, b⟩ := c
      have hm : Mem.Canon fill m := ⟨(List.pairwise_cons.1 h.1).2, fun x hx => h.2 x (List.mem_cons_of_mem _ hx)⟩
      have hk := (List.pairwise_cons.1 h.1).1
      simp only [Mem.write]
      split
      · split
        · exact hm.1
        · subst_vars; exact List.pairwise_cons.2 ⟨hk, hm.1⟩
      · split
        · split
          · exact h.1
          · refine List.pairwise_cons.2 ⟨fun x hx => ?_, h.1⟩
            rcases List.mem_cons.1 hx with hx | hx
            · subst hx; assumption
            · have := hk x hx; dsimp only at this ⊢; omega
        · refine List.pairwise_cons.2 ⟨fun x hx => ?_, ih hm⟩
          rcases Mem.mem_write hx with ⟨hx, _⟩ | hx
          · subst hx; dsimp only; omega
          · exact hk x hx
  · rcases Mem.mem_write hx with ⟨rfl, hv⟩ | hx
    · exact hv
    · exact h.2 x hx

theorem Mem.wf_write {fill : Byte} {m : Mem} (h : Mem.wf fill m = true) (a : Nat) (v : Byte) : Mem.wf fill (Mem.write fill m a v) = true :=
  (Mem.wf_iff ..).2 (((Mem.wf_iff ..).1 h).write a v)

theorem Mem.wf_writeW {fill : Byte} {m : Mem} (h : Mem.wf fill m = true) (a : Nat) (w : Word) :
    Mem.wf fill (Mem.writeW fill m a w) = true := by
  unfold Mem.writeW; exact Mem.wf_write (Mem.wf_write (Mem.wf_write (Mem.wf_write h _ _) _ _) _ _) _ _

theorem Mem.wf_writeWs {fill : Byte} {m : Mem} (h : Mem.wf fill m = true) (a : Nat) (ws : List Word) :
    Mem.wf fill (Mem.writeWs fill m a ws) = true := by
  induction ws generalizing m a with
  | nil => exact h
  | cons w ws ih => exact ih (Mem.wf_writeW h _ _) _

/-- The entries of a memory made of bytes lie in their range. -/
theorem Mem.mem_ofBytes {fill : Byte} {a : Nat} {bs : List Byte} {x : Host.Cell} (h : x ∈ Mem.ofBytes fill a bs) :
    a ≤ x.1 ∧ x.1 < a + bs.length ∧ x.2 ≠ fill := by
  induction bs generalizing a with
  | nil => simp [Mem.ofBytes] at h
  | cons b bs ih =>
    simp only [Mem.ofBytes] at h
    split at h
    · have := ih h; simp only [List.length_cons]; exact ⟨by omega, by omega, this.2.2⟩
    · rcases List.mem_cons.1 h with h | h
      · subst h; simp only [List.length_cons]; exact ⟨le_refl _, by omega, by assumption⟩
      · have := ih h; simp only [List.length_cons]; exact ⟨by omega, by omega, this.2.2⟩

theorem Mem.canon_ofBytes (fill : Byte) (a : Nat) (bs : List Byte) : Mem.Canon fill (Mem.ofBytes fill a bs) := by
  refine ⟨?_, fun x hx => (Mem.mem_ofBytes hx).2.2⟩
  induction bs generalizing a with
  | nil => simp [Mem.ofBytes]
  | cons b bs ih =>
    simp only [Mem.ofBytes]
    split
    · exact ih _
    · refine List.pairwise_cons.2 ⟨fun x hx => ?_, ih _⟩
      have := (Mem.mem_ofBytes hx).1
      dsimp only; omega

theorem Mem.wf_ofBytes (fill : Byte) (a : Nat) (bs : List Byte) : Mem.wf fill (Mem.ofBytes fill a bs) = true :=
  (Mem.wf_iff ..).2 (Mem.canon_ofBytes ..)

/-- Bytes placed below what is kept of a memory. -/
theorem Mem.wf_place {fill : Byte} {m : Mem} (h : Mem.wf fill m = true) (bs : List Byte) :
    Mem.wf fill (Mem.ofBytes fill 0 bs ++ m.dropWhile fun c => decide (c.1 < bs.length)) = true := by
  rw [Mem.wf_iff] at h ⊢
  have hsub : (m.dropWhile fun c => decide (c.1 < bs.length)).Sublist m := List.dropWhile_sublist _
  have hlow : ∀ x ∈ m.dropWhile (fun c => decide (c.1 < bs.length)), bs.length ≤ x.1 := by
    have hp := h.1
    clear h hsub
    induction m with
    | nil => simp
    | cons c m ih =>
      intro x hx
      rw [List.dropWhile_cons] at hx
      split at hx
      · exact ih (List.pairwise_cons.1 hp).2 x hx
      · rename_i hc
        simp only [decide_eq_true_eq, not_lt] at hc
        rcases List.mem_cons.1 hx with hx | hx
        · subst hx; exact hc
        · have := (List.pairwise_cons.1 hp).1 x hx; omega
  refine ⟨List.pairwise_append.2 ⟨(Mem.canon_ofBytes ..).1, h.1.sublist hsub, fun x hx y hy => ?_⟩, fun x hx => ?_⟩
  · have h1 := (Mem.mem_ofBytes hx).2.1
    have h2 := hlow y hy
    omega
  · rcases List.mem_append.1 hx with hx | hx
    · exact (Mem.mem_ofBytes hx).2.2
    · exact h.2 x (hsub.subset hx)

/-- A read after a write of the same byte. -/
@[simp] theorem Mem.read_write_same (fill : Byte) (m : Mem) (a : Nat) (v : Byte) (h : Mem.wf fill m = true) :
    Mem.read fill (Mem.write fill m a v) a = v := by
  rw [Mem.wf_iff] at h
  induction m with
  | nil => simp only [Mem.write]; split <;> simp_all [Mem.read]
  | cons c m ih =>
    obtain ⟨k, b⟩ := c
    have hm : Mem.Canon fill m := ⟨(List.pairwise_cons.1 h.1).2, fun x hx => h.2 x (List.mem_cons_of_mem _ hx)⟩
    have hk := (List.pairwise_cons.1 h.1).1
    simp only [Mem.write]
    split
    · subst_vars
      split
      · subst_vars
        cases m with
        | nil => rfl
        | cons c' m =>
          have hlt := hk c' (List.mem_cons_self ..)
          simp only [Mem.read]
          rw [if_neg (by dsimp only at hlt; omega), if_pos (by dsimp only at hlt; omega)]
      · simp [Mem.read]
    · split
      · split
        · simp_all [Mem.read]
        · simp [Mem.read]
      · have := ih hm
        simp only [Mem.read]
        rw [if_neg (by assumption), if_neg (by assumption)]
        exact this

/-- A write leaves every other byte alone. -/
theorem Mem.read_write_other (fill : Byte) (m : Mem) (a a' : Nat) (v : Byte) (h : Mem.wf fill m = true) (ha : a' ≠ a) :
    Mem.read fill (Mem.write fill m a v) a' = Mem.read fill m a' := by
  rw [Mem.wf_iff] at h
  induction m with
  | nil =>
    simp only [Mem.write]
    split
    · rfl
    · simp only [Mem.read]; split
      · omega
      · split <;> rfl
  | cons c m ih =>
    obtain ⟨k, b⟩ := c
    have hm : Mem.Canon fill m := ⟨(List.pairwise_cons.1 h.1).2, fun x hx => h.2 x (List.mem_cons_of_mem _ hx)⟩
    have hk := (List.pairwise_cons.1 h.1).1
    have hnil : ∀ x : Nat, x < k + 1 → Mem.read fill m x = fill := by
      intro x hx
      cases m with
      | nil => rfl
      | cons c' m =>
        have hlt := hk c' (List.mem_cons_self ..)
        obtain ⟨k', b'⟩ := c'
        simp only [Mem.read]
        dsimp only at hlt
        rw [if_neg (by omega), if_pos (by omega)]
    simp only [Mem.write]
    split
    · subst_vars
      split
      · simp only [Mem.read]
        rw [if_neg (by omega)]
        split
        · exact hnil _ (by omega)
        · rfl
      · simp only [Mem.read, if_neg (Ne.symm ha)]
    · split
      · split
        · rfl
        · simp only [Mem.read]
          rw [if_neg (by omega)]
          split
          · rw [if_neg (by omega), if_pos (by omega)]
          · rfl
      · simp only [Mem.read]
        rw [ih hm]

end Sys2Proof.Machine
end

