-- ==== Sys2Proof/Laws/Copies.lean ====
section
/-! SUPPORT. What a memory reads after words were written to it or bytes were placed in it. -/

namespace Sys2Proof.Machine

theorem Mem.read_low {fill : Byte} {m : Mem} {a : Nat} (h : ∀ x ∈ m, a < x.1) : Mem.read fill m a = fill := by
  cases m with
  | nil => rfl
  | cons c m =>
    obtain ⟨k, b⟩ := c
    have := h (k, b) (by simp)
    simp only [Mem.read]
    rw [if_neg (by simp at this; omega), if_pos (by simpa using this)]

/-- Two memories one above the other. -/
theorem Mem.read_append {fill : Byte} {l m : Mem} (h : (l ++ m).Pairwise (fun x y => x.1 < y.1)) (a : Nat) :
    Mem.read fill (l ++ m) a = if (∃ x ∈ l, a ≤ x.1) then Mem.read fill l a else Mem.read fill m a := by
  induction l with
  | nil => simp
  | cons c l ih =>
    obtain ⟨k, b⟩ := c
    rw [List.cons_append, List.pairwise_cons] at h
    simp only [List.cons_append, Mem.read]
    rw [ih h.2]
    by_cases h1 : k = a
    · rw [if_pos h1, if_pos h1, if_pos ⟨(k, b), by simp, by simp [h1]⟩]
    · by_cases h2 : a < k
      · rw [if_neg h1, if_pos h2, if_neg h1, if_pos h2, if_pos ⟨(k, b), by simp, by simp; omega⟩]
      · rw [if_neg h1, if_neg h2, if_neg h1, if_neg h2]
        congr 1
        simp only [List.mem_cons, exists_eq_or_imp, eq_iff_iff]
        constructor
        · exact .inr
        · rintro (w | w)
          · omega
          · exact w

theorem Mem.read_ofBytes (fill : Byte) (base : Nat) (bs : List Byte) (a : Nat) :
    Mem.read fill (Mem.ofBytes fill base bs) a = if base ≤ a then bs.getD (a - base) fill else fill := by
  induction bs generalizing base with
  | nil => simp [Mem.ofBytes, Mem.read]
  | cons b bs ih =>
    have hlow : ∀ x ∈ Mem.ofBytes fill (base + 1) bs, base < x.1 := fun x hx => by have := (Mem.mem_ofBytes hx).1; omega
    simp only [Mem.ofBytes]
    split
    · next hb =>
      rw [ih]
      by_cases h : base + 1 ≤ a
      · rw [if_pos h, if_pos (by omega)]
        have : a - base = (a - (base + 1)) + 1 := by omega
        rw [this, List.getD_cons_succ]
      · rw [if_neg h]
        split
        · have : a - base = 0 := by omega
          rw [this, List.getD_cons_zero, hb]
        · rfl
    · simp only [Mem.read]
      split
      · next h => rw [if_pos (by omega), h]; simp
      · split
        · rw [if_neg (by omega)]
        · rw [ih, if_pos (by omega), if_pos (by omega)]
          have : a - base = (a - (base + 1)) + 1 := by omega
          rw [this, List.getD_cons_succ]

theorem Mem.read_dropWhile {fill : Byte} {m : Mem} (h : m.Pairwise fun x y => x.1 < y.1) (n a : Nat) (ha : n ≤ a) :
    Mem.read fill (m.dropWhile fun c => decide (c.1 < n)) a = Mem.read fill m a := by
  induction m with
  | nil => rfl
  | cons c m ih =>
    obtain ⟨k, b⟩ := c
    rw [List.pairwise_cons] at h
    rw [List.dropWhile_cons]
    split
    · next hk =>
      simp only [decide_eq_true_eq] at hk
      rw [ih h.2]
      simp only [Mem.read]
      rw [if_neg (by omega), if_neg (by omega)]
    · rfl

theorem Mem.walk_length (fill : Byte) (n a : Nat) (m : Mem) : (Mem.walk fill n a m).length = n := by
  induction n generalizing a m with
  | zero => simp [Mem.walk]
  | succ n ih =>
    match m with
    | [] => simp [Mem.walk, ih]
    | (k, b) :: m => simp only [Mem.walk]; split <;> simp [ih]

@[simp] theorem Mem.slice_length (fill : Byte) (m : Mem) (a n : Nat) : (Mem.slice fill m a n).length = n := Mem.walk_length ..

theorem Mem.walk_getD {fill : Byte} (n a : Nat) (m : Mem) (h : m.Pairwise fun x y => x.1 < y.1) (hl : ∀ x ∈ m, a ≤ x.1) (i : Nat) (hi : i < n) (d : Byte) :
    (Mem.walk fill n a m).getD i d = Mem.read fill m (a + i) := by
  induction n generalizing a m i with
  | zero => omega
  | succ n ih =>
    match m, h, hl with
    | [], _, _ =>
      simp only [Mem.walk]
      cases i with
      | zero => simp [Mem.read]
      | succ i =>
        rw [List.getD_cons_succ, ih (a + 1) [] List.Pairwise.nil (by simp) i (by omega)]
        rfl
    | (k, b) :: m, h, hl =>
      rw [List.pairwise_cons] at h
      have hk : a ≤ k := hl (k, b) (by simp)
      simp only [Mem.walk, Mem.read]
      split
      · next e =>
        cases i with
        | zero => simp [e]
        | succ i =>
          rw [List.getD_cons_succ, ih (a + 1) m h.2 (fun x hx => by have := h.1 x hx; simp at this; omega) i (by omega),
            if_neg (by omega), if_neg (by omega)]
          congr 1; omega
      · next e =>
        cases i with
        | zero => rw [List.getD_cons_zero, if_neg (by omega), if_pos (by omega)]
        | succ i =>
          rw [List.getD_cons_succ, ih (a + 1) ((k, b) :: m) (List.pairwise_cons.2 h)
            (fun x hx => by
              rcases List.mem_cons.1 hx with rfl | hx
              · simp; omega
              · have := h.1 x hx; simp at this; omega) i (by omega)]
          simp only [Mem.read]
          have : a + 1 + i = a + (i + 1) := by omega
          rw [this]

/-- A slice reads as the memory does. -/
theorem Mem.slice_getD {fill : Byte} {m : Mem} (h : Mem.wf fill m = true) (a n i : Nat) (hi : i < n) (d : Byte) :
    (Mem.slice fill m a n).getD i d = Mem.read fill m (a + i) := by
  have hp := ((Mem.wf_iff ..).1 h).1
  unfold Mem.slice
  have hs : (m.dropWhile fun c => decide (c.1 < a)).Sublist m := List.dropWhile_sublist _
  rw [Mem.walk_getD n a _ (hp.sublist hs) ?_ i hi, Mem.read_dropWhile hp a _ (by omega)]
  intro x hx
  clear hi
  induction m with
  | nil => simp at hx
  | cons c m ih =>
    rw [List.dropWhile_cons] at hx
    rw [List.pairwise_cons] at hp
    split at hx
    · exact ih ((Mem.wf_iff ..).2 ⟨hp.2, fun x hx => ((Mem.wf_iff ..).1 h).2 x (List.mem_cons_of_mem _ hx)⟩) hp.2 (List.dropWhile_sublist _) hx
    · next hc =>
      simp only [decide_eq_true_eq] at hc
      rcases List.mem_cons.1 hx with rfl | hx
      · omega
      · have := hp.1 x hx; omega

/-- The bytes placed at the start of a memory, and the bytes above them. -/
theorem Mem.read_place {m : Mem} (h : Mem.wf 0 m = true) (bs : List Byte) (a : Nat) :
    Mem.read 0 (Mem.ofBytes 0 0 bs ++ m.dropWhile fun c => decide (c.1 < bs.length)) a
      = if a < bs.length then bs.getD a 0 else Mem.read 0 m a := by
  have hp := ((Mem.wf_iff ..).1 h).1
  have hw := ((Mem.wf_iff ..).1 (Mem.wf_place h bs)).1
  rw [Mem.read_append hw]
  have hr := Mem.read_ofBytes 0 0 bs a
  rw [if_pos (Nat.zero_le a), Nat.sub_zero] at hr
  split
  · next hx =>
    obtain ⟨x, hx, hle⟩ := hx
    have := (Mem.mem_ofBytes hx).2.1
    rw [hr, if_pos (by omega)]
  · next hx =>
    split
    · next ha =>
      have h0 : Mem.read 0 (Mem.ofBytes 0 0 bs) a = 0 := by
        by_contra hne
        apply hx
        clear hr hw hx hp h
        generalize Mem.ofBytes 0 0 bs = l at hne ⊢
        induction l with
        | nil => simp [Mem.read] at hne
        | cons c l ih =>
          obtain ⟨k, b⟩ := c
          simp only [Mem.read] at hne
          by_cases h1 : k = a
          · exact ⟨(k, b), by simp, by simp [h1]⟩
          · rw [if_neg h1] at hne
            by_cases h2 : a < k
            · exact ⟨(k, b), by simp, by simp; omega⟩
            · rw [if_neg h2] at hne
              obtain ⟨x, hx, hle⟩ := ih hne
              exact ⟨x, List.mem_cons_of_mem _ hx, hle⟩
      rw [← hr, h0]
      refine Mem.read_low fun x hx => ?_
      have hlow : ∀ m : Mem, m.Pairwise (fun x y => x.1 < y.1) → ∀ x ∈ m.dropWhile (fun c => decide (c.1 < bs.length)), bs.length ≤ x.1 := by
        intro m hm
        induction m with
        | nil => simp
        | cons c m ih =>
          rw [List.pairwise_cons] at hm
          rw [List.dropWhile_cons]
          split
          · exact ih hm.2
          · next hc =>
            simp only [decide_eq_true_eq] at hc
            intro x hx
            rcases List.mem_cons.1 hx with rfl | hx
            · omega
            · have := hm.1 x hx; omega
      have := hlow m hp x hx
      omega
    · next ha => exact Mem.read_dropWhile hp _ _ (by omega)

/-! Words. -/

theorem word_of_bytes (w : Word) : byteOf w 3 ++ byteOf w 2 ++ byteOf w 1 ++ byteOf w 0 = w := by
  unfold byteOf
  ext i
  simp only [BitVec.getElem_append, BitVec.getElem_extractLsb']
  split
  · rw [← BitVec.getLsbD_eq_getElem (by omega)]; simp
  · split
    · rw [← BitVec.getLsbD_eq_getElem (by omega)]; congr 1; omega
    · split
      · rw [← BitVec.getLsbD_eq_getElem (by omega)]; congr 1; omega
      · rw [← BitVec.getLsbD_eq_getElem (by omega)]; congr 1; omega

theorem Mem.read_writeW {fill : Byte} {m : Mem} (h : Mem.wf fill m = true) (a : Nat) (w : Word) (b : Nat) :
    Mem.read fill (Mem.writeW fill m a w) b = if a ≤ b ∧ b < a + 4 then byteOf w (b - a) else Mem.read fill m b := by
  unfold Mem.writeW
  have h1 := Mem.wf_write h a (byteOf w 0)
  have h2 := Mem.wf_write h1 (a + 1) (byteOf w 1)
  have h3 := Mem.wf_write h2 (a + 2) (byteOf w 2)
  by_cases e3 : b = a + 3
  · subst e3; rw [Mem.read_write_same _ _ _ _ h3, if_pos (by omega)]; simp
  rw [Mem.read_write_other _ _ _ _ _ h3 e3]
  by_cases e2 : b = a + 2
  · subst e2; rw [Mem.read_write_same _ _ _ _ h2, if_pos (by omega)]; simp
  rw [Mem.read_write_other _ _ _ _ _ h2 e2]
  by_cases e1 : b = a + 1
  · subst e1; rw [Mem.read_write_same _ _ _ _ h1, if_pos (by omega)]; simp
  rw [Mem.read_write_other _ _ _ _ _ h1 e1]
  by_cases e0 : b = a
  · subst e0; rw [Mem.read_write_same _ _ _ _ h, if_pos (by omega)]; simp
  rw [Mem.read_write_other _ _ _ _ _ h e0, if_neg (by omega)]

theorem Mem.readW_writeW {fill : Byte} {m : Mem} (h : Mem.wf fill m = true) (a : Nat) (w : Word) :
    Mem.readW fill (Mem.writeW fill m a w) a = w := by
  unfold Mem.readW
  rw [Mem.read_writeW h, Mem.read_writeW h, Mem.read_writeW h, Mem.read_writeW h, if_pos (by omega), if_pos (by omega), if_pos (by omega),
    if_pos (by omega)]
  simp only [Nat.add_sub_cancel_left, Nat.sub_self]
  exact word_of_bytes w

theorem Mem.read_writeWs_other {fill : Byte} (ws : List Word) {m : Mem} (h : Mem.wf fill m = true) (a b : Nat)
    (hb : b < a ∨ a + 4 * ws.length ≤ b) : Mem.read fill (Mem.writeWs fill m a ws) b = Mem.read fill m b := by
  induction ws generalizing m a with
  | nil => rfl
  | cons w ws ih =>
    simp only [List.length_cons] at hb
    rw [Mem.writeWs, ih (Mem.wf_writeW h a w) (a + 4) (by omega), Mem.read_writeW h, if_neg (by omega)]

/-- Word i of the words written. -/
theorem Mem.readW_writeWs {fill : Byte} (ws : List Word) {m : Mem} (h : Mem.wf fill m = true) (a i : Nat) (hi : i < ws.length) (d : Word) :
    Mem.readW fill (Mem.writeWs fill m a ws) (a + 4 * i) = ws.getD i d := by
  induction ws generalizing m a i with
  | nil => simp at hi
  | cons w ws ih =>
    cases i with
    | zero =>
      rw [Mem.writeWs]
      have e : ∀ b, b < a + 4 → Mem.read fill (Mem.writeWs fill (Mem.writeW fill m a w) (a + 4) ws) b = Mem.read fill (Mem.writeW fill m a w) b :=
        fun b hb => Mem.read_writeWs_other ws (Mem.wf_writeW h a w) (a + 4) b (.inl hb)
      have := Mem.readW_writeW h a w
      rw [Nat.mul_zero, Nat.add_zero]
      unfold Mem.readW at this ⊢
      rw [e _ (by omega), e _ (by omega), e _ (by omega), e _ (by omega)]
      exact this
    | succ i =>
      rw [Mem.writeWs, List.getD_cons_succ, ← ih (Mem.wf_writeW h a w) (a + 4) i (by simp at hi; omega)]
      congr 1; omega

end Sys2Proof.Machine
end

