-- ==== Sys2Proof/Laws/Keeps.lean ====
section
/-! SUPPORT. What every operation of the device keeps, as one relation between the state before and the state after: identity, keys,
flash slots and the queue; the canonical memories; the shape of the tables; the held trip latches; OFF. -/

namespace Sys2Proof.Machine

/-- The memories of a state that no lemma about a unit's other fields touches. -/
structure Mems where
  (copeL copeI copeK dragL dragI dragK crb evl fbs fbsBuf sector : Mem)
  replaced : Option (Mem × (Word × Word × BitVec 16) × List Word)
  spbs : List Mem

def State.mems (s : State) : Mems :=
  { copeL := s.cope.lsm, copeI := s.cope.icache, copeK := s.cope.kcache, dragL := s.drag.lsm, dragI := s.drag.icache
    dragK := s.drag.kcache, crb := s.crb.mem, evl := s.evl.mem, fbs := s.fbs, fbsBuf := s.fbsBuf, sector := s.flash.sector
    replaced := s.prog.replaced, spbs := s.spbs.map Spb.mem }

def Mems.ok (m : Mems) : Bool :=
  Mem.wf 0 m.copeL && Mem.wf 0 m.copeI && Mem.wf 0 m.copeK && Mem.wf 0xFF m.dragL && Mem.wf 0xFF m.dragI && Mem.wf 0xFF m.dragK
    && Mem.wf 0 m.crb && Mem.wf 0 m.evl && Mem.wf 0 m.fbs && Mem.wf 0 m.fbsBuf && Mem.wf 0xFF m.sector && m.spbs.all (Mem.wf 0)
    && m.replaced.all fun x => Mem.wf 0 x.1

theorem memOk_eq (s : State) : s.memOk = s.mems.ok := by
  simp only [State.memOk, State.mems, Mems.ok, List.all_map, Function.comp_def]

/-- The shape of the tables. -/
structure Shape where
  (comps ins inBanks outs outBanks bars ps hps spbs ctxs : Nat)
  hdrs : List Bool
  deriving DecidableEq

def State.shape (s : State) : Shape :=
  { hdrs := s.hdrs.map Hdr.shaped, comps := s.comps.length, ins := s.ins.length, inBanks := s.inBanks.length, outs := s.outs.length
    outBanks := s.outBanks.length, bars := s.bars.length, ps := s.ps.length, hps := s.hps.length, spbs := s.spbs.length
    ctxs := s.ctxs.length }

def Shape.full (x : Shape) : Prop := x = ⟨224, 112, 8, 64, 8, 2, 16, 4, 16, 8, List.replicate 53 true⟩

theorem shaped_iff (s : State) : s.shaped = true ↔ s.shape.full := by
  simp only [State.shaped, State.shape, Shape.full, Bool.and_eq_true, beq_iff_eq, Shape.mk.injEq, List.eq_replicate_iff, List.length_map,
    List.mem_map, List.all_eq_true, forall_exists_index, and_imp, forall_apply_eq_imp_iff₂]
  tauto

/-- What is fixed for the device, or changes in few places: identity, keys, slots, queue, STATE, trip latches. -/
structure Core where
  ident : Ident
  otp : Otp
  slotA : Mem
  slotB : Mem
  pending : List Instr
  state : DevState
  tlC : BitVec 48
  tlD : BitVec 48
  straps : Straps

def State.fixed (s : State) : Core :=
  { ident := s.ident, otp := s.otp, slotA := s.flash.slotA, slotB := s.flash.slotB, pending := s.pending, state := s.dev.state
    tlC := s.trp.tlC, tlD := s.trp.tlD, straps := s.dev.straps }

/-- What every operation keeps. -/
structure Keeps (s t : State) : Prop where
  ident : t.ident = s.ident
  otp : t.otp = s.otp
  slotA : t.flash.slotA = s.flash.slotA
  slotB : t.flash.slotB = s.flash.slotB
  pending : t.pending = s.pending
  off : s.dev.state = .off → t.dev.state = .off
  trips : s.tripsHeld = true → t.tripsHeld = true
  mem : s.memOk = true → t.memOk = true
  shape : s.shaped = true → t.shaped = true
  straps : t.dev.straps = s.dev.straps

/-- What RESET_RELEASE and KEY_PROGRAM_DONE keep too: all but OFF, the straps and the keys. -/
structure Kept (s t : State) : Prop where
  ident : t.ident = s.ident
  slotA : t.flash.slotA = s.flash.slotA
  slotB : t.flash.slotB = s.flash.slotB
  pending : t.pending = s.pending
  trips : s.tripsHeld = true → t.tripsHeld = true
  mem : s.memOk = true → t.memOk = true
  shape : s.shaped = true → t.shaped = true

theorem Keeps.kept {s t : State} (h : Keeps s t) : Kept s t := ⟨h.ident, h.slotA, h.slotB, h.pending, h.trips, h.mem, h.shape⟩

theorem Kept.trans {s t u : State} (h : Kept s t) (k : Kept t u) : Kept s u :=
  ⟨k.ident.trans h.ident, k.slotA.trans h.slotA, k.slotB.trans h.slotB, k.pending.trans h.pending,
    k.trips ∘ h.trips, k.mem ∘ h.mem, k.shape ∘ h.shape⟩

theorem Keeps.refl (s : State) : Keeps s s := ⟨rfl, rfl, rfl, rfl, rfl, id, id, id, id, rfl⟩

theorem Keeps.trans {s t u : State} (h : Keeps s t) (k : Keeps t u) : Keeps s u :=
  ⟨k.ident.trans h.ident, k.otp.trans h.otp, k.slotA.trans h.slotA, k.slotB.trans h.slotB, k.pending.trans h.pending,
    k.off ∘ h.off, k.trips ∘ h.trips, k.mem ∘ h.mem, k.shape ∘ h.shape, k.straps.trans h.straps⟩

/-- An operation that touches none of it. -/
theorem Keeps.same {s t : State} (hf : t.fixed = s.fixed) (hm : t.mems = s.mems) (hs : t.shape = s.shape) : Keeps s t := by
  simp only [State.fixed, Core.mk.injEq] at hf
  obtain ⟨h1, h2, h3, h4, h5, h6, h7, h8, h9⟩ := hf
  refine ⟨h1, h2, h3, h4, h5, fun h => h6.trans h, fun h => ?_, fun h => ?_, fun h => ?_, h9⟩
  · simpa [State.tripsHeld, h6, h7, h8] using h
  · rw [memOk_eq] at h ⊢; rwa [hm]
  · rw [shaped_iff] at h ⊢; rwa [hs]

/-- A new trip matrix with the latches of the old one. -/
theorem keeps_trp (s : State) (t : Trp) (hc : t.tlC = s.trp.tlC) (hd : t.tlD = s.trp.tlD) : Keeps s { s with trp := t } :=
  .same (by simp only [State.fixed, hc, hd]) rfl rfl

/-- An operation that touches memories only, and keeps their form. -/
theorem Keeps.memory {s t : State} (hf : t.fixed = s.fixed) (hs : t.shape = s.shape) (hm : s.memOk = true → t.memOk = true) :
    Keeps s t := by
  simp only [State.fixed, Core.mk.injEq] at hf
  obtain ⟨h1, h2, h3, h4, h5, h6, h7, h8, h9⟩ := hf
  refine ⟨h1, h2, h3, h4, h5, fun h => h6.trans h, fun h => ?_, hm, fun h => ?_, h9⟩
  · simpa [State.tripsHeld, h6, h7, h8] using h
  · rw [shaped_iff] at h ⊢; rwa [hs]

/-- A fold of an operation. -/
theorem Keeps.foldl {α : Type} {f : State → α → State} (hf : ∀ s a, Keeps s (f s a)) (l : List α) (s : State) : Keeps s (l.foldl f s) := by
  induction l generalizing s with
  | nil => exact Keeps.refl s
  | cons a l ih => exact (hf s a).trans (ih _)

/-- A fold of an operation on a state with what it gathers. -/
theorem Keeps.foldl_pair {α β : Type} {f : State × β → α → State × β} (hf : ∀ x a, Keeps x.1 (f x a).1) (l : List α) (x : State × β) :
    Keeps x.1 (l.foldl f x).1 := by
  induction l generalizing x with
  | nil => exact Keeps.refl _
  | cons a l ih => exact (hf x a).trans (ih _)

/-! The updates of tables. -/

theorem keeps_updComp (s : State) (i : Nat) (h : Half) (f : Comparator → Comparator) : Keeps s (s.updComp i h f) :=
  .same rfl rfl (by simp [State.shape])
theorem keeps_updInp (s : State) (i : Nat) (f : Input → Input) : Keeps s (s.updInp i f) := .same rfl rfl (by simp [State.shape])
theorem keeps_updOut (s : State) (o : Nat) (f : Output → Output) : Keeps s (s.updOut o f) := .same rfl rfl (by simp [State.shape])
theorem keeps_updInBank (s : State) (b : Nat) (f : InBank → InBank) : Keeps s (s.updInBank b f) := .same rfl rfl (by simp [State.shape])
theorem keeps_updOutBank (s : State) (b : Nat) (f : OutBank → OutBank) : Keeps s (s.updOutBank b f) :=
  .same rfl rfl (by simp [State.shape])
theorem keeps_updBar (s : State) (d : Nat) (f : Bar → Bar) : Keeps s (s.updBar d f) := .same rfl rfl (by simp [State.shape])
theorem keeps_updPulse (s : State) (k : Nat) (f : PulseSource → PulseSource) : Keeps s (s.updPulse k f) :=
  .same rfl rfl (by simp [State.shape])
theorem keeps_updHp (s : State) (n : Nat) (f : Hp → Hp) : Keeps s (s.updHp n f) := .same rfl rfl (by simp [State.shape])
theorem keeps_updCtx (s : State) (c : Nat) (f : Ctx → Ctx) : Keeps s (s.updCtx c f) := .same rfl rfl (by simp [State.shape])

theorem keeps_updHdr (s : State) (p : Page) (f : Hdr → Hdr) (h : ∀ x, Hdr.shaped (f x) = Hdr.shaped x) : Keeps s (s.updHdr p f) :=
  .same rfl rfl (by simp [State.shape, map_upd _ _ _ _ h])

theorem keeps_updHdr_of (s : State) (p : Page) (f : Hdr → Hdr) (h : ∀ x, Hdr.shaped x = true → Hdr.shaped (f x) = true) :
    Keeps s (s.updHdr p f) := by
  refine ⟨rfl, rfl, rfl, rfl, rfl, id, id, id, fun w => ?_, rfl⟩
  simp only [State.shaped, Bool.and_eq_true, updHdr_hdrs, length_upd] at w ⊢
  obtain ⟨⟨⟨⟨⟨⟨⟨⟨⟨⟨⟨w1, w2⟩, w3⟩, w4⟩, w5⟩, w6⟩, w7⟩, w8⟩, w9⟩, w10⟩, w11⟩, w12⟩ := w
  exact ⟨⟨⟨⟨⟨⟨⟨⟨⟨⟨⟨w1, all_upd _ _ _ _ h w2⟩, w3⟩, w4⟩, w5⟩, w6⟩, w7⟩, w8⟩, w9⟩, w10⟩, w11⟩, w12⟩

theorem keeps_updChan (s : State) (h : Half) (f : Chan → Chan)
    (hf : ∀ c, (f c).lsm = c.lsm ∧ (f c).icache = c.icache ∧ (f c).kcache = c.kcache) : Keeps s (s.updChan h f) := by
  cases h
  · exact .same rfl (by simp [State.mems, State.updChan, (hf s.cope).1, (hf s.cope).2.1, (hf s.cope).2.2]) rfl
  · exact .same rfl (by simp [State.mems, State.updChan, (hf s.drag).1, (hf s.drag).2.1, (hf s.drag).2.2]) rfl

theorem keeps_updChan_mem (s : State) (h : Half) (f : Chan → Chan)
    (hf : ∀ c, (Mem.wf h.fill c.lsm && Mem.wf h.fill c.icache && Mem.wf h.fill c.kcache) = true →
      (Mem.wf h.fill (f c).lsm && Mem.wf h.fill (f c).icache && Mem.wf h.fill (f c).kcache) = true) : Keeps s (s.updChan h f) := by
  cases h
  · refine .memory rfl rfl fun w => ?_
    have := hf s.cope
    simp only [State.memOk, Bool.and_eq_true, Half.fill, State.updChan] at w this ⊢
    tauto
  · refine .memory rfl rfl fun w => ?_
    have := hf s.drag
    simp only [State.memOk, Bool.and_eq_true, Half.fill, State.updChan] at w this ⊢
    tauto

theorem keeps_updSpb (s : State) (k : Nat) (f : Spb → Spb) (h : ∀ b, Mem.wf 0 b.mem = true → Mem.wf 0 (f b).mem = true) :
    Keeps s (s.updSpb k f) := by
  refine .memory rfl (by simp [State.shape]) fun hm => ?_
  simp only [State.memOk, Bool.and_eq_true] at hm ⊢
  exact ⟨⟨hm.1.1, all_upd _ _ _ _ h hm.1.2⟩, hm.2⟩

theorem keeps_freeWord (s : State) : Keeps s s.freeWord.2 := .same rfl rfl rfl
theorem keeps_bump (s : State) (p : Page) (off : Nat) : Keeps s (s.bump p off) :=
  keeps_updHdr _ _ _ fun x => by simp [Hdr.shaped]
theorem keeps_setCounter (s : State) (p : Page) (off : Nat) (w : Word) : Keeps s (s.setCounter p off w) :=
  keeps_updHdr _ _ _ fun x => by simp [Hdr.shaped]
theorem keeps_maxCounter (s : State) (p : Page) (off : Nat) (w : Word) : Keeps s (s.maxCounter p off w) := keeps_setCounter ..
theorem keeps_addCounter (s : State) (p : Page) (off n : Nat) : Keeps s (s.addCounter p off n) := keeps_setCounter ..
theorem keeps_setLive (s : State) (p : Page) (c : Nat) (b : Bool) : Keeps s (s.setLive p c b) := keeps_updHdr _ _ _ fun _ => rfl
theorem keeps_openShadow (s : State) (l : List (Page × Word × Option (List Nat))) (p : Page) (n : Nat) : Keeps s (s.openShadow l p n) :=
  .same rfl rfl rfl
theorem keeps_mark (s : State) (p : Page) (off c : Nat) : Keeps s (s.mark p off c) := .same rfl rfl rfl
theorem keeps_logPush (s : State) (it : LogItem) : Keeps s (s.logPush it) := by
  unfold State.logPush; split <;> exact .same rfl rfl rfl
theorem keeps_log (s : State) (k c : Nat) (p a : BitVec 12) (g : Byte) (key : Option LogKey) : Keeps s (s.log k c p a g key) :=
  keeps_logPush ..

end Sys2Proof.Machine
end

