-- ==== Sys2Proof/Laws/KeepsEngine.lean ====
section
/-! SUPPORT. What the operations of Machine/Engine.lean keep. -/

namespace Sys2Proof.Machine

@[simp] theorem hist_add_length (h : History) (n : Nat) (e : HistEntry) : (h.add n e).entries.length = h.entries.length := by
  unfold History.add; split
  · simp
  · split <;> simp

/-- Outside RUN every safety output is in trip demand (R193). -/
theorem tripCause_global (s : State) (h : Half) (dem fen : BitVec 112) (n : Nat) (hs : s.dev.state ≠ .run) :
    (s.tripCause h dem fen n).isSome = true := by
  unfold State.tripCause
  extract_lets d e m
  split
  · rfl
  · split
    · rfl
    · rw [if_pos (by simp [State.globalHold, hs])]
      rfl

theorem setTrips_dev (s : State) : s.setTrips.dev = s.dev := by
  unfold State.setTrips; extract_lets; split <;> rfl

theorem keeps_sendLane (s : State) (h : Half) (d : Nat) : Keeps s (s.sendLane h d) := by
  unfold State.sendLane
  split
  · exact Keeps.refl _
  · extract_lets i l
    split
    · exact Keeps.refl _
    · exact Keeps.same rfl rfl rfl

/-- What a message that becomes due leaves: all but the lanes sent and the messages in flight. -/
theorem sendLane_frame (s : State) (h : Half) (d : Nat) :
    s.sendLane h d = { s with trp := { s.trp with laneSent := (s.sendLane h d).trp.laneSent, flight := (s.sendLane h d).trp.flight } } := by
  unfold State.sendLane
  split
  · rfl
  · extract_lets i l
    split <;> rfl

theorem sendLanes_frame (s : State) :
    s.sendLanes = { s with trp := { s.trp with laneSent := s.sendLanes.trp.laneSent, flight := s.sendLanes.trp.flight } } := by
  unfold State.sendLanes
  rw [sendLane_frame (((s.sendLane .c 0).sendLane .d 0).sendLane .c 1), sendLane_frame ((s.sendLane .c 0).sendLane .d 0),
    sendLane_frame (s.sendLane .c 0), sendLane_frame s]

theorem keeps_sendLanes (s : State) : Keeps s s.sendLanes :=
  (keeps_sendLane ..).trans ((keeps_sendLane ..).trans ((keeps_sendLane ..).trans (keeps_sendLane ..)))

theorem sendLanes_dev (s : State) : s.sendLanes.dev = s.dev := by rw [sendLanes_frame]

theorem sendLanes_tl (s : State) : s.sendLanes.trp.tlC = s.trp.tlC ∧ s.sendLanes.trp.tlD = s.trp.tlD := by
  rw [sendLanes_frame]; exact ⟨rfl, rfl⟩

theorem updateTrips_dev (s : State) : s.updateTrips.dev = s.dev := (sendLanes_dev _).trans (setTrips_dev s)

/-- After an update GLOBAL holds every latch outside RUN, whatever the state before (R189, R193). -/
theorem setTrips_tl (s : State) (hs : s.dev.state ≠ .run) :
    s.setTrips.trp.tlC = BitVec.allOnes 48 ∧ s.setTrips.trp.tlD = BitVec.allOnes 48 := by
  have h1 : vecOf 48 (fun n => (s.tripCause .c (s.demandVec .c) s.fencedInputs n).isSome) = BitVec.allOnes 48 :=
    vecOf_true fun i _ => tripCause_global s _ _ _ i hs
  have h2 : vecOf 48 (fun n => (s.tripCause .d (s.demandVec .d) s.fencedInputs n).isSome) = BitVec.allOnes 48 :=
    vecOf_true fun i _ => tripCause_global s _ _ _ i hs
  have e : ∀ a : BitVec 48, a ||| BitVec.allOnes 48 = BitVec.allOnes 48 := fun a => BitVec.or_allOnes
  unfold State.setTrips
  extract_lets demC demD fen mem tripC tripD newC newD src t
  have ht : t.tlC = BitVec.allOnes 48 ∧ t.tlD = BitVec.allOnes 48 :=
    ⟨(congrArg (s.trp.tlC ||| ·) h1).trans (e _), (congrArg (s.trp.tlD ||| ·) h2).trans (e _)⟩
  split
  · exact ht
  · exact ht

theorem updateTrips_held (s : State) : s.updateTrips.tripsHeld = true := by
  have hd := updateTrips_dev s
  by_cases h : s.dev.state = .run
  · simp [State.tripsHeld, hd, h]
  · have := setTrips_tl s h
    have hl := sendLanes_tl s.setTrips
    simp [State.tripsHeld, State.updateTrips, State.settleOuts, hl.1, hl.2, this.1, this.2]

/-- A change of STATE or of the latches that ends with the latches held. -/
theorem Keeps.jump {s x y0 y : State} (h : Keeps s x) (k : Keeps y0 y) (hi : y0.ident = x.ident) (ho : y0.otp = x.otp)
    (ha : y0.flash.slotA = x.flash.slotA) (hb : y0.flash.slotB = x.flash.slotB) (hp : y0.pending = x.pending) (hm : y0.mems = x.mems)
    (hs : y0.shape = x.shape) (hst : y0.dev.straps = x.dev.straps) (off : s.dev.state = .off → y0.dev.state = .off) (ht : y.tripsHeld = true) : Keeps s y :=
  ⟨k.ident.trans (hi.trans h.ident), k.otp.trans (ho.trans h.otp), k.slotA.trans (ha.trans h.slotA), k.slotB.trans (hb.trans h.slotB),
    k.pending.trans (hp.trans h.pending), k.off ∘ off, fun _ => ht,
    fun w => k.mem (by have := h.mem w; rw [memOk_eq] at this ⊢; rwa [hm]),
    fun w => k.shape (by have := h.shape w; rw [shaped_iff] at this ⊢; rwa [hs]), k.straps.trans (hst.trans h.straps)⟩

theorem countEntries_frame (s : State) : s.countEntries = { s with hdrs := s.countEntries.hdrs, prog := { s.prog with counted := true } } := rfl
theorem cutFrame_dev (s : State) : s.cutFrame.dev = s.dev := by unfold State.cutFrame; split <;> rfl
theorem stopBoundaries_dev (s : State) : s.stopBoundaries.dev = s.dev := cutFrame_dev s
theorem stopBoundaries_crb (s : State) : s.stopBoundaries.crb = s.crb := by
  show s.cutFrame.crb = s.crb
  unfold State.cutFrame; split <;> rfl
theorem abortPort_dev (s : State) (n : Nat) (sel : Txn → Bool) : (s.abortPort n sel).dev = s.dev := by
  unfold State.abortPort; simp
theorem abortAll_dev (s : State) (sel : Txn → Bool) : (s.abortAll sel).dev = s.dev := by
  simp only [State.abortAll, abortPort_dev]
theorem foldl_log_hps (key : Option LogKey) (l : List (BitVec 12 × BitVec 12)) (s : State) :
    (l.foldl (fun t f => t.log 5 1 f.1 f.2 0 key) s).hps = s.hps := by
  induction l generalizing s with
  | nil => rfl
  | cons a l ih => exact (ih _).trans (log_hps ..)

theorem allPages_length : allPages.length = 53 := by decide
theorem resetHdrs_shaped : State.reset.hdrs.map Hdr.shaped = List.replicate 53 true := by decide

/-- A page's header has the shape of all headers. -/
theorem hdr_shaped {s : State} (h : s.shaped = true) (p : Page) (hi : p.index < 53) : (s.hdr p).shaped = true := by
  simp only [State.shaped, Bool.and_eq_true, beq_iff_eq, List.all_eq_true] at h
  have hp : p.index < s.hdrs.length := by
    omega
  unfold State.hdr
  rw [List.getD_eq_getElem _ _ hp]
  exact h.1.1.1.1.1.1.1.1.1.1.2 _ (List.getElem_mem hp)

theorem keeps_settleOuts (s : State) : Keeps s (State.settleOuts s) := by
  unfold State.settleOuts
  exact Keeps.same rfl rfl (by simp [State.shape])

theorem keeps_setTrips (s : State) : Keeps s s.setTrips := by
  refine ⟨?_, ?_, ?_, ?_, ?_, fun h => by rwa [setTrips_dev], fun h => ?_, fun h => ?_, fun h => ?_, by rw [setTrips_dev]⟩
  rotate_left 5
  · by_cases hs : s.dev.state = .run
    · simp [State.tripsHeld, setTrips_dev, hs]
    · have := setTrips_tl s hs
      simp [State.tripsHeld, this.1, this.2]
  · unfold State.setTrips; extract_lets; split <;> exact h
  · unfold State.setTrips; extract_lets; split
    · exact h
    · exact (keeps_setCounter _ _ _ _).shape h
  all_goals (unfold State.setTrips; extract_lets; split <;> rfl)

theorem keeps_updateTrips (s : State) : Keeps s (State.updateTrips s) := by
  unfold State.updateTrips
  exact (keeps_setTrips ..).trans ((keeps_sendLanes _).trans (keeps_settleOuts _))

theorem keeps_endStall (s : State) : Keeps s s.endStall := by
  unfold State.endStall
  split
  · exact Keeps.refl _
  · extract_lets n s1
    have h1 : Keeps s s1 := (keeps_addCounter ..).trans (keeps_addCounter ..)
    clear_value s1
    exact h1.trans (Keeps.same rfl rfl rfl)

theorem keeps_countEntries (s : State) : Keeps s s.countEntries :=
  ((keeps_setCounter ..).trans (keeps_maxCounter ..)).trans (.same rfl rfl rfl)

theorem keeps_cutFrame (s : State) : Keeps s s.cutFrame := by
  unfold State.cutFrame
  split
  · exact keeps_countEntries _
  · exact Keeps.refl _

theorem cutOff_mems (c : Chan) : c.cutOff.lsm = c.lsm ∧ c.cutOff.icache = c.icache ∧ c.cutOff.kcache = c.kcache := by
  unfold Chan.cutOff
  split <;> exact ⟨rfl, rfl, rfl⟩

theorem keeps_stopBoundaries (s : State) : Keeps s (State.stopBoundaries s) := by
  unfold State.stopBoundaries
  extract_lets cut x0 x1 x2
  have hx0 : Keeps s x0 := by
    unfold x0
    exact (keeps_cutFrame s).trans (keeps_addCounter ..)
  clear_value x0
  refine hx0.trans (Keeps.memory rfl (by simp [State.shape]) fun w => ?_)
  rw [memOk_eq] at w ⊢
  simp only [Mems.ok, Bool.and_eq_true] at w ⊢
  refine ⟨?_, rfl⟩
  simpa [State.mems, (cutOff_mems x0.cope).1, (cutOff_mems x0.cope).2.1, (cutOff_mems x0.cope).2.2, (cutOff_mems x0.drag).1,
    (cutOff_mems x0.drag).2.1, (cutOff_mems x0.drag).2.2] using w.1

theorem keeps_releaseHeld (s : State) : Keeps s s.releaseHeld := .same rfl rfl (by simp [State.releaseHeld, State.shape])

/-- A change of STATE keeps all but OFF. -/
theorem Keeps.change {r s : State} (h : Keeps r s) (st : DevState) (page : BitVec 12) (key : Option LogKey)
    (hoff : r.dev.state = .off → st = .off) : Keeps r (s.changeState st page key) := by
  unfold State.changeState
  extract_lets old s1 src1 src2 src3 s2 s3' s3
  have h1 : Keeps s s1 := by
    unfold s1; split
    · exact Keeps.refl _
    · exact keeps_stopBoundaries ..
  have hd : s2.dev.state = st := rfl
  have h3 : Keeps s2 (s3.mark .dev 0x120 0).updateTrips := by
    have h2 : Keeps s2 s3' := by
      unfold s3'; split
      · exact Keeps.refl _
      · exact keeps_releaseHeld _
    refine Keeps.trans (h2.trans ?_) ((keeps_mark ..).trans (keeps_updateTrips _))
    unfold s3; split
    · exact Keeps.refl _
    · exact keeps_log ..
  refine Keeps.jump (h.trans h1) h3 rfl rfl rfl rfl rfl ?_ rfl rfl (fun h => by rw [hd]; exact hoff h) (updateTrips_held _)
  have : s2.crb.mem = s1.crb.mem := by
    simp only [s2]; split
    · rfl
    · split <;> rfl
  simp only [State.mems, this]
  rfl

theorem keeps_changeState (s : State) (st : DevState) (page : BitVec 12) (key : Option LogKey) (hoff : s.dev.state = .off → st = .off) :
    Keeps s (s.changeState st page key) := (Keeps.refl s).change st page key hoff

theorem keeps_enterLoad (s : State) (page : BitVec 12) (hoff : s.dev.state ≠ .off) : Keeps s (s.enterLoad page) := by
  unfold State.enterLoad
  refine (keeps_changeState s .load page none fun h => absurd h hoff).trans ?_
  generalize s.changeState .load page = t
  exact Keeps.same rfl rfl (by simp [State.shape, Function.comp_def, Hdr.shaped])

theorem keeps_abortPort (s : State) (n : Nat) (sel : Txn → Bool) : Keeps s (State.abortPort s n sel) := by
  unfold State.abortPort
  extract_lets x0 x1 x2
  have hx2 : Keeps s x2 := by
    unfold x2
    exact keeps_updHp ..
  clear_value x2
  refine Keeps.trans ?_ (keeps_addCounter _ _ _ _)
  assumption

theorem keeps_abortAll (s : State) (sel : Txn → Bool) : Keeps s (State.abortAll s sel) := by
  unfold State.abortAll
  refine Keeps.trans ?_ (keeps_abortPort _ _ _)
  refine Keeps.trans ?_ (keeps_abortPort _ _ _)
  refine Keeps.trans ?_ (keeps_abortPort _ _ _)
  exact keeps_abortPort ..

theorem keeps_resetPort (s : State) (n : Nat) : Keeps s (State.resetPort s n) := by
  unfold State.resetPort
  refine Keeps.trans ?_ (keeps_updHp _ _ _)
  exact keeps_abortPort ..

theorem keeps_setLatch (s : State) (e : Ev) : Keeps s (State.setLatch s e) := by
  unfold State.setLatch
  extract_lets s1
  have h1 : Keeps s s1 := by
    unfold s1
    split <;> exact keeps_mark ..
  clear_value s1
  refine h1.trans ?_
  split
  · exact keeps_updInp ..
  · exact keeps_updOut ..
  · exact keeps_updPulse ..
  · exact keeps_updHdr _ _ _ fun _ => rfl

theorem keeps_takeBack (s : State) : Keeps s s.takeBack := by
  unfold State.takeBack
  split
  · next h =>
    refine ⟨rfl, rfl, rfl, rfl, rfl, fun w => by simp [w] at h, fun w => ?_, id, id, rfl⟩
    have hr : s.dev.state ≠ .run := fun e => by simp [e] at h
    simp only [State.tripsHeld, Bool.or_eq_true, beq_iff_eq, hr, false_or] at w ⊢
    exact Or.inr w
  · exact Keeps.refl _

theorem keeps_noteFv (s : State) (e : Ev) : Keeps s (s.noteFv e) := by
  unfold State.noteFv
  split
  · split
    · exact keeps_updOutBank ..
    · exact Keeps.refl _
  · exact Keeps.refl _

theorem keeps_unpublish (s : State) : Keeps s s.unpublish := by
  unfold State.unpublish
  split
  · exact Keeps.refl _
  · next h =>
    refine Keeps.memory rfl (by simp [State.shape]) fun w => ?_
    simp only [State.memOk, Bool.and_eq_true, h, Option.all_some, Option.all_none] at w ⊢
    refine ⟨⟨⟨⟨⟨w.1.1.1.1.1, w.2⟩, w.1.1.1.2⟩, w.1.1.2⟩, ?_⟩, trivial⟩
    have k := List.all_eq_true.1 w.1.2
    refine List.all_eq_true.2 fun x hx => ?_
    obtain ⟨i, hi, rfl⟩ := List.mem_mapIdx.1 hx
    exact k s.spbs[i] (List.getElem_mem hi)

theorem keeps_channelCause (s : State) : Keeps s s.channelCause := by
  unfold State.channelCause
  extract_lets p1 s1 s2
  have h1 : Keeps s s1 := by
    unfold s1; split
    · exact Keeps.same rfl rfl rfl
    · exact Keeps.refl _
  split
  · have h2 : Keeps s s2 := h1.trans (keeps_unpublish _)
    split
    · exact h2.trans (Keeps.same rfl rfl rfl)
    · exact h2
  · exact h1

theorem keeps_record (s : State) (e : Ev) : Keeps s (s.record e).1 := by
  unfold State.record
  extract_lets p h sh cl r wasOpen cls taken origin inc serial conseq shown s1 s2 s3 unit w s4 sn s5 src' s6
  have h1 : Keeps s s1 := keeps_setLatch ..
  have h2 : Keeps s1 s2 := keeps_updHdr _ _ _ fun x => by
    simp only [Hdr.shaped, hist_add_length]
    split <;> rfl
  have h3 : Keeps s2 s3 := by
    unfold s3; split
    · exact Keeps.refl _
    · exact keeps_updHdr _ _ _ fun x => by dsimp only; split <;> rfl
  have h4 : Keeps s3 sn := (keeps_logPush ..).trans (keeps_noteFv ..)
  have h5 : Keeps sn s5 := by
    unfold s5; split
    · exact keeps_channelCause _
    · exact Keeps.refl _
  have h6 : Keeps s5 s6 := by
    unfold s6; split
    · exact Keeps.same rfl rfl rfl
    · exact Keeps.refl _
  exact h1.trans (h2.trans (h3.trans (h4.trans (h5.trans h6))))

theorem keeps_trapPending (s : State) (p : Page) : Keeps s (State.trapPending s p) := by
  unfold State.trapPending
  extract_lets x0
  exact Keeps.same rfl rfl rfl

theorem keeps_stopTrap (s : State) : Keeps s (State.stopTrap s) := by
  unfold State.stopTrap
  extract_lets x0 x1 x2
  refine (keeps_endStall s).trans ?_
  exact Keeps.same rfl (by simp +zetaDelta [State.mems, apply_ite Chan.lsm, apply_ite Chan.icache, apply_ite Chan.kcache]) rfl

theorem endStall_dev (s : State) : s.endStall.dev = s.dev := by unfold State.endStall; split <;> rfl
theorem stopTrap_dev (s : State) : s.stopTrap.dev = s.dev := endStall_dev s

/-- The stop trap with STATE left by a cause of R36. -/
theorem keeps_trapR36 (s : State) (d : Dev) (hd : d = { s.dev with safeR36 := true }) : Keeps s { s.stopTrap with dev := d } := by
  subst hd
  refine (keeps_stopTrap s).trans (Keeps.same ?_ rfl rfl)
  simp [State.fixed, stopTrap_dev]

theorem keeps_safeStop (s : State) (p : Page) (c : Nat) : Keeps s (s.safeStop p c) := by
  unfold State.safeStop
  extract_lets key r36 s1 src1 src2 s2 src3 src4
  split
  · next h =>
    exact (keeps_changeState s .safe p.num12 key fun h' => by simp [h'] at h).trans (keeps_trapR36 _ _ rfl)
  · next h =>
    have k : Keeps s s1 := keeps_changeState s .safe p.num12 key fun h' => by simp [h'] at h
    have k2 : Keeps s s2 := by
      clear_value s1
      exact k.trans (Keeps.same rfl rfl rfl)
    clear_value s2
    split
    · exact k2.trans (keeps_stopTrap _)
    · exact k2
  · split
    · exact keeps_trapR36 s _ rfl
    · exact Keeps.refl _
  · split
    · exact keeps_stopTrap s
    · exact Keeps.refl _
  · exact Keeps.refl _

theorem keeps_stopTaken (s : State) : Keeps s s.stopTaken := .same rfl rfl rfl

theorem enterStart_hps_length (s : State) (cause : BitVec 4) (page : BitVec 12) (code : BitVec 5) (key : Option LogKey) :
    (s.enterStart cause page code key).hps.length = s.hps.length := by
  unfold State.enterStart
  exact (congrArg List.length (foldl_log_hps _ _ _)).trans (by simp)

theorem enterStart_otp (s : State) (cause : BitVec 4) (page : BitVec 12) (code : BitVec 5) (key : Option LogKey) :
    (s.enterStart cause page code key).otp = s.otp := by
  unfold State.enterStart
  exact (Keeps.foldl (fun _ _ => keeps_log ..) _ _).otp

theorem enterStart_straps (s : State) (cause : BitVec 4) (page : BitVec 12) (code : BitVec 5) (key : Option LogKey) :
    (s.enterStart cause page code key).dev.straps = s.dev.straps := by
  unfold State.enterStart
  exact (Keeps.foldl (fun _ _ => keeps_log ..) _ _).straps

/-- START begins: everything the device keeps is kept, and GLOBAL holds. -/
theorem kept_enterStart (s : State) (cause : BitVec 4) (page : BitVec 12) (code : BitVec 5) (key : Option LogKey) :
    Kept s (s.enterStart cause page code key) := by
  unfold State.enterStart
  extract_lets r d1 d2 d3 d4 d5 d6 d7 d8 t
  have k : Keeps t (s.endingFences.foldl (fun t f => t.log 5 1 f.1 f.2 0 key) t) := Keeps.foldl (fun _ _ => keeps_log ..) _ _
  have hm : t.mems = { s.mems with fbs := [], fbsBuf := [], replaced := none, spbs := (s.spbs.map Spb.started).map Spb.mem } := by
    simp [t, r, State.mems, State.reset, Function.comp_def]
  have hb : s.spbs.all (fun b => Mem.wf 0 b.mem) = true → ((s.spbs.map Spb.started).map Spb.mem).all (Mem.wf 0) = true := by
    simp only [List.all_map, List.all_eq_true]
    intro w b hb
    simp only [Function.comp_apply, Spb.started]
    split
    · rfl
    · exact w b hb
  have hsh : s.shape.full → t.shape.full := by
    intro w
    have hd := hdr_shaped ((shaped_iff s).2 w) .dev (by decide)
    have hc : (s.hdr .dev).counters.length = 15 := by
      simp only [Hdr.shaped, Bool.and_eq_true, beq_iff_eq] at hd; exact hd.1
    have hr := resetHdrs_shaped
    have e : ∀ k, (List.replicate 53 true).set k true = List.replicate 53 true := by
      generalize 53 = n
      intro k
      apply List.ext_getElem (by simp)
      intro i h1 h2
      simp
    have c1 : Hdr.shaped { resetHdr .dev with counters := upd (s.hdr .dev).counters 0 satInc
                                              live := flag (s.dev.errDiff != 0) 0 } = true := by
      simp [Hdr.shaped, hc, resetHdr]
    have hh : t.hdrs.map Hdr.shaped = List.replicate 53 true := by
      have h1 : t.hdrs = ((State.reset.hdrs.set 0
        { resetHdr .dev with counters := upd (s.hdr .dev).counters 0 satInc, live := flag (s.dev.errDiff != 0) 0 }).set 1
        { resetHdr .clk with live := flag (!s.clk.refOk) 0 ||| flag (!s.clk.locked) 1 }).set 2
        { resetHdr .sup with live := s.sup.ovLive.setWidth 32 } := rfl
      have c2 : Hdr.shaped { resetHdr .clk with live := flag (!s.clk.refOk) 0 ||| flag (!s.clk.locked) 1 } = true := rfl
      have c3 : Hdr.shaped { resetHdr .sup with live := s.sup.ovLive.setWidth 32 } = true := rfl
      rw [h1, List.map_set, List.map_set, List.map_set, hr, c1, c2, c3, e, e, e]
    simp only [Shape.full, State.shape, Shape.mk.injEq] at w ⊢
    obtain ⟨w1, w2, w3, w4, w5, w6, w7, w8, w9, w10, -⟩ := w
    exact ⟨by simpa [t] using w1, by simp [t, r, State.reset], by simpa [t] using w3, by simpa [t] using w4,
      by simp [t, r, State.reset], by simpa [t] using w6, by simpa [t] using w7, by simpa [t] using w8,
      by simpa [t] using w9, by simpa [t] using w10, hh⟩
  exact ⟨k.ident, k.slotA, k.slotB, k.pending, fun _ => k.trips rfl, fun w => k.mem (by
      rw [memOk_eq, hm]
      simp only [State.memOk, Mems.ok, State.mems, Bool.and_eq_true] at w ⊢
      exact ⟨⟨⟨⟨⟨w.1.1.1.1.1, rfl⟩, rfl⟩, w.1.1.2⟩, hb w.1.2⟩, rfl⟩),
    fun w => k.shape (by rw [shaped_iff] at w ⊢; exact hsh w)⟩

/-- START is entered from a state that is not OFF. -/
theorem Keeps.start {s t : State} (h : Keeps s t) (hoff : s.dev.state ≠ .off) (cause : BitVec 4) (page : BitVec 12) (code : BitVec 5)
    (key : Option LogKey) : Keeps s (t.enterStart cause page code key) :=
  have k := kept_enterStart t cause page code key
  ⟨k.ident.trans h.ident, (enterStart_otp ..).trans h.otp, k.slotA.trans h.slotA, k.slotB.trans h.slotB, k.pending.trans h.pending,
    fun e => absurd e hoff, fun _ => k.trips (h.trips ‹_›), fun w => k.mem (h.mem w), fun w => k.shape (h.shape w),
    (enterStart_straps ..).trans h.straps⟩

theorem keeps_enterStart (s : State) (cause : BitVec 4) (page : BitVec 12) (code : BitVec 5) (key : Option LogKey) (hoff : s.dev.state ≠ .off) :
    Keeps s (s.enterStart cause page code key) := (Keeps.refl s).start hoff cause page code key

theorem keeps_otpEvent (s : State) : Keeps s (State.otpEvent s) := by
  unfold State.otpEvent
  extract_lets x0
  have hx0 : Keeps s x0.1 := by
    unfold x0
    exact keeps_record ..
  clear_value x0
  split
  · refine Keeps.trans ?_ (keeps_openShadow _ _ _ _)
    refine Keeps.trans ?_ (keeps_safeStop _ _ _)
    assumption
  · assumption

theorem keeps_step1End (s : State) : Keeps s (State.step1End s) := by
  unfold State.step1End
  split
  · extract_lets x0 x1
    have hx1 : Keeps s x1 := by
      unfold x1
      exact Keeps.same rfl rfl rfl
    clear_value x1
    split
    · refine Keeps.trans ?_ (keeps_otpEvent _)
      assumption
    · assumption
  · exact Keeps.refl _

theorem keeps_chipReset (s : State) (p : Page) (c : Nat) : Keeps s (s.chipReset p c) := by
  unfold State.chipReset
  split
  · exact Keeps.refl _
  · next h =>
    split
    · exact keeps_safeStop ..
    · extract_lets s1 s2 s3 t0 ct t
      have h1 : Keeps s s3 := (keeps_takeBack s).trans ((keeps_stopBoundaries _).trans ((keeps_abortAll _ _).trans (keeps_log ..)))
      have h2 : Keeps s t0 := h1.start (fun e => by simp [e] at h) _ _ _ _
      have hl : t0.hps.length = s3.hps.length := enterStart_hps_length ..
      have h3 : Keeps t0 t := by
        clear_value t0 s3
        exact Keeps.same rfl rfl (by simp [State.shape, t, hl])
      exact (h2.trans h3).trans ((keeps_updateTrips _).trans (keeps_step1End _))

theorem keeps_reactStop (s : State) (p : Page) (c : Nat) (taken : BitVec 4) (origin : Page) (serial : Nat) : Keeps s (State.reactStop s p c taken origin serial) := by
  unfold State.reactStop
  split
  · refine Keeps.trans ?_ (keeps_openShadow _ _ _ _)
    split
    · exact Keeps.refl _
    · exact (keeps_stopTaken s).trans (keeps_safeStop ..)
  · split
    · exact ((keeps_stopTaken s).trans (keeps_safeStop ..)).trans (keeps_openShadow _ _ _ _)
    · refine Keeps.trans ?_ (keeps_openShadow _ _ _ _)
      exact keeps_chipReset ..
  · exact Keeps.refl _

theorem keeps_fenceBank (s : State) (b : Nat) (key : Option LogKey) : Keeps s (State.fenceBank s b key) := by
  unfold State.fenceBank
  extract_lets x0 x1
  have hx0 : Keeps s x0 := by
    unfold x0
    exact keeps_updInBank ..
  have hx1 : Keeps s x1 := by
    unfold x1
    refine Keeps.trans ?_ (keeps_log _ _ _ _ _ _ _)
    assumption
  clear_value x1
  clear_value x0
  refine Keeps.trans ?_ (keeps_updateTrips _)
  refine Keeps.trans ?_ (keeps_abortAll _ _)
  assumption

theorem keeps_fenceDie (s : State) (d : Nat) (key : Option LogKey) : Keeps s (State.fenceDie s d key) := by
  unfold State.fenceDie
  extract_lets x0 x1 x2
  have hx0 : Keeps s x0 := by
    unfold x0
    exact keeps_updBar ..
  have hx1 : Keeps s x1 := by
    unfold x1
    refine Keeps.trans ?_ (keeps_log _ _ _ _ _ _ _)
    assumption
  clear_value x1
  clear_value x0
  refine Keeps.trans ?_ (keeps_updateTrips _)
  refine Keeps.trans ?_ (keeps_abortAll _ _)
  assumption

theorem keeps_targetFenced (s : State) (n : Nat) : Keeps s (s.targetFenced n) := by
  refine Keeps.same rfl rfl ?_
  simp only [State.targetFenced, State.shape, List.map_map]
  congr 2
  funext h
  simp only [Function.comp_apply]
  split <;> rfl

theorem keeps_fencePort (s : State) (n : Nat) (key : Option LogKey) : Keeps s (State.fencePort s n key) := by
  unfold State.fencePort
  extract_lets x0
  have hx0 : Keeps s x0 := by
    unfold x0
    refine Keeps.trans ?_ (keeps_updHp _ _ _)
    exact keeps_resetPort ..
  clear_value x0
  refine Keeps.trans ?_ (keeps_targetFenced _ _)
  refine Keeps.trans ?_ (keeps_log _ _ _ _ _ _ _)
  assumption

theorem keeps_endJob (s : State) (c : Nat) (res : BitVec 4) : Keeps s (State.endJob s c res) := by
  unfold State.endJob
  refine Keeps.trans ?_ (keeps_bump _ _ _)
  exact keeps_updCtx ..

theorem keeps_endJobs (s : State) (cs : List Nat) (res : BitVec 4) : Keeps s (State.endJobs s cs res) := by
  unfold State.endJobs
  refine Keeps.trans ?_ (Keeps.foldl (fun s0 a1 => ?_) _ _)
  · exact Keeps.refl _
  · extract_lets x2 x3
    have hx2 : Keeps s0 x2 := by
      unfold x2
      exact keeps_endJob ..
    have hx3 : Keeps s0 x3.1 := by
      unfold x3
      refine Keeps.trans ?_ (keeps_record _ _)
      assumption
    clear_value x3
    clear_value x2
    split
    · split
      · refine Keeps.trans ?_ (keeps_reactStop _ _ _ _ _ _)
        assumption
      · assumption
    · assumption

theorem keeps_fenceSpb (s : State) (k : Nat) (key : Option LogKey) : Keeps s (State.fenceSpb s k key) := by
  unfold State.fenceSpb
  extract_lets x0 x1 x2
  have hx1 : Keeps s x1 := by
    unfold x1
    refine Keeps.trans ?_ (keeps_updSpb _ _ _ ?_)
    · exact Keeps.refl _
    · exact fun _ _ => rfl
  have hx2 : Keeps s x2 := by
    unfold x2
    refine Keeps.trans ?_ (keeps_log _ _ _ _ _ _ _)
    assumption
  clear_value x2
  clear_value x1
  refine Keeps.trans ?_ (keeps_endJobs _ _ _)
  refine Keeps.trans ?_ (keeps_abortAll _ _)
  assumption

theorem keeps_resetSpb (s : State) (k : Nat) : Keeps s (State.resetSpb s k) := by
  unfold State.resetSpb
  extract_lets x0 x1
  have hx1 : Keeps s x1 := by
    unfold x1
    refine Keeps.trans ?_ (keeps_updSpb _ _ _ ?_)
    · exact Keeps.refl _
    · exact fun _ _ => rfl
  clear_value x1
  refine Keeps.trans ?_ (keeps_endJobs _ _ _)
  refine Keeps.trans ?_ (keeps_abortAll _ _)
  assumption

theorem keeps_fenceCtxs (s : State) (cs : List Nat) (key : Option LogKey) : Keeps s (State.fenceCtxs s cs key) := by
  unfold State.fenceCtxs
  extract_lets x0 x1
  have hx1 : Keeps s x1 := by
    unfold x1
    refine Keeps.trans ?_ (Keeps.foldl (fun s2 a3 => ?_) _ _)
    · exact Keeps.refl _
    · extract_lets x4 x5
      have hx4 : Keeps s2 x4 := by
        unfold x4
        exact keeps_updCtx ..
      have hx5 : Keeps s2 x5 := by
        unfold x5
        refine Keeps.trans ?_ (keeps_log _ _ _ _ _ _ _)
        assumption
      clear_value x5
      clear_value x4
      refine Keeps.trans ?_ (keeps_abortAll _ _)
      assumption
  clear_value x1
  refine Keeps.trans ?_ (keeps_endJobs _ _ _)
  assumption

theorem keeps_resetCtxs (s : State) (cs : List Nat) : Keeps s (State.resetCtxs s cs) := by
  unfold State.resetCtxs
  extract_lets x0 x1
  have hx1 : Keeps s x1 := by
    unfold x1
    refine Keeps.trans ?_ (keeps_endJobs _ _ _)
    refine Keeps.trans ?_ (Keeps.foldl (fun s2 a3 => ?_) _ _)
    · exact Keeps.refl _
    · exact keeps_abortAll ..
  clear_value x1
  refine Keeps.trans ?_ (Keeps.foldl (fun s4 a5 => ?_) _ _)
  · assumption
  · exact keeps_updCtx ..

theorem keeps_reactBanks (s : State) (bs : List Nat) (p : Page) (c : Nat) (origin : Page) (serial : Nat) : Keeps s (State.reactBanks s bs p c origin serial) := by
  unfold State.reactBanks
  refine Keeps.trans ?_ (Keeps.foldl (fun s0 a1 => ?_) _ _)
  · exact Keeps.refl _
  · split
    · exact Keeps.refl _
    · refine Keeps.trans ?_ (keeps_openShadow _ _ _ _)
      exact keeps_fenceBank ..

theorem keeps_react (s : State) (p : Page) (c : Nat) (taken : BitVec 4) (origin : Page) (serial : Nat) : Keeps s (State.react s p c taken origin serial) := by
  unfold State.react
  extract_lets x0 x1
  split
  · exact keeps_trapPending ..
  · split
    · exact Keeps.refl _
    · refine Keeps.trans ?_ (keeps_openShadow _ _ _ _)
      exact keeps_resetPort ..
  · split
    · exact Keeps.refl _
    · refine Keeps.trans ?_ (keeps_openShadow _ _ _ _)
      exact keeps_fencePort ..
  · split
    · exact Keeps.refl _
    · refine Keeps.trans ?_ (keeps_resetSpb _ _)
      exact keeps_openShadow ..
  · split
    · exact Keeps.refl _
    · refine Keeps.trans ?_ (keeps_fenceSpb _ _ _)
      exact keeps_openShadow ..
  · refine Keeps.trans ?_ (keeps_resetCtxs _ _)
    exact keeps_openShadow ..
  · refine Keeps.trans ?_ (keeps_fenceCtxs _ _ _)
    exact keeps_openShadow ..
  · exact keeps_reactBanks ..
  · exact keeps_reactBanks ..
  · exact keeps_reactBanks ..
  · split
    · exact Keeps.refl _
    · refine Keeps.trans ?_ (keeps_openShadow _ _ _ _)
      exact keeps_fenceDie ..
  · exact keeps_reactStop ..
  · exact keeps_reactStop ..
  · exact Keeps.refl _

theorem keeps_dieLatch (s : State) (e : Ev) : Keeps s (s.dieLatch e) := by
  unfold State.dieLatch
  extract_lets on
  split
  · exact keeps_setLatch ..
  · exact Keeps.refl _

theorem keeps_recordLate (s : State) (e : Ev) : Keeps s (s.recordLate e) := by
  unfold State.recordLate
  extract_lets b r
  split
  · have k : Keeps b r := keeps_record ..
    refine Keeps.memory rfl rfl fun w => ?_
    have h : r.memOk = true := k.mem w
    simp only [State.memOk, Bool.and_eq_true] at w h ⊢
    tauto
  · exact Keeps.refl _

theorem keeps_raise (s : State) (e : Ev) : Keeps s (State.raise s e) := by
  unfold State.raise
  split
  · exact keeps_dieLatch ..
  split
  · exact Keeps.refl _
  split
  · exact keeps_recordLate ..
  split
  · exact Keeps.refl _
  · extract_lets x0
    have hx0 : Keeps s x0.1 := by
      unfold x0
      exact keeps_record ..
    clear_value x0
    refine Keeps.trans ?_ (keeps_react _ _ _ _ _ _)
    assumption

theorem keeps_onset (s : State) (p : Page) (c : Nat) : Keeps s (State.onset s p c) := by
  unfold State.onset
  refine Keeps.trans ?_ (keeps_raise _ _)
  exact keeps_setLive ..

theorem keeps_failJob (s : State) (c : Nat) (res : BitVec 4) : Keeps s (State.failJob s c res) := by
  unfold State.failJob
  refine Keeps.trans ?_ (keeps_raise _ _)
  exact keeps_endJob ..

end Sys2Proof.Machine
end

