-- ==== Sys2Proof/Laws/Grows.lean ====
section
/-! SUPPORT. What an event and its reaction keep, as one relation between the state before and the state after: the units no reaction
acts on, every latched cause, and the absence of CHIP_RESET. -/

namespace Sys2Proof.Machine

/-- The parts of the device that no reaction but CHIP_RESET acts on. -/
structure Rest where
  ident : Ident
  otp : Otp
  clk : Clk
  sup : Sup
  frm : Frm
  comps : List Comparator
  pwl : Pwl
  img : Img
  flash : Flash
  own : Own
  bst : Bst
  fbsBuf : Mem
  jtag : Jtag
  free : Nat
  pending : List Instr
  crucible : Mem
  valid : Bool
  eccAddr : Word
  cope : Chan
  drag : Chan
  cmp : Cmp
  prog : Progress
  log : Mem
  outBanks : List OutBank
  trp : Trp

def State.rest (s : State) : Rest :=
  { ident := s.ident, otp := s.otp, clk := s.clk, sup := s.sup, frm := { s.frm with result := 0 }, comps := s.comps, pwl := s.pwl
    img := s.img, flash := s.flash, own := s.own, bst := s.bst, fbsBuf := s.fbsBuf, jtag := s.jtag, free := s.free
    pending := s.pending, crucible := s.crb.mem, valid := s.crb.valid, eccAddr := s.crb.eccAddr
    cope := s.cope.held, drag := s.drag.held, cmp := { s.cmp with active := false }, prog := s.prog.quiet
    log := s.evl.mem, outBanks := s.outBanks.map OutBank.quiet, trp := s.trp.held }

/-- What only a channel cause of the cycle of COMMIT_AT touches (R93, R157). -/
structure Decided where
  frm : Frm
  chk : Chk
  fbs : Mem
  strobe : Strobe
  replaced : Option (Mem × (Word × Word × BitVec 16) × List Word)

def State.decided (s : State) : Decided :=
  { frm := s.frm, chk := s.chk, fbs := s.fbs, strobe := s.prog.strobe, replaced := s.prog.replaced }

/-- What an event and its reaction keep. -/
structure Grows (s t : State) : Prop where
  rest : t.rest = s.rest
  decided : s.prog.decidedAt ≠ some s.frm.tb → t.decided = s.decided
  hdr : ∀ p c, (s.hdr p).latch.getLsbD c = true → (t.hdr p).latch.getLsbD c = true
  inp : ∀ i c, (s.inp i).latch.getLsbD c = true → (t.inp i).latch.getLsbD c = true
  out : ∀ o c, (s.out o).latch.getLsbD c = true → (t.out o).latch.getLsbD c = true
  ps : ∀ k c, (s.pulse k).latch.getLsbD c = true → (t.pulse k).latch.getLsbD c = true
  hold : ∀ o, (s.out o).hold = true → (t.out o).hold = true
  psHold : ∀ k, (s.pulse k).hold = true → (t.pulse k).hold = true
  chip : s.noChipReset = true → t.noChipReset = true
  state : s.dev.state ≠ .start → s.dev.state ≠ .run → t.dev.state = s.dev.state

theorem Grows.refl (s : State) : Grows s s := ⟨rfl, fun _ => rfl, fun _ _ h => h, fun _ _ h => h, fun _ _ h => h, fun _ _ h => h, fun _ h => h, fun _ h => h, id, fun _ _ => rfl⟩

/-- The cycle and the decision of the frame stay as they are. -/
theorem Grows.when {s t : State} (h : Grows s t) : t.prog.decidedAt = s.prog.decidedAt ∧ t.frm.tb = s.frm.tb :=
  ⟨congrArg (fun r => r.prog.decidedAt) h.rest, congrArg (fun r => r.frm.tb) h.rest⟩

theorem Grows.trans {s t u : State} (h : Grows s t) (k : Grows t u) : Grows s u :=
  ⟨k.rest.trans h.rest, fun w => (k.decided (by rwa [h.when.1, h.when.2])).trans (h.decided w), fun p c w => k.hdr p c (h.hdr p c w), fun p c w => k.inp p c (h.inp p c w),
    fun p c w => k.out p c (h.out p c w), fun p c w => k.ps p c (h.ps p c w), fun o w => k.hold o (h.hold o w), fun o w => k.psHold o (h.psHold o w), k.chip ∘ h.chip,
    fun h1 h2 => (k.state (by rwa [h.state h1 h2]) (by rwa [h.state h1 h2])).trans (h.state h1 h2)⟩

/-- An operation that touches no latch. -/
theorem Grows.same {s t : State} (hr : t.rest = s.rest) (hh : t.hdrs = s.hdrs) (hi : t.ins = s.ins) (ho : t.outs = s.outs)
    (hp : t.ps = s.ps) (hd : t.dev.state = s.dev.state) (hc : s.prog.decidedAt ≠ some s.frm.tb → t.decided = s.decided := by exact fun _ => rfl) :
    Grows s t :=
  ⟨hr, hc, fun p c w => by simpa [State.hdr, hh] using w, fun p c w => by simpa [State.inp, hi] using w,
    fun p c w => by simpa [State.out, ho] using w, fun p c w => by simpa [State.pulse, hp] using w,
    fun o w => by simpa [State.out, ho] using w, fun k w => by simpa [State.pulse, hp] using w,
    fun w => by simpa [State.noChipReset, hh] using w, fun _ _ => hd⟩

/-- A fold of an operation. -/
theorem Grows.foldl {α : Type} {f : State → α → State} (hf : ∀ s a, Grows s (f s a)) (l : List α) (s : State) :
    Grows s (l.foldl f s) := by
  induction l generalizing s with
  | nil => exact Grows.refl s
  | cons a l ih => exact (hf s a).trans (ih _)

theorem latchFold_mono {α : Type} {n : Nat} (l : List α) (f g : α → BitVec n) (c : Nat)
    (h : ∀ a, (f a).getLsbD c = true → (g a).getLsbD c = true) (v w : BitVec 32) (hv : v.getLsbD c = true → w.getLsbD c = true) :
    (l.foldl (fun x a => x ||| (f a).setWidth 32) v).getLsbD c = true → (l.foldl (fun x a => x ||| (g a).setWidth 32) w).getLsbD c = true := by
  induction l generalizing v w with
  | nil => exact hv
  | cons a l ih =>
    refine ih _ _ fun hx => ?_
    simp only [BitVec.getLsbD_or, BitVec.getLsbD_setWidth, Bool.or_eq_true, Bool.and_eq_true] at hx ⊢
    rcases hx with hx | hx
    · exact .inl (hv hx)
    · exact .inr ⟨hx.1, h a hx.2⟩

/-- A cause that FLT_LATCH shows stays shown. -/
theorem Grows.shows {s t : State} (k : Grows s t) (p : Page) (c : Nat) (h : s.shows p c = true) : t.shows p c = true := by
  unfold State.shows State.latchOf at h ⊢
  rw [BitVec.getLsbD_or, Bool.or_eq_true] at h ⊢
  rcases h with h | h
  · exact .inl (k.hdr p c h)
  · right
    split at h
    · next b =>
      exact latchFold_mono _ (fun k => (s.inp (inputOf b k)).latch) (fun k => (t.inp (inputOf b k)).latch) c (fun _ => k.inp _ c) _ _ id h
    · next b =>
      exact latchFold_mono _ (fun k => (s.out (outputOf b k)).latch) (fun k => (t.out (outputOf b k)).latch) c (fun _ => k.out _ c) _ _ id h
    · exact latchFold_mono _ (fun k => (s.pulse k).latch) (fun k => (t.pulse k).latch) c (fun _ => k.ps _ c) _ _ id h
    · exact absurd h (by simp)

theorem Grows.quiet {s t : State} (k : Grows s t) : Quiet s t := by
  have := k.rest
  simp only [State.rest, Rest.mk.injEq] at this
  obtain ⟨h1, h2, h3, h4, h5, h6, h7, h8, h9, h10, h11, h12, h13, h14, h15, h16, h17, h18, h19, h20, h21, h22, h23, h24, h25⟩ := this
  refine ⟨h1, h2, h3, h4, h6, h7, h8, h9, h10, h11, h12, h13, h5, fun w => ?_, h14, h15, h16, h17, h18, h19, h20, h21, h22, h23, h24, h25,
    k.shows⟩
  have := k.decided w
  simp only [State.decided, Decided.mk.injEq] at this
  exact this

/-! The updates of tables. -/

theorem grows_updHdr (s : State) (p : Page) (f : Hdr → Hdr) (hl : ∀ x c, x.latch.getLsbD c = true → (f x).latch.getLsbD c = true)
    (hr : ∀ x, (f x).reactMinor = x.reactMinor ∧ (f x).reactSevere = x.reactSevere) : Grows s (s.updHdr p f) := by
  refine ⟨rfl, fun _ => rfl, fun q c w => ?_, fun _ _ h => h, fun _ _ h => h, fun _ _ h => h, fun _ h => h, fun _ h => h, fun w => ?_, fun _ _ => rfl⟩
  · unfold State.hdr at w ⊢
    rw [updHdr_hdrs, getD_upd]
    split
    · exact hl _ _ w
    · exact w
  · exact all_upd _ _ _ _ (fun x hx => by rw [(hr x).1, (hr x).2]; exact hx) w

theorem grows_updInp (s : State) (i : Nat) (f : Input → Input) (hl : ∀ x c, x.latch.getLsbD c = true → (f x).latch.getLsbD c = true) :
    Grows s (s.updInp i f) := by
  refine ⟨rfl, fun _ => rfl, fun _ _ h => h, fun q c w => ?_, fun _ _ h => h, fun _ _ h => h, fun _ h => h, fun _ h => h, id, fun _ _ => rfl⟩
  unfold State.inp at w ⊢
  rw [updInp_ins, getD_upd]
  split
  · exact hl _ _ w
  · exact w

theorem grows_updOut (s : State) (o : Nat) (f : Output → Output) (hl : ∀ x c, x.latch.getLsbD c = true → (f x).latch.getLsbD c = true)
    (hh : ∀ x, x.hold = true → (f x).hold = true) : Grows s (s.updOut o f) := by
  refine ⟨rfl, fun _ => rfl, fun _ _ h => h, fun _ _ h => h, fun q c w => ?_, fun _ _ h => h, fun q w => ?_, fun _ h => h, id, fun _ _ => rfl⟩
  · unfold State.out at w ⊢
    rw [updOut_outs, getD_upd]
    split
    · exact hl _ _ w
    · exact w
  · unfold State.out at w ⊢
    rw [updOut_outs, getD_upd]
    split
    · exact hh _ w
    · exact w

theorem grows_updPulse (s : State) (k : Nat) (f : PulseSource → PulseSource)
    (hl : ∀ x c, x.latch.getLsbD c = true → (f x).latch.getLsbD c = true) (hh : ∀ x, x.hold = true → (f x).hold = true) :
    Grows s (s.updPulse k f) := by
  refine ⟨rfl, fun _ => rfl, fun _ _ h => h, fun _ _ h => h, fun _ _ h => h, fun q c w => ?_, fun _ h => h, fun q w => ?_, id, fun _ _ => rfl⟩
  · unfold State.pulse at w ⊢
    rw [updPulse_ps, getD_upd]
    split
    · exact hl _ _ w
    · exact w
  · unfold State.pulse at w ⊢
    rw [updPulse_ps, getD_upd]
    split
    · exact hh _ w
    · exact w

theorem grows_updInBank (s : State) (b : Nat) (f : InBank → InBank) : Grows s (s.updInBank b f) := .same rfl rfl rfl rfl rfl rfl
theorem grows_updBar (s : State) (d : Nat) (f : Bar → Bar) : Grows s (s.updBar d f) := .same rfl rfl rfl rfl rfl rfl
theorem grows_updHp (s : State) (n : Nat) (f : Hp → Hp) : Grows s (s.updHp n f) := .same rfl rfl rfl rfl rfl rfl
theorem grows_updSpb (s : State) (k : Nat) (f : Spb → Spb) : Grows s (s.updSpb k f) := .same rfl rfl rfl rfl rfl rfl
theorem grows_updCtx (s : State) (c : Nat) (f : Ctx → Ctx) : Grows s (s.updCtx c f) := .same rfl rfl rfl rfl rfl rfl
theorem grows_bump (s : State) (p : Page) (off : Nat) : Grows s (s.bump p off) := grows_updHdr _ _ _ (fun _ _ h => h) fun _ => ⟨rfl, rfl⟩
theorem grows_setCounter (s : State) (p : Page) (off : Nat) (w : Word) : Grows s (s.setCounter p off w) :=
  grows_updHdr _ _ _ (fun _ _ h => h) fun _ => ⟨rfl, rfl⟩
theorem grows_maxCounter (s : State) (p : Page) (off : Nat) (w : Word) : Grows s (s.maxCounter p off w) := grows_setCounter ..
theorem grows_addCounter (s : State) (p : Page) (off n : Nat) : Grows s (s.addCounter p off n) := grows_setCounter ..
theorem grows_setLive (s : State) (p : Page) (c : Nat) (b : Bool) : Grows s (s.setLive p c b) :=
  grows_updHdr _ _ _ (fun _ _ h => h) fun _ => ⟨rfl, rfl⟩
theorem grows_openShadow (s : State) (l : List (Page × Word × Option (List Nat))) (p : Page) (n : Nat) : Grows s (s.openShadow l p n) :=
  .same rfl rfl rfl rfl rfl rfl
theorem grows_logPush (s : State) (it : LogItem) : Grows s (s.logPush it) := by
  unfold State.logPush; split <;> exact .same rfl rfl rfl rfl rfl rfl
theorem grows_log (s : State) (k c : Nat) (p a : BitVec 12) (g : Byte) (key : Option LogKey) : Grows s (s.log k c p a g key) :=
  grows_logPush ..

end Sys2Proof.Machine
end

