-- ==== Sys2Proof/Laws/GrowsEngine.lean ====
section
/-! SUPPORT. What the events of Machine/Engine.lean keep. -/

namespace Sys2Proof.Machine

theorem settleOuts_out (s : State) (o : Nat) : (s.settleOuts.out o).latch = (s.out o).latch ∧ (s.settleOuts.out o).hold = (s.out o).hold := by
  unfold State.out State.settleOuts
  by_cases ho : o < s.outs.length
  · rw [List.getD_eq_getElem _ _ ho, List.getD_eq_getElem _ _ (by simpa using ho), List.getElem_mapIdx]
    split <;> exact ⟨rfl, rfl⟩
  · rw [List.getD_eq_default _ _ (by simpa using ho), List.getD_eq_default _ _ (by omega)]
    exact ⟨rfl, rfl⟩

theorem grows_settleOuts (s : State) : Grows s s.settleOuts :=
  ⟨rfl, fun _ => rfl, fun _ _ h => h, fun _ _ h => h, fun o c w => by rw [(settleOuts_out s o).1]; exact w, fun _ _ h => h,
    fun o w => by rw [(settleOuts_out s o).2]; exact w, fun _ h => h, id, fun _ _ => rfl⟩

theorem grows_mark (s : State) (p : Page) (off c : Nat) : Grows s (s.mark p off c) := .same rfl rfl rfl rfl rfl rfl

theorem grows_setTrips (s : State) : Grows s (State.setTrips s) := by
  unfold State.setTrips
  extract_lets
  split
  · exact Grows.same rfl rfl rfl rfl rfl rfl
  · extract_lets s1 c
    have h1 : Grows s s1 := Grows.same rfl rfl rfl rfl rfl rfl
    exact h1.trans (grows_setCounter ..)

theorem grows_sendLanes (s : State) : Grows s s.sendLanes := by
  rw [sendLanes_frame]
  exact Grows.same rfl rfl rfl rfl rfl rfl

theorem grows_updateTrips (s : State) : Grows s (State.updateTrips s) := by
  unfold State.updateTrips
  exact (grows_setTrips s).trans ((grows_sendLanes _).trans (grows_settleOuts _))

theorem grows_abortPort (s : State) (n : Nat) (sel : Txn → Bool) : Grows s (State.abortPort s n sel) := by
  unfold State.abortPort
  extract_lets x0 x1 x2
  have hx2 : Grows s x2 := by
    unfold x2
    exact grows_updHp ..
  clear_value x2
  refine Grows.trans ?_ (grows_addCounter _ _ _ _)
  assumption

theorem grows_abortAll (s : State) (sel : Txn → Bool) : Grows s (State.abortAll s sel) := by
  unfold State.abortAll
  refine Grows.trans ?_ (grows_abortPort _ _ _)
  refine Grows.trans ?_ (grows_abortPort _ _ _)
  refine Grows.trans ?_ (grows_abortPort _ _ _)
  exact grows_abortPort ..

theorem grows_resetPort (s : State) (n : Nat) : Grows s (State.resetPort s n) := by
  unfold State.resetPort
  refine Grows.trans ?_ (grows_updHp _ _ _)
  exact grows_abortPort ..

theorem grows_setLatch (s : State) (e : Ev) : Grows s (State.setLatch s e) := by
  unfold State.setLatch
  extract_lets s1
  have h1 : Grows s s1 := by
    unfold s1; split <;> exact grows_mark ..
  clear_value s1
  refine h1.trans ?_
  split
  · refine Grows.trans ?_ (grows_updInp _ _ _ ?_)
    · exact Grows.refl _
    · (intro x c h; dsimp only; rw [BitVec.getLsbD_or, h]; rfl)
  · refine Grows.trans ?_ (grows_updOut _ _ _ ?_ ?_)
    · exact Grows.refl _
    · (intro x c h; dsimp only; rw [BitVec.getLsbD_or, h]; rfl)
    · exact fun _ h => h
  · refine Grows.trans ?_ (grows_updPulse _ _ _ ?_ ?_)
    · exact Grows.refl _
    · (intro x c h; dsimp only; rw [BitVec.getLsbD_or, h]; rfl)
    · exact fun _ h => h
  · refine Grows.trans ?_ (grows_updHdr _ _ _ ?_ ?_)
    · exact Grows.refl _
    · (intro x c h; dsimp only; rw [BitVec.getLsbD_or, h]; rfl)
    · exact fun _ => ⟨rfl, rfl⟩

theorem grows_outBanks (s : State) (l : List OutBank) (h : l.map OutBank.quiet = s.outBanks.map OutBank.quiet) :
    Grows s { s with outBanks := l } := by
  refine .same ?_ rfl rfl rfl rfl rfl
  simp only [State.rest, h]

theorem grows_noteFv (s : State) (e : Ev) : Grows s (s.noteFv e) := by
  unfold State.noteFv
  split
  · split
    · refine grows_outBanks s _ ?_
      exact map_upd _ _ _ _ fun _ => rfl
    · exact Grows.refl _
  · exact Grows.refl _

theorem grows_unpublish (s : State) (w : s.prog.decidedAt = some s.frm.tb) : Grows s s.unpublish := by
  unfold State.unpublish
  split
  · exact Grows.refl _
  · exact Grows.same rfl rfl rfl rfl rfl rfl fun h => absurd w h

theorem grows_channelCause (s : State) : Grows s s.channelCause := by
  unfold State.channelCause
  extract_lets p1 s1 s2
  have h1 : Grows s s1 := by
    unfold s1; split
    · exact Grows.same rfl rfl rfl rfl rfl rfl
    · exact Grows.refl _
  clear_value s1
  split
  · next w =>
    have w : s1.prog.decidedAt = some s1.frm.tb := by simpa using w
    have h2 : Grows s1 s2 := grows_unpublish s1 w
    have w2 : s2.prog.decidedAt = some s2.frm.tb := by rw [h2.when.1, h2.when.2, w]
    clear_value s2
    split
    · exact h1.trans (h2.trans (Grows.same rfl rfl rfl rfl rfl rfl fun h => absurd w2 h))
    · exact h1.trans h2
  · exact h1

theorem grows_record (s : State) (e : Ev) : Grows s (s.record e).1 := by
  unfold State.record
  extract_lets p h sh cl r wasOpen cls taken origin inc serial conseq shown s1 s2 s3 unit w s4 sn s5 src' s6
  have h1 : Grows s s1 := grows_setLatch ..
  have h2 : Grows s1 s2 := grows_updHdr _ _ _ (fun _ _ h => h) fun _ => ⟨rfl, rfl⟩
  have h3 : Grows s2 s3 := by
    unfold s3; split
    · exact Grows.refl _
    · refine grows_updHdr _ _ _ (fun x c w => ?_) fun x => ?_
      · split <;> exact w
      · split <;> exact ⟨rfl, rfl⟩
  have h4 : Grows s3 sn := (grows_logPush ..).trans (grows_noteFv ..)
  have h5 : Grows sn s5 := by
    unfold s5; split
    · exact grows_channelCause _
    · exact Grows.refl _
  have h6 : Grows s5 s6 := by
    unfold s6; split
    · exact Grows.same rfl rfl rfl rfl rfl rfl
    · exact Grows.refl _
  exact h1.trans (h2.trans (h3.trans (h4.trans (h5.trans h6))))

/-- A state in which no page selects CHIP_RESET takes another reaction (R539, R562). -/
theorem record_taken {s : State} (hn : s.noChipReset = true) (e : Ev) (hf : ∀ r, e.fixed = some r → (r &&& 7).toNat ≠ 6) :
    ((s.record e).2.1 &&& 7).toNat ≠ 6 := by
  have hh : ∀ p, ((s.hdr p).reactMinor &&& 7).toNat ≠ 6 ∧ ((s.hdr p).reactSevere &&& 7).toNat ≠ 6 := by
    intro p
    unfold State.hdr
    by_cases hp : p.index < s.hdrs.length
    · rw [List.getD_eq_getElem _ _ hp]
      simp only [State.noChipReset, List.all_eq_true] at hn
      have := hn _ (List.getElem_mem hp)
      simp only [Bool.and_eq_true, bne_iff_ne] at this
      exact ⟨fun e => this.1 (BitVec.eq_of_toNat_eq e), fun e => this.2 (BitVec.eq_of_toNat_eq e)⟩
    · rw [List.getD_eq_default _ _ (by omega)]
      decide
  unfold State.record
  extract_lets p h sh cl r wasOpen cls taken origin inc serial conseq shown s1 s2 s3 unit w s4 sn s5 src' s6
  show (taken &&& 7).toNat ≠ 6
  have hr : (r &&& 7).toNat ≠ 6 := by
    have h0 : (e.fixed.getD h.classify.2 &&& 7).toNat ≠ 6 := by
      cases he : e.fixed with
      | some x => exact hf x he
      | none =>
        simp only [Option.getD_none, Hdr.classify]
        split
        · exact (hh p).1
        · exact (hh p).2
    unfold r Hdr.ownReaction
    extract_lets x
    split
    · have : ∀ y : BitVec 4, (((y &&& 8) ||| 5) &&& 7).toNat ≠ 6 := by decide
      exact this x
    · exact h0
  unfold taken
  split
  · split
    · exact hr
    · decide
  · split
    · decide
    · exact hr

theorem grows_changeState (s : State) (st : DevState) (page : BitVec 12) (key : Option LogKey) (hb : st.hasBoundaries = true)
    (hs : s.dev.state = .start ∨ s.dev.state = .run) : Grows s (s.changeState st page key) := by
  unfold State.changeState
  rw [if_pos hb]
  extract_lets old s1 src1 src2 src3 s2 s3' s3
  have hc : s2.crb.mem = s.crb.mem ∧ s2.crb.valid = s.crb.valid ∧ s2.crb.eccAddr = s.crb.eccAddr := by
    unfold s2
    dsimp only
    split <;> (try split) <;> exact ⟨rfl, rfl, rfl⟩
  have hr : s2.rest = s.rest := by
    unfold State.rest
    rw [hc.1, hc.2.1, hc.2.2]
  have h2 : Grows s s2 := ⟨hr, fun _ => rfl, fun _ _ h => h, fun _ _ h => h, fun _ _ h => h, fun _ _ h => h, fun _ h => h, fun _ h => h, id,
    fun h1 h2 => by rcases hs with e | e; exact absurd e h1; exact absurd e h2⟩
  have h3 : Grows s2 s3' := by
    have hp : st.patrols = true := by cases st <;> simp_all [DevState.hasBoundaries, DevState.patrols]
    unfold s3'
    rw [if_pos (by simp [hp])]
    exact Grows.refl _
  refine (h2.trans h3).trans (Grows.trans ?_ ((grows_mark ..).trans (grows_updateTrips _)))
  unfold s3; split
  · exact Grows.refl _
  · exact grows_log ..

theorem grows_endStall (s : State) : Grows s s.endStall := by
  unfold State.endStall
  split
  · exact Grows.refl _
  · extract_lets n s1
    have h1 : Grows s s1 := (grows_addCounter ..).trans (grows_addCounter ..)
    clear_value s1
    exact h1.trans (Grows.same rfl rfl rfl rfl rfl rfl)

theorem grows_trapPending (s : State) (p : Page) : Grows s (State.trapPending s p) := by
  unfold State.trapPending
  extract_lets x0
  exact Grows.same rfl rfl rfl rfl rfl rfl

theorem grows_stopTrap (s : State) : Grows s (State.stopTrap s) := by
  unfold State.stopTrap
  extract_lets stop s1 cmp
  have h : ∀ c : Chan, (stop c).held = c.held := fun c => by
    unfold stop; split <;> rfl
  refine (grows_endStall s).trans (Grows.same (s := s1) ?_ rfl rfl rfl rfl rfl)
  unfold State.rest
  simp only [cmp, h]

theorem grows_trapR36 (s : State) (d : Dev) (hd : d = { s.dev with safeR36 := true }) : Grows s { s.stopTrap with dev := d } := by
  subst hd
  exact (grows_stopTrap s).trans (Grows.same rfl rfl rfl rfl rfl (by rw [stopTrap_dev]))

theorem grows_stopTaken (s : State) : Grows s s.stopTaken := .same rfl rfl rfl rfl rfl rfl

theorem grows_safeStop (s : State) (p : Page) (c : Nat) : Grows s (s.safeStop p c) := by
  unfold State.safeStop
  extract_lets key r36 a x1 d b
  split
  · next h =>
    exact (grows_changeState s .safe p.num12 key rfl (.inl h)).trans (grows_trapR36 _ _ rfl)
  · next h =>
    have h1 : Grows s a := grows_changeState s .safe p.num12 key rfl (.inr h)
    clear_value a
    have h2 : Grows a b := Grows.same rfl rfl rfl rfl rfl rfl
    have := h1.trans h2
    clear_value b
    split
    · exact this.trans (grows_stopTrap _)
    · exact this
  · split
    · exact grows_trapR36 s _ rfl
    · exact Grows.refl _
  · split
    · exact grows_stopTrap s
    · exact Grows.refl _
  · exact Grows.refl _

/-- A fold over states without CHIP_RESET. -/
theorem Grows.foldl_of {α : Type} {f : State → α → State} (hf : ∀ s a, s.noChipReset = true → Grows s (f s a)) (l : List α) (s : State)
    (hn : s.noChipReset = true) : Grows s (l.foldl f s) := by
  induction l generalizing s with
  | nil => exact Grows.refl s
  | cons a l ih => exact (hf s a hn).trans (ih _ ((hf s a hn).chip hn))

theorem grows_reactStop (s : State) (p : Page) (c : Nat) (taken : BitVec 4) (origin : Page) (serial : Nat)
    (ht : (taken &&& 7).toNat ≠ 6) : Grows s (s.reactStop p c taken origin serial) := by
  unfold State.reactStop
  split
  · refine Grows.trans ?_ (grows_openShadow ..)
    split
    · exact Grows.refl _
    · exact (grows_stopTaken s).trans (grows_safeStop ..)
  · next h => exact absurd h ht
  · exact Grows.refl _

theorem grows_fenceBank (s : State) (b : Nat) (key : Option LogKey) : Grows s (State.fenceBank s b key) := by
  unfold State.fenceBank
  extract_lets x0 x1
  have hx0 : Grows s x0 := by
    unfold x0
    exact grows_updInBank ..
  have hx1 : Grows s x1 := by
    unfold x1
    refine Grows.trans ?_ (grows_log _ _ _ _ _ _ _)
    assumption
  clear_value x1
  clear_value x0
  refine Grows.trans ?_ (grows_updateTrips _)
  refine Grows.trans ?_ (grows_abortAll _ _)
  assumption

theorem grows_fenceDie (s : State) (d : Nat) (key : Option LogKey) : Grows s (State.fenceDie s d key) := by
  unfold State.fenceDie
  extract_lets x0 x1 x2
  have hx0 : Grows s x0 := by
    unfold x0
    exact grows_updBar ..
  have hx1 : Grows s x1 := by
    unfold x1
    refine Grows.trans ?_ (grows_log _ _ _ _ _ _ _)
    assumption
  clear_value x1
  clear_value x0
  refine Grows.trans ?_ (grows_updateTrips _)
  refine Grows.trans ?_ (grows_abortAll _ _)
  assumption

theorem grows_targetFenced (s : State) (n : Nat) : Grows s (s.targetFenced n) := by
  have h : ∀ x : Hdr, ∀ y, y = (if x.own.draining && x.own.dest == BitVec.ofNat 4 n then
      { x with own := { x.own with draining := false, pending := false, byAssign := false, result := 3 } } else x) →
      y.latch = x.latch ∧ y.reactMinor = x.reactMinor ∧ y.reactSevere = x.reactSevere := by
    rintro x y rfl
    split <;> exact ⟨rfl, rfl, rfl⟩
  refine ⟨rfl, fun _ => rfl, fun p c w => ?_, fun _ _ h => h, fun _ _ h => h, fun _ _ h => h, fun _ h => h, fun _ h => h, fun w => ?_, fun _ _ => rfl⟩
  · unfold State.hdr State.targetFenced at *
    by_cases hp : p.index < s.hdrs.length
    · rw [List.getD_eq_getElem _ _ hp] at w
      rw [List.getD_eq_getElem _ _ (by simpa using hp), List.getElem_map, (h _ _ rfl).1]
      exact w
    · rw [List.getD_eq_default _ _ (by omega)] at w
      exact absurd w (by simp)
  · simp only [State.noChipReset, State.targetFenced, List.all_map, Function.comp_def] at w ⊢
    rw [List.all_eq_true] at *
    intro x hx
    have := w x hx
    rw [(h x _ rfl).2.1, (h x _ rfl).2.2]
    exact this

theorem grows_fencePort (s : State) (n : Nat) (key : Option LogKey) : Grows s (State.fencePort s n key) := by
  unfold State.fencePort
  extract_lets x0
  have hx0 : Grows s x0 := by
    unfold x0
    refine Grows.trans ?_ (grows_updHp _ _ _)
    exact grows_resetPort ..
  clear_value x0
  refine Grows.trans ?_ (grows_targetFenced _ _)
  refine Grows.trans ?_ (grows_log _ _ _ _ _ _ _)
  assumption

theorem grows_endJob (s : State) (c : Nat) (res : BitVec 4) : Grows s (State.endJob s c res) := by
  unfold State.endJob
  refine Grows.trans ?_ (grows_bump _ _ _)
  exact grows_updCtx ..

theorem grows_endJobs (s : State) (cs : List Nat) (res : BitVec 4) (hn : s.noChipReset = true) : Grows s (s.endJobs cs res) := by
  unfold State.endJobs
  refine Grows.foldl_of (fun t c ht => ?_) _ _ hn
  extract_lets s1 r
  have h1 : Grows t s1 := grows_endJob ..
  have h2 : Grows s1 r.1 := grows_record ..
  split
  · split
    · exact h1.trans (h2.trans (grows_reactStop _ _ _ _ _ _ (record_taken (h1.chip ht) _ (by simp))))
    · exact h1.trans h2
  · exact h1

theorem grows_fenceSpb (s : State) (k : Nat) (key : Option LogKey) (hn : s.noChipReset = true) : Grows s (s.fenceSpb k key) := by
  unfold State.fenceSpb
  extract_lets jobs s1 s2
  have h1 : Grows s s2 := (grows_updSpb ..).trans (grows_log ..)
  have h3 : Grows s _ := h1.trans (grows_abortAll s2 (s2.onPages (bankPages k)))
  exact h3.trans (grows_endJobs _ _ _ (h3.chip hn))

theorem grows_resetSpb (s : State) (k : Nat) (hn : s.noChipReset = true) : Grows s (s.resetSpb k) := by
  unfold State.resetSpb
  extract_lets jobs s1
  have h1 : Grows s s1 := grows_updSpb ..
  have h3 : Grows s _ := h1.trans (grows_abortAll s1 (s1.onPages (bankPages k)))
  exact h3.trans (grows_endJobs _ _ _ (h3.chip hn))

theorem grows_fenceCtxs (s : State) (cs : List Nat) (key : Option LogKey) (hn : s.noChipReset = true) :
    Grows s (s.fenceCtxs cs key) := by
  unfold State.fenceCtxs
  extract_lets jobs s1
  have h1 : Grows s s1 := Grows.foldl (fun t c => (grows_updCtx ..).trans ((grows_log ..).trans (grows_abortAll ..))) _ _
  exact h1.trans (grows_endJobs _ _ _ (h1.chip hn))

theorem grows_resetCtxs (s : State) (cs : List Nat) (hn : s.noChipReset = true) : Grows s (s.resetCtxs cs) := by
  unfold State.resetCtxs
  extract_lets jobs s1
  have h1 : Grows s (cs.foldl (fun s c => s.abortAll (ctxAddr c)) s) := Grows.foldl (fun t c => grows_abortAll ..) _ _
  have h2 : Grows s s1 := h1.trans (grows_endJobs _ _ _ (h1.chip hn))
  exact h2.trans (Grows.foldl (fun t c => grows_updCtx ..) _ _)

theorem grows_reactBanks (s : State) (bs : List Nat) (p : Page) (c : Nat) (origin : Page) (serial : Nat) : Grows s (State.reactBanks s bs p c origin serial) := by
  unfold State.reactBanks
  refine Grows.foldl (fun t b => ?_) _ _
  split
  · exact Grows.refl _
  · exact (grows_fenceBank ..).trans (grows_openShadow ..)


/-- A reaction other than CHIP_RESET. -/
theorem grows_react (s : State) (p : Page) (c : Nat) (taken : BitVec 4) (origin : Page) (serial : Nat) (hn : s.noChipReset = true)
    (ht : (taken &&& 7).toNat ≠ 6) : Grows s (s.react p c taken origin serial) := by
  unfold State.react
  extract_lets key cs
  split
  · exact grows_trapPending ..
  · split
    · exact Grows.refl _
    · exact (grows_resetPort ..).trans (grows_openShadow ..)
  · split
    · exact Grows.refl _
    · exact (grows_fencePort ..).trans (grows_openShadow ..)
  · split
    · exact Grows.refl _
    · exact (grows_openShadow ..).trans (grows_resetSpb _ _ hn)
  · split
    · exact Grows.refl _
    · exact (grows_openShadow ..).trans (grows_fenceSpb _ _ _ hn)
  · exact (grows_openShadow ..).trans (grows_resetCtxs _ _ hn)
  · exact (grows_openShadow ..).trans (grows_fenceCtxs _ _ _ hn)
  · exact grows_reactBanks ..
  · exact grows_reactBanks ..
  · exact grows_reactBanks ..
  · split
    · exact Grows.refl _
    · exact (grows_fenceDie ..).trans (grows_openShadow ..)
  · exact grows_reactStop _ _ _ _ _ _ ht
  · exact grows_reactStop _ _ _ _ _ _ ht
  · exact Grows.refl _

theorem grows_dieLatch (s : State) (e : Ev) : Grows s (s.dieLatch e) := by
  unfold State.dieLatch
  extract_lets on
  split
  · exact grows_setLatch ..
  · exact Grows.refl _

theorem grows_recordLate (s : State) (e : Ev) : Grows s (s.recordLate e) := by
  unfold State.recordLate
  extract_lets b r x
  split
  · have h : r.evl.mem = s.evl.mem := congrArg Rest.log (grows_record b e).rest
    refine Grows.same ?_ rfl rfl rfl rfl rfl
    simp only [State.rest, h]
  · exact Grows.refl _

/-- An event, where no page selects CHIP_RESET. -/
theorem grows_raise (s : State) (e : Ev) (hn : s.noChipReset = true) (hf : ∀ r, e.fixed = some r → (r &&& 7).toNat ≠ 6) :
    Grows s (s.raise e) := by
  unfold State.raise
  split
  · exact grows_dieLatch ..
  split
  · exact Grows.refl _
  split
  · exact grows_recordLate ..
  split
  · exact Grows.refl _
  · exact (grows_record s e).trans (grows_react _ _ _ _ _ _ ((grows_record s e).chip hn) (record_taken hn e hf))

theorem grows_onset (s : State) (p : Page) (c : Nat) (hn : s.noChipReset = true) : Grows s (s.onset p c) :=
  (grows_setLive ..).trans (grows_raise _ _ ((grows_setLive ..).chip hn) (by simp))

end Sys2Proof.Machine
end

