-- ==== Sys2Proof/Laws/Events.lean ====
section
/-! SUPPORT. An event shows its cause in FLT_LATCH, and what the causes of a unit do beside the event. -/

namespace Sys2Proof.Machine

theorem Page.index_lt (p : Page) : p.index < 53 := by
  cases p <;> simp only [Page.index] <;> omega

/-- An event is latched before its reaction is taken. -/
theorem grows_record_latch (s : State) (e : Ev) : Grows (s.setLatch e) (s.record e).1 := by
  unfold State.record
  extract_lets p h sh cl r wasOpen cls taken origin inc serial conseq shown s1 s2 s3 unit w s4 sn s5 src' s6
  have h2 : Grows s1 s2 := grows_updHdr _ _ _ (fun _ _ h => h) fun _ => ⟨rfl, rfl⟩
  have h3 : Grows s2 s3 := by
    unfold s3; split
    · exact Grows.refl _
    · refine grows_updHdr _ _ _ (fun x c w => ?_) fun x => ?_
      · split <;> exact w
      · split <;> exact ⟨rfl, rfl⟩
  have h4 : Grows s3 sn := (grows_logPush ..).trans (grows_noteFv ..)
  have h5 : Grows sn s5 := by
    unfold s5; split
    · exact grows_channelCause _
    · exact Grows.refl _
  have h6 : Grows s5 s6 := by
    unfold s6; split
    · exact Grows.same rfl rfl rfl rfl rfl rfl
    · exact Grows.refl _
  exact h2.trans (h3.trans (h4.trans (h5.trans h6)))

/-- A cause latched in the page's header is shown. -/
theorem shows_of_hdr {s : State} {p : Page} {c : Nat} (h : (s.hdr p).latch.getLsbD c = true) : s.shows p c = true := by
  unfold State.shows State.latchOf
  rw [BitVec.getLsbD_or, h]
  rfl

theorem latchFold_mem {α : Type} {n : Nat} (l : List α) (f : α → BitVec n) (c : Nat) (hc : c < 32) (a : α) (ha : a ∈ l)
    (h : (f a).getLsbD c = true) (v : BitVec 32) : (l.foldl (fun x a => x ||| (f a).setWidth 32) v).getLsbD c = true := by
  induction l generalizing v with
  | nil => cases ha
  | cons b l ih =>
    rcases List.mem_cons.1 ha with rfl | hm
    · have k := latchFold_mono l f f c (fun _ h => h) ((0 : BitVec 32) ||| (f a).setWidth 32) (v ||| (f a).setWidth 32)
      simp only [List.foldl_cons]
      clear ih
      have hv : (v ||| (f a).setWidth 32).getLsbD c = true := by simp [h, hc]
      generalize (v ||| (f a).setWidth 32) = w at hv
      clear k ha
      induction l generalizing w with
      | nil => exact hv
      | cons b l ih => exact ih _ (by simp [BitVec.getLsbD_or, hv])
    · exact ih hm _

/-- A cause latched on an input is shown on the input page. -/
theorem shows_of_inp {s : State} {b : Fin 8} {k c : Nat} (hk : k < 14) (hc : c < 32) (h : (s.inp (inputOf b k)).latch.getLsbD c = true) :
    s.shows (.fib b) c = true := by
  unfold State.shows State.latchOf
  rw [BitVec.getLsbD_or, Bool.or_eq_true]
  exact .inr (latchFold_mem _ (fun k => (s.inp (inputOf b k)).latch) c hc k (List.mem_range.2 hk) h _)

/-- A cause latched on an output is shown on the output page. -/
theorem shows_of_out {s : State} {b : Fin 8} {k c : Nat} (hk : k < 8) (hc : c < 32) (h : (s.out (outputOf b k)).latch.getLsbD c = true) :
    s.shows (.fob b) c = true := by
  unfold State.shows State.latchOf
  rw [BitVec.getLsbD_or, Bool.or_eq_true]
  exact .inr (latchFold_mem _ (fun k => (s.out (outputOf b k)).latch) c hc k (List.mem_range.2 hk) h _)

/-- A cause latched on a pulse source is shown on the wheel's page. -/
theorem shows_of_pulse {s : State} {k c : Nat} (hk : k < 16) (hc : c < 32) (h : (s.pulse k).latch.getLsbD c = true) :
    s.shows .pwl c = true := by
  unfold State.shows State.latchOf
  rw [BitVec.getLsbD_or, Bool.or_eq_true]
  exact .inr (latchFold_mem _ (fun k => (s.pulse k).latch) c hc k (List.mem_range.2 hk) h _)

theorem hdrs_length {s : State} (h : s.shaped = true) : s.hdrs.length = 53 := by
  simp only [State.shaped, Bool.and_eq_true, beq_iff_eq] at h; exact h.1.1.1.1.1.1.1.1.1.1.1
theorem ins_length {s : State} (h : s.shaped = true) : s.ins.length = 112 := by
  simp only [State.shaped, Bool.and_eq_true, beq_iff_eq] at h; exact h.1.1.1.1.1.1.1.1.2
theorem outs_length {s : State} (h : s.shaped = true) : s.outs.length = 64 := by
  simp only [State.shaped, Bool.and_eq_true, beq_iff_eq] at h; exact h.1.1.1.1.1.1.2
theorem ps_length {s : State} (h : s.shaped = true) : s.ps.length = 16 := by
  simp only [State.shaped, Bool.and_eq_true, beq_iff_eq] at h; exact h.1.1.1.2

/-- The event's cause is latched (R536). -/
theorem setLatch_shows {s : State} (hs : s.shaped = true) (e : Ev) (hc : e.cause < 32)
    (hi : ∀ b k, e.page = .fib b → e.unit = some k → k < 14 ∧ inputOf b k < 112 ∧ e.cause < 5)
    (ho : ∀ b k, e.page = .fob b → e.unit = some k → k < 8 ∧ outputOf b k < 64 ∧ e.cause < 10)
    (hk : ∀ k, e.page = .pwl → e.unit = some k → k < 16 ∧ e.cause < 3) : (s.setLatch e).shows e.page e.cause = true := by
  unfold State.setLatch
  split
  · next b k h1 h2 =>
    obtain ⟨w1, w2, w3⟩ := hi b k h1 h2
    rw [h1]
    refine shows_of_inp w1 hc ?_
    unfold State.inp
    rw [updInp_ins, getD_upd, if_pos ⟨rfl, by rw [mark_ins, ins_length hs]; exact w2⟩]
    simp [w3]
  · next b k h1 h2 =>
    obtain ⟨w1, w2, w3⟩ := ho b k h1 h2
    rw [h1]
    refine shows_of_out w1 hc ?_
    unfold State.out
    rw [updOut_outs, getD_upd, if_pos ⟨rfl, by rw [mark_outs, outs_length hs]; exact w2⟩]
    simp [w3]
  · next k h1 h2 =>
    obtain ⟨w1, w3⟩ := hk k h1 h2
    rw [h1]
    refine shows_of_pulse w1 hc ?_
    unfold State.pulse
    rw [updPulse_ps, getD_upd, if_pos ⟨rfl, by rw [mark_ps, ps_length hs]; exact w1⟩]
    simp [w3]
  · refine shows_of_hdr ?_
    unfold State.hdr
    rw [updHdr_hdrs, getD_upd, if_pos ⟨rfl, by rw [mark_hdrs, hdrs_length hs]; exact Page.index_lt _⟩]
    simp [hc]

/-- An event that the core die hears shows its cause, whatever its reaction but CHIP_RESET. -/
theorem raise_shows {s : State} (hs : s.shaped = true) (hn : s.noChipReset = true) (e : Ev) (hh : s.hears e.page e.cause = true)
    (hc : e.cause < 32) (hf : ∀ r, e.fixed = some r → (r &&& 7).toNat ≠ 6)
    (hi : ∀ b k, e.page = .fib b → e.unit = some k → k < 14 ∧ inputOf b k < 112 ∧ e.cause < 5)
    (ho : ∀ b k, e.page = .fob b → e.unit = some k → k < 8 ∧ outputOf b k < 64 ∧ e.cause < 10)
    (hk : ∀ k, e.page = .pwl → e.unit = some k → k < 16 ∧ e.cause < 3) : (s.raise e).shows e.page e.cause = true := by
  have hrec : (s.record e).1.shows e.page e.cause = true :=
    (grows_record_latch s e).shows _ _ (setLatch_shows hs e hc hi ho hk)
  unfold State.hears at hh
  simp only [Bool.and_eq_true, bne_iff_ne, Bool.not_eq_true'] at hh
  obtain ⟨⟨⟨h1, h2⟩, h3⟩, h4⟩ := hh
  unfold State.raise State.lateFault
  rw [if_neg (by simpa using h1), if_neg (by simp [h3]), if_neg (by simp [h2]), if_neg (by simp [h4])]
  exact (grows_react _ _ _ _ _ _ ((grows_record s e).chip hn) (record_taken hn e hf)).shows _ _ hrec

/-- A condition of a page begins: live, and its event. -/
theorem onset_shows {s : State} (hs : s.shaped = true) (hn : s.noChipReset = true) (p : Page) (c : Nat) (hh : s.hears p c = true)
    (hc : c < 32) : (s.onset p c).shows p c = true := by
  have h1 : (s.setLive p c true).shaped = true := (keeps_setLive ..).shape hs
  have h2 : (s.setLive p c true).noChipReset = true := (grows_setLive s p c true).chip hn
  have h3 : (s.setLive p c true).hears p c = true := by
    simp only [State.hears, Bool.and_eq_true] at hh ⊢
    refine ⟨hh.1, ?_⟩
    unfold State.setLive State.hdr at *
    rw [updHdr_hdrs, getD_upd]
    split
    · exact hh.2
    · exact hh.2
  unfold State.onset
  exact raise_shows h1 h2 { page := p, cause := c } h3 hc (by simp) (by simp) (by simp) (by simp)

/-! Causes of inputs, outputs and pulse sources. -/

theorem input_index {i : Nat} (h : i < 112) : inputOf (bankOfInput i) (localOfInput i) = i ∧ bankOfInput i < 8 ∧ localOfInput i < 14 := by
  unfold inputOf bankOfInput localOfInput
  split <;> split <;> omega

theorem output_index {o : Nat} (h : o < 64) : outputOf (bankOfOutput o) (localOfOutput o) = o ∧ bankOfOutput o < 8 ∧ localOfOutput o < 8 := by
  unfold outputOf bankOfOutput localOfOutput
  split <;> split <;> omega

theorem grows_latchIn (s : State) (i c : Nat) (hn : s.noChipReset = true) : Grows s (s.latchIn i c) :=
  (grows_raise _ _ hn (by simp)).trans (grows_updateTrips _)

/-- A cause of an input is shown by its page. -/
theorem latchIn_shows {s : State} (hs : s.shaped = true) (hn : s.noChipReset = true) {i c : Nat} (hi : i < 112) (hc : c < 5)
    (hh : s.hears (fibOf (bankOfInput i)) c = true) : (s.latchIn i c).shows (fibOf (bankOfInput i)) c = true := by
  obtain ⟨h1, h2, h3⟩ := input_index hi
  refine (grows_updateTrips _).shows _ _ (raise_shows hs hn _ hh (Nat.lt_trans hc (by decide)) (by simp) (fun b k e1 e2 => ?_)
    (fun b k e1 => by simp [fibOf] at e1) (fun k e1 => by simp [fibOf] at e1))
  have hb : b.val = bankOfInput i := by
    simp only [fibOf, Page.fib.injEq] at e1
    rw [← e1]
    simp [Fin.ofNat, Nat.mod_eq_of_lt h2]
  simp only [Option.some.injEq] at e2
  subst e2
  rw [hb, h1]
  exact ⟨h3, hi, hc⟩

theorem grows_holdOut (s : State) (o : Nat) : Grows s (s.holdOut o) := grows_updOut _ _ _ (fun _ _ h => h) fun _ _ => rfl

theorem grows_latchPartner (s : State) (q : Nat) (hn : s.noChipReset = true) : Grows s (s.latchPartner q) :=
  (grows_holdOut s q).trans ((grows_raise _ _ ((grows_holdOut s q).chip hn) (by simp)).trans (grows_updateTrips _))

theorem grows_latchOwn (s : State) (o c : Nat) (hn : s.noChipReset = true) : Grows s (s.latchOwn o c) := by
  unfold State.latchOwn
  split
  · extract_lets s1
    have h1 : Grows s s1 := by
      unfold s1; split
      · exact grows_holdOut ..
      · exact Grows.refl _
    exact h1.trans ((grows_raise _ _ (h1.chip hn) (by simp)).trans (grows_updateTrips _))
  · exact Grows.refl _

theorem grows_latchPartnerOf (s : State) (o : Nat) (hn : s.noChipReset = true) : Grows s (s.latchPartnerOf o) := by
  unfold State.latchPartnerOf
  split
  · exact grows_latchPartner _ _ hn
  · exact Grows.refl _

theorem grows_latchOutNow (s : State) (o c : Nat) (hn : s.noChipReset = true) : Grows s (s.latchOutNow o c) := by
  unfold State.latchOutNow
  extract_lets due s1
  have h1 : Grows s s1 := grows_latchOwn s o c hn
  split
  · exact h1.trans (grows_latchPartnerOf _ _ (h1.chip hn))
  · exact h1

theorem grows_latchOut (s : State) (o c : Nat) (hn : s.noChipReset = true) : Grows s (s.latchOut o c) := by
  unfold State.latchOut
  split
  · exact Grows.refl _
  · exact grows_latchOutNow _ _ _ hn

/-- A cause of an output is shown by its page, and one of the lockout class places the force hold (R344, R347). -/
theorem latchOutNow_shows {s : State} (hs : s.shaped = true) (hn : s.noChipReset = true) {o c : Nat} (ho : o < 64) (hc : c < 10)
    (hax : 48 ≤ o → (0x33#10).getLsbD c = true) (hb : bankOfOutput o < s.banks)
    (hh : s.hears (fobOf (bankOfOutput o)) c = true) :
    (s.latchOutNow o c).shows (fobOf (bankOfOutput o)) c = true ∧ (lockoutMask.getLsbD c = true → ((s.latchOutNow o c).out o).hold = true) := by
  obtain ⟨h1, h2, h3⟩ := output_index ho
  have own : (s.latchOwn o c).shows (fobOf (bankOfOutput o)) c = true
      ∧ (lockoutMask.getLsbD c = true → ((s.latchOwn o c).out o).hold = true) := by
    unfold State.latchOwn State.outTakes
    rw [if_pos (by simp only [hb, decide_true, Bool.and_true, Bool.not_eq_true', Bool.and_eq_false_imp, decide_eq_true_eq, Bool.not_eq_false']; exact hax)]
    extract_lets s1
    have g1 : Grows s s1 := by
      unfold s1; split
      · exact grows_holdOut ..
      · exact Grows.refl _
    have k1 : s1.shaped = true := by
      unfold s1; split
      · exact (keeps_updOut ..).shape hs
      · exact hs
    have e1 : s1.hears (fobOf (bankOfOutput o)) c = true := by
      unfold s1; split <;> exact hh
    refine ⟨(grows_updateTrips _).shows _ _ (raise_shows k1 (g1.chip hn) _ e1 (Nat.lt_trans hc (by decide)) (by simp)
      (fun b k e1 => by simp [fobOf] at e1) (fun b k e1 e2 => ?_) (fun k e1 => by simp [fobOf] at e1)), fun hl => ?_⟩
    · have hb : b.val = bankOfOutput o := by
        simp only [fobOf, Page.fob.injEq] at e1
        rw [← e1]
        simp [Fin.ofNat, Nat.mod_eq_of_lt h2]
      simp only [Option.some.injEq] at e2
      subst e2
      rw [hb, h1]
      exact ⟨h3, ho, hc⟩
    · refine ((grows_raise _ _ (g1.chip hn) (by simp)).trans (grows_updateTrips _)).hold o ?_
      unfold s1
      rw [if_pos hl]
      unfold State.holdOut State.out
      rw [updOut_outs, getD_upd, if_pos ⟨rfl, by rw [outs_length hs]; exact ho⟩]
  unfold State.latchOutNow
  extract_lets due s1
  split
  · have g : Grows s1 (s1.latchPartnerOf o) := grows_latchPartnerOf _ _ ((grows_latchOwn s o c hn).chip hn)
    exact ⟨g.shows _ _ own.1, fun hl => g.hold o (own.2 hl)⟩
  · exact own

/-- The onset of a cause of an output. -/
theorem latchOut_shows {s : State} (hs : s.shaped = true) (hn : s.noChipReset = true) {o c : Nat} (ho : o < 64) (hc : c < 10)
    (hax : 48 ≤ o → (0x33#10).getLsbD c = true) (hb : bankOfOutput o < s.banks) (hst : s.standing o c = false)
    (hh : s.hears (fobOf (bankOfOutput o)) c = true) :
    (s.latchOut o c).shows (fobOf (bankOfOutput o)) c = true ∧ (lockoutMask.getLsbD c = true → ((s.latchOut o c).out o).hold = true) := by
  unfold State.latchOut
  rw [if_neg (by simp [hst])]
  exact latchOutNow_shows hs hn ho hc hax hb hh

theorem grows_latchPs (s : State) (k c : Nat) (hn : s.noChipReset = true) : Grows s (s.latchPs k c) := by
  have h1 : Grows s (s.updPulse k fun p => { p with hold := true }) := grows_updPulse _ _ _ (fun _ _ h => h) fun _ _ => rfl
  exact h1.trans ((grows_raise _ _ (h1.chip hn) (by simp)).trans (grows_updateTrips _))

/-- A cause of a pulse source is shown by the wheel's page, and holds the source (R393). -/
theorem latchPs_shows {s : State} (hs : s.shaped = true) (hn : s.noChipReset = true) {k c : Nat} (hk : k < 16) (hc : c < 3)
    (hh : s.hears .pwl c = true) : (s.latchPs k c).shows .pwl c = true ∧ ((s.latchPs k c).pulse k).hold = true := by
  have h1 : Grows s (s.updPulse k fun p => { p with hold := true }) := grows_updPulse _ _ _ (fun _ _ h => h) fun _ _ => rfl
  have g2 := (grows_raise _ { page := .pwl, cause := c, unit := some k } (h1.chip hn) (by simp)).trans (grows_updateTrips _)
  refine ⟨(grows_updateTrips _).shows _ _ (raise_shows ((keeps_updPulse ..).shape hs) (h1.chip hn) _ hh (Nat.lt_trans hc (by decide)) (by simp)
    (by simp) (by simp) (fun k' _ e => ?_)), g2.psHold k ?_⟩
  · simp only [Option.some.injEq] at e
    subst e
    exact ⟨hk, hc⟩
  · unfold State.pulse
    rw [updPulse_ps, getD_upd, if_pos ⟨rfl, by rw [ps_length hs]; exact hk⟩]

/-- A TRP cause. -/
theorem grows_tripFault (s : State) (c bank : Nat) (info : Word) (hn : s.noChipReset = true) : Grows s (s.tripFault c bank info) := by
  unfold State.tripFault
  extract_lets t1 s1
  have h1 : Grows s s1 := by
    unfold s1; split
    · exact Grows.refl _
    · exact .same rfl rfl rfl rfl rfl rfl
  exact h1.trans (grows_raise _ _ (h1.chip hn) (by simp))

theorem tripFault_shows {s : State} (hs : s.shaped = true) (hn : s.noChipReset = true) {c : Nat} (bank : Nat) (info : Word) (hc : c < 32)
    (hh : s.hears .trp c = true) : (s.tripFault c bank info).shows .trp c = true := by
  unfold State.tripFault
  extract_lets t1 s1
  have h1 : Grows s s1 ∧ s1.shaped = true ∧ s1.hears .trp c = true := by
    unfold s1; split
    · exact ⟨Grows.refl _, hs, hh⟩
    · exact ⟨.same rfl rfl rfl rfl rfl rfl, hs, hh⟩
  exact raise_shows h1.2.1 (h1.1.chip hn) _ h1.2.2 hc (by simp) (by simp) (by simp) (by simp)

end Sys2Proof.Machine
end

