-- ==== Sys2Proof/Laws/KeepsPatrol.lean ====
section
/-! SUPPORT. What the operations of Machine/Patrol.lean keep. -/

namespace Sys2Proof.Machine

theorem keeps_crucibleError (s : State) (line : BitVec 17) (e : EccErr) : Keeps s (State.crucibleError s line e) := by
  unfold State.crucibleError
  extract_lets x0 x1 x2 x3
  have hx1 : Keeps s x1 := by
    unfold x1
    exact Keeps.same rfl rfl rfl
  have hx3 : Keeps s x3 := by
    unfold x3
    split
    · refine Keeps.trans (t := x1) ?_ (Keeps.same rfl rfl rfl)
      assumption
    · assumption
  clear_value x3
  clear_value x1
  split
  · refine Keeps.trans ?_ (keeps_bump _ _ _)
    assumption
  · split
    · refine Keeps.trans ?_ (keeps_raise _ _)
      assumption
    · assumption

theorem keeps_cruciblePass (s : State) : Keeps s (State.cruciblePass s) := by
  unfold State.cruciblePass
  extract_lets x0 x1 x2 x3
  have hx2 : Keeps s x2 := by
    unfold x2
    exact Keeps.same rfl rfl rfl
  have hx3 : Keeps s x3 := by
    unfold x3
    refine Keeps.trans ?_ (keeps_setCounter _ _ _ _)
    refine Keeps.trans ?_ (keeps_bump _ _ _)
    assumption
  clear_value x3
  clear_value x2
  split
  · refine Keeps.trans ?_ (keeps_raise _ _)
    assumption
  · assumption

theorem keeps_doCruciblePatrolRead (ecc : Option EccErr) (s : State) : Keeps s (doCruciblePatrolRead ecc s) := by
  unfold doCruciblePatrolRead
  split
  · extract_lets x0 x1 x2 x3
    have hx2 : Keeps s x2 := by
      unfold x2
      exact Keeps.same rfl rfl rfl
    have hx3 : Keeps s x3 := by
      unfold x3
      split
      · refine Keeps.trans ?_ (keeps_crucibleError _ _ _)
        assumption
      · assumption
    clear_value x3
    clear_value x2
    split
    · refine Keeps.trans ?_ (keeps_cruciblePass _)
      assumption
    · assumption
  · exact Keeps.refl _

theorem keeps_touchSegment (s : State) (k off : Nat) : Keeps s (State.touchSegment s k off) := by
  unfold State.touchSegment
  split
  · refine Keeps.trans ?_ (keeps_bump _ _ _)
    exact Keeps.same rfl rfl rfl
  · exact Keeps.refl _

theorem keeps_scratchPass (s : State) : Keeps s (State.scratchPass s) := by
  unfold State.scratchPass
  extract_lets x0 x1 x2 x3 x4
  have hx3 : Keeps s x3 := by
    unfold x3
    exact Keeps.same rfl rfl rfl
  have hx4 : Keeps s x4 := by
    unfold x4
    refine Keeps.trans ?_ (keeps_maxCounter _ _ _ _)
    refine Keeps.trans ?_ (keeps_setCounter _ _ _ _)
    assumption
  clear_value x4
  clear_value x3
  split
  · refine Keeps.trans ?_ (keeps_raise _ _)
    assumption
  · assumption

theorem keeps_nextBank (s : State) : Keeps s (State.nextBank s) := by
  unfold State.nextBank
  extract_lets x0 x1
  have hx1 : Keeps s x1 := by
    unfold x1
    exact Keeps.same rfl rfl rfl
  split
  · refine Keeps.trans ?_ (keeps_scratchPass _)
    assumption
  · assumption

theorem keeps_nextSegment (s : State) : Keeps s (State.nextSegment s) := by
  unfold State.nextSegment
  split
  · exact keeps_nextBank ..
  · exact Keeps.same rfl rfl rfl

theorem keeps_skipBanks (n : Nat) (s : State) : Keeps s (State.skipBanks n s) := by
  induction n generalizing s with
  | zero => exact Keeps.refl s
  | succ n ih =>
    unfold State.skipBanks; split
    · exact Keeps.refl s
    · exact (keeps_nextBank s).trans (ih _)

theorem keeps_doScratchSegmentStart (s : State) : Keeps s (doScratchSegmentStart s) := by
  unfold doScratchSegmentStart
  split
  · exact Keeps.refl _
  · split
    · exact Keeps.same rfl rfl rfl
    · extract_lets x0 x1 x2
      have hx1 : Keeps s x1 := by
        unfold x1
        refine Keeps.trans ?_ (keeps_skipBanks _ _)
        exact Keeps.same rfl rfl rfl
      clear_value x1
      split
      · refine Keeps.trans (t := x1) ?_ (Keeps.same rfl rfl rfl)
        assumption
      · assumption

theorem keeps_upsetWord (s : State) (k : Nat) (e : EccErr) (off : Nat) : Keeps s (State.upsetWord s k e off) := by
  unfold State.upsetWord
  split
  · exact keeps_updSpb _ _ _ fun b h => Mem.wf_writeW h _ _
  · exact Keeps.refl _

theorem keeps_spbError (s : State) (k : Nat) (e : EccErr) (patrol : Bool) (master off : Nat) : Keeps s (State.spbError s k e patrol master off) := by
  unfold State.spbError
  extract_lets x0
  have hx0 : Keeps s x0 := by
    unfold x0
    refine Keeps.trans ?_ (keeps_updSpb _ _ _ ?_)
    · exact Keeps.refl _
    · exact fun _ h => h
  clear_value x0
  split
  · refine Keeps.trans ?_ (keeps_raise _ _)
    assumption
  · refine Keeps.trans ?_ (keeps_bump _ _ _)
    assumption

theorem keeps_cellFail (s : State) (k : Nat) : Keeps s (State.cellFail s k) := by
  unfold State.cellFail
  extract_lets x0 x1
  have hx0 : Keeps s x0.2 := by
    unfold x0
    exact keeps_freeWord ..
  have hx1 : Keeps s x1 := by
    unfold x1
    refine Keeps.trans ?_ (keeps_updSpb _ _ _ ?_)
    · assumption
    · exact fun _ h => h
  clear_value x1
  clear_value x0
  refine Keeps.trans ?_ (keeps_raise _ _)
  assumption

theorem keeps_doScratchSegmentDone (marchFail : Bool) (ecc : List (Fin 256 × EccErr)) (s : State) : Keeps s (doScratchSegmentDone marchFail ecc s) := by
  unfold doScratchSegmentDone
  split
  · exact Keeps.refl _
  · extract_lets x0 x1 x2 x3 x4 x5 x6 x7 x8
    have hx5 : Keeps s x5 := by
      unfold x5
      exact Keeps.same rfl rfl (by simp [State.shape])
    have hx6 : Keeps s x6 := by
      unfold x6
      refine Keeps.trans ?_ (keeps_bump _ _ _)
      assumption
    have hx7 : Keeps s x7 := by
      unfold x7
      exact hx6.trans (Keeps.foldl (fun s a => keeps_spbError s _ _ _ _ _) _ _)
    have hx8 : Keeps s x8 := by
      unfold x8
      split
      · assumption
      · split
        · refine Keeps.trans ?_ (keeps_cellFail _ _)
          assumption
        · assumption
    clear_value x8
    clear_value x7
    clear_value x6
    clear_value x5
    refine Keeps.trans ?_ (keeps_nextSegment _)
    assumption

theorem keeps_doArbiterAging (s : State) : Keeps s (doArbiterAging s) := by
  unfold doArbiterAging
  split
  · exact Keeps.same rfl rfl rfl
  · exact Keeps.refl _

end Sys2Proof.Machine
end

