-- ==== Sys2Proof/Laws/KeepsLoader.lean ====
section
/-! SUPPORT. What the operations of Machine/Loader.lean keep. -/

namespace Sys2Proof.Machine

theorem copying_on {s : State} (h : s.copying = true) : s.dev.state ≠ .off := by
  intro e; simp [State.copying, e] at h

theorem keeps_readHeaders (s : State) : Keeps s (State.readHeaders s) := by
  unfold State.readHeaders
  extract_lets x0 x1 x2
  exact Keeps.same rfl rfl rfl

theorem keeps_waitHost (s : State) : Keeps s (State.waitHost s) := by
  unfold State.waitHost
  exact Keeps.same rfl rfl rfl

theorem keeps_copySlot (s : State) (source : BitVec 3) (other : Bool) : Keeps s (State.copySlot s source other) := by
  unfold State.copySlot
  split
  · split
    · exact Keeps.same rfl rfl rfl
    · refine Keeps.trans ?_ (keeps_raise _ _)
      exact keeps_waitHost ..
  · split
    · exact Keeps.same rfl rfl rfl
    · refine Keeps.trans ?_ (keeps_raise _ _)
      exact keeps_waitHost ..

theorem keeps_startLoader (s : State) (src : Nat) : Keeps s (State.startLoader s src) := by
  unfold State.startLoader
  extract_lets x0 x1 x2
  have hx1 : Keeps s x1 := by
    unfold x1
    exact Keeps.same rfl rfl rfl
  clear_value x1
  split
  · refine Keeps.trans (t := x1) ?_ (Keeps.same rfl rfl rfl)
    assumption
  · refine Keeps.trans ?_ (keeps_waitHost _)
    assumption

theorem keeps_headersRead (s : State) : Keeps s (State.headersRead s) := by
  unfold State.headersRead
  extract_lets x0
  have hx0 : Keeps s x0 := by
    unfold x0
    exact keeps_readHeaders ..
  clear_value x0
  split
  · split
    · split
      · refine Keeps.trans ?_ (keeps_copySlot _ _ _)
        assumption
      · refine Keeps.trans ?_ (keeps_copySlot _ _ _)
        assumption
    · refine Keeps.trans ?_ (keeps_copySlot _ _ _)
      assumption
    · refine Keeps.trans ?_ (keeps_copySlot _ _ _)
      assumption
    · refine Keeps.trans ?_ (keeps_waitHost _)
      assumption
  · refine Keeps.trans ?_ (keeps_copySlot _ _ _)
    assumption
  · refine Keeps.trans ?_ (keeps_copySlot _ _ _)
    assumption

theorem keeps_fillCrucible (s : State) (bs : List Byte) : Keeps s (State.fillCrucible s bs) := by
  unfold State.fillCrucible
  exact Keeps.memory rfl rfl fun h => by simp_all [State.memOk, Mem.wf_place]

theorem keeps_beginVerify (s : State) (page : BitVec 12) (hoff : s.dev.state ≠ .off) : Keeps s (s.beginVerify page) := by
  unfold State.beginVerify
  extract_lets s1 i1 s2
  have h1 : Keeps s s1 := by
    unfold s1; split
    · exact Keeps.refl _
    · exact keeps_changeState _ _ _ _ fun h => absurd h hoff
  exact h1.trans (Keeps.trans (t := s2) (Keeps.same rfl rfl rfl) (keeps_bump _ _ _))

theorem keeps_reloadNow (s : State) (r : Reload) (hoff : s.dev.state ≠ .off) : Keeps s (State.reloadNow s r) := by
  unfold State.reloadNow
  extract_lets length s1 c1 im cr s2
  have h1 : Keeps s s1 := keeps_bump ..
  have h2 : Keeps s s2 := by
    unfold s2; split
    · exact (h1.trans (keeps_stopBoundaries _)).trans (Keeps.same rfl (by simp [State.mems, im, c1, stopBoundaries_crb]) rfl)
    · exact h1.trans (keeps_enterLoad _ _ hoff)
  clear_value s2
  split
  · exact h2.trans (Keeps.same rfl (by simp [State.mems, Function.comp_def]) (by simp [State.shape]))
  · exact h2.trans (keeps_startLoader ..)

theorem keeps_reloadDue (s : State) (r : Reload) : Keeps s (State.reloadDue s r) := by
  unfold State.reloadDue
  extract_lets x0 x1 x2
  have hx1 : Keeps s x1 := by
    unfold x1
    exact Keeps.same rfl rfl rfl
  clear_value x1
  split
  · next h =>
    refine Keeps.trans ?_ (keeps_reloadNow _ _ fun e => by simp [e, DevState.reloads] at h)
    assumption
  · refine Keeps.trans (t := x1) ?_ (Keeps.same rfl rfl rfl)
    assumption

theorem keeps_stagedError (s : State) (x : BitVec 17 × EccErr) : Keeps s (State.stagedError s x) := by
  unfold State.stagedError
  extract_lets k off
  split
  · exact (keeps_upsetWord ..).trans (keeps_spbError ..)
  · exact Keeps.refl _

theorem keeps_stagedSleep (s : State) : Keeps s (State.stagedSleep s) := by
  unfold State.stagedSleep
  refine Keeps.trans ?_ (Keeps.foldl (fun s0 a1 => ?_) _ _)
  · exact Keeps.refl _
  · split
    · extract_lets x2
      have hx2 : Keeps s0 x2.2 := by
        unfold x2
        exact keeps_freeWord ..
      clear_value x2
      refine Keeps.trans ?_ (keeps_addCounter _ _ _ _)
      assumption
    · exact Keeps.refl _

theorem keeps_doSlotCopyDone (s : State) : Keeps s (doSlotCopyDone s) := by
  unfold doSlotCopyDone
  split
  · next h =>
    have hc : s.copying = true := by simp only [Bool.and_eq_true] at h; exact h.1.1
    exact (keeps_fillCrucible ..).trans (keeps_beginVerify _ _ (copying_on hc))
  · exact Keeps.refl _

theorem keeps_doStagedCopyDone (ecc : List (BitVec 17 × EccErr)) (s : State) : Keeps s (doStagedCopyDone ecc s) := by
  unfold doStagedCopyDone
  split
  · exact Keeps.refl _
  · split
    · exact Keeps.same rfl rfl rfl
    · extract_lets s1 s2 bs s3
      have h1 : Keeps s s1 := by
        unfold s1; split
        · exact keeps_touchSegment ..
        · exact Keeps.refl _
      have h3 : Keeps s s3 := (h1.trans (Keeps.foldl keeps_stagedError _ _)).trans (keeps_stagedSleep _)
      clear_value s3
      split
      · next h => exact h3.trans ((keeps_fillCrucible ..).trans (keeps_beginVerify _ _ (copying_on h)))
      · exact h3

end Sys2Proof.Machine
end

