-- ==== Sys2Proof/Laws/KeepsSelfTest.lean ====
section
/-! SUPPORT. What the operations of Machine/SelfTest.lean keep. -/

namespace Sys2Proof.Machine

theorem map_mapIdx_same {α β : Type} {f : Nat → α → α} {g : α → β} (h : ∀ i x, g (f i x) = g x) (l : List α) :
    (l.mapIdx f).map g = l.map g := by
  apply List.ext_getElem (by simp)
  intro i h1 h2
  simp [h]

theorem put_wf {e : Evl} (h : Mem.wf 0 e.mem = true) (it : LogItem) : Mem.wf 0 (e.put it).mem = true := Mem.wf_writeWs h _ _

theorem keeps_restoreEntry (s : State) (e : List Word) : Keeps s (State.restoreEntry s e) := by
  unfold State.restoreEntry
  extract_lets x0 x1
  exact Keeps.memory rfl rfl fun h => by simp_all [State.memOk, Mem.wf_writeWs]

theorem keeps_restoreLog (s : State) : Keeps s (State.restoreLog s) := by
  unfold State.restoreLog
  extract_lets n s1 seq e e1
  refine Keeps.trans (t := s1) ?_ ?_
  · exact Keeps.foldl (fun t _ => keeps_restoreEntry t _) _ _
  · clear_value e s1
    exact Keeps.memory rfl rfl fun h => by simp_all [State.memOk, Mem.wf_writeWs]

theorem keeps_step4 (s : State) : Keeps s (State.step4 s) := by
  unfold State.step4
  exact Keeps.same rfl rfl rfl

theorem keeps_comparatorTest (s : State) (ok : Bool) : Keeps s (State.comparatorTest s ok) := by
  unfold State.comparatorTest
  split
  · extract_lets x0 x1
    have hx0 : Keeps s x0 := by
      unfold x0
      exact keeps_step4 ..
    clear_value x0
    refine Keeps.trans (t := x0) ?_ (Keeps.same rfl rfl rfl)
    assumption
  · refine Keeps.trans ?_ (keeps_raise _ _)
    exact keeps_step4 ..

theorem keeps_beginSlices (s : State) : Keeps s (State.beginSlices s) := by
  unfold State.beginSlices
  exact Keeps.same rfl rfl rfl

theorem keeps_markUnits (s : State) (u : Units) : Keeps s (State.markUnits s u) := by
  unfold State.markUnits
  refine Keeps.same rfl ?_ (by simp [State.shape])
  simp only [State.mems, Mems.mk.injEq, true_and]
  refine map_mapIdx_same ?_ s.spbs
  exact fun _ _ => rfl

theorem keeps_releaseSpb (s : State) (k : Nat) : Keeps s (s.releaseSpb k) := by
  unfold State.releaseSpb
  split
  · exact (keeps_updSpb _ _ _ fun _ _ => rfl).trans (keeps_log ..)
  · exact Keeps.refl _

theorem keeps_clearMarks (s : State) (u : Units) : Keeps s (State.clearMarks s u) := by
  unfold State.clearMarks
  extract_lets s1
  have h1 : Keeps s s1 := Keeps.foldl (fun s k => by split; exacts [keeps_releaseSpb .., Keeps.refl _]) _ _
  clear_value s1
  exact h1.trans (Keeps.same rfl rfl (by simp [State.shape]))

theorem keeps_fenceUnits (s : State) (u : Units) : Keeps s (State.fenceUnits s u) := by
  unfold State.fenceUnits
  extract_lets x0 x1 x2 x3
  have hx0 : Keeps s x0 := by
    unfold x0
    refine Keeps.trans ?_ (Keeps.foldl (fun s4 a5 => ?_) _ _)
    · exact Keeps.refl _
    · split
      · exact keeps_fenceDie ..
      · exact Keeps.refl _
  have hx1 : Keeps s x1 := by
    unfold x1
    refine Keeps.trans ?_ (Keeps.foldl (fun s6 a7 => ?_) _ _)
    · assumption
    · split
      · exact keeps_fenceBank ..
      · exact Keeps.refl _
  have hx2 : Keeps s x2 := by
    unfold x2
    refine Keeps.trans ?_ (Keeps.foldl (fun s8 a9 => ?_) _ _)
    · assumption
    · split
      · exact keeps_fencePort ..
      · exact Keeps.refl _
  have hx3 : Keeps s x3 := by
    unfold x3
    refine Keeps.trans ?_ (Keeps.foldl (fun s10 a11 => ?_) _ _)
    · assumption
    · split
      · exact keeps_fenceSpb ..
      · exact Keeps.refl _
  clear_value x3
  clear_value x2
  clear_value x1
  clear_value x0
  refine Keeps.trans ?_ (Keeps.foldl (fun s12 a13 => ?_) _ _)
  · assumption
  · split
    · exact keeps_fenceCtxs ..
    · exact Keeps.refl _

theorem keeps_slicesEnded (s : State) : Keeps s (State.slicesEnded s) := by
  unfold State.slicesEnded
  split
  · extract_lets x0 x1
    have hx1 : Keeps s x1 := by
      unfold x1
      exact Keeps.same rfl rfl rfl
    clear_value x1
    split
    · refine Keeps.trans ?_ (keeps_comparatorTest _ _)
      assumption
    · assumption
  · exact Keeps.refl _

theorem keeps_endSlice (s : State) (k : Nat) (r : Slice) : Keeps s (State.endSlice s k r) := by
  unfold State.endSlice
  extract_lets pass u b s1 all s2 s3
  have h1 : Keeps s s1 := Keeps.same rfl rfl rfl
  have h2 : Keeps s1 s2 := by
    unfold s2
    split
    · exact keeps_clearMarks ..
    · exact Keeps.refl _
  have h3 : Keeps s1 s3 := by
    unfold s3
    split
    · refine h2.trans ?_
      clear_value s2
      split
      · exact Keeps.refl _
      · split
        · exact keeps_raise ..
        · exact (keeps_markUnits ..).trans (keeps_fenceUnits ..)
    · split
      · exact (keeps_markUnits ..).trans (keeps_fenceUnits ..)
      · exact Keeps.refl _
  clear_value s3
  split
  · exact (h1.trans h3).trans (keeps_slicesEnded _)
  · exact h1.trans h3

theorem keeps_doSliceDone (slice : Fin 12) (sig : Word) (patterns : BitVec 24) (failed : Units) (s : State) : Keeps s (doSliceDone slice sig patterns failed s) := by
  unfold doSliceDone
  split
  · exact keeps_endSlice ..
  · exact Keeps.refl _

theorem keeps_doSliceBudgetExpiry (slice : Fin 12) (patterns : BitVec 24) (failed : Units) (s : State) : Keeps s (doSliceBudgetExpiry slice patterns failed s) := by
  unfold doSliceBudgetExpiry
  split
  · extract_lets x0
    have hx0 : Keeps s x0.2 := by
      unfold x0
      exact keeps_freeWord ..
    clear_value x0
    refine Keeps.trans ?_ (keeps_endSlice _ _ _)
    assumption
  · exact Keeps.refl _

theorem keeps_doRecordReadDone (flashOk cmpOk : Bool) (s : State) : Keeps s (doRecordReadDone flashOk cmpOk s) := by
  unfold doRecordReadDone
  split
  · extract_lets x0 x1 x2 x3 x4 x5 x6 x7
    have hx4 : Keeps s x4 := by
      unfold x4
      exact Keeps.same rfl rfl rfl
    have hx5 : Keeps s x5 := by
      unfold x5
      split
      · refine Keeps.trans ?_ (keeps_restoreLog _)
        assumption
      · assumption
    have hx7 : Keeps s x7 := by
      unfold x7
      split
      · refine Keeps.trans (t := x5) ?_ (Keeps.memory rfl rfl fun h => by simp_all [State.memOk, Mem.wf_writeW])
        assumption
      · assumption
    clear_value x7
    clear_value x5
    clear_value x4
    split
    · refine Keeps.trans ?_ (keeps_comparatorTest _ _)
      refine Keeps.trans ?_ (keeps_clearMarks _ _)
      assumption
    · refine Keeps.trans ?_ (keeps_beginSlices _)
      assumption
  · exact Keeps.refl _

theorem keeps_loadKeys (s : State) : Keeps s (State.loadKeys s) := by
  unfold State.loadKeys
  exact Keeps.same rfl rfl rfl

theorem keeps_zeroFill (s : State) : Keeps s (State.zeroFill s) := by
  unfold State.zeroFill
  refine Keeps.memory rfl (by simp [State.shape]) fun h => ?_
  simp only [State.memOk, Bool.and_eq_true, List.all_map] at h ⊢
  refine ⟨⟨h.1.1, ?_⟩, h.2⟩
  refine List.all_eq_true.2 fun b hb => ?_
  simp only [Function.comp_apply]
  split
  · exact List.all_eq_true.1 h.1.2 b hb
  · rfl

theorem keeps_doStartExit (s : State) : Keeps s (doStartExit s) := by
  unfold doStartExit
  split
  · next h =>
    extract_lets s0 d0 s1
    have hs : s.dev.state = .start := by simp only [Bool.and_eq_true, beq_iff_eq] at h; exact h.1
    have h0 : Keeps s s0 := (keeps_loadKeys s).trans (keeps_zeroFill _)
    have hd : s1.dev.state = .start := hs
    have h1 : Keeps s s1 := by
      clear_value s0
      exact h0.trans (Keeps.same rfl rfl rfl)
    clear_value s1
    refine Keeps.trans ?_ (keeps_startLoader ..)
    split
    · exact h1.trans (keeps_changeState _ _ _ _ fun e => by simp [hd] at e)
    · exact h1.trans (keeps_enterLoad _ _ (by simp [hd]))
  · exact Keeps.refl _

theorem keeps_clearSecrets (s : State) : Keeps s (State.clearSecrets s) := by
  unfold State.clearSecrets
  exact Keeps.same rfl rfl (by simp [State.shape])

theorem keeps_skipSlice (s : State) (k : Nat) : Keeps s (State.skipSlice s k) := by
  unfold State.skipSlice
  extract_lets x0 x1 x2
  have hx0 : Keeps s x0.2 := by
    unfold x0
    exact keeps_freeWord ..
  have hx1 : Keeps s x1 := by
    assumption
  clear_value x1
  clear_value x0
  refine Keeps.trans (t := x1) ?_ (Keeps.same rfl rfl rfl)
  assumption

theorem keeps_enterShakeout (s : State) (trigger : BitVec 2) (page : BitVec 12) (secretOk : Bool) (hoff : s.dev.state ≠ .off) :
    Keeps s (s.enterShakeout trigger page secretOk) := by
  unfold State.enterShakeout
  extract_lets clean s0 old s1 d1 sd b1 s2 s3 s4
  have h1 : Keeps s s1 := (keeps_takeBack s).change _ _ _ fun e => absurd e hoff
  clear_value s1 old clean
  have h2 : Keeps s1 s2 := Keeps.trans (t := sd) (Keeps.same rfl rfl rfl) (Keeps.same rfl rfl rfl)
  clear_value s2
  have h3 : Keeps s2 s3 := Keeps.foldl (fun t c => by
    split
    · exact keeps_failJob ..
    · exact Keeps.refl _) _ _
  have h4 : Keeps s s4 := h1.trans (h2.trans (h3.trans ((keeps_clearSecrets _).trans (keeps_beginSlices _))))
  clear_value s4
  split
  · exact h4.trans (Keeps.same rfl rfl rfl)
  · exact h4.trans ((Keeps.foldl (fun _ _ => keeps_skipSlice ..) _ _).trans (keeps_raise ..))

theorem keeps_doRecordWriteDone (ok : Bool) (s : State) : Keeps s (doRecordWriteDone ok s) := by
  unfold doRecordWriteDone
  split
  · extract_lets rec0 logs crc m0 sec
    refine Keeps.memory rfl rfl fun h => ?_
    have hs : Mem.wf 0xFF s.flash.sector = true → Mem.wf 0xFF sec = true := fun w => by
      unfold sec; split
      · exact w
      · have hm : Mem.wf 0xFF m0 = true := Mem.wf_writeWs w _ _
        split
        · exact Mem.wf_writeWs hm _ _
        · exact hm
    clear_value sec
    simp_all [State.memOk]
  · exact Keeps.refl _

theorem keeps_firstRun (s : State) : Keeps s (State.firstRun s) := by
  unfold State.firstRun
  split
  · exact Keeps.refl _
  · refine Keeps.memory rfl rfl fun h => ?_
    simp_all [State.memOk, Mem.wf]

theorem keeps_doRecordStampDone (ok : Bool) (s : State) : Keeps s (doRecordStampDone ok s) := by
  unfold doRecordStampDone
  split
  · split
    · extract_lets w f b
      clear_value w
      refine Keeps.memory rfl rfl fun h => ?_
      simp only [State.memOk, Bool.and_eq_true] at h ⊢
      exact ⟨⟨⟨h.1.1.1, Mem.wf_writeWs h.1.1.2 _ _⟩, h.1.2⟩, h.2⟩
    · exact Keeps.same rfl rfl rfl
  · exact Keeps.refl _

theorem keeps_doStampTimeout (s : State) : Keeps s (doStampTimeout s) := by
  unfold doStampTimeout
  split
  · exact Keeps.same rfl rfl rfl
  · exact Keeps.refl _

theorem keeps_lsmError (s : State) (h : Half) (w : Nat) (multi : Bool) : Keeps s (State.lsmError s h w multi) := by
  unfold State.lsmError
  extract_lets x0
  have hx0 : Keeps s x0 := by
    unfold x0
    refine Keeps.trans ?_ (keeps_updChan _ _ _ ?_)
    · exact Keeps.refl _
    · exact fun _ => ⟨rfl, rfl, rfl⟩
  clear_value x0
  split
  · refine Keeps.trans ?_ (keeps_raise _ _)
    assumption
  · refine Keeps.trans ?_ (keeps_bump _ _ _)
    assumption

theorem keeps_lsmPass (s : State) (h : Half) (ticks : Nat) : Keeps s (State.lsmPass s h ticks) := by
  unfold State.lsmPass
  extract_lets x0 x1 x2 x3 x4
  have hx2 : Keeps s x2 := by
    unfold x2
    split
    · refine Keeps.trans ?_ (keeps_bump _ _ _)
      exact Keeps.same rfl rfl rfl
    · exact Keeps.same rfl rfl rfl
  have hx4 : Keeps s x4 := by
    unfold x4
    refine Keeps.trans ?_ (keeps_maxCounter _ _ _ _)
    refine Keeps.trans ?_ (keeps_setCounter _ _ _ _)
    assumption
  clear_value x4
  split
  · refine Keeps.trans ?_ (keeps_raise _ _)
    assumption
  · assumption

theorem keeps_lsmRead (s : State) (h : Half) (err : Option Bool) : Keeps s (State.lsmRead s h err) := by
  unfold State.lsmRead
  split
  · exact Keeps.refl _
  · extract_lets x0 x1 x2 x3 x4
    have hx2 : Keeps s x2 := by
      unfold x2
      split
      · exact Keeps.refl _
      · exact keeps_lsmError ..
    have hx4 : Keeps s x4 := by
      unfold x4
      split
      · refine Keeps.trans (t := x2) ?_ (Keeps.same rfl rfl rfl)
        assumption
      · refine Keeps.trans (t := x2) ?_ (Keeps.same rfl rfl rfl)
        assumption
    clear_value x4
    clear_value x2
    split
    · refine Keeps.trans ?_ (keeps_lsmPass _ _ _)
      assumption
    · assumption

theorem keeps_doLsmPatrolRead (errC errD : Option Bool) (s : State) : Keeps s (doLsmPatrolRead errC errD s) := by
  unfold doLsmPatrolRead
  split
  · refine Keeps.trans ?_ (keeps_lsmRead _ _ _)
    exact keeps_lsmRead ..
  · exact Keeps.refl _

theorem keeps_doShakeoutAgeTick (s : State) : Keeps s (doShakeoutAgeTick s) := by
  unfold doShakeoutAgeTick
  split
  · exact Keeps.refl _
  · extract_lets x0 x1 x2 x3
    have hx2 : Keeps s x2 := by
      unfold x2
      split
      · exact keeps_mark ..
      · exact Keeps.refl _
    clear_value x2
    refine Keeps.trans (t := x2) ?_ (Keeps.same rfl rfl rfl)
    assumption

end Sys2Proof.Machine
end

