-- ==== Sys2Proof/Laws/KeepsPower.lean ====
section
/-! SUPPORT. What the operations of Machine/Power.lean keep. -/

namespace Sys2Proof.Machine

theorem keeps_enterOff (s : State) (cause : BitVec 4) : Keeps s (State.enterOff s cause) := by
  unfold State.enterOff
  extract_lets x0 x1 x2
  have hx1 : Keeps s x1 := by
    unfold x1
    split
    · exact Keeps.refl _
    · refine Keeps.trans ?_ (keeps_changeState _ _ _ _ ?_)
      · exact Keeps.refl _
      · exact fun _ => rfl
  clear_value x1
  refine Keeps.trans (t := x1) ?_ (Keeps.same rfl rfl (by simp [State.shape]))
  assumption

theorem keeps_doResetNAssert (s : State) : Keeps s (doResetNAssert s) := by
  unfold doResetNAssert
  refine Keeps.trans ?_ (keeps_enterOff _ _)
  exact Keeps.same rfl rfl rfl

/-- The one command that leaves OFF (R35) keeps the rest. -/
theorem kept_doResetRelease (straps : Straps) (s : State) : Kept s (doResetRelease straps s) ∧ (doResetRelease straps s).otp = s.otp := by
  unfold doResetRelease
  split
  · extract_lets d1 u1 f1 e1 s1 s2
    have h1 : Kept s s1 := ⟨rfl, rfl, rfl, rfl, id, id, fun w => by
      rw [shaped_iff] at w ⊢
      have e : s1.shape = s.shape := by simp [s1, State.shape]
      rwa [e]⟩
    have h2 : Keeps s1 s2 := keeps_log ..
    have h3 := keeps_step1End (s2.enterStart s2.dev.offCause 0 0).updateTrips
    have h4 := (keeps_updateTrips (s2.enterStart s2.dev.offCause 0 0)).trans h3
    exact ⟨(h1.trans h2.kept).trans ((kept_enterStart ..).trans h4.kept),
      h4.otp.trans ((enterStart_otp ..).trans h2.otp)⟩
  · exact ⟨(Keeps.refl s).kept, rfl⟩

theorem keeps_diesUnpowered (s : State) : Keeps s (State.diesUnpowered s) := by
  unfold State.diesUnpowered
  exact Keeps.same rfl rfl (by simp [State.shape])

theorem keeps_coreLost (s : State) : Keeps s (State.coreLost s) := by
  unfold State.coreLost
  extract_lets s1
  refine (keeps_setCounter ..).trans (Keeps.memory (s := s1) rfl (by simp [State.shape]) fun h => ?_)
  simp only [State.memOk, Bool.and_eq_true] at h ⊢
  obtain ⟨⟨⟨⟨⟨-, h9⟩, h10⟩, h11⟩, -⟩, h13⟩ := h
  exact ⟨⟨⟨⟨⟨by simp [Mem.wf], h9⟩, h10⟩, h11⟩, by simp [Mem.wf]⟩, h13⟩

theorem keeps_pllStops (s : State) : Keeps s s.pllStops := .same rfl rfl rfl

theorem keeps_doSupplyLoss (r : Rail) (s : State) : Keeps s (doSupplyLoss r s) := by
  unfold doSupplyLoss
  split
  · extract_lets x0 x1 x2
    have hx1 : Keeps s x1 := by
      refine Keeps.trans (t := { s with sup := { s.sup with valid := putBit s.sup.valid (railNum r) false } }) ?_ (keeps_pllStops _)
      exact Keeps.same rfl rfl rfl
    have hx2 : Keeps s x2 := hx1.trans (keeps_enterOff _ _)
    clear_value x2
    split
    · exact hx2.trans (keeps_coreLost _)
    · exact hx2.trans (keeps_diesUnpowered _)
    · exact hx2
  · exact Keeps.refl _

theorem keeps_doSupplyOv (r : Rail) (s : State) : Keeps s (doSupplyOv r s) := by
  unfold doSupplyOv
  split
  · exact Keeps.refl _
  · refine Keeps.trans ?_ (keeps_onset _ _ _)
    exact Keeps.same rfl rfl rfl

theorem keeps_doSupplyWarn (r : Rail) (s : State) : Keeps s (doSupplyWarn r s) := by
  unfold doSupplyWarn
  split
  · exact Keeps.refl _
  · refine Keeps.trans ?_ (keeps_bump _ _ _)
    exact Keeps.same rfl rfl rfl

theorem keeps_railValid (s : State) (r : Rail) (is3v3 : Bool) : Keeps s (State.railValid s r is3v3) := by
  unfold State.railValid
  extract_lets x0 x1 x2 x3
  have hx3 : Keeps s x3 := by
    unfold x3
    exact Keeps.same rfl rfl rfl
  clear_value x3
  split
  · refine Keeps.trans (t := x3) ?_ (Keeps.same rfl rfl (by simp [State.shape]))
    assumption
  · assumption

theorem keeps_doSupplyReturn (r : Rail) (edge : SupplyEdge) (s : State) : Keeps s (doSupplyReturn r edge s) := by
  unfold doSupplyReturn
  split
  · exact keeps_railValid ..
  · refine Keeps.trans ?_ (keeps_setLive _ _ _ _)
    exact Keeps.same rfl rfl rfl
  · exact Keeps.same rfl rfl rfl

theorem keeps_doPwrFailNAssert (secretOk : Bool) (s : State) : Keeps s (doPwrFailNAssert secretOk s) := by
  unfold doPwrFailNAssert
  extract_lets u1 s1
  have h1 : Keeps s s1 := Keeps.trans (t := { s with sup := { s.sup with pfLevel := false, pfClear := false } }) (Keeps.same rfl rfl rfl)
    (keeps_bump ..)
  clear_value s1
  split
  · next h =>
    refine h1.trans (keeps_enterShakeout _ _ _ _ ?_)
    intro e; simp [e, DevState.shakes] at h
  · split
    · exact h1.trans (Keeps.same rfl rfl rfl)
    · split
      · exact h1.trans (Keeps.same rfl rfl rfl)
      · exact h1

theorem keeps_doPwrFailNRise (counted : Bool) (s : State) : Keeps s (doPwrFailNRise counted s) := by
  unfold doPwrFailNRise
  extract_lets x0 x1
  have hx1 : Keeps s x1 := by
    unfold x1
    exact Keeps.same rfl rfl rfl
  clear_value x1
  split
  · refine Keeps.trans ?_ (keeps_bump _ _ _)
    assumption
  · assumption

theorem keeps_doPfHoldEnd (s : State) : Keeps s (doPfHoldEnd s) := by
  unfold doPfHoldEnd
  split
  · refine Keeps.trans ?_ (keeps_step1End _)
    exact Keeps.same rfl rfl rfl
  · exact Keeps.refl _

theorem keeps_doRefLost (s : State) : Keeps s (doRefLost s) := by
  unfold doRefLost
  split
  · refine Keeps.trans ?_ (keeps_onset _ _ _)
    refine Keeps.trans ?_ (keeps_pllStops _)
    exact Keeps.same rfl rfl rfl
  · exact Keeps.refl _

theorem keeps_doRefclkReturn (short : Bool) (s : State) : Keeps s (doRefclkReturn short s) := by
  unfold doRefclkReturn
  split
  · exact keeps_bump ..
  · refine Keeps.trans ?_ (keeps_setLive _ _ _ _)
    exact Keeps.same rfl rfl rfl

theorem keeps_doPllUnlock (s : State) : Keeps s (doPllUnlock s) := by
  unfold doPllUnlock
  split
  · refine Keeps.trans ?_ (keeps_onset _ _ _)
    exact Keeps.same rfl rfl rfl
  · exact Keeps.refl _

theorem keeps_doPllLock (s : State) : Keeps s (doPllLock s) := by
  unfold doPllLock
  split
  · refine Keeps.trans ?_ (keeps_step1End _)
    refine Keeps.trans ?_ (keeps_setLive _ _ _ _)
    exact Keeps.same rfl rfl rfl
  · exact Keeps.refl _

theorem keeps_doCoreClockLost (h : Half) (deviation : Word) (noEdge : Bool) (s : State) :
    Keeps s (doCoreClockLost h deviation noEdge s) := by
  unfold doCoreClockLost
  extract_lets x0 x1
  have hx0 : Keeps s x0 := keeps_maxCounter ..
  clear_value x0
  split
  · exact hx0
  split
  · split
    · refine Keeps.trans ?_ (keeps_onset _ _ _)
      refine Keeps.trans (t := x0) ?_ (Keeps.same rfl rfl rfl)
      assumption
    · assumption
  · split
    · refine Keeps.trans ?_ (keeps_onset _ _ _)
      refine Keeps.trans (t := x0) ?_ (Keeps.same rfl rfl rfl)
      assumption
    · assumption

theorem keeps_doErrPin (h : Half) (differs : Bool) (s : State) : Keeps s (doErrPin h differs s) := by
  unfold doErrPin
  extract_lets x0 x1 x2 x3
  have hx2 : Keeps s x2 := by
    unfold x2
    exact Keeps.same rfl rfl rfl
  clear_value x2
  split
  · refine Keeps.trans ?_ (keeps_onset _ _ _)
    assumption
  · refine Keeps.trans ?_ (keeps_setLive _ _ _ _)
    assumption

theorem keeps_clearDie (s : State) (d : Nat) : Keeps s (s.clearDie d) := by
  unfold State.clearDie
  extract_lets s1
  have h1 : Keeps s s1 := Keeps.same rfl rfl (by simp [s1, State.shape])
  clear_value s1
  refine h1.trans (Keeps.foldl (fun s j => ?_) _ _)
  exact (keeps_updHdr s _ Hdr.afresh fun _ => rfl).trans (keeps_updHdr _ _ Hdr.afresh fun _ => rfl)

theorem keeps_trainDie (s : State) (d : Nat) : Keeps s (State.trainDie s d) := by
  unfold State.trainDie
  split
  · exact (keeps_clearDie ..).trans (keeps_updBar ..)
  · exact Keeps.refl _

theorem keeps_doBarrierTrainingDone (s : State) : Keeps s (doBarrierTrainingDone s) := by
  unfold doBarrierTrainingDone
  split
  · extract_lets x0 x1
    have hx0 : Keeps s x0 := by
      unfold x0
      refine Keeps.trans ?_ (keeps_trainDie _ _)
      exact keeps_trainDie ..
    clear_value x0
    refine Keeps.trans (t := x0) ?_ (Keeps.same rfl rfl rfl)
    assumption
  · exact Keeps.refl _

theorem keeps_doTrainFail (d : Fin 2) (s : State) : Keeps s (doTrainFail d s) := by
  unfold doTrainFail
  split
  · extract_lets x0 x1
    have hx0 : Keeps s x0 := by
      unfold x0
      exact keeps_raise ..
    have hx1 : Keeps s x1 := by
      unfold x1
      refine Keeps.trans ?_ (keeps_updBar _ _ _)
      assumption
    clear_value x1
    clear_value x0
    refine Keeps.trans ?_ (keeps_openShadow _ _ _ _)
    refine Keeps.trans ?_ (keeps_fenceDie _ _ _)
    assumption
  · exact Keeps.refl _

end Sys2Proof.Machine
end

