-- ==== Sys2Proof/Laws/Forms.lean ====
section
/-! SUPPORT. The shared operations written as one update of the state: which fields each can change, and to what where a claim needs it. -/

namespace Sys2Proof.Machine

theorem hdr_updHdr {s : State} (hs : s.shaped = true) (p : Page) (f : Hdr → Hdr) : (s.updHdr p f).hdr p = f (s.hdr p) := by
  unfold State.hdr
  rw [updHdr_hdrs, getD_upd, if_pos ⟨rfl, by rw [hdrs_length hs]; exact Page.index_lt _⟩]

theorem bars_length {s : State} (hs : s.shaped = true) : s.bars.length = 2 := by
  simp only [State.shaped, Bool.and_eq_true, beq_iff_eq] at hs
  exact hs.1.1.1.1.2

theorem bar_updBar {s : State} (hs : s.shaped = true) (d : Nat) (f : Bar → Bar) (e : Nat) (he : e < 2) :
    (s.updBar d f).bar e = if d = e then f (s.bar e) else s.bar e := by
  unfold State.bar
  rw [updBar_bars, getD_upd, bars_length hs]
  simp [he]

theorem counters_length {s : State} (hs : s.shaped = true) (p : Page) : (s.hdr p).counters.length = 15 := by
  have h := hdr_shaped hs p (Page.index_lt p)
  simp only [Hdr.shaped, Bool.and_eq_true, beq_iff_eq] at h
  exact h.1

theorem counter_setCounter {s : State} (hs : s.shaped = true) (p : Page) (off : Nat) (w : Word) (ho : (off - 0x44) / 4 < 15) :
    (s.setCounter p off w).counter p off = w := by
  unfold State.counter State.setCounter
  rw [hdr_updHdr hs]
  simp only
  rw [getD_upd, if_pos ⟨rfl, by rw [counters_length hs]; exact ho⟩]

theorem counter_bump {s : State} (hs : s.shaped = true) (p : Page) (off : Nat) (ho : (off - 0x44) / 4 < 15) :
    (s.bump p off).counter p off = satInc (s.counter p off) := by
  unfold State.counter State.bump
  rw [hdr_updHdr hs]
  simp only
  rw [getD_upd, if_pos ⟨rfl, by rw [counters_length hs]; exact ho⟩]

theorem hdr_of_updHdr (s : State) (p q : Page) (f : Hdr → Hdr) : (s.updHdr p f).hdr q = s.hdr q ∨ (s.updHdr p f).hdr q = f (s.hdr q) := by
  unfold State.hdr
  rw [updHdr_hdrs, getD_upd]
  split
  · exact .inr rfl
  · exact .inl rfl

theorem hears_updHdr (s : State) (p : Page) (f : Hdr → Hdr) (hf : ∀ h, (f h).enable = h.enable) (q : Page) (c : Nat) :
    (s.updHdr p f).hears q c = s.hears q c := by
  have e : ((s.updHdr p f).hdr q).enable = (s.hdr q).enable := by
    rcases hdr_of_updHdr s p q f with h | h
    · rw [h]
    · rw [h, hf]
  unfold State.hears
  rw [e]
  rfl

theorem hears_setCounter (s : State) (p : Page) (off : Nat) (w : Word) (q : Page) (c : Nat) : (s.setCounter p off w).hears q c = s.hears q c := by
  unfold State.setCounter
  exact hears_updHdr s p _ (by intro h; rfl) q c

theorem hears_bump (s : State) (p : Page) (off : Nat) (q : Page) (c : Nat) : (s.bump p off).hears q c = s.hears q c := by
  unfold State.bump
  exact hears_updHdr s p _ (by intro h; rfl) q c

theorem setLive_clears {s : State} (hs : s.shaped = true) (p : Page) (c : Nat) :
    ((s.setLive p c false).hdr p).live.getLsbD c = false ∧ ((s.setLive p c false).hdr p).latch = (s.hdr p).latch := by
  unfold State.setLive
  rw [hdr_updHdr hs]
  refine ⟨?_, rfl⟩
  simp
  exact fun h => BitVec.getLsbD_of_ge _ _ h

/-- A condition's onset, whether or not its cause is heard. -/
theorem onset_all {s : State} (hs : s.shaped = true) (hn : s.noChipReset = true) (p : Page) (c : Nat) (hc : c < 32) :
    (s.hears p c = true → (s.onset p c).shows p c = true) ∧ Quiet s (s.onset p c) :=
  ⟨fun hh => onset_shows hs hn p c hh hc, (grows_onset s p c hn).quiet⟩

/-- Step 1 of START ends. -/
theorem step1End_next {s : State} (h1 : s.dev.state = .start) (h2 : s.dev.startStep = 1) (h3 : s.sup.pfHold = false) (h4 : s.clk.locked = true)
    (h5 : s.otpFails = false) : s.step1End = { s with dev := { s.dev with startStep := 2 } } := by
  unfold State.step1End
  rw [if_pos (by simp [h1, h2, h3, h4])]
  exact if_neg (fun w => absurd (h5.symm.trans w) (by decide))

/-- Step 1 of START waits, or is over. -/
theorem step1End_wait {s : State} (h : s.dev.state ≠ .start ∨ s.dev.startStep ≠ 1 ∨ s.sup.pfHold = true ∨ s.clk.locked = false) :
    s.step1End = s := by
  unfold State.step1End
  rw [if_neg]
  intro w
  simp only [Bool.and_eq_true, beq_iff_eq, Bool.not_eq_true'] at w
  obtain ⟨⟨⟨w1, w2⟩, w3⟩, w4⟩ := w
  rcases h with h | h | h | h
  · exact h w1
  · exact h w2
  · rw [h] at w3; cases w3
  · rw [h] at w4; cases w4

theorem counter_setCounter_ne {s : State} (hs : s.shaped = true) (p : Page) (off : Nat) (w : Word) (off' : Nat)
    (h : (off - 0x44) / 4 ≠ (off' - 0x44) / 4) : (s.setCounter p off w).counter p off' = s.counter p off' := by
  unfold State.counter State.setCounter
  rw [hdr_updHdr hs]
  simp only
  rw [getD_upd, if_neg (fun k => h k.1)]

theorem setCounter_form (s : State) (p : Page) (off : Nat) (w : Word) : ∃ a, s.setCounter p off w = { s with hdrs := a } := ⟨_, rfl⟩

theorem logPush_form (s : State) (it : LogItem) : ∃ a, s.logPush it = { s with evl := a } := by
  unfold State.logPush
  split
  · exact ⟨_, rfl⟩
  · exact ⟨_, rfl⟩

theorem log_form (s : State) (k c : Nat) (p a : BitVec 12) (g : Byte) (key : Option LogKey) :
    ∃ e, s.log k c p a g key = { s with evl := e } := logPush_form ..

theorem setTrips_form (s : State) : ∃ a b, s.setTrips = { s with trp := a, hdrs := b } := by
  unfold State.setTrips
  extract_lets
  split
  · exact ⟨_, _, rfl⟩
  · exact ⟨_, _, rfl⟩

/-- The trip latches, the trip counter, the conditions of outputs. -/
theorem updateTrips_form (s : State) : ∃ a b c, s.updateTrips = { s with trp := a, hdrs := b, outs := c } := by
  obtain ⟨a, b, h⟩ := setTrips_form s
  unfold State.updateTrips
  rw [h, sendLanes_frame]
  exact ⟨_, _, _, rfl⟩

/-- Where only scratchpad banks can be fenced, the fences are theirs. -/
theorem fences_spb {s : State} (h1 : ∀ b, (s.inBank b).fenced = false) (h2 : ∀ d, (s.bar d).fenced = false)
    (h4 : ∀ n, (s.hp n).fenced = false) (h5 : ∀ c, (s.ctx c).fenced = false) :
    s.fences = ((List.range 16).filter fun k => (s.spb k).fenced).map fun k => ((spbOf k).num12, 0) := by
  unfold State.fences
  simp [h1, h2, h4, h5]

theorem foldl_log_form (key : Option LogKey) (l : List (BitVec 12 × BitVec 12)) (s : State) :
    ∃ e, l.foldl (fun t f => t.log 5 1 f.1 f.2 0 key) s = { s with evl := e } := by
  induction l generalizing s with
  | nil => exact ⟨_, rfl⟩
  | cons f l ih =>
    obtain ⟨e, h⟩ := log_form s 5 1 f.1 f.2 0 key
    obtain ⟨e', h'⟩ := ih (s.log 5 1 f.1 f.2 0 key)
    refine ⟨e', ?_⟩
    rw [List.foldl_cons, h', h]

theorem getD_map_of {α β : Type} (l : List α) (f : α → β) (d : β) (i : Nat) (P : β → Prop) (hf : ∀ a, P (f a)) (hd : P d) :
    P ((l.map f).getD i d) := by
  rw [List.getD_eq_getElem?_getD, List.getElem?_map]
  cases l[i]? with
  | none => exact hd
  | some a => exact hf a

theorem getD_mapIdx_of {α β : Type} (l : List α) (f : Nat → α → β) (d : β) (i : Nat) (P : β → Prop) (hf : ∀ n a, P (f n a)) (hd : P d) :
    P ((l.mapIdx f).getD i d) := by
  rw [List.getD_eq_getElem?_getD, List.getElem?_mapIdx]
  cases l[i]? with
  | none => exact hd
  | some a => exact hf i a

/-- START begins: what the device keeps, and that no fence is left but those of marked scratchpad banks (R500, R558). -/
theorem enterStart_form (s : State) (cause : BitVec 4) (page : BitVec 12) (code : BitVec 5) (key : Option LogKey) :
    ∃ t : State, s.enterStart cause page code key = t
    ∧ t.dev = { State.reset.dev with
      state := .start, prev := s.dev.state, stateTime := s.frm.tb, startCause := cause, startPage := page,
      startCode := code, straps := s.dev.straps, pinsNow := s.dev.pinsNow, resetN := s.dev.resetN, startStep := 1
      wasCommission := s.dev.wasCommission, errDiff := s.dev.errDiff }
    ∧ t.sup = { s.sup with events := 0, irqEn := 0, pfHold := !s.sup.pfClear, vCoreIo := 0, vHostBar := 0, iCore := 0 }
    ∧ t.frm = { State.reset.frm with tb := s.frm.tb, tbD := s.frm.tbD }
    ∧ t.otp = s.otp ∧ t.flash = s.flash ∧ t.crb.mem = s.crb.mem ∧ t.clk = { locked := s.clk.locked, refOk := s.clk.refOk }
    ∧ t.fences = ((List.range 16).filter fun k => (s.spb k).unusable).map (fun k => ((spbOf k).num12, 0))
    ∧ t.hps = s.hps.map (fun p => { unusable := p.unusable })
    ∧ t.bars = s.bars.map (fun b => { chill := true, powered := b.powered, unusable := b.unusable, held := b.held }) := by
  refine ⟨_, rfl, ?_⟩
  unfold State.enterStart
  extract_lets r rd rf rh1 rh2 rh3 rc rg rx t
  obtain ⟨e, h⟩ := foldl_log_form key s.endingFences t
  rw [h]
  have hf : ∀ k, (t.spb k).fenced = (s.spb k).unusable := fun k => by
    show ((s.spbs.map Spb.started).getD k {}).fenced = (s.spbs.getD k {}).unusable
    rw [List.getD_eq_getElem?_getD, List.getD_eq_getElem?_getD, List.getElem?_map]
    cases s.spbs[k]? with
    | none => rfl
    | some b => simp only [Option.map_some, Option.getD_some, Spb.started]; split <;> simp_all
  refine ⟨rfl, rfl, rfl, rfl, rfl, rfl, rfl, (fences_spb ?_ ?_ ?_ ?_).trans (by simp only [State.spb] at hf ⊢; simp only [hf]), rfl, rfl⟩
  · exact fun b => getD_map_of _ _ _ b (fun x : InBank => x.fenced = false) (fun _ => rfl) rfl
  · exact fun b => getD_map_of _ _ _ b (fun x : Bar => x.fenced = false) (fun _ => rfl) rfl
  · exact fun b => getD_map_of _ _ _ b (fun x : Hp => x.fenced = false) (fun _ => rfl) rfl
  · exact fun b => getD_mapIdx_of _ _ _ b (fun x : Ctx => x.fenced = false) (fun _ _ => rfl) rfl

theorem setLatch_form (s : State) (e : Ev) : ∃ a b c d m, s.setLatch e = { s with hdrs := a, ins := b, outs := c, ps := d, marks := m } := by
  unfold State.setLatch
  extract_lets s1
  have h : ∃ m, s1 = { s with marks := m } := by
    unfold s1; split <;> exact ⟨_, rfl⟩
  obtain ⟨m, h⟩ := h
  rw [h]
  split <;> exact ⟨_, _, _, _, _, rfl⟩

/-- What a channel cause can change (R93, R157). -/
theorem channelCause_form (s : State) : ∃ (p : Progress) (r : BitVec 2) (c : Chk) (m : Mem) (b : List Spb),
    s.channelCause = { s with prog := p, frm := { s.frm with result := r }, chk := c, fbs := m, spbs := b } := by
  have hu : ∀ x : State, ∃ (p : Progress) (c : Chk) (m : Mem) (b : List Spb),
      x.unpublish = { x with prog := p, chk := c, fbs := m, spbs := b } := by
    intro x
    unfold State.unpublish
    split
    · exact ⟨_, _, _, _, rfl⟩
    · exact ⟨_, _, _, _, rfl⟩
  unfold State.channelCause
  extract_lets p1 s1 s2
  have h1 : ∃ p, s1 = { s with prog := p } := by unfold s1; split <;> exact ⟨_, rfl⟩
  obtain ⟨p, h1⟩ := h1
  clear_value s1
  subst h1
  obtain ⟨p', c, m, b, h2⟩ := hu { s with prog := p }
  have h2 : s2 = _ := h2
  clear_value s2
  subst h2
  split
  · split
    · refine ⟨_, 2, _, _, _, rfl⟩
    · exact ⟨_, s.frm.result, _, _, _, rfl⟩
  · exact ⟨_, s.frm.result, _, _, _, rfl⟩

/-- What recording an event can change. -/
theorem record_form (s : State) (e : Ev) : ∃ (a : List Hdr) (b : List Input) (c : List Output) (d : List PulseSource) (k : Evl) (p : Progress)
    (m : Marks) (f : Bool) (x : BitVec 2 × Chk × Mem × List Spb × List OutBank), (s.record e).1 = { s with
      hdrs := a, ins := b, outs := c, ps := d, evl := k, prog := p, marks := m, dev := { s.dev with shakeFault := f }
      frm := { s.frm with result := x.1 }, chk := x.2.1, fbs := x.2.2.1, spbs := x.2.2.2.1, outBanks := x.2.2.2.2 } := by
  unfold State.record
  extract_lets p h sh cl r wasOpen cls taken origin inc serial conseq shown s1 s2 s3 unit w s4 sn s5 src' s6
  obtain ⟨a, b, c, d, m, h1⟩ := setLatch_form s e
  have h3 : ∃ a', s3 = { s1 with hdrs := a' } := by
    unfold s3; split <;> exact ⟨_, rfl⟩
  obtain ⟨a', h3⟩ := h3
  obtain ⟨k, h4⟩ := logPush_form s3 { time := s3.frm.tb, page := p.num12, code := BitVec.ofNat 5 e.cause, group := 0, w0 := w.1, w1 := w.2 }
  have h4 : s4 = _ := h4
  have hn : ∃ l, sn = { s4 with outBanks := l } := by
    unfold sn State.noteFv
    split
    · split
      · exact ⟨_, rfl⟩
      · exact ⟨_, rfl⟩
    · exact ⟨_, rfl⟩
  obtain ⟨l, hn⟩ := hn
  have h5 : ∃ (q : Progress) (r : BitVec 2) (c : Chk) (m : Mem) (b : List Spb),
      s5 = { sn with prog := q, frm := { sn.frm with result := r }, chk := c, fbs := m, spbs := b } := by
    unfold s5; split
    · exact channelCause_form sn
    · exact ⟨_, sn.frm.result, _, _, _, rfl⟩
  obtain ⟨q, rr, c2, m2, b2, h5⟩ := h5
  have h6 : ∃ f, s6 = { s5 with dev := { s5.dev with shakeFault := f } } := by
    unfold s6; split
    · exact ⟨_, rfl⟩
    · exact ⟨s5.dev.shakeFault, rfl⟩
  obtain ⟨f, h6⟩ := h6
  have h1 : s1 = _ := h1
  refine ⟨a', b, c, d, k, q, m, f, (rr, c2, m2, b2, l), ?_⟩
  show s6 = _
  rw [h6, h5, hn, h4, h3, h1]

/-- The reaction that an event takes is none, or its own. -/
theorem record_taken_or (s : State) (e : Ev) : (s.record e).2.1 = 0 ∨ (s.record e).2.1 = (s.hdr e.page).ownReaction e := by
  unfold State.record
  extract_lets p h sh cl r wasOpen cls taken origin inc serial conseq shown s1 s2 s3 unit w s4 sn s5 src' s6
  show taken = 0 ∨ taken = _
  unfold taken
  split
  · split
    · exact .inr rfl
    · exact .inl rfl
  · split
    · exact .inl rfl
    · exact .inr rfl

/-- An event whose reaction is at most IRQ to owner is recorded, and nothing else (R539). -/
theorem raise_mild {s : State} (e : Ev) (h : ((e.fixed.getD (s.hdr e.page).classify.2) &&& 7).toNat ≤ 1) (ho : s.dev.state ≠ .off)
    (hl : s.lateFault e = false) : s.raise e = s ∨ s.raise e = (s.record e).1 := by
  unfold State.raise
  rw [if_neg (by simpa using ho)]
  split
  · exact .inl rfl
  rw [if_neg (by simp [hl])]
  split
  · exact .inl rfl
  · refine .inr ?_
    have ht : ((s.record e).2.1 &&& 7).toNat ≤ 1 := by
      rcases record_taken_or s e with k | k
      · rw [k]; decide
      · rw [k]
        unfold Hdr.ownReaction
        extract_lets x
        split
        · next w =>
          simp only [Bool.and_eq_true, beq_iff_eq] at w
          have : (x &&& 7).toNat = 4 := by rw [w.2]; rfl
          exact absurd h (by show ¬ (x &&& 7).toNat ≤ 1; omega)
        · exact h
    generalize s.record e = r at ht ⊢
    unfold State.react
    extract_lets key
    generalize (r.2.1 &&& 7).toNat = n at ht ⊢
    have hn : n = 0 ∨ n = 1 := by omega
    rcases hn with rfl | rfl <;> (cases e.page <;> rfl)

theorem addCounter_form (s : State) (p : Page) (off n : Nat) : ∃ a, s.addCounter p off n = { s with hdrs := a } := ⟨_, rfl⟩

theorem abortPort_form (s : State) (n : Nat) (sel : Txn → Bool) : ∃ a b, s.abortPort n sel = { s with hps := a, hdrs := b } := ⟨_, _, rfl⟩

/-- What aborting transactions changes. -/
theorem abortAll_form (s : State) (sel : Txn → Bool) : ∃ a b, s.abortAll sel = { s with hps := a, hdrs := b } := by
  unfold State.abortAll
  obtain ⟨a, b, h⟩ := abortPort_form s 0 sel
  rw [h]
  obtain ⟨a, b, h⟩ := abortPort_form { s with hps := a, hdrs := b } 1 sel
  rw [h]
  obtain ⟨a, b, h⟩ := abortPort_form { s with hps := a, hdrs := b } 2 sel
  rw [h]
  obtain ⟨a, b, h⟩ := abortPort_form { s with hps := a, hdrs := b } 3 sel
  rw [h]
  exact ⟨_, _, rfl⟩

/-- The fence of a field die. -/
theorem fenceDie_form (s : State) (d : Nat) (key : Option LogKey) : ∃ a b c e h, s.fenceDie d key = { s with
    bars := upd s.bars d (fun x => { x with fenced := true, frozen := s.dieHeaders d }), evl := a, hps := b, hdrs := c, trp := e, outs := h } := by
  unfold State.fenceDie
  extract_lets s1 s2 pages
  obtain ⟨a, h2⟩ := log_form s1 5 0 (barOf d).num12 0 0 key
  obtain ⟨b, c, h3⟩ := abortAll_form s2 (s2.onPages pages)
  obtain ⟨x, y, z, h4⟩ := updateTrips_form (s2.abortAll (s2.onPages pages))
  have h2 : s2 = _ := h2
  rw [h4, h3, h2]
  exact ⟨_, _, _, _, _, rfl⟩

/-- A frame that is cut short changes counters only. -/
theorem cutFrame_form (s : State) : ∃ a b, s.cutFrame = { s with hdrs := a, prog := { s.prog with counted := b } } := by
  unfold State.cutFrame
  split
  · rw [countEntries_frame]; exact ⟨_, _, rfl⟩
  · exact ⟨s.hdrs, s.prog.counted, rfl⟩

/-- What a change of STATE can change beside STATE, the frame and the wheel. -/
structure Side where
  cope : Chan
  drag : Chan
  cut : Cut
  hps : List Hp
  ctxs : List Ctx
  waits : Bool

def State.side (s : State) : Side := ⟨s.cope, s.drag, s.cut, s.hps, s.ctxs, s.img.waits⟩

/-- Of the channels only the mode changes, of the ports and contexts only what an urgent patrol held. -/
def Side.kept (s : State) (x : Side) : Prop :=
  x.cope = { s.cope with mode := x.cope.mode } ∧ x.drag = { s.drag with mode := x.drag.mode }
    ∧ ((x.hps = s.hps ∧ x.ctxs = s.ctxs ∧ x.waits = s.img.waits)
      ∨ (x.hps = s.releaseHeld.hps ∧ x.ctxs = s.releaseHeld.ctxs ∧ x.waits = false))

theorem cutOff_kept (c : Chan) : c.cutOff = { c with mode := c.cutOff.mode } := by
  unfold Chan.cutOff
  split <;> rfl

theorem boundaries_patrol {st : DevState} (h : st.hasBoundaries = true) : (st.patrols || st == DevState.load) = true := by
  cases st <;> first | rfl | cases h

/-- A change of STATE. -/
theorem changeState_form (s : State) (st : DevState) (page : BitVec 12) (key : Option LogKey) :
    ∃ (a : BitVec 17 × Time) (b : Bool × BitVec 3 × Bool) (c : Progress) (d : Pwl) (e : List Comparator) (f : List Output)
        (g : List Hdr) (k : Evl) (m : Spc × Trp) (j : Marks) (x : Side),
      s.changeState st page key = { s with
        dev := { s.dev with state := st, prev := s.dev.state, stateTime := s.frm.tb, stateChg := true, safeFrames := false },
        crb := { s.crb with pos := a.1, passStart := a.2 },
        frm := { s.frm with running := b.1, phase := b.2.1, frameOut := b.2.2 },
        prog := c, pwl := d, comps := e, outs := f, hdrs := g, evl := k, spc := m.1, trp := m.2, marks := j
        cope := x.cope, drag := x.drag, cut := x.cut, hps := x.hps, ctxs := x.ctxs, img := { s.img with waits := x.waits } }
      ∧ (st.hasBoundaries = false → b = (false, 0, false) ∧ c = {})
      ∧ (st.hasBoundaries = true → b = (s.frm.running, s.frm.phase, s.frm.frameOut) ∧ c = s.prog ∧ x = s.side)
      ∧ (st = .off → k = s.evl) ∧ Side.kept s x := by
  unfold State.changeState
  extract_lets old s1 d1 c1 p1 s2 s3' s3
  have h1 : ∃ (b : Bool × BitVec 3 × Bool) (c : Progress) (d : Pwl) (e : List Comparator) (f : List Output) (g : List Hdr)
      (x : Chan × Chan × Cut),
      s1 = { s with
        frm := { s.frm with running := b.1, phase := b.2.1, frameOut := b.2.2 },
        prog := c, pwl := d, comps := e, outs := f, hdrs := g, cope := x.1, drag := x.2.1, cut := x.2.2 }
      ∧ (st.hasBoundaries = false → b = (false, 0, false) ∧ c = {})
      ∧ (st.hasBoundaries = true → b = (s.frm.running, s.frm.phase, s.frm.frameOut) ∧ c = s.prog ∧ x = (s.cope, s.drag, s.cut))
      ∧ x.1 = { s.cope with mode := x.1.mode } ∧ x.2.1 = { s.drag with mode := x.2.1.mode } := by
    unfold s1
    split
    · next h => exact ⟨(_, _, _), _, _, _, _, _, (_, _, _), rfl, by simp [h], by simp [h], rfl, rfl⟩
    · next h =>
      simp only [Bool.not_eq_true] at h
      obtain ⟨g, w, hg⟩ := cutFrame_form s
      unfold State.stopBoundaries
      rw [hg]
      exact ⟨(_, _, _), _, _, _, _, _, (_, _, _), rfl, by simp [h], by simp [h], cutOff_kept _, cutOff_kept _⟩
  obtain ⟨b, c, d, e, f, g, x, h1, h1b, h1c, h1d, h1e⟩ := h1
  clear_value s1
  subst h1
  have h2 : ∃ (a : BitVec 17 × Time) (m : Spc), s2 = { s with
        dev := { s.dev with state := st, prev := s.dev.state, stateTime := s.frm.tb, stateChg := true, safeFrames := false },
        crb := { s.crb with pos := a.1, passStart := a.2 },
        frm := { s.frm with running := b.1, phase := b.2.1, frameOut := b.2.2 },
        prog := c, pwl := d, comps := e, outs := f, hdrs := g, spc := m, cope := x.1, drag := x.2.1, cut := x.2.2 } := by
    unfold s2 d1 c1 p1
    split <;> split <;> (try split) <;> (try split) <;> exact ⟨(_, _), _, rfl⟩
  obtain ⟨a, m, h2⟩ := h2
  have h2' : ∃ (y : List Hp × List Ctx × Bool), s3' = { s2 with hps := y.1, ctxs := y.2.1, img := { s2.img with waits := y.2.2 } }
      ∧ (y = (s.hps, s.ctxs, s.img.waits) ∨ y = (s.releaseHeld.hps, s.releaseHeld.ctxs, false))
      ∧ (st.hasBoundaries = true → y = (s.hps, s.ctxs, s.img.waits)) := by
    unfold s3'
    split
    · exact ⟨(s2.hps, s2.ctxs, s2.img.waits), rfl, .inl (by rw [h2]), fun _ => by rw [h2]⟩
    · next h => exact ⟨(s2.releaseHeld.hps, s2.releaseHeld.ctxs, false), rfl, .inr (by rw [h2]; rfl), fun w => absurd (boundaries_patrol w) h⟩
  obtain ⟨y, h2', hk, hy⟩ := h2'
  have h3 : ∃ k, s3 = { s3' with evl := k } ∧ (st = .off → k = s.evl) := by
    unfold s3
    split
    · exact ⟨s.evl, by rw [h2', h2], fun _ => rfl⟩
    · next h =>
      obtain ⟨k, h3⟩ := log_form s3' 3 st.code page 0 (BitVec.ofNat 8 old.code) key
      exact ⟨k, h3, fun w => absurd w (by simpa using h)⟩
  obtain ⟨k, h3, h3k⟩ := h3
  obtain ⟨x', y', z, h4⟩ := updateTrips_form (s3.mark .dev 0x120 0)
  rw [h4, h3, h2', h2]
  refine ⟨a, b, c, d, e, z, y', k, (m, x'), _, ⟨x.1, x.2.1, x.2.2, y.1, y.2.1, y.2.2⟩, rfl, h1b, fun w => ?_, h3k, h1d, h1e, ?_⟩
  · obtain ⟨w1, w2, rfl⟩ := h1c w
    rw [hy w]
    exact ⟨w1, w2, rfl⟩
  · rcases hk with rfl | rfl
    · exact .inl ⟨rfl, rfl, rfl⟩
    · exact .inr ⟨rfl, rfl, rfl⟩

/-- STATE becomes OFF: the ports forget what was in flight, and the TAP is reset (R470, R610, R643). -/
theorem enterOff_form (s : State) (cause : BitVec 4) :
    ∃ (a : BitVec 17 × Time) (b : Bool × BitVec 3 × Bool) (c : Progress) (d : Pwl) (e : List Comparator) (f : List Output)
      (g : List Hdr) (m : Spc) (n : Trp) (p : Dev) (j : Marks) (x : Side), s.enterOff cause = { s with
        dev := p,
        crb := { s.crb with pos := a.1, passStart := a.2 },
        frm := { s.frm with running := b.1, phase := b.2.1, frameOut := b.2.2 },
        prog := c, pwl := d, comps := e, outs := f, hdrs := g, spc := m, trp := n, marks := j,
        cope := x.cope, drag := x.drag, cut := x.cut, ctxs := x.ctxs, img := { s.img with waits := x.waits }
        hps := s.hps.map fun (p : Hp) => { p with txns := [], lastFetched := none, session := none, nonce := none }
        jtag := {} }
      ∧ Side.kept s x ∧ p.state = .off ∧ p.resetN = s.dev.resetN
      ∧ (s.dev.state ≠ .off → p.offCause = cause ∧ p.prev = s.dev.state ∧ b = (false, 0, false) ∧ c = {}) := by
  unfold State.enterOff
  extract_lets keep s1 d1
  by_cases h : s.dev.state = .off
  · have h1 : s1 = s := by unfold s1; simp [h]
    clear_value s1
    subst h1
    exact ⟨(_, _), (_, _, _), _, _, _, _, _, _, _, _, _, s1.side, rfl, ⟨rfl, rfl, .inl ⟨rfl, rfl, rfl⟩⟩, h, rfl, fun w => absurd h w⟩
  · have h1 : s1 = s.changeState .off := by unfold s1; simp [h]
    have hk : keep = false := by simp [keep, h]
    clear_value s1 keep
    subst h1 hk
    obtain ⟨a, b, c, d, e, f, g, k, m, j, x, h2, h3, h4, h5, h6⟩ := changeState_form s .off 0 none
    unfold d1
    rw [h2, h5 rfl]
    have q : (x.hps.map fun (p : Hp) => { p with txns := [], lastFetched := none, session := none, nonce := none })
        = s.hps.map fun (p : Hp) => { p with txns := [], lastFetched := none, session := none, nonce := none } := by
      rcases h6.2.2 with h | h
      · rw [h.1]
      · rw [h.1]; simp [State.releaseHeld, List.map_map, Function.comp_def]
    rw [← q]
    exact ⟨a, b, c, d, e, f, g, _, _, _, j, x, rfl, h6, rfl, rfl, fun _ => ⟨rfl, rfl, h3 rfl⟩⟩

end Sys2Proof.Machine
end

