-- ==== Sys2Proof/Laws/Shakeout.lean ====
section
/-! SUPPORT. What entry to SHAKEOUT leaves: no session, no nonce, no working copy of a key (R573, R576). -/

namespace Sys2Proof.Machine

theorem setLatch_hps (s : State) (e : Ev) : (s.setLatch e).hps = s.hps := by
  obtain ⟨a, b, c, d, m, h⟩ := setLatch_form s e
  rw [h]

theorem record_hps (s : State) (e : Ev) : (s.record e).1.hps = s.hps := by
  obtain ⟨a, b, c, d, k, p, m, f, x, h⟩ := record_form s e
  rw [h]

theorem changeState_hps (s : State) (st : DevState) (page : BitVec 12) (key : Option LogKey) (hb : st.hasBoundaries = true) :
    (s.changeState st page key).hps = s.hps := by
  obtain ⟨a, b, c, d, e, f, g, k, m, j, x, h, -, hx, -⟩ := changeState_form s st page key
  rw [h, (hx hb).2.2]
  rfl

theorem stopTrap_hps (s : State) : s.stopTrap.hps = s.hps := by
  show s.endStall.hps = s.hps
  unfold State.endStall
  split <;> rfl

theorem safeStop_hps (s : State) (p : Page) (c : Nat) : (s.safeStop p c).hps = s.hps := by
  unfold State.safeStop
  extract_lets key r36 a x1 d b
  have ha : a.hps = s.hps := changeState_hps s .safe p.num12 key rfl
  have hb : b.hps = s.hps := ha
  clear_value a b
  split
  · exact (stopTrap_hps a).trans ha
  · split
    · exact (stopTrap_hps b).trans hb
    · exact hb
  · split
    · exact stopTrap_hps s
    · rfl
  · split
    · exact stopTrap_hps s
    · rfl
  · rfl

theorem trapPending_hps (s : State) (p : Page) : (s.trapPending p).hps = s.hps := rfl

theorem reactStop_hps (s : State) (p : Page) (c : Nat) (taken : BitVec 4) (origin : Page) (serial : Nat) (h : (taken &&& 7).toNat ≠ 6) :
    (s.reactStop p c taken origin serial).hps = s.hps := by
  unfold State.reactStop
  split
  · rw [openShadow_hps]
    split
    · rfl
    · exact safeStop_hps s.stopTaken p c
  · next w => exact absurd w h
  · rfl

theorem raise_bst_hps {s : State} (hn : s.noChipReset = true) (c : Nat) : (s.raise { page := .bst, cause := c }).hps = s.hps := by
  unfold State.raise
  split
  · rfl
  split
  · rfl
  split
  · unfold State.recordLate
    extract_lets b
    split
    · rfl
    · rfl
  split
  · rfl
  · extract_lets r
    have hr : r.1.hps = s.hps := record_hps ..
    have h6 := record_taken hn { page := .bst, cause := c } (by simp)
    change (r.2.1 &&& 7).toNat ≠ 6 at h6
    rw [← hr]
    unfold State.react
    extract_lets key
    split <;> first | with_reducible rfl | (next h => cases h) | exact trapPending_hps .. | skip
    · exact reactStop_hps _ _ _ _ _ _ h6
    · exact reactStop_hps _ _ _ _ _ _ h6

theorem grows_failJob (s : State) (c : Nat) (res : BitVec 4) (hn : s.noChipReset = true) : Grows s (s.failJob c res) :=
  (grows_endJob s c res).trans (grows_raise _ _ ((grows_endJob s c res).chip hn) (by simp))

theorem cutFrame_latch {s : State} {p : Page} {c : Nat} (h : (s.hdr p).latch.getLsbD c = true) : (s.cutFrame.hdr p).latch.getLsbD c = true := by
  unfold State.cutFrame
  split
  · exact ((grows_setCounter s .cmp 0x44 s.prog.entries).trans (grows_maxCounter _ .cmp 0x48 s.prog.entries)).hdr p c h
  · exact h

theorem cutFrame_chip {s : State} (hn : s.noChipReset = true) : s.cutFrame.noChipReset = true := by
  unfold State.cutFrame
  split
  · exact ((grows_setCounter s .cmp 0x44 s.prog.entries).trans (grows_maxCounter _ .cmp 0x48 s.prog.entries)).chip hn
  · exact hn

theorem changeState_chip {s : State} (hn : s.noChipReset = true) (st : DevState) (page : BitVec 12) (key : Option LogKey) :
    (s.changeState st page key).noChipReset = true := by
  unfold State.changeState
  extract_lets old s1 d1 c1 p1 s2 s2' s3
  have h1 : s1.noChipReset = true := by
    unfold s1; split
    · exact hn
    · exact (grows_addCounter s.cutFrame .pwl 0x4C s.pendingObs).chip (cutFrame_chip hn)
  have h2 : s2'.noChipReset = true := by
    unfold s2'; split
    · exact h1
    · exact h1
  have h3 : s3.noChipReset = true := by
    unfold s3; split
    · exact h2
    · exact (grows_log s2' ..).chip h2
  exact ((grows_mark s3 ..).trans (grows_updateTrips _)).chip h3

theorem raise_state {s : State} (hn : s.noChipReset = true) (h : s.dev.state = .shakeout) (c : Nat) :
    (s.raise { page := .bst, cause := c }).dev.state = .shakeout :=
  ((grows_raise s _ hn (by simp)).state (by rw [h]; decide) (by rw [h]; decide)).trans h

theorem skipSlices_form (l : List Nat) (s : State) : ∃ b n, l.foldl State.skipSlice s = { s with bst := { s.bst with slices := b }, free := n } := by
  induction l generalizing s with
  | nil => exact ⟨_, _, rfl⟩
  | cons a l ih =>
    obtain ⟨b, n, h⟩ := ih (s.skipSlice a)
    rw [List.foldl_cons, h]
    exact ⟨_, _, rfl⟩

/-- What entry to SHAKEOUT leaves. -/
structure Shaken (s : State) (trigger : BitVec 2) (ok : Bool) (t : State) : Prop where
  state : t.dev.state = .shakeout
  trigger : t.bst.trigger = trigger
  prev : t.bst.shakePrev = s.takeBack.dev.state
  secret : t.bst.secretFail = !ok
  testing : t.bst.testing = true
  sup : t.sup = s.sup
  sess : t.own.workSess = 0
  img : t.own.workImg = 0
  keys : t.bst.keysLoaded = false
  ports : ∀ h ∈ t.hps, h.session = none ∧ h.nonce = none
  otp : t.otp = s.otp
  ingot : t.img = { s.img with waits := t.img.waits }
  flash : t.flash = s.flash
  clk : t.clk = s.clk
  tb : t.frm.tb = s.frm.tb
  running : t.frm.running = false

/-- The secrets cleared and the slices begun, after a state that has the facts of the entry. -/
theorem shaken_cleared {s u : State} {trigger : BitVec 2} {ok : Bool} (h1 : u.dev.state = .shakeout) (h2 : u.bst.trigger = trigger)
    (h3 : u.bst.shakePrev = s.takeBack.dev.state) (h4 : u.bst.secretFail = !ok) (h5 : u.sup = s.sup) (h6 : u.otp = s.otp) (h7 : u.img = { s.img with waits := u.img.waits })
    (h8 : u.flash = s.flash) (h9 : u.clk = s.clk) (h10 : u.frm.tb = s.frm.tb) (h11 : u.frm.running = false) :
    Shaken s trigger ok u.clearSecrets.beginSlices :=
  ⟨h1, h2, h3, h4, rfl, h5, rfl, rfl, rfl, fun x hx => by obtain ⟨w, -, rfl⟩ := List.mem_map.1 hx; exact ⟨rfl, rfl⟩, h6, h7, h8, h9, h10, h11⟩

/-- What follows the clearing of the secrets. -/
theorem shaken_end {s u : State} {trigger : BitVec 2} {ok : Bool} (h : Shaken s trigger ok u) (hn : u.noChipReset = true) :
    Shaken s trigger ok (if ok then { u with bst := { u.bst with scanOn := true } }
      else (scanSlices.foldl State.skipSlice u).raise { page := .bst, cause := 1 }) := by
  split
  · exact ⟨h.state, h.trigger, h.prev, h.secret, h.testing, h.sup, h.sess, h.img, h.keys, h.ports, h.otp, h.ingot, h.flash, h.clk, h.tb, h.running⟩
  · obtain ⟨b, n, hx⟩ := skipSlices_form scanSlices u
    rw [hx]
    generalize hv : ({ u with bst := { u.bst with slices := b }, free := n } : State) = v
    have hvn : v.noChipReset = true := by rw [← hv]; exact hn
    have hvs : v.dev.state = .shakeout := by rw [← hv]; exact h.state
    have hr := raise_bst_hps hvn 1
    have hs := raise_state hvn hvs 1
    have hg := (grows_raise v { page := .bst, cause := 1 } hvn (by simp)).rest
    have k : Shaken s trigger ok v := by
      rw [← hv]
      exact ⟨h.state, h.trigger, h.prev, h.secret, h.testing, h.sup, h.sess, h.img, h.keys, h.ports, h.otp, h.ingot, h.flash, h.clk, h.tb, h.running⟩
    generalize v.raise { page := .bst, cause := 1 } = w at hr hs hg
    simp only [State.rest, Rest.mk.injEq] at hg
    obtain ⟨r1, r2, rc, rs, rf, -, -, ri, rl, ro, rb, -⟩ := hg
    exact ⟨hs, (congrArg Bst.trigger rb).trans k.trigger, (congrArg Bst.shakePrev rb).trans k.prev, (congrArg Bst.secretFail rb).trans k.secret,
      (congrArg Bst.testing rb).trans k.testing, rs.trans k.sup, (congrArg Own.workSess ro).trans k.sess, (congrArg Own.workImg ro).trans k.img,
      (congrArg Bst.keysLoaded rb).trans k.keys, fun x hx => k.ports x (by rw [hr] at hx; exact hx), r2.trans k.otp, by rw [ri]; exact k.ingot,
      rl.trans k.flash, rc.trans k.clk, (congrArg Frm.tb rf).trans k.tb, (congrArg Frm.running rf).trans k.running⟩

/-- Entry to SHAKEOUT, where no page selects CHIP_RESET. -/
theorem enterShakeout_facts {s : State} (hn : s.noChipReset = true) (trigger : BitVec 2) (page : BitVec 12) (ok : Bool) :
    Shaken s trigger ok (s.enterShakeout trigger page ok) := by
  unfold State.enterShakeout
  extract_lets clean s0 old s1 d1 sd b1 s2 s3 s4
  have h0 : s0.noChipReset = true ∧ ∃ st k, s0 = { s with dev := { s.dev with state := st }, evl := k } := by
    unfold s0 State.takeBack
    split
    · exact ⟨hn, _, _, rfl⟩
    · exact ⟨hn, s.dev.state, s.evl, rfl⟩
  have hc : s1.noChipReset = true := changeState_chip h0.1 ..
  have q1 : s1.otp = s.otp ∧ s1.clk = s.clk ∧ s1.sup = s.sup ∧ s1.frm.tb = s.frm.tb ∧ s1.frm.running = false ∧ s1.img = { s.img with waits := s1.img.waits } ∧ s1.flash = s.flash
      ∧ s1.dev.state = .shakeout := by
    obtain ⟨a, b, c, d, e, f, g, k, m, j, x, h, hb, -⟩ := changeState_form s0 .shakeout page none
    have e1 : s1 = _ := h
    obtain ⟨-, st, k0, h0⟩ := h0
    clear_value s0
    rw [e1, h0]; exact ⟨rfl, rfl, rfl, rfl, congrArg Prod.fst (hb rfl).1, rfl, rfl, rfl⟩
  clear_value s1
  have h2 : s2.noChipReset = true ∧ s2.dev.state = .shakeout ∧ s2.bst.trigger = trigger ∧ s2.bst.shakePrev = s.takeBack.dev.state ∧ s2.bst.secretFail = !ok
      ∧ s2.otp = s.otp ∧ s2.clk = s.clk ∧ s2.sup = s.sup ∧ s2.frm.tb = s.frm.tb ∧ s2.frm.running = false ∧ s2.img = { s.img with waits := s2.img.waits } ∧ s2.flash = s.flash :=
    ⟨hc, q1.2.2.2.2.2.2.2, rfl, rfl, rfl, q1.1, q1.2.1, q1.2.2.1, q1.2.2.2.1, q1.2.2.2.2.1, q1.2.2.2.2.2.1, q1.2.2.2.2.2.2.1⟩
  clear_value s2
  obtain ⟨p0, p1, p2, p3, p4, p5, p6, p7, p8, p9, p10, p11⟩ := h2
  have g3 : Grows s2 s3 := by
    refine Grows.foldl_of (fun s c hn => ?_) _ _ p0
    split
    · exact grows_failJob s c 5 hn
    · exact Grows.refl _
  clear_value s3
  have d3 : s3.dev.state = .shakeout := (g3.state (by rw [p1]; decide) (by rw [p1]; decide)).trans p1
  have r3 := g3.rest
  simp only [State.rest, Rest.mk.injEq] at r3
  obtain ⟨r1, r2, rc, rs, rf, -, -, ri, rl, -, rb, -⟩ := r3
  exact shaken_end (shaken_cleared d3 ((congrArg Bst.trigger rb).trans p2) ((congrArg Bst.shakePrev rb).trans p3)
    ((congrArg Bst.secretFail rb).trans p4) (rs.trans p7) (r2.trans p5) (by rw [ri]; exact p10) (rl.trans p11) (rc.trans p6)
    ((congrArg Frm.tb rf).trans p8) ((congrArg Frm.running rf).trans p9)) (g3.chip p0)

end Sys2Proof.Machine
end

