-- ==== Sys2Proof/Laws/Counts.lean ====
section
/-! SUPPORT. Entry to SHAKEOUT keeps the counters of SUP: what an event of CHK or BST and its reaction count stands on other pages (R628). -/

namespace Sys2Proof.Machine

/-- SUP's counters stay. -/
def SupKept (s t : State) : Prop := (t.hdr .sup).counters = (s.hdr .sup).counters

theorem SupKept.refl (s : State) : SupKept s s := rfl

theorem SupKept.trans {s t u : State} (h : SupKept s t) (k : SupKept t u) : SupKept s u := Eq.trans k h

theorem SupKept.foldl {α : Type} {f : State → α → State} (hf : ∀ s a, SupKept s (f s a)) (l : List α) (s : State) : SupKept s (l.foldl f s) := by
  induction l generalizing s with
  | nil => rfl
  | cons a l ih => exact (hf s a).trans (ih _)

theorem supKept_updHdr (s : State) (p : Page) (f : Hdr → Hdr) (h : p.index ≠ 2 ∨ ∀ x, (f x).counters = x.counters) : SupKept s (s.updHdr p f) := by
  unfold SupKept
  rcases hdr_of_updHdr s p .sup f with k | k
  · rw [k]
  · rcases h with h | h
    · unfold State.hdr
      rw [updHdr_hdrs, getD_upd, if_neg (fun w => h w.1)]
    · rw [k, h]

theorem supKept_setCounter (s : State) (p : Page) (off : Nat) (w : Word) (h : p.index ≠ 2) : SupKept s (s.setCounter p off w) :=
  supKept_updHdr s p _ (.inl h)

theorem supKept_addCounter (s : State) (p : Page) (off n : Nat) (h : p.index ≠ 2) : SupKept s (s.addCounter p off n) :=
  supKept_setCounter s p off _ h

theorem supKept_log (s : State) (k c : Nat) (p a : BitVec 12) (g : Byte) (key : Option LogKey) : SupKept s (s.log k c p a g key) := by
  obtain ⟨e, h⟩ := log_form s k c p a g key
  rw [h]; rfl

theorem hpOf_index (n : Nat) : (hpOf n).index ≠ 2 := by
  show 4 + (Fin.ofNat 4 n).val ≠ 2
  omega

theorem supKept_abortPort (s : State) (n : Nat) (sel : Txn → Bool) : SupKept s (s.abortPort n sel) := by
  unfold State.abortPort
  extract_lets p r s1
  exact supKept_addCounter s1 _ _ _ (hpOf_index n)

theorem supKept_abortAll (s : State) (sel : Txn → Bool) : SupKept s (s.abortAll sel) :=
  (supKept_abortPort s 0 sel).trans ((supKept_abortPort _ 1 sel).trans ((supKept_abortPort _ 2 sel).trans (supKept_abortPort _ 3 sel)))

theorem supKept_setTrips (s : State) : SupKept s s.setTrips := by
  unfold State.setTrips
  extract_lets demC demD fen mem tripC tripD newC newD t
  split
  · rfl
  · exact supKept_setCounter _ .trp _ _ (by decide)

theorem supKept_updateTrips (s : State) : SupKept s s.updateTrips := by
  unfold State.updateTrips
  rw [sendLanes_frame]
  exact supKept_setTrips s

theorem supKept_cutFrame (s : State) : SupKept s s.cutFrame := by
  unfold State.cutFrame
  split
  · exact (supKept_setCounter s .cmp 0x44 s.prog.entries (by decide)).trans (supKept_setCounter _ .cmp 0x48 _ (by decide))
  · rfl

theorem supKept_changeState (s : State) (st : DevState) (page : BitVec 12) (key : Option LogKey) : SupKept s (s.changeState st page key) := by
  unfold State.changeState
  extract_lets old s1 d1 c1 p1 s2 s2' s3
  have h1 : SupKept s s1 := by
    unfold s1; split
    · rfl
    · exact (supKept_cutFrame s).trans (supKept_addCounter s.cutFrame .pwl 0x4C s.pendingObs (by decide))
  have h2 : SupKept s1 s2' := by unfold s2'; split <;> rfl
  clear_value s2'
  have h3 : SupKept s2' s3 := by
    unfold s3; split
    · rfl
    · exact supKept_log ..
  exact h1.trans (h2.trans (h3.trans (supKept_updateTrips _)))

theorem supKept_stopTrap (s : State) : SupKept s s.stopTrap := by
  show SupKept s s.endStall
  unfold State.endStall
  split
  · rfl
  · extract_lets n s1
    have h1 : SupKept s s1 := (supKept_addCounter s .cop _ _ (by decide)).trans (supKept_addCounter _ .drg _ _ (by decide))
    clear_value s1
    exact h1

theorem supKept_safeStop (s : State) (p : Page) (c : Nat) : SupKept s (s.safeStop p c) := by
  unfold State.safeStop
  extract_lets key r36 a x1 d b
  have ha : SupKept s a := supKept_changeState s .safe p.num12 key
  clear_value a
  have hb : SupKept s b := ha
  clear_value b
  split
  · refine ha.trans ?_
    exact supKept_stopTrap a
  · split
    · exact hb.trans (supKept_stopTrap b)
    · exact hb
  · split
    · exact supKept_stopTrap s
    · rfl
  · split
    · exact supKept_stopTrap s
    · rfl
  · rfl

theorem supKept_reactStop (s : State) (p : Page) (c : Nat) (taken : BitVec 4) (origin : Page) (serial : Nat) (h : (taken &&& 7).toNat ≠ 6) :
    SupKept s (s.reactStop p c taken origin serial) := by
  unfold State.reactStop
  split
  · show SupKept s (if s.justReset then s else s.stopTaken.safeStop p c)
    split
    · rfl
    · exact supKept_safeStop s.stopTaken p c
  · next w => exact absurd w h
  · rfl

theorem supKept_setLatch (s : State) (e : Ev) : SupKept s (s.setLatch e) := by
  unfold State.setLatch
  extract_lets s1
  have h1 : SupKept s s1 := by unfold s1; split <;> rfl
  refine h1.trans ?_
  clear_value s1
  split
  · rfl
  · rfl
  · rfl
  · exact supKept_updHdr _ _ _ (.inr fun _ => rfl)

theorem supKept_record (s : State) (e : Ev) : SupKept s (s.record e).1 := by
  unfold State.record
  extract_lets p h sh cl r wasOpen cls taken origin inc serial conseq shown s1 s2 s3 unit w s4 sn s5 src' s6
  have h1 : SupKept s s1 := supKept_setLatch ..
  have h2 : SupKept s1 s2 := supKept_updHdr _ _ _ (.inr fun _ => rfl)
  have h3 : SupKept s2 s3 := by
    unfold s3; split
    · rfl
    · refine supKept_updHdr _ _ _ (.inr fun x => ?_)
      split <;> rfl
  have h4 : SupKept s3 sn := by
    obtain ⟨k, h4⟩ := logPush_form s3 { time := s3.frm.tb, page := p.num12, code := BitVec.ofNat 5 e.cause, group := 0, w0 := w.1, w1 := w.2 }
    have h4 : s4 = _ := h4
    clear_value s4
    subst h4
    unfold sn State.noteFv
    split
    · split <;> rfl
    · rfl
  have h5 : SupKept sn s5 := by
    unfold s5; split
    · obtain ⟨p, r, c, m, b, h⟩ := channelCause_form sn
      rw [h]; rfl
    · rfl
  have h6 : SupKept s5 s6 := by unfold s6; split <;> rfl
  exact h1.trans (h2.trans (h3.trans (h4.trans (h5.trans h6))))

theorem supKept_endJob (s : State) (c : Nat) (res : BitVec 4) : SupKept s (s.endJob c res) := by
  unfold State.endJob
  exact supKept_updHdr (s.updCtx c _) .chk _ (.inl (by decide))

/-- Jobs that a reaction ends. -/
theorem supKept_endJobs (s : State) (cs : List Nat) (res : BitVec 4) (hn : s.noChipReset = true) : SupKept s (s.endJobs cs res) := by
  unfold State.endJobs
  induction cs generalizing s with
  | nil => rfl
  | cons c cs ih =>
    rw [List.foldl_cons]
    have g : Grows s (State.endJobs s [c] res) := grows_endJobs s [c] res hn
    refine SupKept.trans ?_ (ih _ (g.chip hn))
    extract_lets s1 r
    have h1 : SupKept s s1 := supKept_endJob ..
    have hn1 : s1.noChipReset = true := (grows_endJob ..).chip hn
    split
    · have h6 : (r.2.1 &&& 7).toNat ≠ 6 := record_taken hn1 { page := .chk, cause := 8 + c, unit := some c, after := true } (by simp)
      have hr : SupKept s1 r.1 := supKept_record ..
      split
      · exact h1.trans (hr.trans (supKept_reactStop _ _ _ _ _ _ h6))
      · exact h1.trans hr
    · exact h1

theorem supKept_fenceCtxs (s : State) (cs : List Nat) (key : Option LogKey) (hn : s.noChipReset = true) : SupKept s (s.fenceCtxs cs key) := by
  unfold State.fenceCtxs
  extract_lets jobs s1
  have g : Grows s s1 := Grows.foldl (fun s c => by
    exact ((Grows.same rfl rfl rfl rfl rfl rfl : Grows s (s.updCtx c _)).trans (grows_log ..)).trans (grows_abortAll ..)) _ _
  have h : SupKept s s1 := SupKept.foldl (fun s c => (supKept_log (s.updCtx c _) ..).trans (supKept_abortAll ..)) _ _
  exact h.trans (supKept_endJobs _ _ _ (g.chip hn))

theorem supKept_resetCtxs (s : State) (cs : List Nat) (hn : s.noChipReset = true) : SupKept s (s.resetCtxs cs) := by
  unfold State.resetCtxs
  extract_lets jobs s1
  have h : SupKept s s1 := by
    have g : Grows s (cs.foldl (fun s c => s.abortAll (ctxAddr c)) s) := Grows.foldl (fun s c => grows_abortAll ..) _ _
    exact (SupKept.foldl (fun s c => supKept_abortAll ..) _ _).trans (supKept_endJobs _ _ _ (g.chip hn))
  refine h.trans ?_
  clear_value s1
  exact SupKept.foldl (f := fun (s : State) c => s.updCtx c fun x => x.cleared c) (fun _ _ => rfl) _ _

/-- An event of CHK or BST. -/
theorem supKept_raise {s : State} (hn : s.noChipReset = true) (p : Page) (hp : p = .chk ∨ p = .bst) (c : Nat) (u : Option Nat) :
    SupKept s (s.raise { page := p, cause := c, unit := u }) := by
  unfold State.raise
  split
  · unfold State.dieLatch
    rcases hp with rfl | rfl <;> rfl
  split
  · rfl
  split
  · unfold State.recordLate
    extract_lets b
    split <;> rfl
  split
  · rfl
  extract_lets r
  have h1 : SupKept s r.1 := supKept_record ..
  have h6 : (r.2.1 &&& 7).toNat ≠ 6 := record_taken hn _ (by simp)
  have hn1 : r.1.noChipReset = true := (grows_record ..).chip hn
  refine h1.trans ?_
  clear_value r
  obtain ⟨v, taken, origin, serial⟩ := r
  simp only at h6 hn1 ⊢
  unfold State.react
  extract_lets key cs
  obtain ⟨n, hq⟩ : ∃ n, (taken &&& 7).toNat = n := ⟨_, rfl⟩
  rcases hp with rfl | rfl
  · split <;> first | with_reducible exact SupKept.refl _ | (next h => cases h) | exact supKept_reactStop _ _ _ _ _ _ h6 | skip
    · rfl
    · exact supKept_resetCtxs (v.openShadow _ origin serial) cs hn1
    · exact supKept_fenceCtxs (v.openShadow _ origin serial) cs key hn1
  · split <;> first | with_reducible exact SupKept.refl _ | (next h => cases h) | exact supKept_reactStop _ _ _ _ _ _ h6 | skip
    · rfl

theorem supKept_failJobs (l : List Nat) {s : State} (hn : s.noChipReset = true) :
    SupKept s (l.foldl (fun s c => if (s.ctx c).busy then s.failJob c 5 else s) s)
      ∧ (l.foldl (fun s c => if (s.ctx c).busy then s.failJob c 5 else s) s).noChipReset = true := by
  induction l generalizing s with
  | nil => exact ⟨rfl, hn⟩
  | cons a l ih =>
    rw [List.foldl_cons]
    split
    · have k : SupKept s (s.failJob a 5) :=
        (supKept_endJob ..).trans (supKept_raise ((grows_endJob ..).chip hn) .chk (.inl rfl) _ _)
      have i := ih ((grows_failJob s a 5 hn).chip hn)
      exact ⟨k.trans i.1, i.2⟩
    · exact ih hn

/-- Entry to SHAKEOUT. -/
theorem supKept_enterShakeout {s : State} (hn : s.noChipReset = true) (trigger : BitVec 2) (page : BitVec 12) (ok : Bool) :
    SupKept s (s.enterShakeout trigger page ok) := by
  unfold State.enterShakeout
  extract_lets clean s0 old s1 d1 sd b1 s2 s3 s4
  have h0 : s0.noChipReset = true ∧ SupKept s s0 := by
    unfold s0 State.takeBack
    split
    · exact ⟨hn, rfl⟩
    · exact ⟨hn, rfl⟩
  have hc1 : s1.noChipReset = true := changeState_chip h0.1 .shakeout page none
  have h2 : SupKept s0 s1 := supKept_changeState s0 .shakeout page none
  clear_value s1
  have hc : s2.noChipReset = true := hc1
  have h2 : SupKept s0 s2 := h2
  clear_value s2
  have h3 : SupKept s2 s3 ∧ s3.noChipReset = true := supKept_failJobs _ hc
  clear_value s3
  have h4 : SupKept s3 s4 ∧ s4.noChipReset = true := ⟨rfl, h3.2⟩
  clear_value s4
  refine h0.2.trans (h2.trans (h3.1.trans (h4.1.trans ?_)))
  split
  · rfl
  · obtain ⟨b, n, h⟩ := skipSlices_form scanSlices s4
    rw [h]
    exact supKept_raise (s := { s4 with bst := { s4.bst with slices := b }, free := n }) h4.2 .bst (.inr rfl) 1 none

end Sys2Proof.Machine
end

