-- ==== Sys2Proof/Laws/KeepsCheck.lean ====
section
/-! SUPPORT. What the operations of Machine/Check.lean keep. -/

namespace Sys2Proof.Machine

theorem keeps_check (s : State) (c : Nat) : Keeps s (State.check s c) := by
  unfold State.check
  extract_lets x0 x1
  have hx0 : Keeps s x0 := by
    unfold x0
    exact keeps_bump ..
  clear_value x0
  split
  · refine Keeps.trans ?_ (keeps_updCtx _ _ _)
    assumption
  · refine Keeps.trans ?_ (keeps_raise _ _)
    refine Keeps.trans ?_ (keeps_updCtx _ _ _)
    assumption

theorem keeps_startJob (s : State) (c : Nat) (jobInit jobCheck : Bool) : Keeps s (State.startJob s c jobInit jobCheck) := by
  unfold State.startJob
  extract_lets x0 x1
  split
  · refine Keeps.trans ?_ (keeps_failJob _ _ _)
    exact keeps_updCtx ..
  · exact keeps_updCtx ..

theorem keeps_ctxControl (s : State) (c : Nat) (w : Word) : Keeps s (State.ctxControl s c w) := by
  unfold State.ctxControl
  extract_lets x0 x1
  have hx0 : Keeps s x0 := by
    unfold x0
    split
    · exact keeps_updCtx ..
    · exact Keeps.refl _
  have hx1 : Keeps s x1 := by
    unfold x1
    split
    · refine Keeps.trans ?_ (keeps_check _ _)
      assumption
    · assumption
  clear_value x1
  clear_value x0
  split
  · refine Keeps.trans ?_ (keeps_startJob _ _ _ _)
    assumption
  · assumption

theorem keeps_finishJob (s : State) (c : Nat) : Keeps s (State.finishJob s c) := by
  unfold State.finishJob
  extract_lets x0
  have hx0 : Keeps s x0 := by
    unfold x0
    exact keeps_endJob ..
  clear_value x0
  split
  · refine Keeps.trans ?_ (keeps_check _ _)
    assumption
  · assumption

theorem keeps_feedJob (s : State) (c : Nat) (w : Word) : Keeps s (State.feedJob s c w) := by
  unfold State.feedJob
  extract_lets x0
  have hx0 : Keeps s x0 := by
    unfold x0
    exact keeps_updCtx ..
  clear_value x0
  split
  · refine Keeps.trans ?_ (keeps_finishJob _ _)
    assumption
  · assumption

theorem keeps_jobRead (s : State) (c : Nat) (ecc : Option EccErr) : Keeps s (State.jobRead s c ecc) := by
  unfold State.jobRead
  extract_lets x0 x1 x2 x3 x4
  have hx2 : Keeps s x2 := by
    unfold x2
    exact keeps_touchSegment ..
  have hx3 : Keeps s x3 := by
    unfold x3
    split
    · refine Keeps.trans ?_ (keeps_upsetWord _ _ _ _)
      assumption
    · assumption
  clear_value x3
  clear_value x2
  split
  · refine Keeps.trans ?_ (keeps_feedJob _ _ _)
    exact keeps_bump ..
  · split
    · exact keeps_updCtx ..
    · split
      · refine Keeps.trans ?_ (keeps_feedJob _ _ _)
        assumption
      · split
        · exact hx3.trans ((keeps_failJob ..).trans (keeps_spbError ..))
        · exact hx3.trans ((keeps_spbError ..).trans (keeps_feedJob ..))

theorem keeps_doJobWordRead (c : Fin 8) (ecc : Option EccErr) (parity : Bool) (s : State) : Keeps s (doJobWordRead c ecc parity s) := by
  unfold doJobWordRead
  extract_lets x0
  have hx0 : Keeps s x0 := by
    unfold x0
    split
    · exact keeps_raise ..
    · exact Keeps.refl _
  clear_value x0
  split
  · refine Keeps.trans ?_ (keeps_jobRead _ _ _)
    assumption
  · assumption

theorem keeps_doPortBRetry (c : Fin 8) (ecc : Option EccErr) (s : State) : Keeps s (doPortBRetry c ecc s) := by
  unfold doPortBRetry
  split
  · refine Keeps.trans ?_ (keeps_jobRead _ _ _)
    exact keeps_updCtx ..
  · exact Keeps.refl _

theorem keeps_sleepJobs (s : State) (k : Nat) : Keeps s (State.sleepJobs s k) := by
  unfold State.sleepJobs
  refine Keeps.trans ?_ (Keeps.foldl (fun s0 a1 => ?_) _ _)
  · exact Keeps.refl _
  · split
    · exact keeps_failJob ..
    · exact Keeps.refl _

theorem keeps_bankOn (s : State) (k : Nat) : Keeps s (State.bankOn s k) := by
  unfold State.bankOn
  extract_lets x0 x1
  have hx0 : Keeps s x0 := by
    unfold x0
    refine Keeps.trans ?_ (keeps_updSpb _ _ _ ?_)
    · exact Keeps.refl _
    · exact fun _ h => h
  clear_value x0
  refine Keeps.trans (t := x0) ?_ (Keeps.same rfl rfl rfl)
  assumption

theorem keeps_doBankPowerChange (k : Fin 16) (s : State) : Keeps s (doBankPowerChange k s) := by
  unfold doBankPowerChange
  extract_lets x0
  split
  · exact Keeps.refl _
  · split
    · refine Keeps.trans ?_ (keeps_bankOn _ _)
      refine Keeps.trans ?_ (keeps_updSpb _ _ _ ?_)
      · exact Keeps.refl _
      · exact fun _ _ => rfl
    · refine Keeps.trans ?_ (keeps_sleepJobs _ _)
      refine Keeps.trans ?_ (keeps_updSpb _ _ _ ?_)
      · exact Keeps.refl _
      · exact fun _ h => h
    · refine Keeps.trans ?_ (keeps_sleepJobs _ _)
      refine Keeps.trans ?_ (keeps_updSpb _ _ _ ?_)
      · exact Keeps.refl _
      · exact fun _ _ => rfl
    · refine Keeps.trans ?_ (keeps_updSpb _ _ _ ?_)
      · exact Keeps.refl _
      · exact fun _ _ => rfl
    · exact keeps_bankOn ..
    · exact Keeps.refl _

theorem keeps_requestPower (s : State) (k : Nat) (req : BitVec 2) : Keeps s (State.requestPower s k req) := by
  unfold State.requestPower
  extract_lets x0 x1
  split
  · exact Keeps.refl _
  · refine Keeps.trans ?_ (keeps_updSpb _ _ _ ?_)
    · exact Keeps.refl _
    · exact fun _ h => h

theorem keeps_unfenceSpb (s : State) (k : Nat) : Keeps s (State.unfenceSpb s k) := by
  unfold State.unfenceSpb
  split
  · refine Keeps.trans ?_ (keeps_log _ _ _ _ _ _ _)
    refine Keeps.trans ?_ (keeps_updSpb _ _ _ ?_)
    · exact Keeps.refl _
    · exact fun _ h => h
  · exact Keeps.refl _

theorem keeps_unfenceCtx (s : State) (c : Nat) : Keeps s (State.unfenceCtx s c) := by
  unfold State.unfenceCtx
  split
  · refine Keeps.trans ?_ (keeps_log _ _ _ _ _ _ _)
    exact keeps_updCtx ..
  · exact Keeps.refl _

end Sys2Proof.Machine
end

