-- ==== Sys2Proof/Laws/KeepsIngot.lean ====
section
/-! SUPPORT. What the operations of Machine/Ingot.lean keep. -/

namespace Sys2Proof.Machine

theorem keeps_applyOwnership (s : State) (v : Words) : Keeps s (State.applyOwnership s v) := by
  unfold State.applyOwnership
  split
  · refine Keeps.trans ?_ (Keeps.foldl (fun s0 a1 => ?_) _ _)
    · exact Keeps.refl _
    · refine Keeps.trans ?_ (keeps_updHdr _ _ _ ?_)
      · exact Keeps.refl _
      · exact fun _ => rfl
  · refine Keeps.trans ?_ (Keeps.foldl (fun s2 a3 => ?_) _ _)
    · exact Keeps.refl _
    · refine Keeps.trans ?_ (keeps_updHdr _ _ _ ?_)
      · exact Keeps.refl _
      · exact fun _ => rfl

theorem keeps_applyReact (s : State) (v : Words) : Keeps s (State.applyReact s v) := by
  unfold State.applyReact
  extract_lets x0
  have hx0 : Keeps s x0 := by
    unfold x0
    refine Keeps.trans ?_ (Keeps.foldl (fun s1 a2 => ?_) _ _)
    · exact Keeps.refl _
    · refine Keeps.trans ?_ (keeps_updHdr _ _ _ ?_)
      · exact Keeps.refl _
      · exact fun _ => rfl
  clear_value x0
  refine Keeps.trans ?_ (Keeps.foldl (fun s3 a4 => ?_) _ _)
  · assumption
  · extract_lets x5
    split
    · refine Keeps.trans ?_ (keeps_updHdr _ _ _ ?_)
      · exact Keeps.refl _
      · exact fun _ => rfl
    · exact Keeps.refl _

theorem keeps_enterRun (s : State) (v : Words) : Keeps s (State.enterRun s v) := by
  unfold State.enterRun
  extract_lets x0 x1
  have hx0 : Keeps s x0 := by
    unfold x0
    refine Keeps.trans ?_ (keeps_applyReact _ _)
    exact keeps_applyOwnership ..
  clear_value x0
  refine Keeps.trans (t := x0) ?_ (Keeps.same rfl rfl (by simp [State.shape]))
  assumption

theorem keeps_applyConfig (s : State) (v : Words) : Keeps s (State.applyConfig s v) := by
  unfold State.applyConfig
  refine Keeps.same rfl ?_ (by simp [State.shape])
  simp only [State.mems, Mems.mk.injEq, true_and]
  refine map_mapIdx_same ?_ s.spbs
  exact fun _ _ => rfl

theorem keeps_loadChannels (s : State) (v : Words) : Keeps s (State.loadChannels s v) := by
  unfold State.loadChannels
  extract_lets init code consts rs
  refine Keeps.memory rfl rfl fun h => ?_
  simp only [State.memOk, Bool.and_eq_true] at h ⊢
  obtain ⟨⟨⟨⟨⟨⟨⟨-, h7⟩, h8⟩, h9⟩, -⟩, h11⟩, h12⟩, h13⟩ := h
  exact ⟨⟨⟨⟨⟨⟨⟨⟨⟨⟨⟨⟨Mem.wf_ofBytes .., Mem.wf_ofBytes ..⟩, Mem.wf_ofBytes ..⟩, Mem.wf_ofBytes ..⟩, Mem.wf_ofBytes ..⟩,
    Mem.wf_ofBytes ..⟩, h7⟩, h8⟩, h9⟩, Mem.wf_ofBytes ..⟩, h11⟩, h12⟩, h13⟩

end Sys2Proof.Machine
end

