-- ==== Sys2Proof/Laws/KeepsInputs.lean ====
section
/-! SUPPORT. What the operations of Machine/Inputs.lean keep. -/

namespace Sys2Proof.Machine

theorem keeps_refilter (s : State) (i : Nat) (h : Half) : Keeps s (State.refilter s i h) := by
  unfold State.refilter
  extract_lets x0
  exact keeps_updComp ..

theorem keeps_latchIn (s : State) (i c : Nat) : Keeps s (State.latchIn s i c) := by
  unfold State.latchIn
  refine Keeps.trans ?_ (keeps_updateTrips _)
  exact keeps_raise ..

theorem keeps_compForeign (s : State) (i : Nat) (h : Half) (slot : BitVec 6) : Keeps s (State.compForeign s i h slot).1 := by
  unfold State.compForeign
  split
  · split
    · dsimp only
      refine Keeps.trans ?_ (keeps_updInp _ _ _)
      exact keeps_updComp ..
    · dsimp only
      refine Keeps.trans ?_ (keeps_updInp _ _ _)
      refine Keeps.trans ?_ (keeps_updComp _ _ _ _)
      exact keeps_bump ..
  · dsimp only
    refine Keeps.trans ?_ (keeps_updInp _ _ _)
    exact keeps_updComp ..

theorem keeps_perOf (s : State) (ticks : Nat) : Keeps s (State.perOf s ticks).2 := by
  unfold State.perOf
  split
  · exact Keeps.refl _
  · exact keeps_freeWord ..

theorem keeps_countEdge (s : State) (i : Nat) (h : Half) : Keeps s (State.countEdge s i h) := by
  unfold State.countEdge
  extract_lets x0 x1 x2
  have hx2 : Keeps s x2.2 := by
    unfold x2
    split
    · exact keeps_perOf ..
    · exact Keeps.refl _
  clear_value x2
  refine Keeps.trans ?_ (keeps_updComp _ _ _ _)
  assumption

theorem keeps_observeRise (s : State) (i : Nat) (h : Half) : Keeps s (State.observeRise s i h) := by
  unfold State.observeRise
  extract_lets x0 x1 x2 x3 x4
  have hx2 : Keeps s x2 := by
    unfold x2
    exact keeps_updComp ..
  have hx3 : Keeps s x3 := by
    unfold x3
    refine Keeps.trans ?_ (keeps_updComp _ _ _ _)
    assumption
  have hx4 : Keeps s x4.1 := by
    unfold x4
    refine Keeps.trans ?_ (keeps_compForeign _ _ _ _)
    assumption
  clear_value x4
  clear_value x3
  clear_value x2
  split
  · assumption
  · split
    · split
      · split
        · refine Keeps.trans ?_ (keeps_latchIn _ _ _)
          assumption
        · assumption
      · assumption
    · split
      · refine Keeps.trans ?_ (keeps_bump _ _ _)
        assumption
      · assumption

theorem keeps_observeFall (s : State) (i : Nat) (h : Half) : Keeps s (State.observeFall s i h) := by
  unfold State.observeFall
  extract_lets x0
  exact keeps_updComp ..

theorem keeps_doInputLevelChange (i : Fin 112) (h : Half) (level : Bool) (s : State) : Keeps s (doInputLevelChange i h level s) := by
  unfold doInputLevelChange
  split
  · exact Keeps.refl _
  · extract_lets x0 x1 x2
    have hx0 : Keeps s x0 := by
      unfold x0
      exact keeps_refilter ..
    have hx1 : Keeps s x1 := by
      unfold x1
      split
      · refine Keeps.trans ?_ (keeps_countEdge _ _ _)
        refine Keeps.trans ?_ (keeps_observeRise _ _ _)
        assumption
      · refine Keeps.trans ?_ (keeps_observeFall _ _ _)
        assumption
    have hx2 : Keeps s x2 := by
      unfold x2
      refine Keeps.trans ?_ (keeps_updComp _ _ _ _)
      assumption
    clear_value x2
    clear_value x1
    clear_value x0
    refine Keeps.trans ?_ (keeps_updateTrips _)
    refine Keeps.trans ?_ (keeps_refilter _ _ _)
    assumption

theorem keeps_doTripTolExpiry (i : Fin 112) (h : Half) (s : State) : Keeps s (doTripTolExpiry i h s) := by
  unfold doTripTolExpiry
  split
  · refine Keeps.trans ?_ (keeps_updateTrips _)
    exact keeps_updComp ..
  · exact Keeps.refl _

theorem keeps_unmask (s : State) (i : Nat) : Keeps s (State.unmask s i) := by
  unfold State.unmask
  extract_lets x0
  unfold x0
  extract_lets x1 x2
  refine Keeps.trans ?_ (keeps_refilter _ _ _)
  refine Keeps.trans ?_ (keeps_updComp _ _ _ _)
  refine Keeps.trans ?_ (keeps_refilter _ _ _)
  exact keeps_updComp ..

theorem keeps_doOwnMaskEnd (i : Fin 112) (s : State) : Keeps s (doOwnMaskEnd i s) := by
  unfold doOwnMaskEnd
  split
  · refine Keeps.trans ?_ (keeps_updateTrips _)
    refine Keeps.trans ?_ (keeps_unmask _ _)
    exact keeps_updInp ..
  · exact Keeps.refl _

theorem keeps_doFilterExpiry (i : Fin 112) (h : Half) (s : State) : Keeps s (doFilterExpiry i h s) := by
  unfold doFilterExpiry
  split
  · exact keeps_updComp ..
  · exact Keeps.refl _

theorem keeps_doInputExercise (d : Fin 2) (s : State) : Keeps s (doInputExercise d s) := by
  unfold doInputExercise
  split
  · exact Keeps.refl _
  · refine Keeps.trans ?_ (Keeps.foldl (fun s3 a4 => ?_) _ _)
    · exact Keeps.same rfl rfl rfl
    · split
      · exact keeps_bump ..
      · exact Keeps.refl _

theorem keeps_exerciseOne (s : State) (f : BitVec 2) (wrong : BitVec 112) (b k : Nat) : Keeps s (State.exerciseOne s f wrong b k) := by
  unfold State.exerciseOne
  extract_lets x0
  split
  · refine Keeps.trans ?_ (keeps_latchIn _ _ _)
    exact keeps_updInBank ..
  · exact keeps_bump ..

theorem keeps_doInputExerciseEnd (wrong : BitVec 112) (s : State) : Keeps s (doInputExerciseEnd wrong s) := by
  unfold doInputExerciseEnd
  split
  · exact Keeps.refl _
  · extract_lets ends left p x1
    have hx1 : Keeps s x1 := Keeps.same rfl rfl rfl
    clear_value x1
    refine Keeps.trans ?_ (Keeps.foldl (fun s2 a3 => ?_) _ _)
    · assumption
    · split
      · refine Keeps.trans ?_ (Keeps.foldl (fun s4 a5 => ?_) _ _)
        · exact Keeps.refl _
        · exact keeps_exerciseOne ..
      · exact Keeps.refl _

theorem keeps_doCurrentMeasure (readings : List (Fin 112 × BitVec 9)) (s : State) : Keeps s (doCurrentMeasure readings s) := by
  unfold doCurrentMeasure
  refine Keeps.trans ?_ (Keeps.foldl (fun s0 a1 => ?_) _ _)
  · exact Keeps.refl _
  · split
    · exact keeps_updInp ..
    · exact Keeps.refl _

theorem keeps_doOpenWire (i : Fin 112) (live : Bool) (s : State) : Keeps s (doOpenWire i live s) := by
  unfold doOpenWire
  split
  · exact Keeps.refl _
  · extract_lets x0
    have hx0 : Keeps s x0 := by
      unfold x0
      exact keeps_updInp ..
    clear_value x0
    split
    · refine Keeps.trans ?_ (keeps_latchIn _ _ _)
      refine Keeps.trans ?_ (keeps_bump _ _ _)
      assumption
    · assumption

theorem keeps_doRefCheck (b : Fin 8) (bad : Bool) (s : State) : Keeps s (doRefCheck b bad s) := by
  unfold doRefCheck
  split
  · extract_lets x0 x1
    have hx1 : Keeps s x1 := by
      unfold x1
      exact keeps_updInBank ..
    clear_value x1
    split
    · refine Keeps.trans ?_ (keeps_onset _ _ _)
      assumption
    · assumption
  · refine Keeps.trans ?_ (keeps_setLive _ _ _ _)
    exact keeps_updInBank ..

end Sys2Proof.Machine
end

