-- ==== Sys2Proof/Laws/KeepsTrip.lean ====
section
/-! SUPPORT. What the operations of Machine/Trip.lean keep. -/

namespace Sys2Proof.Machine

theorem keeps_laneError (s : State) (d : Nat) (h : Half) (kind : Nat) : Keeps s (State.laneError s d h kind) := by
  unfold State.laneError
  split
  · exact Keeps.refl _
  · extract_lets x0
    have hx0 : Keeps s x0 := by
      unfold x0
      exact keeps_updBar ..
    clear_value x0
    refine Keeps.trans ?_ (keeps_raise _ _)
    refine Keeps.trans ?_ (keeps_bump _ _ _)
    assumption

theorem keeps_badMessage (s : State) (d : Nat) (h : Half) : Keeps s (State.badMessage s d h) := by
  unfold State.badMessage
  split
  · exact Keeps.refl _
  · extract_lets x0 x1
    have hx1 : Keeps s x1 := by
      unfold x1
      exact Keeps.same rfl rfl rfl
    clear_value x1
    refine Keeps.trans ?_ (keeps_laneError _ _ _ _)
    refine Keeps.trans ?_ (keeps_bump _ _ _)
    refine Keeps.trans ?_ (keeps_bump _ _ _)
    assumption

/-- A new trip matrix with the latches of the old one, brought up to date. -/
theorem keeps_trips (s : State) (t : Trp) (hc : t.tlC = s.trp.tlC) (hd : t.tlD = s.trp.tlD) : Keeps s { s with trp := t }.updateTrips :=
  (keeps_trp s t hc hd).trans (keeps_updateTrips _)

theorem keeps_coreMessage (s : State) (d : Nat) (h : Half) (bad : Bool) : Keeps s (State.coreMessage s d h bad) := by
  unfold State.coreMessage
  extract_lets i lanes rest
  split
  · refine Keeps.trans (keeps_trips s _ ?_ ?_) (keeps_badMessage _ d h) <;> rfl
  · refine keeps_trips s _ ?_ ?_ <;> rfl

theorem keeps_destMessage (s : State) (d : Nat) (h : Half) (bad : Bool) : Keeps s (State.destMessage s d h bad) := by
  unfold State.destMessage
  extract_lets i p t0 t
  refine keeps_trips s t ?_ ?_ <;> (unfold t; split <;> rfl)

theorem keeps_doTripMessage (src : Fin 2) (h : Half) (bad toDie : Bool) (s : State) : Keeps s (doTripMessage src h bad toDie s) := by
  unfold doTripMessage
  split
  · exact Keeps.refl _
  · split
    · exact keeps_destMessage ..
    · exact keeps_coreMessage ..

theorem keeps_flushLane (s : State) (d : Nat) (h : Half) : Keeps s (s.flushLane d h) := by
  unfold State.flushLane
  extract_lets i late t0 s1 s2 sent t1 s3
  have h1 : Keeps s s1 := by refine keeps_trp s _ ?_ ?_ <;> rfl
  have h2 : Keeps s1 s2 := Keeps.foldl (fun s _ => by refine keeps_trips s _ ?_ ?_ <;> rfl) _ _
  have h3 : Keeps s2 s3 := by refine keeps_trp s2 _ ?_ ?_ <;> rfl
  exact h1.trans (h2.trans (h3.trans (Keeps.foldl (fun s _ => by refine keeps_trips s _ ?_ ?_ <;> rfl) _ _)))

theorem keeps_validHeartbeat (s : State) (d : Nat) (h : Half) : Keeps s (State.validHeartbeat s d h) := by
  unfold State.validHeartbeat
  extract_lets s1 i lanes last gap s2 s3 t s4 missed
  have h1 : Keeps s s1 := keeps_flushLane ..
  have h2 : Keeps s1 s2 := keeps_updBar ..
  have h3 : Keeps s2 s3 := keeps_maxCounter ..
  clear_value s3
  have h4 : Keeps s3 s4 := Keeps.same rfl rfl rfl
  clear_value s4
  refine (h1.trans (h2.trans (h3.trans h4))).trans (Keeps.trans ?_ (keeps_updateTrips _))
  split
  · exact Keeps.refl _
  · exact keeps_setLive ..

theorem keeps_report (s : State) (d c : Nat) (b : Bool) : Keeps s (State.report s d c b) := by
  unfold State.report
  split
  · exact Keeps.refl _
  · split
    · exact keeps_onset ..
    · exact keeps_setLive ..

theorem keeps_reportBad (s : State) (d : Nat) (h : Half) : Keeps s (State.reportBad s d h) := by
  unfold State.reportBad
  extract_lets x0 x1
  split
  · refine Keeps.trans ?_ (keeps_badMessage _ _ _)
    exact Keeps.same rfl rfl rfl
  · exact Keeps.refl _

theorem keeps_doHeartbeat (d : Fin 2) (h : Half) (err : Option LaneErr) (rawLate pwrLow clkDiff : Bool) (s : State) :
    Keeps s (doHeartbeat d h err rawLate pwrLow clkDiff s) := by
  unfold doHeartbeat
  split
  · exact Keeps.refl _
  · extract_lets x0
    split
    · unfold x0
      refine Keeps.trans ?_ (keeps_reportBad _ _ _)
      refine Keeps.trans ?_ (keeps_report _ _ _ _)
      refine Keeps.trans ?_ (keeps_report _ _ _ _)
      split
      · exact Keeps.trans (keeps_validHeartbeat ..) (keeps_laneError ..)
      · exact keeps_validHeartbeat ..
    · exact keeps_laneError ..
    · exact keeps_laneError ..

theorem keeps_doHbMiss (d : Fin 2) (h : Half) (s : State) : Keeps s (doHbMiss d h s) := by
  unfold doHbMiss
  split
  · exact Keeps.refl _
  · extract_lets x0 x1
    have hx1 : Keeps s x1 := by
      unfold x1
      refine Keeps.trans ?_ (keeps_updateTrips _)
      exact Keeps.same rfl rfl rfl
    clear_value x1
    split
    · assumption
    · refine Keeps.trans ?_ (keeps_report _ _ _ _)
      assumption

theorem keeps_doChill (d : Fin 2) (s : State) : Keeps s (doChill d s) := by
  unfold doChill
  extract_lets x0 x1 x2 x3
  have hx0 : Keeps s x0 := by
    unfold x0
    exact keeps_updBar ..
  have hx3 : Keeps s x3 := by
    unfold x3
    refine Keeps.trans ?_ (keeps_updateTrips _)
    refine Keeps.trans (t := x0) ?_ (Keeps.same rfl rfl rfl)
    assumption
  clear_value x3
  clear_value x0
  split
  · refine Keeps.trans ?_ (keeps_report _ _ _ _)
    assumption
  · assumption

theorem keeps_tripFault (s : State) (c bank : Nat) (info : Word) : Keeps s (State.tripFault s c bank info) := by
  unfold State.tripFault
  extract_lets x0 x1
  have hx1 : Keeps s x1 := by
    unfold x1
    split
    · exact Keeps.refl _
    · exact Keeps.same rfl rfl rfl
  clear_value x1
  refine Keeps.trans ?_ (keeps_raise _ _)
  assumption

theorem keeps_doLaneTestEcho (h : Half) (echo : BitVec 12) (s : State) : Keeps s (doLaneTestEcho h echo s) := by
  unfold doLaneTestEcho
  extract_lets x0 x1
  split
  · refine Keeps.trans ?_ (keeps_bump _ _ _)
    exact Keeps.same rfl rfl rfl
  · exact Keeps.refl _

theorem keeps_doLaneFail (h : Half) (s : State) : Keeps s (doLaneFail h s) := by
  unfold doLaneFail
  extract_lets x0
  split
  · exact keeps_tripFault ..
  · exact Keeps.refl _

end Sys2Proof.Machine
end

