-- ==== Sys2Proof/Laws/KeepsChannels.lean ====
section
/-! SUPPORT. What the operations of Machine/Channels.lean keep. -/

namespace Sys2Proof.Machine

theorem keeps_mmEntry (s : State) (e : Option (BitVec 64)) : Keeps s (State.mmEntry s e).2 := by
  unfold State.mmEntry
  split
  · exact Keeps.refl _
  · extract_lets x0 x1
    have hx0 : Keeps s x0.2 := by
      unfold x0
      exact keeps_freeWord ..
    have hx1 : Keeps s x1.2 := by
      unfold x1
      refine Keeps.trans ?_ (keeps_freeWord _)
      assumption
    clear_value x1
    clear_value x0
    assumption

theorem keeps_cmp (s : State) (f : Cmp) : Keeps s { s with cmp := f } := Keeps.same rfl rfl rfl

theorem keeps_mismatch (s : State) (ec ed : Option (BitVec 64)) : Keeps s (State.mismatch s ec ed) := by
  unfold State.mismatch
  extract_lets kind c d src m s1
  have h1 : Keeps s c.2 := keeps_mmEntry ..
  have h2 : Keeps c.2 d.2 := keeps_mmEntry ..
  refine Keeps.trans (t := s1) ?_ (keeps_raise ..)
  unfold s1
  clear_value kind m d
  split
  · exact Keeps.refl _
  · exact (h1.trans h2).trans (keeps_cmp ..)

theorem keeps_compareEntry (s : State) (u : Upset) (ec ed : Option (BitVec 64)) : Keeps s (State.compareEntry s u ec ed).1 := by
  unfold State.compareEntry
  split
  · exact Keeps.refl _
  · extract_lets x0 x1 x2 x3 x4 x5 x6
    have hx4 : Keeps s x4 := by
      unfold x4
      exact Keeps.same rfl rfl rfl
    have hx6 : Keeps s x6 := by
      unfold x6
      refine Keeps.trans (t := x4) ?_ (Keeps.same rfl rfl rfl)
      assumption
    clear_value x6
    clear_value x4
    split
    · assumption
    · split
      · dsimp only
        refine Keeps.trans ?_ (keeps_raise _ _)
        assumption
      · dsimp only
        refine Keeps.trans ?_ (keeps_mismatch _ _ _)
        assumption

theorem keeps_present (l : Lane) (u : Upset) (ec ed : Option (BitVec 64)) : Keeps l.s (Lane.present l u ec ed).1.s := by
  unfold Lane.present
  extract_lets x0
  have hx0 : Keeps l.s x0.1 := by
    unfold x0
    exact keeps_compareEntry ..
  clear_value x0
  assumption

theorem keeps_presentAll (l : Lane) (u : Upset) (es : List (BitVec 64 × BitVec 64)) : Keeps l.s (l.presentAll u es).s := by
  induction es generalizing l with
  | nil => exact Keeps.refl _
  | cons e es ih => exact (keeps_present ..).trans (ih _)

theorem keeps_disturb (s : State) (u : Upset) : Keeps s (State.disturb s u) := by
  unfold State.disturb
  split
  · exact Keeps.refl _
  · extract_lets x0
    have hx0 : Keeps s x0 := by
      unfold x0
      split
      · exact keeps_raise ..
      · exact Keeps.refl _
    clear_value x0
    split
    · refine Keeps.trans ?_ (keeps_raise _ _)
      assumption
    · assumption

theorem keeps_doExchangeRawTimeout (d : Fin 2) (h : Half) (failed : Bool) (s : State) : Keeps s (doExchangeRawTimeout d h failed s) := by
  unfold doExchangeRawTimeout
  split
  · refine Keeps.trans ?_ (keeps_laneError _ _ _ _)
    refine Keeps.trans ?_ (keeps_updChan _ _ _ ?_)
    · exact Keeps.refl _
    · exact fun _ => ⟨rfl, rfl, rfl⟩
  · exact Keeps.refl _

theorem keeps_disagree (s : State) (i : Nat) : Keeps s (State.disagree s i) := by
  unfold State.disagree
  extract_lets x0 x1 x2
  have hx2 : Keeps s x2 := by
    unfold x2
    exact keeps_updInp ..
  clear_value x2
  split
  · exact Keeps.refl _
  · split
    · refine Keeps.trans ?_ (keeps_latchIn _ _ _)
      assumption
    · assumption

theorem keeps_compareCounts (s : State) : Keeps s (State.compareCounts s) := by
  unfold State.compareCounts
  split
  · exact Keeps.refl _
  · extract_lets x0 x1
    have hx0 : Keeps s x0.2 := by
      unfold x0
      exact keeps_freeWord ..
    clear_value x0
    refine Keeps.trans ?_ (keeps_compareEntry _ _ _ _)
    assumption

theorem keeps_doRawVectorArrival (s : State) : Keeps s (doRawVectorArrival s) := by
  unfold doRawVectorArrival
  split
  · extract_lets x0 x1 x2 x3 x4 x5 x6 x7
    have hx6 : Keeps s x6 := by
      unfold x6
      exact Keeps.same rfl rfl rfl
    have hx7 : Keeps s x7 := by
      unfold x7
      refine Keeps.trans ?_ (Keeps.foldl (fun s8 a9 => ?_) _ _)
      · assumption
      · exact keeps_addCounter ..
    clear_value x7
    clear_value x6
    refine Keeps.trans ?_ (keeps_compareCounts _)
    refine Keeps.trans ?_ (Keeps.foldl (fun s10 a11 => ?_) _ _)
    · refine Keeps.trans ?_ (keeps_addCounter _ _ _ _)
      assumption
    · exact keeps_disagree ..
  · exact Keeps.refl _

theorem keeps_doXchgTimeout (_h : Half) (s : State) : Keeps s (doXchgTimeout _h s) := by
  unfold doXchgTimeout
  split
  · exact keeps_raise ..
  · exact Keeps.refl _

theorem keeps_doExercisePair (u : Upset) (s : State) : Keeps s (doExercisePair u s) := by
  unfold doExercisePair
  split
  · extract_lets x0 x1 x2 x3 x4 x5 x6 x7 x8
    have hx6 : Keeps s x6 := by
      unfold x6
      exact Keeps.same rfl rfl rfl
    have hx7 : Keeps s x7 := by
      unfold x7
      split
      · refine Keeps.trans ?_ (keeps_raise _ _)
        assumption
      · refine Keeps.trans ?_ (keeps_bump _ _ _)
        assumption
    have hx8 : Keeps s x8 := by
      unfold x8
      split
      · refine Keeps.trans ?_ (keeps_raise _ _)
        assumption
      · assumption
    clear_value x8
    clear_value x7
    clear_value x6
    split
    · refine Keeps.trans ?_ (keeps_raise _ _)
      assumption
    · assumption
  · exact Keeps.refl _

theorem keeps_doAgreeCompare (u : Upset) (s : State) : Keeps s (doAgreeCompare u s) := by
  unfold doAgreeCompare
  split
  · extract_lets x0
    refine Keeps.trans ?_ (keeps_presentAll _ _ _)
    dsimp only
    exact keeps_disturb ..
  · exact Keeps.refl _

theorem keeps_lsmWrite (s : State) (h : Half) (a : Nat) (w : Word) : Keeps s (State.lsmWrite s h a w) := by
  unfold State.lsmWrite
  refine keeps_updChan_mem _ _ _ fun c hc => ?_
  simp only [Bool.and_eq_true] at hc ⊢
  exact ⟨⟨Mem.wf_writeW hc.1.1 _ _, hc.1.2⟩, hc.2⟩

theorem keeps_logBlock (s : State) (inst code type : Nat) : Keeps s (State.logBlock s inst code type) := by
  unfold State.logBlock
  extract_lets x0
  exact keeps_logPush ..

theorem keeps_recordWord (l : Lane) (u : Upset) (i k type : Nat) (c d : Word × Word) (codes : List Nat) : Keeps l.s (Lane.recordWord l u i k type c d codes).s := by
  unfold Lane.recordWord
  extract_lets a put l1 e l2 r
  have hp : ∀ s h x, Keeps s (put s h x) := fun s h x => by
    unfold put; split
    · exact Keeps.refl _
    · exact keeps_lsmWrite ..
  have h1 : Keeps l.s l1.s := (hp ..).trans (hp ..)
  have h2 : Keeps l1.s l2.s := by
    unfold l2; split
    · exact keeps_present ..
    · exact Keeps.refl _
  have h3 : Keeps l2.s r.1.s := keeps_present ..
  have h4 := h1.trans (h2.trans h3)
  split
  rotate_left
  · exact h4
  · extract_lets s1
    refine h4.trans (Keeps.trans (t := s1) ?_ (Keeps.foldl (fun t b => keeps_logBlock t _ b _) _ _))
    exact Keeps.memory (s := r.1.s) (t := s1) rfl rfl fun h => by
      simp only [State.memOk, Bool.and_eq_true] at h ⊢
      exact ⟨⟨⟨⟨h.1.1.1.1, Mem.wf_writeW h.1.1.1.2 _ _⟩, h.1.1.2⟩, h.1.2⟩, h.2⟩

theorem keeps_recordWords (u : Upset) (i type : Nat) (codes : List Nat) (l : Lane) (k : Nat) (cs ds : List (Word × Word)) :
    Keeps l.s (Lane.recordWords u i type codes l k cs ds).s := by
  induction cs generalizing l k ds with
  | nil => cases ds <;> exact Keeps.refl _
  | cons c cs ih =>
    cases ds with
    | nil => exact Keeps.refl _
    | cons d ds =>
      unfold Lane.recordWords
      split
      · exact Keeps.refl _
      · exact (keeps_recordWord ..).trans (ih ..)

theorem keeps_lsmMeets (s : State) (u : Option LsmUpset) (p : Half → Nat → Bool) : Keeps s (State.lsmMeets s u p) := by
  unfold State.lsmMeets
  split
  · split
    · exact keeps_lsmError ..
    · exact Keeps.refl _
  · exact Keeps.refl _

theorem keeps_noteSafeReset (s : State) (i : Nat) : Keeps s (State.noteSafeReset s i) := by
  unfold State.noteSafeReset
  extract_lets x0 x1
  split
  · exact Keeps.same rfl rfl rfl
  · exact Keeps.refl _

theorem keeps_checkType (s : State) (h : Half) (i : Nat) : Keeps s (State.checkType s h i) := by
  unfold State.checkType
  split
  · exact keeps_raise ..
  · exact Keeps.refl _

theorem keeps_meets (l : Lane) (u : Upset) (p : Half → Nat → Bool) : Keeps l.s (l.meets u p).s := by
  unfold Lane.meets
  split
  · exact Keeps.refl _
  · exact keeps_lsmMeets ..

theorem keeps_dispatch (l : Lane) (u : Upset) (i : Nat) : Keeps l.s (Lane.dispatch l u i).s := by
  unfold Lane.dispatch
  extract_lets l0 s2 mark s3 c d type l1 did
  have h0 : Keeps l.s l0.s := keeps_meets ..
  have h2 : Keeps l0.s s2 := (keeps_checkType ..).trans (keeps_checkType ..)
  clear_value s2
  have h3 : Keeps l.s s3 := (h0.trans h2).trans (Keeps.same rfl rfl rfl)
  clear_value s3 l0
  split
  · exact h3
  · have h4 : Keeps l.s l1.s := h3.trans (keeps_recordWords u i type c.2 { l0 with s := s3 } 0 _ _)
    split
    · exact h4
    · clear_value l1
      exact h4.trans (Keeps.trans (t := { l1.s with cope := did l1.s.cope, drag := did l1.s.drag }) (Keeps.same rfl rfl rfl)
        (keeps_noteSafeReset ..))

/-- A taken trap moves no memory of the channel. -/
theorem chan_takeTrap_mems (c : Chan) (frame : Word) (vec : BitVec 20) :
    (c.takeTrap frame vec).lsm = c.lsm ∧ (c.takeTrap frame vec).icache = c.icache ∧ (c.takeTrap frame vec).kcache = c.kcache := by
  unfold Chan.takeTrap; split <;> exact ⟨rfl, rfl, rfl⟩

theorem keeps_takeTrap (l : Lane) (u : Upset) : Keeps l.s (Lane.takeTrap l u).s := by
  unfold Lane.takeTrap
  extract_lets vec c d src s1 s2 s3
  have h1 : Keeps l.s s1 := Keeps.same rfl (by simp [State.mems, s1, c, d, src, chan_takeTrap_mems]) rfl
  have h2 : Keeps l.s s2 := by
    unfold s2; split
    · exact h1.trans (keeps_bump ..)
    · exact h1
  have h3 : Keeps l.s s3 := by
    unfold s3; split
    · exact h2.trans (keeps_bump ..)
    · exact h2
  exact h3.trans (keeps_present { l with s := s3 } u _ _)

theorem keeps_dispatches (u : Upset) (l : Lane) (is : List Nat) : Keeps l.s (Lane.dispatches u l is).s := by
  induction is generalizing l with
  | nil => exact Keeps.same rfl rfl rfl
  | cons i is ih =>
    unfold Lane.dispatches
    split
    · exact Keeps.refl _
    · split
      · exact keeps_takeTrap ..
      · split
        · exact ih _
        · extract_lets l1
          have h1 : Keeps l.s l1.s := keeps_dispatch ..
          split
          · exact h1
          · exact h1.trans (ih _)

theorem keeps_doEvaluateStart (u : Upset) (s : State) : Keeps s (doEvaluateStart u s) := by
  unfold doEvaluateStart
  split
  · extract_lets x0 x1 x2 x3 x4 x5 x6 x7 x8 x9
    have hx8 : Keeps s x8 := by
      unfold x8
      exact Keeps.same rfl rfl rfl
    have hx9 : Keeps s x9 := by
      unfold x9
      refine Keeps.trans ?_ (keeps_updCtx _ _ _)
      assumption
    clear_value x9
    clear_value x8
    split
    · refine Keeps.trans ?_ (keeps_takeTrap _ _)
      dsimp only
      refine Keeps.trans ?_ (keeps_disturb _ _)
      assumption
    · assumption
  · exact Keeps.refl _

theorem keeps_lineError (s : State) (h : Half) (line : BitVec 17) : Keeps s (State.lineError s h line) := by
  unfold State.lineError
  extract_lets x0 x1 x2 x3
  have hx2 : Keeps s x2 := by
    unfold x2
    exact Keeps.same rfl rfl rfl
  have hx3 : Keeps s x3 := by
    unfold x3
    refine Keeps.trans ?_ (keeps_updChan _ _ _ ?_)
    · refine Keeps.trans ?_ (keeps_bump _ _ _)
      assumption
    · exact fun _ => ⟨rfl, rfl, rfl⟩
  clear_value x3
  clear_value x2
  split
  · refine Keeps.trans ?_ (keeps_raise _ _)
    assumption
  · assumption

theorem keeps_fillLine (s : State) (line : BitVec 17) : Keeps s (State.fillLine s line) := by
  unfold State.fillLine
  extract_lets a bs put code fill
  have hput : ∀ (h : Half) (m : Mem) (base : Nat), Mem.wf h.fill m = true → Mem.wf h.fill (put h m base) = true := by
    intro h m base hm
    unfold put
    generalize List.range 8 = l
    induction l generalizing m with
    | nil => exact hm
    | cons k l ih => exact ih _ (Mem.wf_write hm _ _)
  have hf : ∀ (h : Half) (c : Chan), (Mem.wf h.fill c.lsm && Mem.wf h.fill c.icache && Mem.wf h.fill c.kcache) = true →
      (Mem.wf h.fill (fill h c).lsm && Mem.wf h.fill (fill h c).icache && Mem.wf h.fill (fill h c).kcache) = true := by
    intro h c hc
    simp only [Bool.and_eq_true] at hc ⊢
    unfold fill
    split
    · exact ⟨⟨hc.1.1, hput _ _ _ hc.1.2⟩, hc.2⟩
    · exact ⟨hc.1, hput _ _ _ hc.2⟩
  clear_value fill
  exact (keeps_updChan_mem s .c _ (hf .c)).trans (keeps_updChan_mem (s.updChan .c (fill .c)) .d _ (hf .d))

theorem keeps_doCacheFill (ecc : Option EccErr) (again : Option Half) (s : State) : Keeps s (doCacheFill ecc again s) := by
  unfold doCacheFill
  split
  · exact Keeps.refl _
  · extract_lets x0 x1
    have hx0 : Keeps s x0 := by
      unfold x0
      split
      · exact keeps_crucibleError ..
      · exact Keeps.refl _
    have hx1 : Keeps s x1 := by
      unfold x1
      refine Keeps.trans ?_ (keeps_fillLine _ _)
      refine Keeps.trans ?_ (keeps_endStall _)
      refine Keeps.trans ?_ (keeps_bump _ _ _)
      assumption
    clear_value x1
    clear_value x0
    split
    · refine Keeps.trans ?_ (keeps_lineError _ _ _)
      assumption
    · assumption

theorem keeps_countStall (s : State) : Keeps s (State.countStall s) := by
  unfold State.countStall
  split
  · exact Keeps.refl _
  · refine Keeps.trans ?_ (keeps_addCounter _ _ _ _)
    exact keeps_addCounter ..

theorem keeps_doStallTimeout (h : Half) (s : State) : Keeps s (doStallTimeout h s) := by
  unfold doStallTimeout
  split
  · refine Keeps.trans ?_ (keeps_raise _ _)
    exact keeps_countStall ..
  · exact Keeps.refl _

theorem keeps_instAlone (l : Lane) (h : Half) (u : Upset) (i : Nat) : Keeps l.s (l.instAlone h u i).s := by
  unfold Lane.instAlone
  extract_lets l0 s1 new s2
  have h1 : Keeps l.s s1 := (keeps_meets ..).trans (keeps_checkType ..)
  have h2 : Keeps s1 s2 := Keeps.foldl (fun _ _ => keeps_lsmWrite ..) _ _
  clear_value s2 s1
  split
  · exact h1
  · refine (h1.trans h2).trans ?_
    dsimp only
    exact keeps_updChan _ _ _ fun _ => ⟨rfl, rfl, rfl⟩

theorem keeps_faultsAlone (s : State) (h : Half) (u : Upset) : Keeps s (s.faultsAlone h u) := by
  unfold State.faultsAlone
  extract_lets s1
  have h1 : Keeps s s1 := by
    unfold s1
    split
    · exact keeps_raise ..
    · exact Keeps.refl _
  split
  · exact h1.trans (keeps_raise ..)
  · exact h1

theorem endAlone_mems (c : Chan) (e : BitVec 20) :
    (c.endAlone e).lsm = c.lsm ∧ (c.endAlone e).icache = c.icache ∧ (c.endAlone e).kcache = c.kcache := by
  unfold Chan.endAlone
  split <;> exact ⟨rfl, rfl, rfl⟩

theorem keeps_instsAlone (h : Half) (u : Upset) (is : List Nat) (l : Lane) :
    Keeps l.s (is.foldl (fun l i => if (l.s.chan h).mode == .trapped then l else l.instAlone h u i) l).s := by
  induction is generalizing l with
  | nil => exact Keeps.refl _
  | cons i is ih =>
    refine Keeps.trans ?_ (ih _)
    dsimp only
    split
    · exact Keeps.refl _
    · exact keeps_instAlone ..

theorem keeps_wordAlone (s : State) (h : Half) (u : Upset) : Keeps s (State.wordAlone s h u) := by
  unfold State.wordAlone
  extract_lets w next s1
  have hn : ∀ s n, Keeps s (next s n) := fun s n => by
    unfold next
    split
    · exact Keeps.refl _
    · exact keeps_updChan _ _ _ fun _ => ⟨rfl, rfl, rfl⟩
  have h1 : Keeps s s1 := keeps_faultsAlone ..
  clear_value next s1
  split
  · exact keeps_raise ..
  · split
    · exact h1
    · split
      · exact h1.trans ((keeps_instsAlone h u _ { s := s1 }).trans (hn ..))
      · refine h1.trans (Keeps.trans ?_ (hn ..))
        exact keeps_updChan _ _ _ fun _ => ⟨rfl, rfl, rfl⟩
      · exact h1.trans ((keeps_lsmMeets ..).trans (hn ..))
      · exact h1.trans (keeps_updChan _ _ _ fun c => endAlone_mems c _)

theorem keeps_splitOne (s : State) (op : Nat) (u : Upset) (h : Half) : Keeps s (State.splitOne s op u h) := by
  unfold State.splitOne
  split
  · exact Keeps.refl _
  · split
    · split
      · exact keeps_lineError ..
      · exact keeps_wordAlone ..
    · exact keeps_wordAlone ..

theorem keeps_splitWord (s : State) (op : Nat) (u : Upset) : Keeps s (State.splitWord s op u) := by
  unfold State.splitWord
  refine Keeps.trans ?_ (keeps_splitOne _ _ _ _)
  exact keeps_splitOne ..

theorem keeps_beforeWord (s : State) (op : Nat) (u : Upset) : Keeps s (State.beforeWord s op u).1 := by
  unfold State.beforeWord
  split
  · exact Keeps.refl _
  · extract_lets x0
    split
    · dsimp only
      refine Keeps.trans ?_ (keeps_raise _ _)
      exact keeps_raise ..
    · split
      · exact Keeps.refl _
      · split
        · split
          · dsimp only
            exact keeps_lineError ..
          · exact Keeps.refl _
        · exact Keeps.refl _

theorem keeps_channelFaults (s : State) (u : Upset) : Keeps s (State.channelFaults s u) := by
  unfold State.channelFaults
  extract_lets x0
  have hx0 : Keeps s x0 := by
    unfold x0
    split
    · extract_lets x1
      refine Keeps.trans ?_ (keeps_mismatch _ _ _)
      exact keeps_raise ..
    · exact Keeps.refl _
  clear_value x0
  split
  · refine Keeps.trans ?_ (keeps_raise _ _)
    assumption
  · assumption

theorem keeps_strikes (s : State) (u : Upset) : Keeps s (s.strikes u) := by
  unfold State.strikes
  extract_lets t t1
  have h0 : Keeps s t := keeps_channelFaults ..
  have h1 : Keeps s t1 := by
    unfold t1
    split
    · exact h0.trans (keeps_raise ..)
    · exact h0
  split
  · exact h0
  · split
    · exact h1.trans (keeps_raise ..)
    · exact h1

theorem keeps_doEval (u : Upset) (s : State) : Keeps s (doEval u s) := by
  unfold doEval
  split
  · exact keeps_splitWord ..
  · extract_lets r s1
    have h0 : Keeps s r.1 := keeps_beforeWord ..
    have h1 : Keeps s s1 := h0.trans (keeps_strikes ..)
    clear_value s1 r
    split
    · exact h0
    · split
      · exact h1
      · exact h1.trans (keeps_dispatches u { s := s1 } _)

theorem keeps_doForce (u : Upset) (s : State) : Keeps s (doForce u s) := by
  unfold doForce
  split
  · exact keeps_splitWord ..
  · extract_lets r s1 m go
    have h0 : Keeps s r.1 := keeps_beforeWord ..
    have h1 : Keeps s s1 := h0.trans (keeps_strikes ..)
    clear_value s1 r m
    split
    · exact h0
    · split
      · exact h1
      · exact h1.trans (Keeps.same rfl rfl rfl)

theorem keeps_pubWrite (s : State) (bank off : Nat) (w : Word) : Keeps s (State.pubWrite s bank off w) := by
  unfold State.pubWrite
  extract_lets b s1 src
  have h1 : Keeps s s1 := by
    unfold s1; split
    · exact (keeps_touchSegment ..).trans (keeps_updSpb _ _ _ fun b hb => Mem.wf_writeW hb _ _)
    · split
      · exact (keeps_bump ..).trans (keeps_bump ..)
      · exact keeps_bump ..
  clear_value s1
  split
  · exact h1
  · exact h1.trans (Keeps.trans (t := { s1 with chk := { src with fed := satInc src.fed } }) (Keeps.same rfl rfl rfl) (keeps_updCtx ..))

theorem keeps_pubWords (u : Upset) (bank off a n k : Nat) (l : Lane) : Keeps l.s (Lane.pubWords u bank off a n k l).s := by
  induction n generalizing l k with
  | zero => exact Keeps.refl _
  | succ n ih =>
    unfold Lane.pubWords
    split
    · exact Keeps.refl _
    · extract_lets l0 s1 at' c d r lr l1
      have h0 : Keeps l.s s1 := keeps_meets ..
      have h1 : Keeps l.s r.1.s := h0.trans (keeps_present { l0 with s := s1 } ..)
      have h2 : Keeps l.s l1.s := by
        unfold l1; split
        · exact h1.trans (keeps_pubWrite ..)
        · exact h1
      exact h2.trans (ih ..)

theorem keeps_doPub (u : Upset) (s : State) : Keeps s (doPub u s) := by
  unfold doPub
  split
  · exact keeps_splitWord ..
  · extract_lets r s1 w x s2 go
    have h0 : Keeps s r.1 := keeps_beforeWord ..
    have h1 : Keeps s s1 := h0.trans (keeps_strikes ..)
    have h2 : Keeps s s2 := h1.trans (keeps_pubWords u _ _ _ _ _ { s := s1 })
    clear_value s2 w x s1 r
    split
    · exact h0
    · split
      · exact h1
      · split
        · exact h2
        · exact h2.trans (Keeps.same rfl rfl rfl)

theorem keeps_compareFingerprints (l : Lane) (u : Upset) : Keeps l.s (Lane.compareFingerprints l u).s := by
  unfold Lane.compareFingerprints
  extract_lets l0 s1 c d x1 x2 x3 s2 s3
  have h0 : Keeps l.s s1 := keeps_meets ..
  have h2 : Keeps s1 s2 := Keeps.same rfl rfl rfl
  have h3 : Keeps s2 s3 := keeps_setCounter ..
  clear_value s3 s2
  split
  · exact h0
  · exact h0.trans (h2.trans (h3.trans (keeps_present { l0 with s := s3 } u _ _)))

theorem keeps_evaluateEnded (s : State) : Keeps s (State.evaluateEnded s) := by
  unfold State.evaluateEnded
  extract_lets x0 x1 x2 x3 x4 x5 x6 x7 x8
  have hx6 : Keeps s x6 := by
    unfold x6
    exact Keeps.same rfl rfl rfl
  have hx7 : Keeps s x7 := by
    unfold x7
    refine Keeps.trans ?_ (keeps_maxCounter _ _ _ _)
    assumption
  have hx8 : Keeps s x8 := by
    unfold x8
    refine Keeps.trans ?_ (keeps_maxCounter _ _ _ _)
    refine Keeps.trans ?_ (keeps_setCounter _ _ _ _)
    assumption
  clear_value x8
  clear_value x7
  clear_value x6
  refine Keeps.trans ?_ (keeps_maxCounter _ _ _ _)
  refine Keeps.trans ?_ (keeps_setCounter _ _ _ _)
  assumption

theorem keeps_endMain (s : State) (u : Upset) : Keeps s (State.endMain s u) := by
  unfold State.endMain
  extract_lets l f ax c d x0 x1 x2 s1 l1 x3 x4 l2
  have h0 : Keeps s f.2 := (keeps_evaluateEnded s).trans ((keeps_meets { s := s.evaluateEnded } u _).trans (keeps_freeWord _))
  clear_value c d
  clear_value f
  have h1 : Keeps s s1 := h0.trans (Keeps.same rfl rfl rfl)
  have h2 : Keeps s l1.s := h1.trans (keeps_presentAll { l with s := s1 } u _)
  clear_value l1
  have h3 : Keeps s l2.s := h2.trans (Keeps.same rfl rfl rfl)
  split
  · exact h2
  · exact h3.trans ((keeps_compareFingerprints l2 u).trans (keeps_countEntries _))

theorem keeps_doEndWord (u : Upset) (s : State) : Keeps s (doEndWord u s) := by
  unfold doEndWord
  split
  · exact keeps_splitWord ..
  · extract_lets r s1 back
    have h0 : Keeps s r.1 := keeps_beforeWord ..
    have h1 : Keeps s s1 := h0.trans (keeps_strikes ..)
    clear_value s1 r
    split
    · exact h0
    · split
      · exact h1
      · split
        · exact h1.trans (Keeps.same rfl rfl rfl)
        · exact h1.trans (keeps_endMain ..)

theorem keeps_haltChannel (s : State) (h : Half) : Keeps s (State.haltChannel s h) := by
  unfold State.haltChannel
  split
  · exact Keeps.refl _
  · extract_lets x0 x1 x2 x3 x4
    have hx1 : Keeps s x1 := by
      unfold x1
      refine Keeps.trans ?_ (keeps_updChan _ _ _ ?_)
      · exact Keeps.refl _
      · (intro x; refine ⟨?_, ?_, ?_⟩ <;> (try unfold Chan.stopFor) <;> (repeat' split) <;> rfl)
    have hx2 : Keeps s x2 := by
      unfold x2
      split
      · assumption
      · refine Keeps.trans ?_ (keeps_updChan _ _ _ ?_)
        · assumption
        · (intro x; refine ⟨?_, ?_, ?_⟩ <;> (try unfold Chan.stopFor) <;> (repeat' split) <;> rfl)
    clear_value x2
    clear_value x1
    refine Keeps.trans ?_ (keeps_raise _ _)
    refine Keeps.trans (t := x2) ?_ (Keeps.same rfl rfl rfl)
    assumption

theorem keeps_stepChannel (s : State) (h : Half) : Keeps s (State.stepChannel s h) := by
  unfold State.stepChannel
  split
  · refine (keeps_wordAlone ..).trans (keeps_updChan _ _ _ fun c => ?_)
    split <;> exact ⟨rfl, rfl, rfl⟩
  · exact Keeps.refl _

theorem keeps_resumeChannel (s : State) (h : Half) : Keeps s (State.resumeChannel s h) := by
  unfold State.resumeChannel
  refine keeps_updChan _ _ _ fun c => ?_
  split <;> exact ⟨rfl, rfl, rfl⟩

theorem keeps_doBreakpointHit (h : Half) (s : State) : Keeps s (doBreakpointHit h s) := by
  unfold doBreakpointHit
  extract_lets x0
  split
  · exact keeps_haltChannel ..
  · exact Keeps.refl _

end Sys2Proof.Machine
end

