-- ==== Sys2Proof/Laws/KeepsOutputs.lean ====
section
/-! SUPPORT. What the operations of Machine/Outputs.lean keep. -/

namespace Sys2Proof.Machine

theorem keeps_holdOut (s : State) (o : Nat) : Keeps s (State.holdOut s o) := by
  unfold State.holdOut
  exact keeps_updOut ..

theorem keeps_latchPartner (s : State) (q : Nat) : Keeps s (State.latchPartner s q) := by
  unfold State.latchPartner
  refine Keeps.trans ?_ (keeps_updateTrips _)
  refine Keeps.trans ?_ (keeps_raise _ _)
  exact keeps_holdOut ..

theorem keeps_latchOwn (s : State) (o c : Nat) : Keeps s (s.latchOwn o c) := by
  unfold State.latchOwn
  split
  · extract_lets x
    have hx : Keeps s x := by
      unfold x; split
      · exact keeps_holdOut ..
      · exact Keeps.refl _
    exact hx.trans ((keeps_raise ..).trans (keeps_updateTrips _))
  · exact Keeps.refl _

theorem keeps_latchPartnerOf (s : State) (o : Nat) : Keeps s (s.latchPartnerOf o) := by
  unfold State.latchPartnerOf
  split
  · exact keeps_latchPartner ..
  · exact Keeps.refl _

theorem keeps_latchOutNow (s : State) (o c : Nat) : Keeps s (State.latchOutNow s o c) := by
  unfold State.latchOutNow
  extract_lets due x
  split
  · exact (keeps_latchOwn ..).trans (keeps_latchPartnerOf ..)
  · exact keeps_latchOwn ..

theorem keeps_latchFirst (x : State × List Nat) (o c : Nat) : Keeps x.1 (State.latchFirst x o c).1 := by
  unfold State.latchFirst
  split
  · exact Keeps.refl _
  · exact keeps_latchOwn ..

theorem keeps_latchPartners (x : State × List Nat) : Keeps x.1 (State.latchPartners x) :=
  Keeps.foldl (fun _ _ => keeps_latchPartnerOf ..) _ _

theorem keeps_latchOut (s : State) (o c : Nat) : Keeps s (State.latchOut s o c) := by
  unfold State.latchOut
  split
  · exact Keeps.refl _
  · exact keeps_latchOutNow ..

theorem contended_shaped (h : Hdr) (tb : Time) (other : Bool) : Hdr.shaped (h.contended tb other) = Hdr.shaped h := by
  unfold Hdr.contended Hdr.shaped
  dsimp only
  congr 2
  split
  · simp
  · rfl

theorem keeps_replaceOverload (s : State) (p : Nat) : Keeps s (s.replaceOverload p) := by
  unfold State.replaceOverload
  extract_lets b other s1 s2
  have h1 : Keeps s s1 := keeps_updOut ..
  have h2 : Keeps s1 s2 := (keeps_updHdr _ _ _ fun _ => contended_shaped ..).trans (keeps_mark ..)
  have h3 := h1.trans h2
  clear_value s2
  exact h3.trans (Keeps.same rfl rfl rfl)

theorem keeps_contend (x : State × List Nat) (p : Nat) : Keeps x.1 (State.contend x p).1 := by
  unfold State.contend
  extract_lets new
  split
  · exact Keeps.refl _
  · split
    · exact keeps_replaceOverload ..
    · exact keeps_latchFirst ..

theorem keeps_doShortHi (o : Fin 64) (s : State) : Keeps s (doShortHi o s) := by
  unfold doShortHi
  split
  · exact Keeps.refl _
  · split
    · exact keeps_latchOut ..
    · extract_lets others x
      have hx : Keeps s x := keeps_updOut ..
      clear_value x
      split
      · exact hx.trans (keeps_latchOut ..)
      · exact hx.trans ((keeps_latchFirst (x, []) o 2).trans ((Keeps.foldl_pair (fun _ _ => keeps_contend ..) _ _).trans
          (keeps_latchPartners _)))

theorem keeps_doLsOpenDelay (o : Fin 64) (s : State) : Keeps s (doLsOpenDelay o s) := by
  unfold doLsOpenDelay
  split
  · exact keeps_updOut ..
  · exact Keeps.refl _

theorem keeps_doOverload (o : Fin 64) (s : State) : Keeps s (doOverload o s) := by
  unfold doOverload
  split
  · exact keeps_latchOut ..
  · exact Keeps.refl _

theorem keeps_openLoad (s : State) (o : Nat) : Keeps s (State.openLoad s o) := by
  unfold State.openLoad
  split
  · exact Keeps.refl _
  · refine Keeps.trans ?_ (keeps_settleOuts _)
    refine Keeps.trans ?_ (keeps_updOut _ _ _)
    refine Keeps.trans ?_ (keeps_latchOutNow _ _ _)
    refine Keeps.trans ?_ (keeps_bump _ _ _)
    exact keeps_updOut ..

theorem keeps_doOpenLoad (o : Fin 64) (s : State) : Keeps s (doOpenLoad o s) := by
  unfold doOpenLoad
  split
  · split
    · exact keeps_updOut ..
    · exact keeps_openLoad ..
  · exact Keeps.refl _

theorem keeps_doOvertemp (o : Fin 64) (s : State) : Keeps s (doOvertemp o s) := by
  unfold doOvertemp
  exact keeps_latchOut ..

theorem keeps_rbFirst (x : State × List Nat) (o : Nat) : Keeps x.1 (State.rbFirst x o).1 := by
  unfold State.rbFirst
  split
  · exact Keeps.refl _
  · extract_lets y
    have hy : Keeps x.1 y.1 := (keeps_updOut ..).trans (keeps_latchFirst (_, _) _ _)
    clear_value y
    exact hy.trans ((keeps_updOut ..).trans (keeps_settleOuts _))

theorem keeps_rbMismatch (s : State) (o : Nat) : Keeps s (State.rbMismatch s o) :=
  (keeps_rbFirst (s, []) o).trans (keeps_latchPartners _)

theorem keeps_doRbMismatch (o : Fin 64) (s : State) : Keeps s (doRbMismatch o s) := by
  unfold doRbMismatch
  split
  · exact keeps_updOut ..
  · exact keeps_rbMismatch ..

theorem keeps_outCfgFault (s : State) (b : Nat) : Keeps s (State.outCfgFault s b) := by
  unfold State.outCfgFault
  split
  · exact keeps_raise ..
  · extract_lets x0 x1 x2
    have hx1 : Keeps s x1 := by
      unfold x1
      refine Keeps.trans ?_ (Keeps.foldl (fun s3 a4 => ?_) _ _)
      · exact Keeps.refl _
      · exact keeps_holdOut ..
    have hx2 : Keeps s x2 := by
      unfold x2
      refine Keeps.trans ?_ (keeps_updateTrips _)
      refine Keeps.trans ?_ (keeps_raise _ _)
      assumption
    clear_value x2
    clear_value x1
    refine Keeps.trans ?_ (Keeps.foldl (fun s5 a6 => ?_) _ _)
    · assumption
    · exact keeps_latchPartner ..

theorem keeps_applyStrobe (s : State) (d : Nat) : Keeps s (State.applyStrobe s d) := by
  unfold State.applyStrobe
  extract_lets c dv full demC demD outs mine offC offD relC relD t1 s1
  have k : Keeps s1 (s1.addCounter .trp 0x48 (ones relC + ones relD)).updateTrips := (keeps_addCounter ..).trans (keeps_updateTrips _)
  refine Keeps.jump (Keeps.refl s) k rfl rfl rfl rfl rfl rfl ?_ rfl id (updateTrips_held _)
  simp [State.shape, s1, outs]

theorem keeps_doStrobeApply (d : Fin 2) (s : State) : Keeps s (doStrobeApply d s) := by
  unfold doStrobeApply
  split
  · extract_lets x0 x1 x2 x3 x4
    have hx2 : Keeps s x2 := by
      unfold x2
      exact Keeps.same rfl rfl rfl
    have hx4 : Keeps s x4 := by
      unfold x4
      split
      · refine Keeps.trans (t := x2) ?_ (Keeps.same rfl rfl rfl)
        assumption
      · assumption
    clear_value x4
    clear_value x2
    split
    · assumption
    · refine Keeps.trans ?_ (keeps_applyStrobe _ _)
      assumption
  · exact Keeps.refl _

theorem keeps_lockout (s : State) (b c : Nat) : Keeps s (State.lockout s b c) := by
  unfold State.lockout
  split
  · exact Keeps.refl _
  · extract_lets x0 x1 x2
    have hx0 : Keeps s x0 := by
      unfold x0
      exact keeps_onset ..
    have hx1 : Keeps s x1 := by
      unfold x1
      split
      · refine Keeps.trans ?_ (keeps_updOutBank _ _ _)
        assumption
      · assumption
    have hx2 : Keeps s x2 := by
      unfold x2
      split
      · refine Keeps.trans ?_ (keeps_openShadow _ _ _ _)
        assumption
      · assumption
    clear_value x2
    clear_value x1
    clear_value x0
    refine Keeps.trans ?_ (keeps_updateTrips _)
    assumption

theorem keeps_fvWarn (s : State) (b : Nat) (low : Bool) : Keeps s (State.fvWarn s b low) := by
  unfold State.fvWarn
  split
  · split
    · exact Keeps.refl _
    · refine Keeps.trans ?_ (keeps_onset _ _ _)
      exact keeps_bump ..
  · exact keeps_setLive ..

theorem keeps_fvBelow (s : State) (b low : Nat) : Keeps s (State.fvBelow s b low) := by
  unfold State.fvBelow
  extract_lets x0 x1 x2 x3
  have hx3 : Keeps s x3 := by
    unfold x3
    exact keeps_updOutBank ..
  clear_value x3
  split
  · refine Keeps.trans ?_ (keeps_lockout _ _ _)
    assumption
  · assumption

theorem keeps_fvAbove (s : State) (b : Nat) : Keeps s (State.fvAbove s b) := by
  unfold State.fvAbove
  split
  · exact Keeps.refl _
  · extract_lets x0 x1 x2 x3
    have hx0 : Keeps s x0 := by
      unfold x0
      exact keeps_updOutBank ..
    have hx3 : Keeps s x3 := by
      unfold x3
      refine Keeps.trans ?_ (keeps_updOutBank _ _ _)
      assumption
    clear_value x3
    clear_value x0
    split
    · assumption
    · refine Keeps.trans ?_ (keeps_log _ _ _ _ _ _ _)
      refine Keeps.trans ?_ (keeps_bump _ _ _)
      assumption

theorem keeps_doFvMeasure (b : Fin 8) (fvC fvD : BitVec 16) (s : State) : Keeps s (doFvMeasure b fvC fvD s) := by
  unfold doFvMeasure
  split
  · exact Keeps.refl _
  · extract_lets x0 x1 x2 x3 x4 x5 x6 x7
    have hx3 : Keeps s x3 := by
      unfold x3
      exact keeps_updOutBank ..
    have hx5 : Keeps s x5 := by
      unfold x5
      split
      · assumption
      · refine Keeps.trans ?_ (keeps_setLive _ _ _ _)
        assumption
    have hx7 : Keeps s x7 := by
      unfold x7
      split
      · refine Keeps.trans ?_ (keeps_fvBelow _ _ _)
        assumption
      · refine Keeps.trans ?_ (keeps_fvAbove _ _)
        assumption
    clear_value x7
    clear_value x5
    clear_value x3
    refine Keeps.trans ?_ (keeps_fvWarn _ _ _)
    assumption

theorem keeps_doFvHigh (b : Fin 8) (s : State) : Keeps s (doFvHigh b s) := by
  unfold doFvHigh
  split
  · exact keeps_lockout ..
  · exact Keeps.refl _

theorem keeps_doFvMeas (b : Fin 8) (s : State) : Keeps s (doFvMeas b s) := by
  unfold doFvMeas
  split
  · exact keeps_lockout ..
  · exact Keeps.refl _

theorem keeps_doFvRecovery (b : Fin 8) (s : State) : Keeps s (doFvRecovery b s) := by
  unfold doFvRecovery
  split
  · exact keeps_setLive ..
  · exact Keeps.refl _

theorem keeps_doFvHighRecovery (b : Fin 8) (s : State) : Keeps s (doFvHighRecovery b s) := by
  unfold doFvHighRecovery
  split
  · exact keeps_setLive ..
  · exact Keeps.refl _

theorem keeps_doFvBlankEnd (b : Fin 8) (s : State) : Keeps s (doFvBlankEnd b s) := by
  unfold doFvBlankEnd
  split
  · exact Keeps.refl _
  · extract_lets x0 x1
    have hx0 : Keeps s x0 := by
      unfold x0
      refine Keeps.trans ?_ (keeps_settleOuts _)
      exact keeps_updOutBank ..
    have hx1 : Keeps s x1 := by
      unfold x1
      refine Keeps.trans ?_ (Keeps.foldl (fun s2 a3 => ?_) _ _)
      · assumption
      · split
        · exact keeps_openLoad ..
        · exact Keeps.refl _
    clear_value x1
    clear_value x0
    refine hx1.trans ((Keeps.foldl_pair (fun x k => ?_) _ (x1, [])).trans (keeps_latchPartners _))
    split
    · exact keeps_rbFirst ..
    · exact Keeps.refl _

theorem keeps_outForeignFirst (x : State × List Nat) (o : Nat) (slot : BitVec 6) : Keeps x.1 (State.outForeignFirst x o slot).1 := by
  unfold State.outForeignFirst
  split
  · exact keeps_updOut ..
  · split
    · exact (keeps_updOut ..).trans (keeps_latchFirst (_, _) _ _)
    · exact (keeps_bump ..).trans (keeps_updOut ..)

theorem keeps_outForeign (s : State) (o : Nat) (slot : BitVec 6) : Keeps s (State.outForeign s o slot) :=
  (keeps_outForeignFirst (s, []) o slot).trans (keeps_latchPartners _)

theorem keeps_senseOut (s : State) (o : Nat) (x : Sense) : Keeps s (State.senseOut s o x) := by
  unfold State.senseOut
  extract_lets x0 x1 x2 x3 x4 x5 x6 x7 x8 x9
  have hx3 : Keeps s x3 := by
    unfold x3
    split
    · exact keeps_bump ..
    · exact Keeps.refl _
  have hx4 : Keeps s x4 := by
    unfold x4
    split
    · refine Keeps.trans ?_ (keeps_bump _ _ _)
      assumption
    · assumption
  have hx7 : Keeps s x7 := by
    unfold x7
    refine Keeps.trans ?_ (keeps_updOut _ _ _)
    assumption
  have hx8 : Keeps s x8 := by
    unfold x8
    refine Keeps.trans ?_ (keeps_updOut _ _ _)
    assumption
  have hx9 : Keeps s x9 := by
    unfold x9
    split
    · split
      · refine Keeps.trans ?_ (keeps_outForeign _ _ _)
        assumption
      · assumption
    · assumption
  clear_value x9
  clear_value x8
  clear_value x7
  clear_value x4
  clear_value x3
  refine Keeps.trans ?_ (keeps_settleOuts _)
  assumption

theorem keeps_sensePs (s : State) (k : Nat) (x : Sense) : Keeps s (State.sensePs s k x) := by
  unfold State.sensePs
  extract_lets x0
  exact keeps_updPulse ..

theorem keeps_doOutputSenseChange (t : Terminal) (sense : Sense) (s : State) : Keeps s (doOutputSenseChange t sense s) := by
  unfold doOutputSenseChange
  split
  · exact keeps_senseOut ..
  · exact keeps_sensePs ..

end Sys2Proof.Machine
end

