-- ==== Sys2Proof/Laws/KeepsWheel.lean ====
section
/-! SUPPORT. What the operations of Machine/Wheel.lean keep. -/

namespace Sys2Proof.Machine

theorem keeps_openWindow (s : State) (slot : BitVec 6) : Keeps s (State.openWindow s slot) := by
  unfold State.openWindow
  extract_lets x0 x1 x2
  have hx0 : Keeps s x0 := by
    unfold x0
    refine Keeps.trans ?_ (Keeps.foldl (fun s3 a4 => ?_) _ _)
    · exact Keeps.refl _
    · extract_lets x5 x6 x7
      have hx7 : Keeps s3 x7 := by
        unfold x7
        exact keeps_updComp ..
      clear_value x7
      refine Keeps.trans ?_ (keeps_updComp _ _ _ _)
      assumption
  clear_value x0
  refine Keeps.trans (t := x0) ?_ (Keeps.same rfl rfl (by simp [State.shape]))
  assumption

theorem keeps_gateTest (s : State) (h : Half) (n : Nat) (ok : Bool) : Keeps s (State.gateTest s h n ok) := by
  unfold State.gateTest
  split
  · exact keeps_bump ..
  · exact keeps_tripFault ..

theorem keeps_doDarkPulseStart (gateC gateD onC onD openC openD : Bool) (s : State) : Keeps s (doDarkPulseStart gateC gateD onC onD openC openD s) := by
  unfold doDarkPulseStart
  split
  · extract_lets x0 x1 x2 x3 x4
    have hx3 : Keeps s x3 := by
      unfold x3
      exact keeps_openWindow ..
    have hx4 : Keeps s x4 := by
      unfold x4
      refine Keeps.trans ?_ (keeps_gateTest _ _ _ _)
      refine Keeps.trans ?_ (keeps_gateTest _ _ _ _)
      assumption
    clear_value x4
    clear_value x3
    split
    · assumption
    · split
      · refine Keeps.trans ?_ (keeps_bump _ _ _)
        assumption
      · refine Keeps.trans ?_ (keeps_latchOut _ _ _)
        assumption
  · exact Keeps.refl _

theorem keeps_doDarkPulseEnd (s : State) : Keeps s (doDarkPulseEnd s) := by
  unfold doDarkPulseEnd
  refine Keeps.trans ?_ (keeps_updateTrips _)
  exact Keeps.same rfl rfl rfl

theorem keeps_countJudged (s : State) (j : Judged) (pend : Bool) : Keeps s (State.countJudged s j pend) := by
  unfold State.countJudged
  split
  · extract_lets x0
    have hx0 : Keeps s x0 := by
      unfold x0
      exact keeps_bump ..
    clear_value x0
    split
    · refine Keeps.trans ?_ (keeps_bump _ _ _)
      assumption
    · assumption
  · exact Keeps.refl _

theorem keeps_judgeInput (s : State) (i : Nat) : Keeps s (State.judgeInput s i) := by
  unfold State.judgeInput
  extract_lets x0 x1 x2 x3 x4
  have hx2 : Keeps s x2 := by
    unfold x2
    refine Keeps.trans ?_ (keeps_countJudged _ _ _)
    exact keeps_countJudged ..
  have hx3 : Keeps s x3 := by
    unfold x3
    refine Keeps.trans ?_ (keeps_updComp _ _ _ _)
    assumption
  have hx4 : Keeps s x4 := by
    unfold x4
    refine Keeps.trans ?_ (keeps_updComp _ _ _ _)
    assumption
  clear_value x4
  clear_value x3
  clear_value x2
  split
  · refine Keeps.trans ?_ (keeps_latchIn _ _ _)
    refine Keeps.trans ?_ (keeps_updInp _ _ _)
    assumption
  · assumption

theorem keeps_foreignComp (s : State) (i : Nat) (h : Half) (slot : BitVec 6) : Keeps s (State.foreignComp s i h slot).1 := by
  unfold State.foreignComp
  extract_lets x0 x1
  have hx1 : Keeps s x1 := by
    unfold x1
    exact keeps_updComp ..
  clear_value x1
  split
  · assumption
  · split
    · split
      · dsimp only
        refine Keeps.trans ?_ (keeps_bump _ _ _)
        refine Keeps.trans ?_ (keeps_updComp _ _ _ _)
        assumption
      · assumption
    · split
      · refine Keeps.trans ?_ (keeps_compForeign _ _ _ _)
        assumption
      · assumption

theorem keeps_foreignInput (s : State) (i : Nat) (slot : BitVec 6) : Keeps s (State.foreignInput s i slot) := by
  unfold State.foreignInput
  extract_lets x0 x1
  have hx0 : Keeps s x0.1 := by
    unfold x0
    exact keeps_foreignComp ..
  have hx1 : Keeps s x1.1 := by
    unfold x1
    refine Keeps.trans ?_ (keeps_foreignComp _ _ _ _)
    assumption
  clear_value x1
  clear_value x0
  split
  · refine Keeps.trans ?_ (keeps_latchIn _ _ _)
    assumption
  · assumption

theorem keeps_foreignOutput (x : State × List Nat) (o : Nat) (slot : BitVec 6) : Keeps x.1 (State.foreignOutput x o slot).1 := by
  unfold State.foreignOutput
  extract_lets s u s1
  have h1 : Keeps s s1 := keeps_updOut ..
  clear_value s1
  split
  · exact Keeps.refl _
  · split
    · dsimp only
      split
      · exact h1.trans ((keeps_updOut ..).trans (keeps_bump ..))
      · exact h1
    · split
      · exact Keeps.refl _
      · exact (keeps_updOut s o _).trans (keeps_outForeignFirst (_, x.2) o slot)

theorem keeps_judgeOutput (x : State × List Nat) (o : Nat) : Keeps x.1 (State.judgeOutput x o).1 := by
  unfold State.judgeOutput
  extract_lets s u jc jd s1 s2
  have h1 : Keeps s s1 := (keeps_countJudged ..).trans (keeps_countJudged ..)
  have h2 : Keeps s1 s2 := keeps_updOut ..
  clear_value s2 s1
  split
  · exact (h1.trans h2).trans ((keeps_updOut s2 o _).trans (keeps_latchFirst (_, x.2) o 8))
  · exact h1.trans h2

theorem keeps_latchPs (s : State) (k c : Nat) : Keeps s (State.latchPs s k c) := by
  unfold State.latchPs
  refine Keeps.trans ?_ (keeps_updateTrips _)
  refine Keeps.trans ?_ (keeps_raise _ _)
  exact keeps_updPulse ..

theorem keeps_judgePs (s : State) (k : Nat) : Keeps s (State.judgePs s k) := by
  unfold State.judgePs
  extract_lets x0 x1
  have hx1 : Keeps s x1 := by
    unfold x1
    exact keeps_addCounter ..
  clear_value x1
  split
  · exact Keeps.refl _
  · split
    · assumption
    · refine Keeps.trans ?_ (keeps_latchPs _ _ _)
      assumption

theorem keeps_dropJudging (s : State) : Keeps s s.dropJudging := .same rfl rfl (by simp [State.dropJudging, State.shape])

theorem keeps_closeWindow (s : State) (slot : BitVec 6) : Keeps s (State.closeWindow s slot) := by
  unfold State.closeWindow
  extract_lets inputs own other w s1 s2 s3 s4 x
  have h1 : Keeps s s1 := Keeps.same rfl rfl (by simp [s1, State.shape])
  have h2 : Keeps s1 s2 := (Keeps.foldl keeps_unmask _ _).trans (keeps_updateTrips _)
  have h3 : Keeps s2 s3 := Keeps.foldl (fun _ _ => keeps_foreignInput ..) _ _
  have h4 : Keeps s3 s4 := Keeps.foldl keeps_judgeInput _ _
  have h5 : Keeps s4 x.1 := Keeps.foldl_pair (fun _ _ => keeps_foreignOutput ..) _ (s4, [])
  have h := h1.trans (h2.trans (h3.trans (h4.trans h5)))
  have h0 := h1.trans h2
  clear_value x s4 s3 s2 s1
  split
  · exact h0.trans (keeps_dropJudging _)
  · split
    · exact h.trans ((keeps_judgeOutput ..).trans (keeps_latchPartners _))
    · exact h.trans ((keeps_latchPartners _).trans (keeps_judgePs ..))

theorem keeps_maskError (s : State) (i : Nat) (h : Half) : Keeps s (State.maskError s i h) := by
  unfold State.maskError
  exact keeps_tripFault ..

theorem keeps_doOwnWindowEnd (maskErrs : List (Fin 112 × Half)) (s : State) : Keeps s (doOwnWindowEnd maskErrs s) := by
  unfold doOwnWindowEnd
  split
  · exact Keeps.refl _
  · extract_lets x0
    refine Keeps.trans ?_ (Keeps.foldl (fun s1 a2 => ?_) _ _)
    · exact keeps_closeWindow ..
    · exact keeps_maskError ..

theorem keeps_doPsShortHi (k : Fin 16) (s : State) : Keeps s (doPsShortHi k s) := by
  unfold doPsShortHi
  split
  · exact keeps_latchPs ..
  · exact Keeps.refl _

theorem keeps_doPsOverload (k : Fin 16) (s : State) : Keeps s (doPsOverload k s) := by
  unfold doPsOverload
  split
  · exact keeps_latchPs ..
  · exact Keeps.refl _

end Sys2Proof.Machine
end

