-- ==== Sys2Proof/Laws/KeepsFrame.lean ====
section
/-! SUPPORT. What the operations of Machine/Frame.lean keep. -/

namespace Sys2Proof.Machine

theorem keeps_commandsOff (s : State) : Keeps s (State.commandsOff s) := by
  unfold State.commandsOff
  exact Keeps.same rfl rfl (by simp [State.shape])

theorem keeps_clearTrips (s : State) : Keeps s (State.clearTrips s) := by
  unfold State.clearTrips
  exact Keeps.jump (Keeps.refl s) (keeps_updateTrips _) rfl rfl rfl rfl rfl rfl rfl rfl id (updateTrips_held _)

theorem keeps_safeExit (s : State) : Keeps s (State.safeExit s) := by
  unfold State.safeExit
  split
  · next h =>
    extract_lets s1
    have h1 : Keeps s s1 := (keeps_changeState _ _ _ _ fun e => by simp [e] at h).trans (keeps_enterRun ..)
    exact h1.trans ((keeps_commandsOff _).trans ((keeps_clearTrips _).trans (keeps_firstRun _)))
  · exact Keeps.refl _

theorem keeps_sampleCounters (s : State) : Keeps s (State.sampleCounters s) := by
  unfold State.sampleCounters
  exact Keeps.same rfl rfl (by simp [State.shape])

theorem keeps_sampleInputs (s : State) : Keeps s (State.sampleInputs s) := by
  unfold State.sampleInputs
  extract_lets x0 x1 x2 x3 x4 x5 x6 x7
  exact Keeps.same rfl rfl (by simp [State.shape])

theorem keeps_advanceWheel (s : State) : Keeps s (State.advanceWheel s) := by
  unfold State.advanceWheel
  extract_lets x0 x1 x2 x3 x4
  have hx4 : Keeps s x4 := by
    unfold x4
    exact Keeps.same rfl rfl rfl
  clear_value x4
  split
  · exact Keeps.refl _
  · split
    · exact Keeps.same rfl rfl rfl
    · split
      · refine Keeps.trans ?_ (keeps_bump _ _ _)
        assumption
      · assumption

theorem keeps_releasePs (s : State) : Keeps s (State.releasePs s) := by
  unfold State.releasePs
  exact Keeps.same rfl rfl (by simp [State.shape])

theorem keeps_countLength (s : State) : Keeps s (State.countLength s) := by
  unfold State.countLength
  split
  · extract_lets x0 x1
    have hx1 : Keeps s x1 := by
      unfold x1
      split
      · exact keeps_setCounter ..
      · exact Keeps.refl _
    clear_value x1
    refine Keeps.trans ?_ (keeps_maxCounter _ _ _ _)
    assumption
  · exact Keeps.refl _

theorem keeps_boundary (s : State) (synced deferred : Bool) : Keeps s (State.boundary s synced deferred) := by
  unfold State.boundary
  extract_lets x0 f0 b0 x1 x2 e turn x3 f1
  have h0 : Keeps s x0 := (keeps_safeExit s).trans ((keeps_cutFrame _).trans ((keeps_endStall _).trans (keeps_countLength _)))
  have h1 : Keeps x0 x1 := Keeps.same rfl rfl rfl
  have h2 : Keeps x1 x2 := (keeps_advanceWheel x1).trans ((keeps_releasePs _).trans ((keeps_sampleCounters _).trans (keeps_sampleInputs _)))
  have ht : ∀ c, (turn c).lsm = c.lsm ∧ (turn c).icache = c.icache ∧ (turn c).kcache = c.kcache := fun c => by
    unfold turn
    split <;> exact ⟨rfl, rfl, rfl⟩
  clear_value turn e x2
  have h3 : Keeps x2 x3 := Keeps.same rfl (by simp [State.mems, x3, ht]) rfl
  clear_value x3
  refine (h0.trans (h1.trans (h2.trans h3))).trans (Keeps.memory rfl rfl fun w => ?_)
  simp only [State.memOk, Bool.and_eq_true] at w ⊢
  exact ⟨w.1, rfl⟩

theorem keeps_doFrameBoundary (s : State) : Keeps s (doFrameBoundary s) := by
  unfold doFrameBoundary
  split
  · exact keeps_boundary ..
  · exact Keeps.refl _

theorem keeps_syncEvent (s : State) (k : Nat) : Keeps s (State.syncEvent s k) := by
  unfold State.syncEvent
  refine Keeps.trans ?_ (keeps_bump _ _ _)
  exact Keeps.same rfl rfl rfl

theorem keeps_doSyncInEdge (rising : Bool) (s : State) : Keeps s (doSyncInEdge rising s) := by
  unfold doSyncInEdge
  split
  · exact Keeps.refl _
  · split
    · exact keeps_syncEvent ..
    · split
      · exact keeps_boundary ..
      · refine Keeps.trans ?_ (keeps_syncEvent _ _)
        exact Keeps.same rfl rfl rfl

theorem keeps_doEarliestBoundary (s : State) : Keeps s (doEarliestBoundary s) := by
  unfold doEarliestBoundary
  split
  · exact keeps_boundary ..
  · exact Keeps.refl _

theorem keeps_doSyncWindowEnd (s : State) : Keeps s (doSyncWindowEnd s) := by
  unfold doSyncWindowEnd
  split
  · refine Keeps.trans ?_ (keeps_boundary _ _ _)
    exact keeps_syncEvent ..
  · exact Keeps.refl _

theorem keeps_doArmAck (d : Fin 2) (h : Half) (s : State) : Keeps s (doArmAck d h s) := by
  unfold doArmAck
  split
  · exact Keeps.same rfl rfl rfl
  · exact Keeps.refl _

theorem keeps_doOverrun (s : State) : Keeps s (doOverrun s) := by
  unfold doOverrun
  split
  · refine Keeps.trans ?_ (keeps_raise _ _)
    exact Keeps.same rfl rfl rfl
  · split
    · refine Keeps.trans ?_ (keeps_raise _ _)
      exact Keeps.same rfl rfl rfl
    · exact Keeps.refl _

theorem keeps_evalEndShown (s : State) : Keeps s (State.evalEndShown s).2 := by
  unfold State.evalEndShown
  split
  · exact Keeps.refl _
  · extract_lets x0
    have hx0 : Keeps s x0.2 := by
      unfold x0
      exact keeps_freeWord ..
    clear_value x0
    assumption

theorem keeps_latchCheck (s : State) : Keeps s (State.latchCheck s) := by
  unfold State.latchCheck
  extract_lets x0 x1 x2 x3 x4
  have hx4 : Keeps s x4 := by
    unfold x4
    exact Keeps.same rfl rfl rfl
  clear_value x4
  refine Keeps.trans ?_ (Keeps.foldl (fun s5 a6 => ?_) _ _)
  · assumption
  · split
    · extract_lets x7
      have hx7 : Keeps s5 x7.2 := by
        unfold x7
        exact keeps_freeWord ..
      clear_value x7
      refine Keeps.trans ?_ (keeps_tripFault _ _ _ _)
      assumption
    · exact Keeps.refl _

theorem keeps_publish (s : State) : Keeps s (State.publish s) := by
  unfold State.publish
  extract_lets x
  refine Keeps.memory rfl (by simp [State.shape]) fun h => ?_
  simp only [State.memOk, Bool.and_eq_true, List.all_map, Function.comp_def] at h ⊢
  refine ⟨⟨⟨⟨⟨h.1.1.1.1.1, h.1.1.1.2⟩, h.1.1.1.2⟩, h.1.1.2⟩, ?_⟩, h.1.1.1.1.2⟩
  refine List.all_eq_true.2 fun b hb => ?_
  have := List.all_eq_true.1 h.1.2 b hb
  split <;> exact this

theorem keeps_commitCut (s : State) : Keeps s s.commitCut := by
  unfold State.commitCut
  split
  · extract_lets p c t
    have h : Keeps s t := Keeps.same rfl rfl rfl
    split
    · exact h.trans (keeps_raise ..)
    · exact h
  · exact Keeps.refl _

theorem keeps_doCommitAt (s : State) : Keeps s (doCommitAt s) := by
  unfold doCommitAt
  split
  · extract_lets x0 x1 x2 x3 x4 x5 x6
    have hx1 : Keeps s x1.2 := by
      unfold x1
      exact keeps_evalEndShown ..
    have hx2 : Keeps s x2 := by
      assumption
    have hx5 : Keeps s x5 := by
      unfold x5
      refine Keeps.trans (t := x2) ?_ (Keeps.same rfl rfl rfl)
      assumption
    have hx6 : Keeps s x6 := by
      unfold x6
      split
      · refine Keeps.trans ?_ (keeps_publish _)
        assumption
      · assumption
    clear_value x6
    clear_value x5
    clear_value x2
    clear_value x1
    refine Keeps.trans ?_ (keeps_latchCheck _)
    split
    · refine Keeps.trans ?_ (keeps_raise _ _)
      assumption
    · assumption
  · exact keeps_commitCut ..

theorem keeps_doCommitSplit (d : Fin 2) (s : State) : Keeps s (doCommitSplit d s) := by
  unfold doCommitSplit
  split
  · refine Keeps.trans ?_ (keeps_raise _ _)
    exact Keeps.same rfl rfl rfl
  · exact Keeps.refl _

theorem keeps_permitPort (s : State) (n : Nat) : Keeps s (State.permitPort s n) := by
  unfold State.permitPort
  extract_lets x0 x1 x2
  have hx1 : Keeps s x1 := by
    unfold x1
    exact keeps_updHp ..
  have hx2 : Keeps s x2 := by
    unfold x2
    refine Keeps.trans ?_ (keeps_updHp _ _ _)
    refine Keeps.trans ?_ (keeps_mark _ _ _ _)
    assumption
  clear_value x2
  clear_value x1
  split
  · split
    · refine Keeps.trans ?_ (keeps_raise _ _)
      assumption
    · assumption
  · assumption

theorem keeps_haltWheel (s : State) : Keeps s (State.haltWheel s) := by
  unfold State.haltWheel
  extract_lets own p w s1
  have h1 : Keeps s s1 := (keeps_dropJudging s).trans (Keeps.same rfl rfl rfl)
  exact h1.trans ((Keeps.foldl keeps_unmask _ _).trans (keeps_updateTrips _))

theorem keeps_cfgFault (s : State) (f : CfgFault) : Keeps s (State.cfgFault s f) := by
  unfold State.cfgFault
  split
  · exact Keeps.refl _
  · split
    · exact keeps_raise ..
    · split
      · exact keeps_tripFault ..
      · exact keeps_raise ..
      · exact keeps_outCfgFault ..
      · exact (keeps_haltWheel _).trans (keeps_raise ..)

theorem keeps_doPermitLatch (faults : List CfgFault) (s : State) : Keeps s (doPermitLatch faults s) := by
  unfold doPermitLatch
  split
  · extract_lets s1 p1 f1 s2
    have h1 : Keeps s s1 := Keeps.foldl (fun t n => keeps_permitPort t n) _ _
    have h2 : Keeps s s2 := by
      clear_value s1
      exact h1.trans (Keeps.same rfl rfl rfl)
    exact h2.trans (Keeps.foldl (fun t f => keeps_cfgFault t f) _ _)
  · exact Keeps.refl _

theorem keeps_doFrameOutEnd (s : State) : Keeps s (doFrameOutEnd s) := by
  unfold doFrameOutEnd
  extract_lets x0 x1
  split
  · exact Keeps.same rfl rfl rfl
  · exact Keeps.refl _

end Sys2Proof.Machine
end

