-- ==== Sys2Proof/Laws/KeepsVerify.lean ====
section
/-! SUPPORT. What the operations of Machine/Verify.lean keep. -/

namespace Sys2Proof.Machine

theorem keeps_publishOn (s : State) (v : Words) : Keeps s (State.publishOn s v) := by
  unfold State.publishOn
  refine Keeps.foldl (fun t k => ?_) _ _
  extract_lets b
  split
  · exact Keeps.refl _
  · split
    · exact keeps_updSpb _ _ _ fun _ hb => hb
    · refine (keeps_updSpb _ _ _ fun b hb => ?_).trans (keeps_bankOn ..)
      dsimp only
      split
      · exact hb
      · rfl

/-- A fold of an operation that leaves a value of the state. -/
theorem foldl_same {α β : Type} (g : State → β) {f : State → α → State} (hf : ∀ s a, g (f s a) = g s) (l : List α) (s : State) :
    g (l.foldl f s) = g s := by
  induction l generalizing s with
  | nil => rfl
  | cons a l ih => exact (ih _).trans (hf _ _)

theorem bankOn_dev (s : State) (k : Nat) : (s.bankOn k).dev = s.dev := by
  rfl

theorem publishOn_dev (s : State) (v : Words) : (s.publishOn v).dev = s.dev := by
  unfold State.publishOn
  refine foldl_same State.dev (fun t k => ?_) _ _
  extract_lets b
  split
  · rfl
  · split
    · rfl
    · exact bankOn_dev ..

theorem enterRun_state (s : State) (v : Words) : (s.enterRun v).dev.state = s.dev.state := by
  have h1 : (s.applyOwnership v).dev = s.dev := by
    unfold State.applyOwnership
    split
    · refine foldl_same State.dev ?_ _ _
      exact fun _ _ => rfl
    · refine foldl_same State.dev ?_ _ _
      exact fun _ _ => rfl
  have h2 : ∀ t : State, (t.applyReact v).dev = t.dev := fun t => by
    unfold State.applyReact
    refine (foldl_same State.dev (fun t e => ?_) _ _).trans (foldl_same State.dev ?_ _ _)
    · extract_lets a
      split <;> rfl
    · exact fun _ _ => rfl
  unfold State.enterRun
  simp only [h2, h1]

/-- An ingot takes effect in a state that is not OFF. -/
theorem Keeps.pass {r s : State} (h : Keeps r s) (hoff : r.dev.state ≠ .off) : Keeps r s.ingotPass := by
  unfold State.ingotPass
  extract_lets v s1 c1 i1 s2 s3 s4
  have h1 : Keeps r s1 := h.trans ((keeps_publishOn ..).trans ((keeps_applyConfig ..).trans ((keeps_enterRun ..).trans (keeps_loadChannels ..))))
  clear_value s1
  have h2 : Keeps r s2 := h1.trans (Keeps.same rfl rfl (by simp [s2, State.shape]))
  clear_value s2
  have h3 : Keeps r s3 := by
    unfold s3
    refine Keeps.trans ?_ (keeps_clearTrips _)
    refine Keeps.trans ?_ (keeps_commandsOff _)
    split
    · exact h2
    · exact h2.change _ _ _ fun e => absurd e hoff
  have h4 : Keeps r s4 := by
    unfold s4; split
    · exact h3.trans (keeps_firstRun _)
    · exact h3
  exact h4.trans (keeps_boundary ..)

theorem keeps_ingotPass (s : State) (hoff : s.dev.state ≠ .off) : Keeps s s.ingotPass := (Keeps.refl s).pass hoff

theorem keeps_ingotFail (s : State) (check index : Nat) : Keeps s (State.ingotFail s check index) := by
  unfold State.ingotFail
  extract_lets x0 x1 x2 x3 x4
  have hx2 : Keeps s x2 := by
    unfold x2
    exact Keeps.same rfl rfl rfl
  have hx3 : Keeps s x3 := by
    unfold x3
    refine Keeps.trans ?_ (keeps_raise _ _)
    refine Keeps.trans ?_ (keeps_bump _ _ _)
    assumption
  have hx4 : Keeps s x4 := by
    unfold x4
    split
    · refine Keeps.trans ?_ (keeps_enterLoad _ _ ?_)
      · assumption
      · (simp_all)
    · assumption
  clear_value x4
  clear_value x3
  clear_value x2
  split
  · assumption
  · split
    · refine Keeps.trans ?_ (keeps_copySlot _ _ _)
      assumption
    · refine Keeps.trans ?_ (keeps_waitHost _)
      assumption

theorem keeps_verifyEcc (s : State) (ecc : List (BitVec 17 × EccErr)) : Keeps s (State.verifyEcc s ecc) := by
  unfold State.verifyEcc
  refine Keeps.trans ?_ (Keeps.foldl (fun s0 a1 => ?_) _ _)
  · exact Keeps.refl _
  · exact keeps_crucibleError ..

theorem keeps_sectorsChecked (s : State) : Keeps s (State.sectorsChecked s) := by
  unfold State.sectorsChecked
  split
  · exact Keeps.refl _
  · extract_lets x0 x1
    exact keeps_updCtx ..

theorem keeps_doVerifyDone (ecc : List (BitVec 17 × EccErr)) (s : State) : Keeps s (doVerifyDone ecc s) := by
  unfold doVerifyDone
  split
  · next hc =>
    extract_lets s1
    have h1 : Keeps s s1 := (keeps_verifyEcc ..).trans (keeps_sectorsChecked ..)
    have hoff : s.dev.state ≠ .off := fun e => by simp [e] at hc
    clear_value s1
    split
    · exact h1.pass hoff
    · exact h1.trans (keeps_ingotFail ..)
  · exact Keeps.refl _

end Sys2Proof.Machine
end

