-- ==== Sys2Proof/Laws/Starts.lean ====
section
/-! SUPPORT. What the steps of START, the slices, the loader and a boundary change. -/

namespace Sys2Proof.Machine

theorem restoreLog_form (s : State) : ∃ e, s.restoreLog = { s with evl := e } := by
  unfold State.restoreLog
  extract_lets n s1 seq e
  have h : ∀ (l : List Nat) (s : State), ∃ e, l.foldl (fun s j => s.restoreEntry (Mem.readWs 0xFF s.flash.sector (0x200 + 16 * j) 4)) s = { s with evl := e } := by
    intro l
    induction l with
    | nil => exact fun s => ⟨_, rfl⟩
    | cons a l ih =>
      intro s
      obtain ⟨e, h⟩ := ih (s.restoreEntry (Mem.readWs 0xFF s.flash.sector (0x200 + 16 * a) 4))
      exact ⟨e, h⟩
  obtain ⟨e1, h1⟩ := h (List.range n) s
  have h1 : s1 = _ := h1
  rw [h1]
  exact ⟨_, rfl⟩

/-- The fences that a failed slice starts. -/
theorem grows_fenceUnits (s : State) (u : Units) (hn : s.noChipReset = true) : Grows s (s.fenceUnits u) := by
  unfold State.fenceUnits
  have f1 : Grows s ((List.range 2).foldl (fun s d => if u.fd.getLsbD d && !(s.bar d).fenced then s.fenceDie d none else s) s) :=
    Grows.foldl_of (fun s _ _ => by split; exacts [grows_fenceDie .., Grows.refl _]) _ _ hn
  refine f1.trans ?_
  have n1 := f1.chip hn
  have f2 := fun (s : State) (hn : s.noChipReset = true) => Grows.foldl_of (f := fun (s : State) b => if u.iob.getLsbD b && !s.bankFenced b then s.fenceBank b none else s)
    (fun s _ _ => by split; exacts [grows_fenceBank .., Grows.refl _]) (List.range 8) s hn
  refine (f2 _ n1).trans ?_
  have n2 := (f2 _ n1).chip n1
  have f3 := fun (s : State) (hn : s.noChipReset = true) => Grows.foldl_of (f := fun (s : State) n => if u.hp.getLsbD n && !(s.hp n).fenced then s.fencePort n none else s)
    (fun s _ _ => by split; exacts [grows_fencePort .., Grows.refl _]) (List.range 4) s hn
  refine (f3 _ n2).trans ?_
  have n3 := (f3 _ n2).chip n2
  have f4 := fun (s : State) (hn : s.noChipReset = true) => Grows.foldl_of (f := fun (s : State) k => if u.spb.getLsbD k && !(s.spb k).fenced then s.fenceSpb k none else s)
    (fun s _ hn => by split; exacts [grows_fenceSpb _ _ _ hn, Grows.refl _]) (List.range 16) s hn
  refine (f4 _ n3).trans ?_
  have n4 := (f4 _ n3).chip n3
  exact Grows.foldl_of (fun s _ hn => by split; exacts [grows_fenceCtxs _ _ _ hn, Grows.refl _]) _ _ n4

theorem beginSlices_ended (s : State) (k : Fin 12) : (s.beginSlices.bst.slices.getD k {}).ended = true ↔ k = 10 ∧ s.dies < 2 := by
  unfold State.beginSlices
  simp only [List.getD_eq_getElem?_getD, List.getElem?_map, List.getElem?_range k.isLt, Option.map_some, Option.getD_some]
  rw [Fin.ext_iff]
  split
  · next h =>
    simp only [Bool.and_eq_true, decide_eq_true_eq] at h
    exact ⟨fun _ => h, fun _ => rfl⟩
  · next h =>
    simp only [Bool.and_eq_true, decide_eq_true_eq] at h
    exact ⟨fun w => (by cases w), fun w => absurd w h⟩

/-- The comparator test that fails. -/
theorem comparatorTest_fails {v : State} (hs : v.shaped = true) (hn : v.noChipReset = true) :
    (v.comparatorTest false).bst = v.bst ∧ (v.comparatorTest false).ident = v.ident ∧ (v.comparatorTest false).otp = v.otp
      ∧ (v.comparatorTest false).clk = v.clk ∧ (v.comparatorTest false).sup = v.sup ∧ (v.comparatorTest false).crb.mem = v.crb.mem
      ∧ (v.comparatorTest false).img = v.img ∧ (v.hears .cmp 10 = true → (v.comparatorTest false).shows .cmp 10 = true) := by
  unfold State.comparatorTest
  rw [if_neg (by decide)]
  have hn' : v.step4.noChipReset = true := hn
  have hs' : v.step4.shaped = true := hs
  have g := (grows_raise v.step4 { page := .cmp, cause := 10 } hn' (by simp)).rest
  simp only [State.rest, Rest.mk.injEq] at g
  obtain ⟨r1, r2, rc, rs, rf, -, -, ri, rl, ro, rb, -, -, -, -, rm, -⟩ := g
  have h4 : v.hears .cmp 10 = true → v.step4.hears .cmp 10 = true := fun w => by
    simp only [State.hears, Bool.and_eq_true] at w
    have e : v.step4.resetCycle = false := by simp [State.resetCycle, State.step4]
    simp only [State.hears, e, Bool.not_false, Bool.and_true, Bool.and_eq_true]
    exact ⟨⟨w.1.1.1, w.1.2⟩, w.2⟩
  exact ⟨rb, r1, r2, rc, rs, rm, ri, fun w => raise_shows hs' hn' _ (h4 w) (by decide) (by simp) (by simp) (by simp) (by simp)⟩

/-- The result that a slice keeps. -/
def sliceResult (dies k : Nat) (r : Slice) : Slice :=
  { r with ended := true, failed := if r.complete && r.matched then {} else unitsInter r.failed (sliceUnits dies k) }

theorem grows_releaseSpb (s : State) (k : Nat) : Grows s (s.releaseSpb k) := by
  unfold State.releaseSpb
  split
  · exact (Grows.same rfl rfl rfl rfl rfl rfl : Grows s (s.updSpb k _)).trans (grows_log ..)
  · exact Grows.refl _

theorem grows_clearMarks (s : State) (u : Units) : Grows s (s.clearMarks u) := by
  unfold State.clearMarks
  extract_lets s1
  have h : Grows s s1 := Grows.foldl (fun s k => by split; exacts [grows_releaseSpb .., Grows.refl _]) _ _
  exact h.trans (.same rfl rfl rfl rfl rfl rfl)

theorem slicesEnded_facts (s : State) (hn : s.noChipReset = true) : (s.slicesEnded).bst.slices = s.bst.slices ∧ s.slicesEnded.otp = s.otp
    ∧ s.slicesEnded.flash = s.flash ∧ s.slicesEnded.img = s.img := by
  unfold State.slicesEnded
  split
  · extract_lets b s1
    split
    · unfold State.comparatorTest
      split
      · exact ⟨rfl, rfl, rfl, rfl⟩
      · have g := (grows_raise s1.step4 { page := .cmp, cause := 10 } hn (by simp)).rest
        simp only [State.rest, Rest.mk.injEq] at g
        obtain ⟨-, r2, -, -, -, -, -, ri, rl, -, rb, -⟩ := g
        exact ⟨by have := congrArg Bst.slices rb; exact this, r2, rl, ri⟩
    · exact ⟨rfl, rfl, rfl, rfl⟩
  · exact ⟨rfl, rfl, rfl, rfl⟩

theorem endSlice_facts (s : State) (k : Nat) (r : Slice) (hn : s.noChipReset = true) :
    (s.endSlice k r).bst.slices = s.bst.slices.set k (sliceResult s.dies k r) ∧ (s.endSlice k r).otp = s.otp
      ∧ (s.endSlice k r).flash = s.flash ∧ (s.endSlice k r).img = s.img := by
  unfold State.endSlice
  extract_lets pass u b s1 all s3 s2
  have g2 : Grows s1 s2 := by
    unfold s2
    split
    · have g3 : Grows s1 s3 := by
        unfold s3; split
        · exact grows_clearMarks ..
        · exact Grows.refl _
      clear_value s3
      split
      · exact g3
      · split
        · exact g3.trans (grows_raise _ _ (g3.chip hn) (by simp))
        · have g4 : Grows s3 (s3.markUnits all) := .same rfl rfl rfl rfl rfl rfl
          exact g3.trans (g4.trans (grows_fenceUnits _ _ (g4.chip (g3.chip hn))))
    · split
      · have g4 : Grows s1 (s1.markUnits { spb := u.spb }) := .same rfl rfl rfl rfl rfl rfl
        exact g4.trans (grows_fenceUnits _ _ (g4.chip hn))
      · exact Grows.refl _
  have h := g2.rest
  simp only [State.rest, Rest.mk.injEq] at h
  obtain ⟨-, r2, -, -, -, -, -, ri, rl, -, rb, -⟩ := h
  have e : s1.bst.slices = s.bst.slices.set k (sliceResult s.dies k r) := rfl
  clear_value s2
  split
  · have q := slicesEnded_facts s2 (g2.chip hn)
    exact ⟨q.1.trans ((congrArg Bst.slices rb).trans e), q.2.1.trans r2, q.2.2.1.trans rl, q.2.2.2.trans ri⟩
  · exact ⟨(congrArg Bst.slices rb).trans e, r2, rl, ri⟩

/-! The loader. -/

/-- A page none of whose reactions acts on a unit of its own (R539). -/
def Page.plain : Page → Bool
  | .hp _ => false
  | .spb _ => false
  | .chk => false
  | .fib _ => false
  | .fob _ => false
  | .pwl => false
  | .bar _ => false
  | _ => true

/-- What an event of such a page can change, where no SAFE_STOP and no CHIP_RESET is taken. -/
structure Mild where
  hdrs : List Hdr
  ins : List Input
  outs : List Output
  ps : List PulseSource
  evl : Evl
  prog : Progress
  cope : Chan
  drag : Chan
  cmp : Cmp
  r36 : Bool
  stopTime : Option Time
  stopFirst : Option Time
  shakeFault : Bool
  shadows : List Shadow
  marks : Marks
  rest : BitVec 2 × Chk × Mem × List Spb × List OutBank

def State.mild (s : State) (m : Mild) : State :=
  { s with hdrs := m.hdrs, ins := m.ins, outs := m.outs, ps := m.ps, evl := m.evl, prog := m.prog, cope := m.cope, drag := m.drag
           cmp := m.cmp, shadows := m.shadows, marks := m.marks, frm := { s.frm with result := m.rest.1 }, chk := m.rest.2.1
           fbs := m.rest.2.2.1, spbs := m.rest.2.2.2.1, outBanks := m.rest.2.2.2.2
           dev := { s.dev with safeR36 := m.r36, stopTime := m.stopTime, stopFirst := m.stopFirst, shakeFault := m.shakeFault } }

def State.asMild (s : State) : Mild :=
  { hdrs := s.hdrs, ins := s.ins, outs := s.outs, ps := s.ps, evl := s.evl, prog := s.prog, cope := s.cope, drag := s.drag, cmp := s.cmp
    r36 := s.dev.safeR36, stopTime := s.dev.stopTime, stopFirst := s.dev.stopFirst, shakeFault := s.dev.shakeFault
    shadows := s.shadows, marks := s.marks, rest := (s.frm.result, s.chk, s.fbs, s.spbs, s.outBanks) }

theorem mild_self (s : State) : s.mild s.asMild = s := rfl

theorem openShadow_form (s : State) (l : List (Page × Word × Option (List Nat))) (p : Page) (n : Nat) :
    ∃ sh, s.openShadow l p n = { s with shadows := sh } := ⟨_, rfl⟩

theorem endStall_form (s : State) : ∃ a c d, s.endStall = { s with hdrs := a, cope := c, drag := d } := by
  unfold State.endStall
  split <;> exact ⟨_, _, _, rfl⟩

theorem stopTrap_form (s : State) : ∃ a c d m, s.stopTrap = { s with hdrs := a, cope := c, drag := d, cmp := m } := by
  obtain ⟨a, c, d, h⟩ := endStall_form s
  unfold State.stopTrap
  rw [h]
  exact ⟨_, _, _, _, rfl⟩

theorem trapR36_mild (s : State) (e : Dev) (he : e = { s.dev with safeR36 := true }) : ∃ m, { s.stopTrap with dev := e } = s.mild m := by
  subst he
  obtain ⟨a, c, d, m, h⟩ := stopTrap_form s
  rw [h]
  exact ⟨{ s.asMild with hdrs := a, cope := c, drag := d, cmp := m, r36 := true }, rfl⟩

theorem safeStop_mild {s : State} (h1 : s.dev.state ≠ .start) (h2 : s.dev.state ≠ .run) (p : Page) (c : Nat) : ∃ m, s.safeStop p c = s.mild m := by
  unfold State.safeStop
  extract_lets key r36
  split
  · next h => exact absurd h h1
  · next h => exact absurd h h2
  · split
    · exact trapR36_mild s _ rfl
    · exact ⟨_, (mild_self s).symm⟩
  · split
    · obtain ⟨a, cc, d, m, h⟩ := stopTrap_form s
      rw [h]
      exact ⟨{ s.asMild with hdrs := a, cope := cc, drag := d, cmp := m }, rfl⟩
    · exact ⟨_, (mild_self s).symm⟩
  · exact ⟨_, (mild_self s).symm⟩

theorem raise_plain {s : State} (hn : s.noChipReset = true) (h1 : s.dev.state ≠ .start) (h2 : s.dev.state ≠ .run) (p : Page)
    (hp : Page.plain p = true) (c : Nat) : ∃ m, s.raise { page := p, cause := c } = s.mild m := by
  have hl : s.lateFault { page := p, cause := c } = false := by
    simp only [State.lateFault, State.resetCycle, State.justReset, Bool.and_eq_false_iff, beq_eq_false_iff_ne]
    exact .inl (.inl (.inl (.inl (.inl h1))))
  unfold State.raise
  rw [hl]
  split
  · refine ⟨s.asMild, ?_⟩
    unfold State.dieLatch
    cases p <;> first | rfl | cases hp
  split
  · exact ⟨_, (mild_self s).symm⟩
  rw [if_neg (by decide)]
  split
  · exact ⟨_, (mild_self s).symm⟩
  · extract_lets r
    obtain ⟨a, b, cc, d, k, q, m, f, x, hx⟩ := record_form s { page := p, cause := c }
    have h6 := record_taken hn { page := p, cause := c } (by simp)
    have hx : r.1 = _ := hx
    have h6 : (r.2.1 &&& 7).toNat ≠ 6 := h6
    clear_value r
    obtain ⟨u, taken, origin, serial⟩ := r
    simp only at hx h6 ⊢
    have hm : u = s.mild { s.asMild with hdrs := a, ins := b, outs := cc, ps := d, evl := k, prog := q, marks := m, shakeFault := f, rest := x } := hx
    have hu : u.dev.state = s.dev.state := by rw [hx]
    clear hx
    unfold State.react
    extract_lets key cs
    obtain ⟨n, hn⟩ : ∃ n, (taken &&& 7).toNat = n := ⟨_, rfl⟩
    rw [hn] at h6 ⊢
    split <;> first | cases hp | exact absurd rfl h6 | skip
    · rw [hm]
      exact ⟨{ s.asMild with hdrs := a, ins := b, outs := cc, ps := d, evl := k, prog := q, marks := m, shakeFault := f, rest := x
                             cope := (State.trapPending (s.mild { s.asMild with prog := q }) p).cope
                             drag := (State.trapPending (s.mild { s.asMild with prog := q }) p).drag }, rfl⟩
    · unfold State.reactStop
      rw [hn]
      simp only
      have hs : ∃ m', (if u.justReset then u else u.stopTaken.safeStop p c) = s.mild m' := by
        split
        · exact ⟨_, hm⟩
        · obtain ⟨m', e⟩ := safeStop_mild (s := u.stopTaken) (by show u.dev.state ≠ _; rwa [hu]) (by show u.dev.state ≠ _; rwa [hu]) p c
          rw [e, hm]
          exact ⟨m', rfl⟩
      obtain ⟨m', e⟩ := hs
      obtain ⟨sh, e2⟩ := openShadow_form (s.mild m') u.safeSet origin serial
      rw [e, e2]
      exact ⟨{ m' with shadows := sh }, rfl⟩
    · exact ⟨_, hm⟩

theorem readHeaders_form (s : State) : s.readHeaders = { s with img := { s.img with
    slotAOk := s.slotOk s.flash.slotA, slotBOk := s.slotOk s.flash.slotB
    slotASeq := if s.slotOk s.flash.slotA then s.flash.slotA.readW 0xFF 0xC else 0
    slotBSeq := if s.slotOk s.flash.slotB then s.flash.slotB.readW 0xFF 0xC else 0 } } := rfl

/-- A slot with a valid header is copied. -/
theorem copySlot_ok {s : State} (source : BitVec 3) (other : Bool) (h : (if source = 1 then s.img.slotAOk else s.img.slotBOk) = true) :
    s.copySlot source other = { s with img := { s.img with phase := .copying, source := source, otherSlot := other } } := by
  unfold State.copySlot
  rw [if_pos h]

/-- What the choice of a slot keeps. -/
theorem copySlot_keeps {s : State} (source : BitVec 3) (other : Bool) (hn : s.noChipReset = true) :
    (s.copySlot source other).img.verifyResult = s.img.verifyResult ∧ (s.copySlot source other).crb.mem = s.crb.mem
      ∧ (s.copySlot source other).crb.valid = s.crb.valid ∧ (s.copySlot source other).otp = s.otp ∧ (s.copySlot source other).flash = s.flash
      ∧ (∀ p c, s.shows p c = true → (s.copySlot source other).shows p c = true)
      ∧ (s.dev.state = .load → (s.copySlot source other).dev.state = .load) := by
  unfold State.copySlot
  by_cases h : (if source = 1 then s.img.slotAOk else s.img.slotBOk) = true
  · rw [if_pos h]
    exact ⟨rfl, rfl, rfl, rfl, rfl, fun _ _ w => w, id⟩
  · rw [if_neg h]
    have g := grows_raise s.waitHost { page := .img, cause := 0 } hn (by simp)
    have q := g.rest
    simp only [State.rest, Rest.mk.injEq] at q
    obtain ⟨r1, r2, rc, rs, rf, -, -, ri, rl, ro, rb, -, -, -, -, rm, rv, -⟩ := q
    exact ⟨by have := congrArg Img.verifyResult ri; exact this, rm, rv, r2, rl, g.shows, fun w => (g.state (by show s.dev.state ≠ _; rw [w]; decide)
      (by show s.dev.state ≠ _; rw [w]; decide)).trans w⟩

theorem changeState_latch (s : State) (st : DevState) (page : BitVec 12) (key : Option LogKey) (p : Page) (c : Nat)
    (h : (s.hdr p).latch.getLsbD c = true) : ((s.changeState st page key).hdr p).latch.getLsbD c = true := by
  unfold State.changeState
  extract_lets old s1 d1 c1 p1 s2 s2' s3
  have h1 : (s1.hdr p).latch.getLsbD c = true := by
    unfold s1; split
    · exact h
    · exact (grows_addCounter s.cutFrame .pwl 0x4C s.pendingObs).hdr p c (cutFrame_latch h)
  have h2 : (s2'.hdr p).latch.getLsbD c = true := by
    unfold s2'; split
    · exact h1
    · exact h1
  clear_value s2'
  have h3 : (s3.hdr p).latch.getLsbD c = true := by
    unfold s3; split
    · exact h2
    · exact (grows_log s2' ..).hdr p c h2
  exact ((grows_mark s3 ..).trans (grows_updateTrips _)).hdr p c h3

/-- The return to LOAD. -/
theorem enterLoad_facts (s : State) (hn : s.noChipReset = true) :
    s.enterLoad.dev.state = .load ∧ s.enterLoad.crb.valid = false ∧ s.enterLoad.crb.mem = s.crb.mem ∧ s.enterLoad.img = { s.img with waits := s.enterLoad.img.waits }
      ∧ s.enterLoad.otp = s.otp ∧ s.enterLoad.flash = s.flash ∧ s.enterLoad.noChipReset = true
      ∧ (∀ p c, (s.hdr p).latch.getLsbD c = true → (s.enterLoad.hdr p).latch.getLsbD c = true) := by
  have h0 := changeState_chip hn .load 0 none
  have hl := changeState_latch s .load 0 none
  obtain ⟨a, b, c, d, e, f, g, k, m, j, y, h, -⟩ := changeState_form s .load 0 none
  unfold State.enterLoad
  extract_lets x x1
  have hx : x = _ := h
  rw [h] at h0 hl
  unfold x1
  clear_value x
  subst hx
  refine ⟨rfl, rfl, rfl, rfl, rfl, rfl, ?_, fun p c w => ?_⟩
  · show (List.map _ g).all _ = true
    rw [List.all_map]
    exact h0
  · have := hl p c w
    unfold State.hdr at this ⊢
    show ((List.map _ g).getD p.index ({} : Hdr) : Hdr).latch.getLsbD c = true
    rw [List.getD_eq_getElem?_getD] at this ⊢
    rw [List.getElem?_map]
    change (g[p.index]?.getD {}).latch.getLsbD c = true at this
    cases hq : g[p.index]? with
    | none => rw [hq] at this; exact this
    | some z => rw [hq] at this; exact this

theorem copySlot_mild {s : State} (source : BitVec 3) (other : Bool) (hn : s.noChipReset = true) (h1 : s.dev.state ≠ .start)
    (h2 : s.dev.state ≠ .run) : ∃ (i : Img) (m : Mild), s.copySlot source other = State.mild { s with img := i } m := by
  unfold State.copySlot
  by_cases h : (if source = 1 then s.img.slotAOk else s.img.slotBOk) = true
  · rw [if_pos h]
    exact ⟨_, _, (mild_self _).symm⟩
  · rw [if_neg h]
    exact ⟨_, raise_plain (s := s.waitHost) hn h1 h2 .img rfl 0⟩

/-- The loader's start changes IMG only: the headers are read by the end of the cycle (R427). -/
theorem startLoader_form (s : State) (src : Nat) : ∃ i : Img, s.startLoader src = { s with img := i } := by
  unfold State.startLoader
  extract_lets j s1
  split <;> exact ⟨_, rfl⟩

/-- The headers read change IMG, and what a BOOT_ERR changes. -/
theorem headersRead_mild {s : State} (hn : s.noChipReset = true) (h1 : s.dev.state ≠ .start) (h2 : s.dev.state ≠ .run) :
    ∃ (i : Img) (m : Mild), s.headersRead = State.mild { s with img := i } m := by
  unfold State.headersRead
  extract_lets s1
  have k1 := fun a b => copySlot_mild (s := s1) a b hn h1 h2
  split <;> (try split) <;> (try split) <;> first | exact k1 _ _ | exact ⟨_, _, (mild_self _).symm⟩

theorem copySlot_grows (s : State) (source : BitVec 3) (other : Bool) (hn : s.noChipReset = true) :
    ∃ i : Img, Grows { s with img := i } (s.copySlot source other) := by
  unfold State.copySlot
  by_cases h : (if source = 1 then s.img.slotAOk else s.img.slotBOk) = true
  · rw [if_pos h]
    exact ⟨_, Grows.refl _⟩
  · rw [if_neg h]
    exact ⟨_, grows_raise s.waitHost { page := .img, cause := 0 } hn (by simp)⟩

theorem headersRead_grows (s : State) (hn : s.noChipReset = true) : ∃ i : Img, Grows { s with img := i } s.headersRead := by
  unfold State.headersRead
  extract_lets s1
  have k1 := fun a b => copySlot_grows s1 a b hn
  split <;> (try split) <;> (try split) <;> first | exact k1 _ _ | exact ⟨_, Grows.refl _⟩

theorem beginVerify_form (s : State) (page : BitVec 12) : ∃ (d : Dev) (a : BitVec 17 × Time) (b : Frm) (c : Progress) (e : Pwl) (f : List Comparator)
    (g : List Output) (h : List Hdr) (k : Evl) (m : Spc) (n : Trp) (j : Marks) (x : Side), s.beginVerify page = { s with
      dev := d, crb := { s.crb with pos := a.1, passStart := a.2 }, frm := b, prog := c, pwl := e, comps := f, outs := g, hdrs := h, evl := k
      spc := m, trp := n, marks := j, cope := x.cope, drag := x.drag, cut := x.cut, hps := x.hps, ctxs := x.ctxs
      img := { s.img with phase := .verifying, tries := satInc s.img.tries, verifyAt := b.tb, waits := x.waits } }
    ∧ b.tb = s.frm.tb ∧ d.state = if s.dev.state = .commission then DevState.commission else .verify := by
  unfold State.beginVerify
  extract_lets s1 i s2
  have h1 : ∃ (d : Dev) (a : BitVec 17 × Time) (b : Frm) (c : Progress) (e : Pwl) (f : List Comparator)
      (g : List Output) (h : List Hdr) (k : Evl) (m : Spc) (n : Trp) (j : Marks) (x : Side), s1 = { s with
        dev := d, crb := { s.crb with pos := a.1, passStart := a.2 }, frm := b, prog := c, pwl := e, comps := f, outs := g, hdrs := h, evl := k
        spc := m, trp := n, marks := j, cope := x.cope, drag := x.drag, cut := x.cut, hps := x.hps, ctxs := x.ctxs
        img := { s.img with waits := x.waits } }
      ∧ b.tb = s.frm.tb ∧ d.state = if s.dev.state = .commission then DevState.commission else .verify := by
    unfold s1
    split
    · next h =>
      simp only [beq_iff_eq] at h
      exact ⟨_, (_, _), _, _, _, _, _, _, _, _, _, _, s.side, rfl, rfl, by rw [if_pos h]; exact h⟩
    · next h =>
      simp only [beq_iff_eq] at h
      obtain ⟨a, b, c, d, e, f, g, k, m, j, x, h1, -⟩ := changeState_form s .verify page none
      rw [h1]
      exact ⟨_, a, _, _, _, _, _, _, _, _, _, _, x, rfl, rfl, by rw [if_neg h]⟩
  obtain ⟨d, a, b, c, e, f, g, h, k, m, n, j, x, h1, h2⟩ := h1
  clear_value s1
  subst h1
  exact ⟨d, a, b, c, e, f, g, _, k, m, n, j, x, rfl, h2⟩

/-! An ingot takes effect. -/

/-- Every output is commanded off. -/
def OutsOff (l : List Output) : Prop := ∀ u ∈ l, u.cmdC = false ∧ u.cmdD = false

theorem outsOff_mapIdx {l : List Output} (h : OutsOff l) (f : Nat → Output → Output) (hf : ∀ i u, (f i u).cmdC = u.cmdC ∧ (f i u).cmdD = u.cmdD) :
    OutsOff (l.mapIdx f) := by
  intro u hu
  obtain ⟨i, hi, rfl⟩ := List.mem_mapIdx.1 hu
  rw [(hf ..).1, (hf ..).2]
  exact h _ (List.getElem_mem hi)

theorem updateTrips_outsOff {s : State} (h : OutsOff s.outs) : OutsOff s.updateTrips.outs := by
  obtain ⟨a, b, k⟩ := setTrips_form s
  unfold State.updateTrips
  rw [k, sendLanes_frame]
  refine outsOff_mapIdx (l := s.outs) h _ fun i u => ?_
  split
  · exact ⟨rfl, rfl⟩
  · exact ⟨rfl, rfl⟩

theorem commandsOff_outsOff (s : State) : OutsOff s.commandsOff.outs := by
  intro u hu
  obtain ⟨w, -, rfl⟩ := List.mem_map.1 hu
  exact ⟨rfl, rfl⟩

theorem publishOn_form (s : State) (v : Words) : ∃ a b, s.publishOn v = { s with spbs := a, spc := b } := by
  unfold State.publishOn
  generalize List.range 16 = l
  induction l generalizing s with
  | nil => exact ⟨_, _, rfl⟩
  | cons k l ih =>
    rw [List.foldl_cons]
    extract_lets b
    split
    · exact ih s
    · split
      · obtain ⟨x, y, h⟩ := ih (s.updSpb k fun b => { b with req := 0 })
        exact ⟨x, y, h⟩
      · obtain ⟨x, y, h⟩ := ih ((s.updSpb k fun b => { b with req := 0, mem := if b.power == .retain then b.mem else [] }).bankOn k)
        exact ⟨x, y, h⟩

theorem foldl_hdrs {α : Type} {f : State → α → State} (hf : ∀ s a, ∃ h, f s a = { s with hdrs := h }) (l : List α) (s : State) :
    ∃ h, l.foldl f s = { s with hdrs := h } := by
  induction l generalizing s with
  | nil => exact ⟨_, rfl⟩
  | cons a l ih =>
    obtain ⟨h, e⟩ := hf s a
    obtain ⟨h', e'⟩ := ih (f s a)
    refine ⟨h', ?_⟩
    rw [List.foldl_cons, e', e]

/-- What an entry to RUN sets but for the headers. -/
theorem enterRun_form (s : State) (v : Words) : ∃ h, s.enterRun v = { s with
    hdrs := h
    dev := { s.dev with ingotRun := true, supervisor := (rd v 0xA4).extractLsb' 0 2 }
    hps := s.hps.map fun (x : Hp) => { x with everRefreshed := false }
    comps := s.comps.map fun (c : Comparator) => { c with count := 0, per := 0, riseSince := false } } := by
  have h1 : ∃ h, s.applyOwnership v = { s with hdrs := h } := by
    unfold State.applyOwnership
    split
    · exact foldl_hdrs (fun _ _ => ⟨_, rfl⟩) _ _
    · exact foldl_hdrs (fun _ _ => ⟨_, rfl⟩) _ _
  obtain ⟨a, h1⟩ := h1
  have h2 : ∀ t : State, ∃ h, t.applyReact v = { t with hdrs := h } := fun t => by
    unfold State.applyReact
    obtain ⟨x, hx⟩ := foldl_hdrs (f := fun (s : State) p => s.updHdr p fun h =>
      let r := resetHdr p
      { h with enable := r.enable, fltN := r.fltN, fltWindow := r.fltWindow, reactMinor := r.reactMinor
               reactSevere := r.reactSevere }) (fun _ _ => ⟨_, rfl⟩) t.pages t
    extract_lets s1
    have hx : s1 = _ := hx
    clear_value s1
    subst hx
    exact foldl_hdrs (s := { t with hdrs := x }) (fun s e => by extract_lets a; split <;> exact ⟨_, rfl⟩) _
  unfold State.enterRun
  rw [h1]
  obtain ⟨b, h3⟩ := h2 { s with hdrs := a }
  rw [h3]
  exact ⟨_, rfl⟩

/-! The LSM patrol. -/

/-- A patrol read of a half moves its position, whatever the read meets. -/
theorem lsmRead_c {s : State} (e : Option Bool) (hm : s.cope.mode ≠ .halted) (hp : s.bst.posC + 1 ≠ 0) :
    s.lsmRead .c e = { (match e with | none => s | some m => s.lsmError .c s.bst.posC.toNat m) with
      bst := { (match e with | none => s | some m => s.lsmError .c s.bst.posC.toNat m).bst with posC := s.bst.posC + 1 } } := by
  unfold State.lsmRead
  rw [if_neg (by simpa [State.chan] using hm)]
  exact if_neg hp

theorem lsmRead_d {s : State} (e : Option Bool) (hm : s.drag.mode ≠ .halted) (hp : s.bst.posD + 1 ≠ 0) :
    s.lsmRead .d e = { (match e with | none => s | some m => s.lsmError .d s.bst.posD.toNat m) with
      bst := { (match e with | none => s | some m => s.lsmError .d s.bst.posD.toNat m).bst with posD := s.bst.posD + 1 } } := by
  unfold State.lsmRead
  rw [if_neg (by simpa [State.chan] using hm)]
  exact if_neg hp

theorem grows_lsmError (s : State) (h : Half) (w : Nat) (m : Bool) (hn : s.noChipReset = true) : Grows s (s.lsmError h w m) := by
  unfold State.lsmError
  extract_lets s1
  have g : Grows s s1 := by cases h <;> exact .same rfl rfl rfl rfl rfl rfl
  split
  · exact g.trans (grows_raise _ _ (g.chip hn) (by simp))
  · exact g.trans (grows_bump ..)

theorem grows_lsmPass (s : State) (h : Half) (ticks : Nat) (hn : s.noChipReset = true) : ∃ b, Grows { s with bst := b } (s.lsmPass h ticks) := by
  have e : ∀ (u : State) (last : Word), u.noChipReset = true →
      Grows u (if 1000000 < ticks then ((u.setCounter .bst 0x48 last).maxCounter .bst 0x4C last).raise { page := .bst, cause := 0 }
        else (u.setCounter .bst 0x48 last).maxCounter .bst 0x4C last) := by
    intro u last hu
    have g : Grows u ((u.setCounter .bst 0x48 last).maxCounter .bst 0x4C last) := (grows_setCounter ..).trans (grows_maxCounter ..)
    split
    · exact g.trans (grows_raise _ _ (g.chip hu) (by simp))
    · exact g
  cases h
  · exact ⟨_, (grows_bump { s with bst := { s.bst with passC := satWord (ticks / 100), passStartC := s.frm.tb } } .bst 0x44).trans
      (e _ _ ((grows_bump ..).chip hn))⟩
  · exact ⟨_, e { s with bst := { s.bst with passD := satWord (ticks / 100), passStartD := s.frm.tb } } _ hn⟩

/-- A patrol read of a half keeps what is latched. -/
theorem grows_lsmRead (s : State) (h : Half) (e : Option Bool) (hn : s.noChipReset = true) : ∃ b, Grows { s with bst := b } (s.lsmRead h e) := by
  unfold State.lsmRead
  split
  · exact ⟨_, Grows.refl _⟩
  · extract_lets pos start s1 b1 s2
    have g1 : Grows s s1 := by
      unfold s1; split
      · exact Grows.refl _
      · exact grows_lsmError _ _ _ _ hn
    have g2 : ∃ b, s2 = { s1 with bst := b } := by cases h <;> exact ⟨_, rfl⟩
    obtain ⟨b, g2⟩ := g2
    have g3 : Grows { s with bst := b } s2 := by
      rw [g2]
      exact ⟨congrArg (fun r : Rest => { r with bst := b }) g1.rest, g1.decided, g1.hdr, g1.inp, g1.out, g1.ps, g1.hold, g1.psHold, g1.chip, g1.state⟩
    split
    · obtain ⟨b', g4⟩ := grows_lsmPass s2 h (s2.frm.tb - start).toNat (g3.chip hn)
      refine ⟨b', Grows.trans ?_ g4⟩
      exact ⟨congrArg (fun r : Rest => { r with bst := b' }) g3.rest, g3.decided, g3.hdr, g3.inp, g3.out, g3.ps, g3.hold, g3.psHold, g3.chip, g3.state⟩
    · exact ⟨b, g3⟩

/-! A boundary. -/

/-- The end of the frame before, at a boundary: counters, and a refetch that it ends. -/
theorem frameEnd_form (s : State) : ∃ (a : List Hdr) (b : Bool) (f g : Chan), s.cutFrame.endStall.countLength =
    { s with hdrs := a, prog := { s.prog with counted := b }, cope := f, drag := g } := by
  obtain ⟨a, b, h⟩ := cutFrame_form s
  rw [h]
  obtain ⟨a, f, g, h⟩ := endStall_form { s with hdrs := a, prog := { s.prog with counted := b } }
  rw [h]
  unfold State.countLength
  split
  · extract_lets n w s1
    have : ∃ a, s1 = { s with hdrs := a, prog := { s.prog with counted := b }, cope := f, drag := g } := by
      unfold s1; split <;> exact ⟨_, rfl⟩
    obtain ⟨a, h⟩ := this
    rw [h]
    exact ⟨_, _, _, _, rfl⟩
  · exact ⟨_, b, _, _, rfl⟩

/-- What a boundary sets, where SAFE is not left for RUN. -/
theorem boundary_form {s : State} (hs : s.safeExit = s) (synced deferred : Bool) :
    ∃ (a : List Hdr) (b : Bool) (c : Pwl) (d : List PulseSource) (e : List Comparator) (f g : Chan) (k : Trp) (m : List InBank) (n : List OutBank)
      (x : Bool) (y : BitVec 3) (z : Bst) (t : Time), s.boundary synced deferred = { s with
        hdrs := a, pwl := c, ps := d, comps := e, cope := f, drag := g, trp := k, inBanks := m, outBanks := n
        outs := s.outs.map fun (u : Output) => { u with heldSince := u.hold }
        frm := { s.frm with running := true, frameNum := s.frm.frameNum + 1, lastBnd := s.frm.tb, synced := synced, deferred := deferred
                            frameOut := b, frameOutAt := t, phase := y }
        bst := z, prog := { evalFrame := x } } ∧ (∃ p q, z = { s.bst with passStartC := p, passStartD := q })
      ∧ (y = if x then 1 else 0) ∧ k.tlC = s.trp.tlC ∧ k.tlD = s.trp.tlD := by
  unfold State.boundary
  rw [hs]
  obtain ⟨a, w0, f0, g0, h1⟩ := frameEnd_form s
  rw [h1]
  extract_lets s1 fr at0 b0 s2 s3 e turn s4 fr2
  have h3 : ∃ (a : List Hdr) (c : Pwl), s2.advanceWheel = { s2 with hdrs := a, pwl := c } := by
    unfold State.advanceWheel
    extract_lets w
    split
    · exact ⟨_, _, rfl⟩
    · split
      · exact ⟨_, _, rfl⟩
      · split <;> exact ⟨_, _, rfl⟩
  have hb : ∃ p q, s2.bst = { s.bst with passStartC := p, passStartD := q } := by
    show ∃ p q, (if s.frm.running then s.bst else { s.bst with passStartC := s.frm.tb, passStartD := s.frm.tb }) = _
    split
    · exact ⟨s.bst.passStartC, s.bst.passStartD, rfl⟩
    · exact ⟨_, _, rfl⟩
  obtain ⟨a', c, h3⟩ := h3
  have e3 : s3 = s2.advanceWheel.releasePs.sampleCounters.sampleInputs := rfl
  rw [h3] at e3
  clear_value s3
  subst e3
  have h4 : ∃ f g, s4 = { State.sampleInputs (State.sampleCounters (State.releasePs { s2 with hdrs := a', pwl := c })) with cope := f, drag := g } := by
    exact ⟨_, _, rfl⟩
  obtain ⟨f, g, h4⟩ := h4
  unfold fr2
  clear_value s4
  subst h4
  refine ⟨_, _, _, _, _, _, _, _, _, _, e, _, _, _, rfl, ?_, rfl, rfl, rfl⟩
  exact hb

theorem safeExit_same {s : State} (h : s.dev.state ≠ .safe) : s.safeExit = s := by
  unfold State.safeExit
  rw [if_neg]
  simp [h]

/-! The training of the links. -/

theorem clearDie_hdrs (l : List Nat) (d : Nat) (s : State) :
    ∃ h, l.foldl (fun (s : State) j => (s.updHdr (fibOf (4 * d + j)) Hdr.afresh).updHdr (fobOf (4 * d + j)) Hdr.afresh) s = { s with hdrs := h }
      ∧ ∀ p : Page, (∀ j ∈ l, fibOf (4 * d + j) = p ∨ fobOf (4 * d + j) = p → p.index < s.hdrs.length →
          ((h.getD p.index {}).latch = 0)) ∧ ((s.hdr p).latch = 0 → (h.getD p.index {}).latch = 0) := by
  induction l generalizing s with
  | nil => exact ⟨s.hdrs, rfl, fun p => ⟨fun j hj => absurd hj (by simp), id⟩⟩
  | cons a l ih =>
    let u := (s.updHdr (fibOf (4 * d + a)) Hdr.afresh).updHdr (fobOf (4 * d + a)) Hdr.afresh
    obtain ⟨h, e, f⟩ := ih u
    have k : ∀ (v : State) (q p : Page), (v.hdr p).latch = 0 → ((v.updHdr q Hdr.afresh).hdr p).latch = 0 := fun v q p w => by
      rcases hdr_of_updHdr v q p Hdr.afresh with z | z
      · rw [z]; exact w
      · rw [z]; rfl
    have m : ∀ (v : State) (q : Page), q.index < v.hdrs.length → ((v.updHdr q Hdr.afresh).hdr q).latch = 0 := fun v q w => by
      unfold State.hdr
      rw [updHdr_hdrs, getD_upd, if_pos ⟨rfl, w⟩]
      rfl
    refine ⟨h, e, fun p => ⟨fun j hj hp hi => ?_, fun w => (f p).2 (k _ _ _ (k _ _ _ w))⟩⟩
    rcases List.mem_cons.1 hj with rfl | hj
    · refine (f p).2 ?_
      rcases hp with rfl | rfl
      · exact k _ _ _ (m _ _ hi)
      · exact m _ _ (by simpa [upd] using hi)
    · refine (f p).1 j hj hp ?_
      show p.index < u.hdrs.length
      simpa [u, upd] using hi

/-- A die that leaves chill: its latches and holds clear, the other die's stay (R358, R618). -/
theorem clearDie_facts {s : State} (hs : s.shaped = true) (d : Nat) :
    (∃ i o a b h, s.clearDie d = { s with ins := i, outs := o, inBanks := a, outBanks := b, hdrs := h })
      ∧ (∀ i, i < 112 → if dieOfInput i = d then ((s.clearDie d).inp i).latch = 0 else (s.clearDie d).inp i = s.inp i)
      ∧ (∀ o, o < 64 → if dieOfBank (bankOfOutput o) = d then ((s.clearDie d).out o).latch = 0 ∧ ((s.clearDie d).out o).hold = false
          else (s.clearDie d).out o = s.out o)
      ∧ (∀ b : Fin 8, (dieOfBank b = d ∨ (s.hdr (.fib b)).latch = 0) → ((s.clearDie d).hdr (.fib b)).latch = 0)
      ∧ ∀ b : Fin 8, (dieOfBank b = d ∨ (s.hdr (.fob b)).latch = 0) → ((s.clearDie d).hdr (.fob b)).latch = 0 := by
  unfold State.clearDie
  extract_lets s1
  obtain ⟨h, e, f⟩ := clearDie_hdrs (List.range 4) d s1
  have hi : ∀ i, (s1.inp i) = if i < s.ins.length then (if dieOfInput i = d then { s.inp i with latch := 0, live := 0 } else s.inp i) else s.inp i := by
    intro i
    simp only [s1, State.inp, List.getD_eq_getElem?_getD, List.getElem?_mapIdx]
    cases q : s.ins[i]? with
    | none => simp at q; rw [if_neg (by omega)]; rfl
    | some x => have := (List.getElem?_eq_some_iff.1 q).1; rw [if_pos this]; simp only [Option.map_some, Option.getD_some]
  have ho : ∀ o, (s1.out o) = if o < s.outs.length then (if dieOfBank (bankOfOutput o) = d then (s.out o).afresh else s.out o) else s.out o := by
    intro o
    simp only [s1, State.out, List.getD_eq_getElem?_getD, List.getElem?_mapIdx]
    cases q : s.outs[o]? with
    | none => simp at q; rw [if_neg (by omega)]; rfl
    | some x => have := (List.getElem?_eq_some_iff.1 q).1; rw [if_pos this]; simp only [Option.map_some, Option.getD_some]
  have hl : s.ins.length = 112 ∧ s.outs.length = 64 ∧ s.hdrs.length = 53 := by
    simp only [State.shaped, Bool.and_eq_true, beq_iff_eq] at hs
    exact ⟨hs.1.1.1.1.1.1.1.1.2, hs.1.1.1.1.1.1.2, hs.1.1.1.1.1.1.1.1.1.1.1⟩
  have e2 : s1.hdrs.length = 53 := hl.2.2
  have hb : ∀ b : Fin 8, dieOfBank b = d → ∃ j ∈ List.range 4, fibOf (4 * d + j) = .fib b ∧ fobOf (4 * d + j) = .fob b := by
    intro b hb
    refine ⟨b.val % 4, by simp; omega, ?_⟩
    have : 4 * d + b.val % 4 = b.val := by rw [← hb]; unfold dieOfBank; omega
    rw [this]
    simp [fibOf, fobOf]
  rw [e]
  refine ⟨⟨_, _, _, _, h, rfl⟩, fun i w => ?_, fun o w => ?_, fun b w => ?_, fun b w => ?_⟩
  · show if dieOfInput i = d then (s1.inp i).latch = 0 else s1.inp i = s.inp i
    have w' : i < s.ins.length := by rw [hl.1]; exact w
    by_cases q : dieOfInput i = d
    · rw [if_pos q, hi, if_pos w', if_pos q]
    · rw [if_neg q, hi, if_pos w', if_neg q]
  · show if dieOfBank (bankOfOutput o) = d then (s1.out o).latch = 0 ∧ (s1.out o).hold = false else s1.out o = s.out o
    have w' : o < s.outs.length := by rw [hl.2.1]; exact w
    by_cases q : dieOfBank (bankOfOutput o) = d
    · rw [if_pos q, ho, if_pos w', if_pos q]; exact ⟨rfl, rfl⟩
    · rw [if_neg q, ho, if_pos w', if_neg q]
  · rcases w with w | w
    · obtain ⟨j, hj, h1, h2⟩ := hb b w
      exact (f (.fib b)).1 j hj (.inl h1) (by rw [e2]; exact Page.index_lt _)
    · exact (f (.fib b)).2 w
  · rcases w with w | w
    · obtain ⟨j, hj, h1, h2⟩ := hb b w
      exact (f (.fob b)).1 j hj (.inr h2) (by rw [e2]; exact Page.index_lt _)
    · exact (f (.fob b)).2 w

end Sys2Proof.Machine
end

