-- ==== Sys2Proof/Laws/Frames.lean ====
section
/-! SUPPORT. What a boundary, the exchange and the commit do, each said once. -/

namespace Sys2Proof.Machine

/-- A counter that an operation on other fields has gone before. -/
theorem counter_bump_of {s u : State} (hs : s.shaped = true) (h : u.hdrs = s.hdrs) (p : Page) (off : Nat) (ho : (off - 0x44) / 4 < 15) :
    (u.bump p off).counter p off = satInc (s.counter p off) := by
  rw [← counter_bump hs p off ho]
  unfold State.counter State.hdr State.bump
  rw [updHdr_hdrs, updHdr_hdrs, h]

theorem raw_captured (y cap zero : BitVec 112) : (y &&& ~~~(cap ||| zero)) &&& cap = 0 := by
  ext i hi
  simp only [BitVec.getElem_and, BitVec.getElem_not, BitVec.getElem_or, BitVec.ofNat_eq_ofNat, BitVec.getElem_zero]
  cases y[i] <;> cases cap[i] <;> cases zero[i] <;> rfl

/-- No raw bit is 1 where demand was captured (R194). -/
theorem rawVec_captured (s : State) (h : Half) (cap : BitVec 112) : s.rawVec h cap &&& cap = 0 := by
  unfold State.rawVec
  extract_lets zero y
  rw [BitVec.or_assoc]
  exact raw_captured ..

/-- A boundary of a frame in progress, where SAFE is not left for RUN. -/
theorem boundary_begun {s : State} (hs : s.safeExit = s) (hr : s.frm.running = true) (synced deferred : Bool) : Begun s (s.boundary synced deferred) synced deferred := by
  unfold State.boundary
  rw [hs]
  obtain ⟨a, w0, f0, g0, h1⟩ := frameEnd_form s
  rw [h1]
  extract_lets s1 fr at0 b0 s2 s3 e turn s4 fr2
  have hb : s2.bst = s.bst := if_pos hr
  have h3 : ∃ (a : List Hdr) (c : Pwl), s2.advanceWheel = { s2 with hdrs := a, pwl := c } := by
    unfold State.advanceWheel
    extract_lets w
    split
    · exact ⟨_, _, rfl⟩
    · split
      · exact ⟨_, _, rfl⟩
      · split <;> exact ⟨_, _, rfl⟩
  obtain ⟨a', c, h3⟩ := h3
  have e3 : s3 = s2.advanceWheel.releasePs.sampleCounters.sampleInputs := rfl
  rw [h3] at e3
  have r3 : s3.cope.raw &&& s.trp.capC = 0 ∧ s3.drag.raw &&& s.trp.capD = 0 := by
    rw [e3]; exact ⟨rawVec_captured .., rawVec_captured ..⟩
  have h4 : ∃ f g, s4 = { s3 with cope := f, drag := g } ∧ f.raw = s3.cope.raw ∧ g.raw = s3.drag.raw := by
    refine ⟨_, _, rfl, ?_, ?_⟩
    · show (if s3.dev.dbgSplit then { s3.cope with refetched := [] } else s3.cope.nextFrame s3.entryPc).raw = _
      split <;> rfl
    · show (if s3.dev.dbgSplit then { s3.drag with refetched := [] } else s3.drag.nextFrame s3.entryPc).raw = _
      split <;> rfl
  obtain ⟨f, g, h4, hf, hg⟩ := h4
  have he : e = s3.evaluates := rfl
  rw [← hf, ← hg] at r3
  unfold fr2
  clear_value s4 s3 e
  subst h4 he
  subst e3
  refine ⟨rfl, rfl, rfl, rfl, rfl, rfl, rfl, r3.1, r3.2, rfl, rfl, ?_⟩
  rw [← hb]
  rfl

/-- What the exchange needs of an event: the channels but for their modes, the progress, the frame, the inputs and the crucible stay. -/
theorem quiet_chan {s t : State} (k : Grows s t) : t.cope.held = s.cope.held ∧ t.drag.held = s.drag.held
    ∧ t.prog.quiet = s.prog.quiet ∧ { t.frm with result := 0 } = { s.frm with result := 0 } ∧ t.comps = s.comps ∧ t.crb.mem = s.crb.mem := by
  have := k.rest
  simp only [State.rest, Rest.mk.injEq] at this
  obtain ⟨-, -, -, -, h5, h6, -, -, -, -, -, -, -, -, -, h16, -, -, h19, h20, -, h22, -⟩ := this
  exact ⟨h19, h20, h22, h5, h6, h16⟩

/-- The disagreement of an input only adds latched causes (R128, R129). -/
theorem grows_disagree (s : State) (i : Nat) (hn : s.noChipReset = true) : Grows s (s.disagree i) := by
  unfold State.disagree
  extract_lets high lo s1
  have g1 : Grows s s1 := grows_updInp _ _ _ (fun _ _ h => h)
  split
  · exact Grows.refl _
  · split
    · exact g1.trans (grows_latchIn _ _ _ (g1.chip hn))
    · exact g1

/-- A lane error only adds latched causes (R555, R631, R633). -/
theorem grows_laneError (s : State) (d : Nat) (h : Half) (k : Nat) (hn : s.noChipReset = true) : Grows s (s.laneError d h k) := by
  unfold State.laneError
  split
  · exact Grows.refl _
  · extract_lets s1
    have g : Grows s (s1.bump (barOf d) (if h = .c then 0x44 else 0x48)) := (grows_updBar ..).trans (grows_bump ..)
    exact g.trans (grows_raise _ _ (g.chip hn) (by simp))

/-- A lane error of a die that is not fenced shows LANE_ERR of its page (R633). -/
theorem laneError_shows {s : State} (hs : s.shaped = true) (hn : s.noChipReset = true) (d : Fin 2) (h : Half) (k : Nat) (hf : (s.bar d).fenced = false)
    (hh : s.hears (.bar d) 0 = true) : (s.laneError d h k).shows (.bar d) 0 = true := by
  have e : barOf d.val = .bar d := by simp [barOf]
  unfold State.laneError
  rw [if_neg (by simp [hf]), e]
  extract_lets s1
  have h1 : s1.shaped = true := (keeps_updBar ..).shape hs
  have h2 : (s1.bump (.bar d) (if h = .c then 0x44 else 0x48)).shaped = true := (keeps_bump ..).shape h1
  have g : Grows s (s1.bump (.bar d) (if h = .c then 0x44 else 0x48)) := (grows_updBar ..).trans (grows_bump ..)
  refine raise_shows h2 (g.chip hn) _ ?_ (show 0 < 32 by decide) (by simp) (by simp) (by simp) (by simp)
  rw [hears_bump]
  exact hh

/-- A healthy comparator does not report MATCH for an exercise pair (R140). -/
theorem exercise_mismatch (bit n : Nat) (hb : bit < 64) : exerciseVerdict {} bit n none = false := by
  unfold exerciseVerdict passEntry
  simp only [Option.getD_none]
  generalize (if n = 0 then (0x5555555555555555 : BitVec 64) else 0xAAAAAAAAAAAAAAAA) = p
  have : p ≠ p ^^^ bitMask 64 bit := by
    intro h
    have := congrArg (fun v : BitVec 64 => v.getLsbD bit) h
    simp only [BitVec.getLsbD_xor, bitMask] at this
    simp [hb] at this
  simpa using this

/-- A comparator stuck at MATCH reports MATCH (R173). -/
theorem exercise_stuck (u : Upset) (bit n : Nat) : exerciseVerdict u bit n (some true) = true := rfl

end Sys2Proof.Machine
end

