-- ==== Sys2Proof/Laws/KeepsFaults.lean ====
section
/-! SUPPORT. What the operations of Machine/Faults.lean keep. -/

namespace Sys2Proof.Machine

theorem keeps_doClassificationWindowEnd (p : Page) (s : State) : Keeps s (doClassificationWindowEnd p s) := by
  unfold doClassificationWindowEnd
  split
  · refine Keeps.trans ?_ (keeps_updHdr _ _ _ ?_)
    · exact Keeps.refl _
    · exact fun _ => rfl
  · exact Keeps.refl _

theorem keeps_doShadowEnd (s : State) : Keeps s (doShadowEnd s) := by
  unfold doShadowEnd
  exact Keeps.same rfl rfl rfl

theorem keeps_doLogEntryWrite (s : State) : Keeps s (doLogEntryWrite s) := by
  unfold doLogEntryWrite
  split
  · exact Keeps.refl _
  · split
    · refine Keeps.memory rfl rfl fun h => ?_
      have hw : Mem.wf 0 s.evl.mem = true → Mem.wf 0 s.evl.write.mem = true := fun w => by
        unfold Evl.write
        split
        · exact w
        · next it rest _ =>
          extract_lets e v
          have : Mem.wf 0 e.mem = true := put_wf (e := { s.evl with queue := rest }) w it
          clear_value v
          split
          · exact this
          · exact this
      simp_all [State.memOk]
    · exact Keeps.refl _

end Sys2Proof.Machine
end

