-- ==== Sys2Proof/Laws/KeepsWrites.lean ====
section
/-! SUPPORT. What the operations of Machine/Writes.lean keep. -/

namespace Sys2Proof.Machine

theorem keeps_closeIncident (s : State) (p : Page) : Keeps s (State.closeIncident s p) := by
  unfold State.closeIncident
  refine Keeps.trans ?_ (keeps_updateTrips _)
  split
  · refine Keeps.trans ?_ (keeps_updHdr _ _ _ ?_)
    · exact Keeps.refl _
    · exact fun _ => rfl
  · exact Keeps.refl _

theorem keeps_clearIns (s : State) (b : Nat) (ks : List Nat) (w : Word) : Keeps s (State.clearIns s b ks w) := by
  unfold State.clearIns
  extract_lets x0
  refine Keeps.trans ?_ (Keeps.foldl (fun s1 a2 => ?_) _ _)
  · exact Keeps.refl _
  · exact keeps_updInp ..

theorem keeps_clearOuts (s : State) (b : Nat) (ks : List Nat) (w : Word) : Keeps s (State.clearOuts s b ks w) := by
  unfold State.clearOuts
  extract_lets x0
  refine Keeps.trans ?_ (Keeps.foldl (fun s1 a2 => ?_) _ _)
  · exact Keeps.refl _
  · exact keeps_updOut ..

theorem keeps_clearPs (s : State) (ks : List Nat) (w : Word) : Keeps s (State.clearPs s ks w) := by
  unfold State.clearPs
  extract_lets x0
  refine Keeps.trans ?_ (Keeps.foldl (fun s1 a2 => ?_) _ _)
  · exact Keeps.refl _
  · exact keeps_updPulse ..

theorem keeps_clearOutFlt (s : State) (b : Nat) (ks : List Nat) (w : Word) : Keeps s (State.clearOutFlt s b ks w) := by
  unfold State.clearOutFlt
  exact (keeps_clearOuts ..).trans (keeps_clearOuts ..)

theorem keeps_clearLatch (s : State) (p : Page) (w : Word) : Keeps s (State.clearLatch s p w) := by
  unfold State.clearLatch
  extract_lets x0 live fresh x1
  have hx0 : Keeps s x0 := by
    unfold x0
    split
    · exact keeps_clearIns ..
    · exact keeps_clearOuts ..
    · exact keeps_clearPs ..
    · exact Keeps.refl _
  clear_value live fresh x0
  have hx1 : Keeps s x1 := by
    refine hx0.trans ?_
    exact keeps_updHdr _ _ _ fun _ => rfl
  clear_value x1
  refine Keeps.trans ?_ (keeps_closeIncident _ _)
  split
  · exact hx1.trans (keeps_clearOuts ..)
  · exact hx1

theorem keeps_clearCounters (s : State) (p : Page) : Keeps s (State.clearCounters s p) := by
  unfold State.clearCounters
  refine keeps_updHdr_of _ _ _ fun x h => ?_
  simp only [Hdr.shaped, Bool.and_eq_true] at h ⊢
  exact ⟨by cases p <;> rfl, h.2⟩

theorem keeps_control (s : State) (p : Page) (w : Word) : Keeps s (State.control s p w) := by
  unfold State.control
  split
  · exact keeps_clearCounters ..
  · exact Keeps.refl _

theorem keeps_beginDrain (s : State) (p : Page) (target : BitVec 4) (byAssign : Bool) : Keeps s (State.beginDrain s p target byAssign) := by
  unfold State.beginDrain
  extract_lets x0 x1 x2
  have hx1 : Keeps s x1 := by
    unfold x1
    refine Keeps.trans ?_ (keeps_updHdr _ _ _ ?_)
    · exact Keeps.refl _
    · exact fun _ => rfl
  have hx2 : Keeps s x2 := by
    unfold x2
    refine Keeps.trans ?_ (keeps_updHp _ _ _)
    assumption
  clear_value x2
  clear_value x1
  split
  · refine Keeps.trans ?_ (Keeps.foldl (fun s3 a4 => ?_) _ _)
    · assumption
    · split
      · exact keeps_failJob ..
      · exact Keeps.refl _
  · assumption

theorem keeps_handoverResult (s : State) (p : Page) (r : BitVec 3) : Keeps s (State.handoverResult s p r) := by
  unfold State.handoverResult
  refine Keeps.trans ?_ (keeps_updHdr _ _ _ ?_)
  · exact Keeps.refl _
  · exact fun _ => rfl

theorem keeps_handoverGo (s : State) (p : Page) (target : BitVec 4) : Keeps s (State.handoverGo s p target) := by
  unfold State.handoverGo
  extract_lets x0
  split
  · exact keeps_handoverResult ..
  · split
    · exact keeps_handoverResult ..
    · exact keeps_beginDrain ..

theorem keeps_writeHandover (s : State) (p : Page) (w : Word) : Keeps s (State.writeHandover s p w) := by
  unfold State.writeHandover
  extract_lets x0 x1
  have hx1 : Keeps s x1 := by
    unfold x1
    refine Keeps.trans ?_ (keeps_updHdr _ _ _ ?_)
    · exact Keeps.refl _
    · exact fun _ => rfl
  clear_value x1
  split
  · refine Keeps.trans ?_ (keeps_handoverGo _ _ _)
    assumption
  · assumption

theorem keeps_assignDone (s : State) (r : BitVec 3) : Keeps s (State.assignDone s r) := by
  unfold State.assignDone
  exact Keeps.same rfl rfl rfl

theorem keeps_assignGo (s : State) (page : BitVec 12) (flask : BitVec 4) : Keeps s (State.assignGo s page flask) := by
  unfold State.assignGo
  split
  · exact keeps_assignDone ..
  · split
    · exact keeps_assignDone ..
    · split
      · exact Keeps.refl _
      · split
        · exact keeps_assignDone ..
        · exact keeps_beginDrain ..

theorem keeps_writeAssign (s : State) (w : Word) : Keeps s (State.writeAssign s w) := by
  unfold State.writeAssign
  extract_lets x0 x1 x2 x3
  have hx3 : Keeps s x3 := by
    unfold x3
    exact Keeps.same rfl rfl rfl
  clear_value x3
  split
  · refine Keeps.trans ?_ (keeps_assignGo _ _ _)
    assumption
  · assumption

theorem keeps_writeKeyCtrl (s : State) (w : Word) : Keeps s (State.writeKeyCtrl s w) := by
  unfold State.writeKeyCtrl
  extract_lets x0 x1 x2 x3
  have hx2 : Keeps s x2 := by
    unfold x2
    exact Keeps.same rfl rfl rfl
  clear_value x2
  split
  · assumption
  · split
    · refine Keeps.trans (t := x2) ?_ (Keeps.same rfl rfl rfl)
      assumption
    · refine Keeps.trans (t := x2) ?_ (Keeps.same rfl rfl rfl)
      assumption

theorem keeps_writeKeyData (s : State) (j : Nat) (w : Word) : Keeps s (State.writeKeyData s j w) := by
  unfold State.writeKeyData
  split
  · exact Keeps.refl _
  · extract_lets x0 x1
    exact Keeps.same rfl rfl rfl

theorem keeps_unfencePort (s : State) (n : Nat) : Keeps s (State.unfencePort s n) := by
  unfold State.unfencePort
  split
  · refine Keeps.trans ?_ (keeps_log _ _ _ _ _ _ _)
    exact keeps_updHp ..
  · exact Keeps.refl _

theorem keeps_loadComplete (s : State) (n : Nat) : Keeps s (State.loadComplete s n) := by
  unfold State.loadComplete
  split
  · next h =>
    refine Keeps.trans (t := { s with img := { s.img with source := 3 } }) (Keeps.same rfl rfl rfl) (keeps_beginVerify _ _ ?_)
    intro e
    have e' : s.dev.state = .off := e
    simp [State.windowOpen, e'] at h
  · exact Keeps.refl _

theorem keeps_reloadDecided (s : State) (x : Reload) : Keeps s (s.reloadDecided x) := by
  unfold State.reloadDecided
  extract_lets r
  split
  · exact Keeps.refl _
  · exact Keeps.same rfl rfl rfl

theorem keeps_headerTaken (s : State) (k : Nat) (ecc : List (BitVec 17 × EccErr)) : Keeps s (s.headerTaken k ecc) := by
  unfold State.headerTaken
  split
  · exact keeps_addCounter ..
  · exact (keeps_touchSegment ..).trans (Keeps.foldl (fun s x => (keeps_upsetWord s ..).trans (keeps_spbError ..)) _ _)

theorem keeps_stageRead (s : State) (ecc : List (BitVec 17 × EccErr)) : Keeps s (s.stageRead ecc) := by
  unfold State.stageRead
  split
  · exact Keeps.refl _
  · split
    · exact Keeps.same rfl rfl rfl
    · refine Keeps.trans (t := { s with img := { s.img with asked := none } }) (Keeps.same rfl rfl rfl) ?_
      exact (keeps_headerTaken ..).trans (keeps_reloadDecided ..)

theorem keeps_reload (s : State) (n src bank : Nat) : Keeps s (State.reload s n src bank) := by
  unfold State.reload
  extract_lets x
  split
  · exact Keeps.same rfl rfl rfl
  · exact keeps_reloadDecided ..

theorem keeps_writeLoadCtrl (s : State) (n : Nat) (w : Word) : Keeps s (State.writeLoadCtrl s n w) := by
  unfold State.writeLoadCtrl
  extract_lets x0 x1 x2
  have hx1 : Keeps s x1 := by
    unfold x1
    exact Keeps.same rfl rfl rfl
  have hx2 : Keeps s x2 := by
    unfold x2
    split
    · refine Keeps.trans ?_ (keeps_loadComplete _ _)
      assumption
    · assumption
  clear_value x2
  clear_value x1
  split
  · refine Keeps.trans ?_ (keeps_reload _ _ _ _)
    assumption
  · assumption

theorem keeps_ctxIgnored (s : State) : Keeps s (State.ctxIgnored s) := by
  unfold State.ctxIgnored
  exact keeps_bump ..

theorem keeps_writeCtx (s : State) (c off : Nat) (w : Word) : Keeps s (State.writeCtx s c off w) := by
  unfold State.writeCtx
  extract_lets x0
  split
  · exact Keeps.refl _
  · split
    · split
      · split
        · exact Keeps.refl _
        · exact keeps_ctxIgnored ..
      · exact keeps_ctxControl ..
    · split
      · split
        · exact keeps_ctxIgnored ..
        · exact keeps_updCtx ..
      · exact Keeps.refl _

theorem keeps_feedCtx (s : State) (c port stream : Nat) (w : Word) : Keeps s (State.feedCtx s c port stream w) := by
  unfold State.feedCtx
  extract_lets x0 x1 x2 x3
  have hx2 : Keeps s x2 := by
    unfold x2
    exact keeps_updCtx ..
  have hx3 : Keeps s x3.2 := by
    unfold x3
    refine Keeps.trans ?_ (keeps_freeWord _)
    assumption
  clear_value x3
  clear_value x2
  split
  · exact Keeps.refl _
  · split
    · exact keeps_ctxIgnored ..
    · split
      · refine Keeps.trans ?_ (keeps_updCtx _ _ _)
        assumption
      · assumption

theorem keeps_writeDebug (s : State) (h : Half) (off : Nat) (w : Word) : Keeps s (State.writeDebug s h off w) := by
  unfold State.writeDebug
  split
  · exact Keeps.refl _
  · split
    · extract_lets x0 x1 x2
      have hx0 : Keeps s x0 := by
        unfold x0
        refine Keeps.trans ?_ (keeps_updChan _ _ _ ?_)
        · exact Keeps.refl _
        · exact fun _ => ⟨rfl, rfl, rfl⟩
      have hx1 : Keeps s x1 := by
        unfold x1
        split
        · refine Keeps.trans ?_ (keeps_resumeChannel _ _)
          assumption
        · assumption
      have hx2 : Keeps s x2 := by
        unfold x2
        split
        · refine Keeps.trans ?_ (keeps_stepChannel _ _)
          assumption
        · assumption
      clear_value x2
      clear_value x1
      clear_value x0
      split
      · refine Keeps.trans ?_ (keeps_haltChannel _ _)
        assumption
      · assumption
    · refine Keeps.trans ?_ (keeps_updChan _ _ _ ?_)
      · exact Keeps.refl _
      · exact fun _ => ⟨rfl, rfl, rfl⟩
    · refine Keeps.trans ?_ (keeps_updChan _ _ _ ?_)
      · exact Keeps.refl _
      · exact fun _ => ⟨rfl, rfl, rfl⟩
    · refine Keeps.trans ?_ (keeps_updChan _ _ _ ?_)
      · exact Keeps.refl _
      · exact fun _ => ⟨rfl, rfl, rfl⟩
    · exact Keeps.refl _

theorem keeps_writeChan (s : State) (h : Half) (off : Nat) (w : Word) : Keeps s (State.writeChan s h off w) := by
  unfold State.writeChan
  split
  · exact keeps_control ..
  · exact keeps_writeDebug ..

theorem keeps_writeHeader (s : State) (p : Page) (off : Nat) (w : Word) : Keeps s (State.writeHeader s p off w) := by
  unfold State.writeHeader
  split
  · exact keeps_writeHandover ..
  · refine Keeps.trans ?_ (keeps_updHdr _ _ _ ?_)
    · exact Keeps.refl _
    · exact fun _ => rfl
  · exact keeps_clearLatch ..
  · refine Keeps.trans ?_ (keeps_updHdr _ _ _ ?_)
    · exact Keeps.refl _
    · exact fun _ => rfl
  · refine Keeps.trans ?_ (keeps_updHdr _ _ _ ?_)
    · exact Keeps.refl _
    · exact fun _ => rfl
  · refine Keeps.trans ?_ (keeps_updHdr _ _ _ ?_)
    · exact Keeps.refl _
    · exact fun _ => rfl
  · refine Keeps.trans ?_ (keeps_updHdr _ _ _ ?_)
    · exact Keeps.refl _
    · exact fun _ => rfl
  · refine Keeps.trans ?_ (keeps_updHdr _ _ _ ?_)
    · exact Keeps.refl _
    · exact fun _ => rfl
  · exact Keeps.refl _

theorem keeps_writeHp (s : State) (n off : Nat) (w : Word) : Keeps s (State.writeHp s n off w) := by
  unfold State.writeHp
  split
  · exact keeps_control ..
  · exact keeps_updHp ..
  · exact keeps_updHp ..
  · exact keeps_updHp ..
  · exact keeps_updHp ..
  · exact keeps_updHp ..
  · exact Keeps.refl _

theorem keeps_writeOwn (s : State) (off : Nat) (w : Word) : Keeps s (State.writeOwn s off w) := by
  unfold State.writeOwn
  split
  · exact keeps_control ..
  · refine Keeps.trans ?_ (Keeps.foldl (fun s0 a1 => ?_) _ _)
    · exact Keeps.refl _
    · split
      · exact keeps_unfencePort ..
      · exact Keeps.refl _
  · exact keeps_writeAssign ..
  · exact keeps_writeKeyCtrl ..
  · split
    · exact keeps_writeKeyData ..
    · exact Keeps.refl _

theorem keeps_writeChk (s : State) (port stream off : Nat) (w : Word) : Keeps s (State.writeChk s port stream off w) := by
  unfold State.writeChk
  split
  · extract_lets x0
    have hx0 : Keeps s x0 := by
      unfold x0
      exact keeps_control ..
    clear_value x0
    refine Keeps.trans ?_ (Keeps.foldl (fun s1 a2 => ?_) _ _)
    · assumption
    · split
      · exact keeps_unfenceCtx ..
      · exact Keeps.refl _
  · split
    · exact keeps_writeCtx ..
    · split
      · exact keeps_feedCtx ..
      · exact Keeps.refl _

theorem keeps_writeFrm (s : State) (off : Nat) (w : Word) : Keeps s (State.writeFrm s off w) := by
  unfold State.writeFrm
  split
  · exact Keeps.same rfl rfl rfl
  · exact Keeps.same rfl rfl rfl
  · exact keeps_control ..
  · exact Keeps.refl _

theorem keeps_writeClk (s : State) (off : Nat) (w : Word) : Keeps s (State.writeClk s off w) := by
  unfold State.writeClk
  split
  · exact keeps_control ..
  · exact Keeps.same rfl rfl rfl
  · exact Keeps.refl _

theorem keeps_writeSup (s : State) (off : Nat) (w : Word) : Keeps s (State.writeSup s off w) := by
  unfold State.writeSup
  split
  · exact keeps_control ..
  · exact Keeps.same rfl rfl rfl
  · exact Keeps.same rfl rfl rfl
  · exact Keeps.refl _

theorem keeps_writeDev (s : State) (off : Nat) (w : Word) : Keeps s (State.writeDev s off w) := by
  unfold State.writeDev
  split
  · exact Keeps.same rfl rfl rfl
  · exact Keeps.same rfl rfl rfl
  · exact Keeps.refl _

theorem keeps_writeBst (s : State) (off : Nat) (w : Word) : Keeps s (State.writeBst s off w) := by
  unfold State.writeBst
  split
  · exact keeps_control ..
  · exact Keeps.same rfl rfl rfl
  · exact Keeps.same rfl rfl rfl
  · exact Keeps.same rfl rfl rfl
  · exact Keeps.refl _

theorem keeps_writeSpb (s : State) (k off : Nat) (w : Word) : Keeps s (State.writeSpb s k off w) := by
  unfold State.writeSpb
  split
  · exact keeps_control ..
  · exact keeps_requestPower ..
  · exact Keeps.refl _

theorem keeps_writeSpc (s : State) (off : Nat) (w : Word) : Keeps s (State.writeSpc s off w) := by
  unfold State.writeSpc
  split
  · exact keeps_control ..
  · refine Keeps.trans ?_ (Keeps.foldl (fun s0 a1 => ?_) _ _)
    · exact Keeps.refl _
    · split
      · exact keeps_unfenceSpb ..
      · exact Keeps.refl _
  · exact Keeps.refl _

theorem keeps_writeFib (s : State) (b off : Nat) (w : Word) : Keeps s (State.writeFib s b off w) := by
  unfold State.writeFib
  split
  · exact keeps_control ..
  · split
    · refine Keeps.trans ?_ (keeps_closeIncident _ _)
      exact keeps_clearIns ..
    · exact Keeps.refl _

theorem keeps_writeFob (s : State) (b off : Nat) (w : Word) : Keeps s (State.writeFob s b off w) := by
  unfold State.writeFob
  split
  · extract_lets x0
    have hx0 : Keeps s x0 := by
      unfold x0
      exact keeps_control ..
    clear_value x0
    split
    · refine Keeps.trans ?_ (keeps_updOutBank _ _ _)
      assumption
    · assumption
  · split
    · refine Keeps.trans ?_ (keeps_closeIncident _ _)
      exact keeps_clearOutFlt ..
    · exact Keeps.refl _

theorem keeps_writePwl (s : State) (off : Nat) (w : Word) : Keeps s (State.writePwl s off w) := by
  unfold State.writePwl
  split
  · exact keeps_control ..
  · split
    · refine Keeps.trans ?_ (keeps_closeIncident _ _)
      exact keeps_clearPs ..
    · exact Keeps.refl _

theorem keeps_writeReg (s : State) (port stream : Nat) (p : Page) (off : Nat) (w : Word) : Keeps s (State.writeReg s port stream p off w) := by
  unfold State.writeReg
  split
  · exact keeps_writeHeader ..
  · split
    · exact keeps_writeDev ..
    · exact keeps_writeClk ..
    · exact keeps_writeSup ..
    · exact keeps_writeFrm ..
    · exact keeps_writeHp ..
    · exact keeps_writeOwn ..
    · exact keeps_writeChan ..
    · exact keeps_writeChan ..
    · split
      · exact keeps_writeLoadCtrl ..
      · exact Keeps.refl _
    · exact keeps_writeSpb ..
    · exact keeps_writeSpc ..
    · exact keeps_writeChk ..
    · exact keeps_writeBst ..
    · exact keeps_writeFib ..
    · exact keeps_writeFob ..
    · exact keeps_writePwl ..
    · split
      · exact keeps_control ..
      · exact Keeps.refl _

theorem keeps_writeWord (s : State) (port stream pn off : Nat) (w : Word) : Keeps s (State.writeWord s port stream pn off w) := by
  unfold State.writeWord
  extract_lets a k o
  split
  · exact (keeps_touchSegment ..).trans (keeps_updSpb _ _ _ fun b hb => Mem.wf_writeW hb _ _)
  · split
    · refine Keeps.memory rfl rfl fun h => ?_
      simp only [State.memOk, Bool.and_eq_true] at h ⊢
      obtain ⟨⟨⟨⟨⟨⟨⟨h6, h7⟩, h8⟩, h9⟩, h10⟩, h11⟩, h12⟩, h13⟩ := h
      exact ⟨⟨⟨⟨⟨⟨⟨h6, Mem.wf_writeW h7 _ _⟩, h8⟩, h9⟩, h10⟩, h11⟩, h12⟩, h13⟩
    · split
      · split
        · exact keeps_writeReg ..
        · exact Keeps.refl _
      · exact Keeps.refl _

end Sys2Proof.Machine
end

