-- ==== Sys2Proof/Laws/KeepsJtag.lean ====
section
/-! SUPPORT. What the operations of Machine/Jtag.lean keep. -/

namespace Sys2Proof.Machine

theorem keeps_jtagInstr (s : State) (ir : Byte) (f : Jtag → Jtag) : Keeps s (State.jtagInstr s ir f) := by
  unfold State.jtagInstr
  split
  · exact Keeps.refl _
  · exact Keeps.same rfl rfl rfl

theorem keeps_doExtest (lands shifted : BitVec 101) (s : State) : Keeps s (doExtest lands shifted s) := by
  unfold doExtest
  exact keeps_jtagInstr ..

theorem keeps_doSamplePreload (lands shifted : BitVec 101) (s : State) : Keeps s (doSamplePreload lands shifted s) := by
  unfold doSamplePreload
  exact keeps_jtagInstr ..

theorem keeps_doIdcode (s : State) : Keeps s (doIdcode s) := by
  unfold doIdcode
  exact keeps_jtagInstr ..

theorem keeps_doClamp (lands : BitVec 101) (s : State) : Keeps s (doClamp lands s) := by
  unfold doClamp
  exact keeps_jtagInstr ..

theorem keeps_doHighz (lands shifted : BitVec 101) (s : State) : Keeps s (doHighz lands shifted s) := by
  unfold doHighz
  exact keeps_jtagInstr ..

theorem keeps_doDbgAccess (h : Half) (off : BitVec 12) (data : Option Word) (s : State) : Keeps s (doDbgAccess h off data s) := by
  unfold doDbgAccess
  extract_lets x0 x1
  have hx0 : Keeps s x0 := by
    unfold x0
    exact keeps_jtagInstr ..
  clear_value x0
  split
  · split
    · refine Keeps.trans ?_ (keeps_writeDebug _ _ _ _)
      assumption
    · refine Keeps.trans (t := x0) ?_ (Keeps.same rfl rfl rfl)
      assumption
  · assumption

theorem keeps_enableScan (s : State) (secretOk : Bool) : Keeps s (State.enableScan s secretOk) := by
  unfold State.enableScan
  split
  · exact Keeps.same rfl rfl rfl
  · extract_lets x0 x1
    have hx0 : Keeps s x0 := by
      unfold x0
      exact keeps_clearSecrets ..
    clear_value x0
    split
    · refine Keeps.trans (t := x0) ?_ (Keeps.same rfl rfl rfl)
      assumption
    · refine Keeps.trans ?_ (keeps_raise _ _)
      assumption

theorem keeps_doScanEn (secretOk : Bool) (s : State) : Keeps s (doScanEn secretOk s) := by
  unfold doScanEn
  extract_lets x0
  have hx0 : Keeps s x0 := by
    unfold x0
    exact keeps_jtagInstr ..
  clear_value x0
  split
  · refine Keeps.trans ?_ (keeps_enableScan _ _)
    assumption
  · assumption

theorem keeps_doBypass (s : State) : Keeps s (doBypass s) := by
  unfold doBypass
  exact keeps_jtagInstr ..

end Sys2Proof.Machine
end

