-- ==== Sys2Proof/Laws/KeepsPorts.lean ====
section
/-! SUPPORT. What the operations of Machine/Ports.lean keep. -/

namespace Sys2Proof.Machine

theorem keeps_ackWith (s : State) (n code : Nat) : Keeps s (State.ackWith s n code) := by
  unfold State.ackWith
  extract_lets x0 x1
  exact keeps_updHp ..

theorem keeps_nak (s : State) (c : CellHead) (code : Nat) : Keeps s (State.nak s c code) := by
  unfold State.nak
  extract_lets x0 x1 x2
  have hx1 : Keeps s x1 := by
    unfold x1
    refine Keeps.trans ?_ (keeps_updHp _ _ _)
    exact keeps_bump ..
  have hx2 : Keeps s x2 := by
    unfold x2
    refine Keeps.trans ?_ (keeps_ackWith _ _ _)
    assumption
  clear_value x2
  clear_value x1
  split
  · refine Keeps.trans ?_ (keeps_raise _ _)
    assumption
  · assumption

theorem keeps_accept (s : State) (op : Nat) (c : CellHead) : Keeps s (State.accept s op c) := by
  unfold State.accept
  extract_lets x0
  refine Keeps.trans ?_ (keeps_updHp _ _ _)
  exact keeps_bump ..

theorem keeps_checkTag (s : State) (op : Nat) (c : CellHead) (payload : List Word) : Keeps s (State.checkTag s op c payload) := by
  unfold State.checkTag
  split
  · exact keeps_updHp ..
  · exact Keeps.refl _

theorem keeps_receive (s : State) (op : Nat) (c : CellHead) (payload : List Word) (serve : State → Bool → State)
    (hs : ∀ t ok, Keeps t (serve t ok)) : Keeps s (s.receive op c payload serve) := by
  unfold State.receive
  split
  · exact Keeps.refl _
  · extract_lets code s1
    split
    · exact keeps_nak ..
    · exact (keeps_accept ..).trans ((keeps_checkTag ..).trans (hs _ _))

theorem keeps_serveFetch (s : State) (c : CellHead) : Keeps s (State.serveFetch s c) := by
  unfold State.serveFetch
  extract_lets x0 x1
  refine Keeps.trans ?_ (keeps_updHp _ _ _)
  exact keeps_ackWith ..

theorem keeps_answer (s : State) (n : Nat) (t : Txn) (status : Byte) (words : List Word) : Keeps s (State.answer s n t status words) := by
  unfold State.answer
  exact keeps_updHp ..

theorem keeps_violation (s : State) (n : Nat) : Keeps s (State.violation s n) := by
  unfold State.violation
  refine Keeps.trans ?_ (keeps_raise _ _)
  refine Keeps.trans ?_ (keeps_bump _ _ _)
  exact keeps_bump ..

theorem keeps_refuse (s : State) (n : Nat) (t : Txn) (r : Refused) : Keeps s (State.refuse s n t r) := by
  unfold State.refuse
  extract_lets x0 x1
  have hx0 : Keeps s x0 := by
    unfold x0
    exact keeps_answer ..
  have hx1 : Keeps s x1 := by
    unfold x1
    split
    · refine Keeps.trans ?_ (keeps_updHp _ _ _)
      assumption
    · assumption
  clear_value x1
  clear_value x0
  split
  · refine Keeps.trans ?_ (keeps_violation _ _)
    assumption
  · assumption

theorem keeps_collided (s : State) (n : Nat) (lost : Bool) : Keeps s (s.collided n lost) := by
  unfold State.collided
  split
  · exact keeps_bump ..
  · exact Keeps.refl _

theorem keeps_tied (s : State) (n k : Nat) (t : Txn) (x : Tie) : Keeps s (State.tied s n k t x) := by
  unfold State.tied
  extract_lets s1 s2 s3 c
  have h1 : Keeps s s1 := (keeps_mark ..).trans (keeps_updHp ..)
  have h2 : Keeps s1 s2 := (keeps_bump ..).trans ((keeps_bump ..).trans (keeps_bump ..))
  have h3 : Keeps s2 s3 := keeps_updSpb _ _ _ fun _ h => h
  have h := h1.trans (h2.trans h3)
  clear_value s3 s2 s1
  split
  · exact h.trans (keeps_updCtx ..)
  · exact h

theorem keeps_tiedAll (s : State) (n pn : Nat) (t : Txn) (ties : List Tie) : Keeps s (s.tiedAll n pn t ties) := by
  unfold State.tiedAll
  split
  · exact (Keeps.foldl (fun _ _ => keeps_tied ..) _ _).trans (keeps_collided ..)
  · exact Keeps.refl _

theorem keeps_eccMet (s : State) (n pn : Nat) (ecc : List (Nat × EccErr)) : Keeps s (s.eccMet n pn ecc) := by
  unfold State.eccMet
  split
  · exact Keeps.foldl (fun _ _ => keeps_spbError ..) _ _
  · exact Keeps.foldl (fun _ _ => keeps_crucibleError ..) _ _

theorem keeps_spoil (s : State) (bad : Nat → Bool) (offs : List Nat) (ws : List Word) : Keeps s (State.spoil s bad offs ws).2 := by
  unfold State.spoil
  dsimp only
  exact Keeps.same rfl rfl rfl

theorem keeps_touchAll (s : State) (pn : Nat) (t : Txn) : Keeps s (State.touchAll s pn t) := by
  unfold State.touchAll
  split
  · refine Keeps.trans ?_ (Keeps.foldl (fun s0 a1 => ?_) _ _)
    · exact Keeps.refl _
    · exact keeps_touchSegment ..
  · exact Keeps.refl _

theorem keeps_readCell (s : State) (port pn off n : Nat) : Keeps s (s.readCell port pn off n).2 := by
  unfold State.readCell
  extract_lets offs words t a b c d e
  split
  · exact Keeps.same rfl rfl rfl
  · exact Keeps.same rfl rfl rfl

theorem keeps_readTakes (s : State) (n : Nat) (t : Txn) (ties : List Tie) (ecc : List (BitVec 17 × EccErr)) :
    Keeps s (State.readTakes s n t ties ecc) := by
  unfold State.readTakes
  extract_lets pn ties' ecc' s1 s2 r r' s3
  have h1 : Keeps s s1 := keeps_touchAll ..
  have h2 : Keeps s1 s2 := by
    unfold s2
    split
    · exact Keeps.foldl (fun _ _ => keeps_upsetWord ..) _ _
    · exact Keeps.refl _
  have h3 : Keeps s2 r.2 := keeps_readCell ..
  have h4 : Keeps r.2 r'.2 := by
    unfold r'
    split
    · exact keeps_spoil ..
    · exact Keeps.refl _
  have h5 : Keeps r'.2 s3 := keeps_answer ..
  exact (h1.trans (h2.trans (h3.trans (h4.trans h5)))).trans ((keeps_tiedAll ..).trans (keeps_eccMet ..))

theorem keeps_writeTakes (s : State) (n : Nat) (t : Txn) (ties : List Tie) (ecc : List (BitVec 17 × EccErr)) :
    Keeps s (State.writeTakes s n t ties ecc) := by
  unfold State.writeTakes
  extract_lets pn ties' s1 s2 s3 s4
  have h1 : Keeps s s1 := keeps_answer ..
  have h2 : Keeps s1 s2 := keeps_touchAll ..
  have h3 : Keeps s2 s3 := Keeps.foldl (fun _ _ => keeps_writeWord ..) _ _
  have h4 : Keeps s3 s4 := (keeps_tiedAll ..).trans ((keeps_eccMet ..).trans (keeps_stageRead ..))
  have h := h1.trans (h2.trans (h3.trans h4))
  clear_value s4
  split
  · exact h.trans (keeps_resetPort ..)
  · exact h

theorem keeps_holdTxn (s : State) (n : Nat) (t : Txn) : Keeps s (State.holdTxn s n t) := by
  unfold State.holdTxn
  exact keeps_updHp ..

theorem keeps_access (s : State) (n : Nat) (t : Txn) (ties : List Tie) (ecc : List (BitVec 17 × EccErr)) : Keeps s (State.access s n t ties ecc) := by
  unfold State.access
  split
  · exact keeps_refuse ..
  · split
    · exact keeps_answer ..
    · split
      · exact keeps_updHp ..
      · split
        · exact keeps_readTakes ..
        · exact keeps_writeTakes ..

theorem keeps_challengeTakes (s : State) (n : Nat) (t : Txn) : Keeps s (State.challengeTakes s n t) := by
  unfold State.challengeTakes
  extract_lets x0 x1
  have hx1 : Keeps s x1 := by
    unfold x1
    exact Keeps.same rfl rfl rfl
  clear_value x1
  refine Keeps.trans ?_ (keeps_answer _ _ _ _ _)
  refine Keeps.trans ?_ (keeps_updHp _ _ _)
  assumption

theorem keeps_authTakes (s : State) (n : Nat) (t : Txn) : Keeps s (State.authTakes s n t) := by
  unfold State.authTakes
  split
  · extract_lets x0
    refine Keeps.trans ?_ (keeps_answer _ _ _ _ _)
    refine Keeps.trans ?_ (keeps_bump _ _ _)
    exact keeps_updHp ..
  · refine Keeps.trans ?_ (keeps_raise _ _)
    refine Keeps.trans ?_ (keeps_answer _ _ _ _ _)
    refine Keeps.trans ?_ (keeps_bump _ _ _)
    exact keeps_updHp ..

theorem keeps_closeTakes (s : State) (n : Nat) (t : Txn) : Keeps s (State.closeTakes s n t) := by
  unfold State.closeTakes
  refine Keeps.trans ?_ (keeps_answer _ _ _ _ _)
  exact keeps_updHp ..

theorem keeps_shutdownTakes (s : State) (n : Nat) (t : Txn) (secretOk : Bool) : Keeps s (State.shutdownTakes s n t secretOk) := by
  unfold State.shutdownTakes
  split
  · exact Keeps.refl _
  · next h =>
    exact (keeps_answer ..).trans (keeps_enterShakeout _ _ _ _ fun e => by
      have e' : s.dev.state = .off := e
      simp [e'] at h)

theorem keeps_takeTxn (s : State) (n : Nat) (t : Txn) (ties : List Tie) (ecc : List (BitVec 17 × EccErr)) (secretOk : Bool) : Keeps s (State.takeTxn s n t ties ecc secretOk) := by
  unfold State.takeTxn
  split
  · exact keeps_access ..
  · split
    · exact keeps_refuse ..
    · split
      · exact keeps_challengeTakes ..
      · exact keeps_authTakes ..
      · exact keeps_closeTakes ..
      · exact keeps_shutdownTakes ..

theorem keeps_issue (s : State) (op : Nat) (c : CellHead) (payload : List Word) (ok : Bool) : Keeps s (State.issue s op c payload ok) := by
  unfold State.issue
  refine Keeps.trans ?_ (keeps_ackWith _ _ _)
  exact keeps_updHp ..

theorem keeps_issueNow (s : State) (op : Nat) (c : CellHead) (payload : List Word) (secretOk ok : Bool) : Keeps s (State.issueNow s op c payload secretOk ok) := by
  unfold State.issueNow
  extract_lets x0 x1
  have hx1 : Keeps s x1 := by
    unfold x1
    exact keeps_issue ..
  clear_value x1
  split
  · split
    · refine Keeps.trans ?_ (keeps_takeTxn _ _ _ _ _ _)
      assumption
    · assumption
  · assumption

theorem keeps_doCellAborted (n : Fin 4) (s : State) : Keeps s (doCellAborted n s) := by
  unfold doCellAborted
  split
  · refine Keeps.trans ?_ (keeps_raise _ _)
    exact keeps_updHp ..
  · exact Keeps.refl _

theorem keeps_doNop (cell : CellHead) (s : State) : Keeps s (doNop cell s) := by
  unfold doNop
  refine keeps_receive _ _ _ _ _ ?_
  intro t ok
  exact keeps_ackWith ..

theorem keeps_doRead (cell : CellHead) (s : State) : Keeps s (doRead cell s) := by
  unfold doRead
  refine keeps_receive _ _ _ _ _ ?_
  intro t ok
  exact keeps_issue ..

theorem keeps_doWrite (cell : CellHead) (payload : List Word) (s : State) : Keeps s (doWrite cell payload s) := by
  unfold doWrite
  refine keeps_receive _ _ _ _ _ ?_
  intro t ok
  exact keeps_issue ..

theorem keeps_doFetch (cell : CellHead) (s : State) : Keeps s (doFetch cell s) := by
  unfold doFetch
  refine keeps_receive _ _ _ _ _ ?_
  intro t ok
  exact keeps_serveFetch ..

theorem keeps_doChallenge (cell : CellHead) (s : State) : Keeps s (doChallenge cell s) := by
  unfold doChallenge
  refine keeps_receive _ _ _ _ _ ?_
  intro t ok
  exact keeps_issueNow ..

theorem keeps_doAuth (cell : CellHead) (payload : List Word) (s : State) : Keeps s (doAuth cell payload s) := by
  unfold doAuth
  refine keeps_receive _ _ _ _ _ ?_
  intro t ok
  exact keeps_issueNow ..

theorem keeps_doClose (cell : CellHead) (s : State) : Keeps s (doClose cell s) := by
  unfold doClose
  refine keeps_receive _ _ _ _ _ ?_
  intro t ok
  exact keeps_issueNow ..

theorem keeps_doShutdown (cell : CellHead) (secretOk : Bool) (s : State) : Keeps s (doShutdown cell secretOk s) := by
  unfold doShutdown
  refine keeps_receive _ _ _ _ _ ?_
  intro t ok
  exact keeps_issueNow ..

theorem keeps_doUnusedOp (op : Fin 8) (cell : CellHead) (s : State) : Keeps s (doUnusedOp op cell s) := by
  unfold doUnusedOp
  refine keeps_receive _ _ _ _ _ ?_
  intro t ok
  exact Keeps.refl _

theorem keeps_doTakeEffect (port stream : Fin 4) (ties : List Tie) (ecc : List (BitVec 17 × EccErr)) (secretOk : Bool) (s : State) : Keeps s (doTakeEffect port stream ties ecc secretOk s) := by
  unfold doTakeEffect
  split
  · exact Keeps.refl _
  · split
    · exact keeps_takeTxn ..
    · exact Keeps.refl _

theorem keeps_doTokenRefill (n : Fin 4) (s : State) : Keeps s (doTokenRefill n s) := by
  unfold doTokenRefill
  split
  · exact Keeps.refl _
  · exact keeps_updHp ..

theorem keeps_doBlockResetEnd (n : Fin 4) (s : State) : Keeps s (doBlockResetEnd n s) := by
  unfold doBlockResetEnd
  split
  · refine Keeps.trans ?_ (keeps_updHp _ _ _)
    exact keeps_mark ..
  · exact Keeps.refl _

theorem keeps_doBusyNPulseEnd (n : Fin 4) (s : State) : Keeps s (doBusyNPulseEnd n s) := by
  unfold doBusyNPulseEnd
  exact keeps_updHp ..

theorem keeps_doHandoverDrainDone (p : Page) (s : State) : Keeps s (doHandoverDrainDone p s) := by
  unfold doHandoverDrainDone
  split
  · extract_lets x0
    have hx0 : Keeps s x0 := by
      unfold x0
      refine Keeps.trans ?_ (keeps_updHdr _ _ _ ?_)
      · exact Keeps.refl _
      · exact fun _ => rfl
    clear_value x0
    split
    · refine Keeps.trans ?_ (keeps_assignDone _ _)
      assumption
    · assumption
  · exact Keeps.refl _

/-- The one command that sets a key (R484) keeps the rest. -/
theorem kept_doKeyProgramDone (ok : Bool) (s : State) : Kept s (doKeyProgramDone ok s) ∧
    (s.dev.state = .off → (doKeyProgramDone ok s).dev.state = .off) ∧ (doKeyProgramDone ok s).dev.straps = s.dev.straps := by
  unfold doKeyProgramDone
  split
  · exact ⟨(Keeps.refl s).kept, id, rfl⟩
  · extract_lets key o s1
    have h1 : Kept s s1 := ⟨rfl, rfl, rfl, rfl, id, id, id⟩
    have h2 : s1.dev.state = s.dev.state := rfl
    have h3 : s1.dev.straps = s.dev.straps := rfl
    clear_value s1
    split
    · exact ⟨h1, fun e => h2.trans e, h3⟩
    · have k := keeps_raise s1 { page := .own, cause := 0 }
      exact ⟨h1.trans k.kept, fun e => k.off (h2.trans e), k.straps.trans h3⟩

end Sys2Proof.Machine
end

