-- ==== Sys2Proof/Laws/KeepsTick.lean ====
section
/-! SUPPORT. What the operations of Machine/Tick.lean keep. -/

namespace Sys2Proof.Machine

theorem keeps_streamed (s : State) : Keeps s s.streamed := by
  unfold State.streamed
  split
  · exact Keeps.same rfl rfl rfl
  · exact Keeps.refl _

theorem keeps_loaderStep (s : State) : Keeps s (State.loaderStep s) := by
  unfold State.loaderStep
  split
  · split
    · exact keeps_headersRead _
    · exact Keeps.refl _
  · split
    · exact keeps_streamed _
    · exact Keeps.refl _
  · exact Keeps.refl _

theorem keeps_waited (s : State) (waits : List (Fin 8)) : Keeps s (s.waited waits) := by
  unfold State.waited
  extract_lets s1 s2 s3
  have h1 : Keeps s s1 := Keeps.foldl (fun s n => by split; exacts [keeps_addCounter .., Keeps.refl _]) _ _
  have h2 : Keeps s1 s2 := by
    unfold s2
    split
    · exact keeps_addCounter ..
    · exact Keeps.refl _
  have h3 : Keeps s2 s3 := by
    unfold s3
    split
    · exact keeps_addCounter ..
    · exact Keeps.refl _
  exact h1.trans (h2.trans (h3.trans (Keeps.foldl (fun _ _ => keeps_bump ..) _ _)))

theorem keeps_lateEntries (s : State) : Keeps s (State.lateEntries s) := by
  unfold State.lateEntries
  split
  · exact Keeps.same rfl rfl rfl
  · exact Keeps.refl _

theorem keeps_cycleEnd (s : State) (waits : List (Fin 8)) : Keeps s (s.cycleEnd waits) := by
  unfold State.cycleEnd
  refine Keeps.trans ?_ (keeps_lateEntries _)
  refine Keeps.trans ?_ (keeps_waited _ _)
  refine (keeps_stageRead s []).trans ?_
  generalize s.stageRead [] = t
  split
  · exact keeps_reloadDue ..
  · exact keeps_loaderStep ..

theorem keeps_seePins (s : State) (pins : Option Straps) : Keeps s (s.seePins pins) := by
  unfold State.seePins
  split
  · exact Keeps.same rfl rfl rfl
  · exact Keeps.refl _

theorem keeps_measure (s : State) : Keeps s (State.measure s) := by
  unfold State.measure
  split
  · extract_lets x0 x1 x2 x3 x4 x5
    have hx0 : Keeps s x0.2 := by
      unfold x0
      exact keeps_freeWord ..
    have hx1 : Keeps s x1.2 := by
      unfold x1
      refine Keeps.trans ?_ (keeps_freeWord _)
      assumption
    have hx2 : Keeps s x2.2 := by
      unfold x2
      refine Keeps.trans ?_ (keeps_freeWord _)
      assumption
    have hx3 : Keeps s x3 := by
      assumption
    have hx5 : Keeps s x5 := by
      unfold x5
      refine Keeps.trans (t := x3) ?_ (Keeps.same rfl rfl rfl)
      assumption
    clear_value x5
    clear_value x3
    clear_value x2
    clear_value x1
    clear_value x0
    refine Keeps.trans ?_ (Keeps.foldl (fun s6 a7 => ?_) _ _)
    · assumption
    · split
      · extract_lets x8
        have hx8 : Keeps s6 x8.2 := by
          unfold x8
          exact keeps_freeWord ..
        clear_value x8
        refine Keeps.trans ?_ (keeps_updBar _ _ _)
        assumption
      · exact Keeps.refl _
  · exact Keeps.refl _

theorem keeps_doTimebaseTick (upset : Time) (pins : Option Straps) (waits : List (Fin 8)) (s : State) :
    Keeps s (doTimebaseTick upset pins waits s) := by
  unfold doTimebaseTick
  split
  · exact Keeps.refl _
  · extract_lets s1 was f1 s2
    have h1 : Keeps s s1 := (keeps_cycleEnd s waits).trans (keeps_seePins ..)
    clear_value s1
    have h2 : Keeps s s2 := h1.trans (Keeps.trans (t := { s1 with frm := { s1.frm with tb := s1.frm.tb + 1, tbD := (s1.frm.tbD + 1) ^^^ upset } }) (Keeps.same rfl rfl rfl) (keeps_measure _))
    clear_value s2
    split
    · split
      · exact h2
      · exact h2.trans (keeps_onset ..)
    · split
      · exact h2.trans (keeps_setLive ..)
      · exact h2

end Sys2Proof.Machine
end

