-- ==== Sys2Proof/Tests/Slice0.lean ====
section
/-! SUPPORT. The model's own tests: ill-formed commands, worked examples of the spec, and for every statement with hypotheses a state and
operands that meet them, clause by clause. -/

set_option Elab.async false

namespace Sys2Proof.Tests
open Sys2Proof.Machine

/-! States to start from. -/

/-- A field die whose barrier link is trained, out of chill. -/
def dieUp : Bar := { trained := true, chill := false }

/-- The device in a state of its life, both field dies up. -/
def inState (d : DevState) : State := { State.reset with dev := { State.reset.dev with state := d }, bars := [dieUp, dieUp] }

def off : State := { State.reset with dev := { State.reset.dev with state := .off } }

/-- RUN between two frames, no trip latch set. -/
def run : State :=
  { inState .run with
    frm := { tb := 100000, tbD := 100000, running := true, frameNum := 7, lastBnd := 99000, period := 2500, commitAt := 900 }
    trp := { tlC := 0, tlD := 0 } }

/-- A frame in EXCHANGE. -/
def frame : State :=
  { run with frm := { run.frm with phase := 1 }, prog := { evalFrame := true }, cmp := { active := true, startupPass := true } }

/-- One page's cause is heard, and no page selects CHIP_RESET. -/
def ready (s : State) (p : Page) (c : Nat) : Bool := s.shaped && s.noChipReset && s.hears p c

/-! Ill-formed commands (R452). -/

theorem test_write_payload_too_short : Instr.wellFormed (.write { port := 0, len := 1 } [0]) = false := by decide

theorem test_auth_payload_too_long : Instr.wellFormed (.auth { port := 0, len := 5 } [0, 0, 0, 0, 0, 0, 0]) = false := by decide

theorem test_write_payload_fits : Instr.wellFormed (.write { port := 0, len := 1 } [0, 0]) = true := by decide

/-- No row of the table gives bits: no word spells a command. -/
theorem test_no_word_spells_a_command : decodeTableWord 32 0 = none ∧ decodeTableWord 0 0 = none := by decide

/-! The queue, reset, the invariants. -/

theorem test_witness_StepRunsFrontCommand : State.reset.pending = [] := rfl

theorem test_witness_invariants : State.reset.memOk = true ∧ State.reset.shaped = true ∧ State.reset.tripsHeld = true
    ∧ run.memOk = true ∧ run.shaped = true ∧ run.tripsHeld = true := by decide +kernel

theorem test_witness_invariants_step : (∃ t, step { State.reset with pending := [.startExit] } = .next t)
    ∧ ∃ t, step { run with pending := [.frameBoundary] } = .next t := ⟨⟨_, rfl⟩, ⟨_, rfl⟩⟩

theorem test_witness_OffLeftOnlyByRelease : off.dev.state = .off ∧ ∃ t, exec .idcode off = .next t := ⟨rfl, _, rfl⟩

theorem test_witness_CommandsKeepIdentity : (∃ t, exec (.keyProgramDone true) run = .next t)
    ∧ (∀ ok, Instr.startExit ≠ .keyProgramDone ok) ∧ ∃ t, exec .startExit run = .next t := ⟨⟨_, rfl⟩, by simp, _, rfl⟩

theorem test_witness_StrapsSampledAtRelease : off.dev.state = .off ∧ off.sup.valid = 0xF ∧ off.clk.locked = true
    ∧ run.dev.state ≠ .off ∧ ∃ t, exec (.resetRelease { compat := true }) run = .next t :=
  ⟨rfl, rfl, rfl, by decide, _, rfl⟩

/-! Reset, supplies, clock monitors. -/

theorem test_witness_OffEntered : run.dev.state ≠ .off ∧ run.shaped = true ∧ run.sup.valid.getLsbD (railNum .core) = true
    ∧ run.sup.valid.getLsbD (railNum .bar) = true ∧ off.dev.state = .off
    ∧ { off with sup := { off.sup with valid := 0x7 } }.shaped = true
    ∧ { off with sup := { off.sup with valid := 0x7 } }.sup.valid.getLsbD (railNum .bar) = false := by decide +kernel

/-- At power-on the release of RESET_N gives State.reset (R612, R618, R621). -/
theorem test_release_is_reset :
    doResetRelease {} { off with evl := {}, hdrs := off.hdrs.set 0 { resetHdr .dev with counters := List.replicate 15 0 } }
      = State.reset := by decide +kernel

theorem test_witness_ReleaseStarts : off.dev.state = .off ∧ off.sup.valid = 0xF ∧ off.clk.locked = true ∧ off.otpFails = false
    ∧ off.sup.pfClear = true ∧ { off with sup := { off.sup with pfClear := false } }.sup.pfClear = false := by decide +kernel

theorem test_witness_MonitorsLatch : run.shaped = true ∧ run.noChipReset = true ∧ run.sup.ovLive.getLsbD (railNum .bar) = false
    ∧ run.hears .sup (railNum .bar) = true ∧ run.clk.refOk = true ∧ run.hears .clk 0 = true ∧ run.clk.locked = true ∧ run.hears .clk 1 = true
    ∧ run.clk.coreCOk = true ∧ run.hears .clk 2 = true ∧ run.clk.coreDOk = true ∧ run.hears .clk 3 = true ∧ run.hears .dev 0 = true
    ∧ run.sup.warnLive.getLsbD (railNum .bar) = false ∧ run.sup.classKnown = true ∧ run.dev.errDiff = 0
    ∧ { run with dev := { run.dev with errDiff := 2 } }.dev.errDiff ≠ 0 := by decide +kernel

/-- VDD_CORE has just returned: the class of VDD_HOST is not known. -/
theorem test_witness_SupplyReturns :
    let s := { off with sup := { off.sup with valid := 1, classKnown := false } }
    let t := { off with sup := { off.sup with valid := 4, classKnown := false } }
    let n := { off with sup := { off.sup with valid := 2, classKnown := false } }
    s.sup.classKnown = false ∧ s.sup.valid.getLsbD 0 = true ∧ t.sup.classKnown = false ∧ t.sup.valid.getLsbD 2 = true
      ∧ n.sup.classKnown = false ∧ ((putBit n.sup.valid (railNum .host) true).getLsbD 0 && (putBit n.sup.valid (railNum .host) true).getLsbD 2) = false
      ∧ n.sup.valid.getLsbD 0 = false ∧ off.sup.classKnown = true := by decide

theorem test_witness_PowerFailShakes : run.shaped = true ∧ run.dev.state.shakes = true ∧ run.sup.pfSeenHigh = true ∧ run.noChipReset = true
    ∧ run.justReset = false ∧ (inState .commission).dev.state = .commission ∧ (inState .shakeout).dev.state = .shakeout
    ∧ { State.reset with dev := { State.reset.dev with startCause := 4 } }.justReset = true := by decide +kernel

/-- START in step 1. -/
def start1 : State := { State.reset with dev := { State.reset.dev with startStep := 1 }, sup := { State.reset.sup with pfClear := false } }

theorem test_witness_StartStepsEnd : start1.sup.pfLevel = true ∧ start1.dev.state = .start ∧ start1.dev.startStep = 1
    ∧ start1.clk.locked = true ∧ start1.otpFails = false ∧ start1.sup.pfHold = false ∧ run.dev.state ≠ .start ∧ run.sup.pfLevel = true
    ∧ State.reset.shaped = true ∧ State.reset.dev.state = .start ∧ State.reset.dev.startStep = 2 ∧ State.reset.noChipReset = true
    ∧ 1 < State.reset.dies ∧ (State.reset.bar 1).fenced = false ∧ (State.reset.hdr (.bar 1)).enable.getLsbD 4 = true := by decide +kernel

/-- RUN with the copies of the timebase apart. -/
def apart : State := { run with frm := { run.frm with tbD := 5 } }

theorem test_witness_TimebaseTicks : run.shaped = true ∧ run.noChipReset = true ∧ run.dev.state ≠ .off ∧ run.frm.tb = run.frm.tbD
    ∧ run.cycleEnd = run ∧ run.img.phase ≠ .distributing ∧ run.img.due = none ∧ (run.frm.tb + 1).toNat % 1000 ≠ 0
    ∧ apart.shaped = true ∧ apart.dev.state ≠ .off ∧ apart.cycleEnd.noChipReset = true ∧ apart.cycleEnd.hears .frm 3 = true
    ∧ (apart.cycleEnd.hdr .frm).live.getLsbD 3 = false := by decide +kernel

/-! Start, self-test, loading, shakeout. -/

/-- A start after a shakeout with PASS: STAMP, its CRC, and a record page whose RCRC is given. -/
def recorded (rcrc : Word) : State :=
  let m := Mem.writeWs 0xFF [] 0 [0x504D5453, 3, 0]
  let m := m.writeW 0xFF 0xC (crc32cOf Word.ones (m.slice 0xFF 0 12))
  let m := Mem.writeWs 0xFF m 0x100 [0x4B414853, 3, 0, 0, 0x40000000]
  { State.reset with dev := { State.reset.dev with startStep := 3 }, flash := { sector := m.writeW 0xFF 0x1FC rcrc } }

/-- Evaluates a number before what uses it. -/
def force {α : Type} (v : Nat) (g : Nat → α) : α :=
  match v with
  | 0 => g 0
  | n + 1 => g (n + 1)

/-- CRC-32C byte by byte, each value evaluated before the next. -/
def crcOf : List Byte → Nat → Nat
  | [], c => c
  | b :: bs, c => force (crcByteR 0x82F63B78 (BitVec.ofNat 32 c) b).toNat (crcOf bs)

theorem crcOf_eq (bs : List Byte) (c : Word) : crcOf bs c.toNat = (crc32c c bs).toNat := by
  induction bs generalizing c with
  | nil => rfl
  | cons b bs ih =>
    have h : ∀ (v : Nat) (g : Nat → Nat), force v g = g v := fun v _ => by cases v <;> rfl
    unfold crcOf
    rw [h, ih]
    simp [crc32c]

theorem recordCrc_eq (d : Word) (bs : List Byte) : recordCrc d bs = BitVec.ofNat 32 (crcOf bs (Word.ones ^^^ d).toNat) ^^^ Word.ones := by
  rw [crcOf_eq]
  simp [recordCrc, crc32cOf]

theorem recorded_crc : (recorded 1767887803).recCrcOk = true := by
  unfold State.recCrcOk
  rw [recordCrc_eq]
  decide +kernel

theorem test_witness_RecordReadChoosesStart : (recorded 1767887803).startReason true = 0 ∧ (recorded 1767887803).shaped = true
    ∧ (recorded 1767887803).noChipReset = true ∧ (recorded 1767887803).bst.startKind = 0 ∧ (recorded 0).startReason false ≠ 0
    ∧ (recorded 1767887803).hears .cmp 10 = true := by
  refine ⟨?_, by decide +kernel⟩
  unfold State.startReason
  rw [recorded_crc]
  decide +kernel

theorem test_witness_SlicesEnd :
    let s : State := { State.reset with bst := { State.reset.bst with testing := true } }
    s.shaped = true ∧ s.noChipReset = true ∧ s.sliceRuns 0 = true ∧ 0 < s.bst.slices.length
      ∧ { s with bst := { s.bst with slices := List.replicate 11 ({ ended := true } : Slice) ++ [({} : Slice)] } }.sliceRuns 11 = true := by decide +kernel

/-- A slot header that R409 accepts, with a sequence number. -/
def slot (seq : Word) : Mem := Mem.writeWs 0xFF [] 0 [0x4F474E49, 2, 8192, seq, 0x2448]

/-- START in step 4, with the slots and the strap given. -/
def booting (a b : Mem) (sel : BitVec 2) : State :=
  { State.reset with dev := { State.reset.dev with startStep := 4, straps := { bootSel := sel } }, flash := { slotA := a, slotB := b } }

/-- LOAD while the slots' headers are being read. -/
def choosing (a b : Mem) (sel : BitVec 2) : State :=
  { booting a b sel with dev := { (booting a b sel).dev with state := .load }, img := { phase := .readingHeaders } }

theorem test_witness_StartExitLoads : (booting (slot 1) (slot 2) 0).noChipReset = true
    ∧ (booting (slot 1) (slot 2) 3).dev.startStep = 4 ∧ (booting (slot 1) (slot 2) 1).dev.state = .start
    ∧ (choosing (slot 1) [] 0).noChipReset = true ∧ (choosing (slot 1) [] 0).dev.state = .load
    ∧ (choosing (slot 1) [] 0).img.phase = .readingHeaders ∧ (choosing (slot 1) [] 0).img.reading = 0 ∧ (choosing (slot 1) [] 0).img.due = none
    ∧ (choosing (slot 1) [] 0).frm.tb = (choosing (slot 1) [] 0).frm.tbD ∧ (choosing (slot 1) [] 0).slotOk (slot 1) = true
    ∧ (choosing (slot 1) [] 0).slotOk [] = false ∧ (choosing (slot 1) (slot 2) 3).dev.straps.bootSel = 3 := by decide +kernel

/-- 0x7FFF_FFFF is the last difference that is newer. -/
theorem test_newer_slot_is_taken : (∃ t, exec (.timebaseTick 0) (choosing (slot 1) (slot 2) 0) = .next t ∧ t.img.source = 2)
    ∧ (∃ t, exec (.timebaseTick 0) (choosing (slot 2) (slot 1) 0) = .next t ∧ t.img.source = 1)
    ∧ seqNewer 0x80000000 1 = true ∧ seqNewer 0x80000001 1 = false :=
  ⟨⟨_, rfl, by decide +kernel⟩, ⟨_, rfl, by decide +kernel⟩, by decide, by decide⟩

/-- A copy in LOAD from a source. -/
def copyingFrom (src : BitVec 3) : State :=
  { inState .load with img := { phase := .copying, source := src, stagedLen := 8192 }, flash := { slotA := slot 1, slotB := slot 2 } }

theorem test_witness_CopiesBeginVerify : (copyingFrom 1).memOk = true ∧ (copyingFrom 1).copying = true ∧ Mem.wf 0xFF (slot 1) = true
    ∧ (copyingFrom 1).bst.sector ≠ .erasing ∧ (copyingFrom 1).flash.slotA = slot 1 ∧ (copyingFrom 2).img.source = 2
    ∧ (copyingFrom 2).flash.slotB = slot 2 ∧ (copyingFrom 2).memOk = true ∧ (copyingFrom 2).copying = true
    ∧ (copyingFrom 4).img.source = 4 ∧ (copyingFrom 4).memOk = true ∧ (copyingFrom 4).copying = true ∧ (copyingFrom 4).stagedBorrow = false
    ∧ { copyingFrom 4 with spc := { borrowed := true, level := 4 } }.stagedHeld = true := by decide +kernel

/-- VERIFY of an empty crucible: HEADER fails at byte 0. -/
def verifying (other : Bool) (src : BitVec 3) : State :=
  { inState .verify with img := { phase := .verifying, otherSlot := other, source := src, slotAOk := true, slotBOk := true } }

theorem test_witness_VerifyDecides : (verifying false 1).shaped = true ∧ (verifying false 1).noChipReset = true
    ∧ ((verifying false 1).verifyEcc []).sectorsChecked.verdict = some (1, 0) ∧ (verifying false 1).hears .img 1 = true
    ∧ ((verifying true 1).verifyEcc []).sectorsChecked.verdict = some (1, 0) ∧ ((verifying true 2).verifyEcc []).sectorsChecked.verdict = some (1, 0)
    ∧ (verifying true 2).img.slotAOk = true := by decide +kernel

theorem test_witness_ShakeoutRecorded :
    let e := { run with bst := { run.bst with sector := .erasing } }
    let r := { inState .shakeout with bst := { run.bst with sector := .ready } }
    e.memOk = true ∧ e.bst.sector = .erasing ∧ r.memOk = true ∧ r.dev.state = .shakeout ∧ r.bst.testing = false ∧ r.bst.idle = false
      ∧ r.bst.sector = .ready ∧ (inState .shakeout).bst.sector ≠ .ready ∧ run.dev.state ≠ .off ∧ run.dev.state ≠ .start
      ∧ run.bst.dueDone = false := by decide +kernel

/-- SHAKEOUT_WARN resets to 168 hours: 604 800 s (R590). -/
theorem test_due_at_the_warning_age : run.bst.warn.toNat * 3600 ≤ (satInc (604799 : Word)).toNat
    ∧ (satInc (604798 : Word)).toNat < run.bst.warn.toNat * 3600 := by decide

/-! The patrols. -/

/-- A bank and a segment, borrowed or waiting. -/
def patrolling (borrowed waiting : Bool) : State := { run with spc := { borrowed := borrowed, waiting := waiting, bank := 15, seg := 30 } }

theorem test_witness_PatrolsRead : run.shaped = true ∧ run.noChipReset = true ∧ run.cruciblePatrolOn = true ∧ run.crb.pos + 1 ≠ 0
    ∧ run.hears .crb 0 = true ∧ run.dev.state ≠ .verify
    ∧ { run.crb with pos := 0x1FFFF }.pos + 1 = 0 ∧ run.frm.tb.toNat - run.crb.passStart.toNat ≤ 1000000
    ∧ (patrolling false true).scratchPatrolOn = true ∧ (patrolling false true).patrolled 15 = true ∧ (patrolling false false).spc.waiting = false
    ∧ (patrolling false true).spc.level.toNat < 4 ∧ (patrolling true false).spc.seg ≠ 31 ∧ (patrolling true false).shaped = true
    ∧ (patrolling true false).hears (spbOf 15) 1 = true ∧ run.frm.running = true ∧ run.bst.posC + 1 ≠ 0 ∧ run.bst.posD + 1 ≠ 0
    ∧ run.cope.mode ≠ .halted ∧ run.drag.mode ≠ .halted ∧ run.hears .cop 0 = true ∧ run.hears .drg 0 = true
    ∧ (verifying false 1).cruciblePatrolOn = true ∧ (verifying false 1).crb.pos + 1 ≠ 0 ∧ (verifying false 1).dev.state = .verify
    ∧ (verifying false 1).img.phase = .verifying ∧ (patrolling false true).spc.borrowed = false := by decide +kernel

/-- A count of 41 of a core clock is the last that R607 allows. -/
theorem test_witness_MonitorsLatch_counts : run.clk.coreCOk = true ∧ run.clk.coreDOk = true ∧ 41 < (42 : Word).toNat ∧ (41 : Word).toNat ≤ 41
    ∧ { run with clk := { run.clk with locked := false } }.clk.locked = false ∧ (run.hdr .clk).live.getLsbD 1 = false := by decide +kernel

theorem test_witness_PowerFailShakes_unseen :
    let s : State := { run with sup := { run.sup with pfSeenHigh := false } }
    s.shaped = true ∧ s.dev.state.shakes = true ∧ s.sup.pfSeenHigh = false ∧ s.justReset = false := by decide +kernel

theorem test_witness_PllLock : start1.pllRuns = true ∧ { start1 with clk := { start1.clk with refOk := false } }.pllRuns = false
    ∧ { start1 with sup := { start1.sup with pfHold := true } }.sup.pfHold = true ∧ run.pllRuns = true := by decide +kernel

theorem test_witness_TimebaseTicks_asked : run.img.asked = none ∧ (run.cycleEnd []) = run ∧ (choosing [] [] 0).img.asked = none := by
  decide +kernel

/-- On an SLC-2448, slice 10 has nothing to test (R570). -/
theorem test_witness_RecordReadChoosesStart_part :
    let s : State := { recorded 0 with ident := { (recorded 0).ident with part := .slc2448 } }
    s.dies < 2 ∧ s.shaped = true ∧ s.noChipReset = true ∧ s.startReason false ≠ 0 ∧ s.dev.state = .start ∧ s.dev.startStep = 3
      ∧ s.bst.startKind = 0 := by decide +kernel

theorem test_witness_VerifyDecides_distributing :
    let s : State := { verifying false 1 with img := { (verifying false 1).img with phase := .distributing } }
    s.img.phase.checks = true ∧ s.dev.state = .verify ∧ s.shaped = true ∧ s.noChipReset = true := by decide +kernel

theorem test_witness_PatrolsRead_halted :
    let s : State := { run with cope := { run.cope with mode := .halted } }
    let t : State := { run with drag := { run.drag with mode := .halted } }
    let v : State := { inState .commission with img := { phase := .verifying } }
    s.cope.mode = .halted ∧ s.drag.mode ≠ .halted ∧ t.cope.mode ≠ .halted ∧ t.drag.mode = .halted ∧ s.shaped = true ∧ t.shaped = true
      ∧ s.noChipReset = true ∧ t.frm.running = true ∧ { s with drag := t.drag }.drag.mode = .halted
      ∧ v.failsVerify = true ∧ v.cruciblePatrolOn = true ∧ v.shaped = true ∧ v.crb.pos + 1 ≠ 0 ∧ run.failsVerify = false := by decide +kernel

/-! Frames. -/

/-- RUN with SYNC_IN enabled, W 100 ticks, at a time after the boundary. -/
def synced (tb : Time) : State := { run with frm := { run.frm with tb := tb, syncCfg := 0x80000064 } }

theorem test_witness_BoundaryBegins : run.shaped = true ∧ run.frm.running = true ∧ run.dev.state ≠ .safe ∧ run.syncOn = false
    ∧ (synced 101400).syncOn = true ∧ (synced 101400).prog.edgeSeen = false ∧ (synced 101400).inSyncWindow = true
    ∧ (synced 101400).afterE = true ∧ (synced 101600).inSyncWindow = true ∧ (synced 101601).inSyncWindow = false
    ∧ (synced 101399).inSyncWindow = false ∧ ({ run with prog := { defer := true } }).prog.defer = true
    ∧ ({ synced 101400 with prog := { edgeSeen := true } }).prog.edgeSeen = true := by decide +kernel

/-- SYNC_POL 1: a falling edge begins the boundary, a rising one nothing (R95). -/
theorem test_edge_of_the_other_polarity :
    let s := { synced 101400 with frm := { (synced 101400).frm with syncCfg := 0xC0000064 } }
    (∃ t, exec (.syncInEdge false) s = .next t ∧ t.frm.frameNum = 8) ∧ exec (.syncInEdge true) s = .next s := ⟨⟨_, rfl, by decide +kernel⟩, rfl⟩

/-- An edge in the window before E: COMMIT_AT + 750 ns after the boundary. -/
theorem test_witness_BoundaryBegins_late :
    let s := { synced 101400 with frm := { (synced 101400).frm with commitAt := 2326 } }
    s.inSyncWindow = true ∧ s.afterE = false ∧ { s with frm := { s.frm with commitAt := 2325 } }.afterE = true := by decide +kernel

theorem test_witness_ExchangeForms : frame.shaped = true ∧ frame.noChipReset = true ∧ frame.exchanging = true ∧ frame.prog.exchanged = false
    ∧ 1 < frame.dies ∧ (frame.bar 1).fenced = false ∧ frame.hears (.bar 1) 0 = true ∧ frame.hears .cmp 9 = true := by decide +kernel

theorem test_witness_ComparatorsExercised : frame.cmp.active = true ∧ frame.hears .cmp 5 = true ∧ frame.hears .cmp 3 = true
    ∧ { frame.prog with exchanged := true }.exchanged = true ∧ frame.cope.agreed = frame.drag.agreed
    ∧ { frame.cope with agreed := 1 }.agreed ≠ frame.drag.agreed
    ∧ { frame with prog := { frame.prog with exchanged := true } }.exchanging = true
    ∧ ({ stuckD := some true } : Upset).parity = false := by decide +kernel

/-- A raw bit that fails its lane check is KIND 1 of LAST_LANE_ERR, a late one KIND 3 (R125, R634). -/
theorem test_lane_error_kinds :
    (doExchangeRawTimeout 1 .c true frame).bars.map (fun b => b.lastLaneErr.extractLsb' 28 2) = [0, 1]
      ∧ (doExchangeRawTimeout 1 .c false frame).bars.map (fun b => b.lastLaneErr.extractLsb' 28 2) = [0, 3] := by decide +kernel

/-- A frame in EXCHANGE with traps waiting. -/
def trapping (c d : BitVec 16) : State :=
  { frame with cope := { frame.cope with trapPend := c }, drag := { frame.drag with trapPend := d } }

theorem test_witness_EvaluateBegins : frame.shaped = true ∧ frame.exchanging = true ∧ frame.cope.trapPend = 0 ∧ frame.drag.trapPend = 0
    ∧ (frame.ctx 7).fenced = false ∧ (trapping 0x8000 0x8000).shaped = true ∧ (trapping 0x8000 0x8000).exchanging = true
    ∧ (trapping 0x8000 0).shaped = true ∧ (trapping 0x8000 0).exchanging = true ∧ (trapping 0x8000 0).noChipReset = true
    ∧ (trapping 0x8000 0).cmp.active = true ∧ (trapping 0x8000 0).hears .cmp 2 = true := by decide +kernel

/-- A frame in EVALUATE, at COMMIT_AT. -/
def committing : State := { frame with prog := { frame.prog with exchanged := true, evaluating := true }, frm := { frame.frm with phase := 2 } }

theorem test_witness_OverrunLatches : committing.shaped = true ∧ committing.noChipReset = true ∧ committing.inEvalFrame = true
    ∧ committing.evaluates = true ∧ committing.prog.evalEnded = false ∧ committing.prog.commitDone = false ∧ committing.prog.overrun = false
    ∧ committing.hears .frm 0 = true ∧ { committing.prog with overrun := true }.overrun = true := by decide +kernel

/-- Vectors armed, the acknowledgments given. -/
def armed (acks : BitVec 4) : State :=
  { committing with prog := { committing.prog with armedC := some 1, armedD := some 1, acks := acks, evalEnded := true, evaluating := false } }

theorem test_witness_CommitDecides : (armed 0xF).inEvalFrame = true ∧ (armed 0xF).prog.commitDone = false ∧ (armed 0xF).commitStopped = false
    ∧ (armed 0xF).allArmed = true ∧ (armed 0xF).prog.mismatchAt = none ∧ (armed 0xF).causeNow = false ∧ (armed 0x7).allArmed = false
    ∧ (armed 0x7).hears .frm 1 = true ∧ (armed 0x7).shaped = true ∧ (armed 0x7).noChipReset = true
    ∧ { armed 0xF with dev := (inState .safe).dev }.commitStopped = true
    ∧ { armed 0xF with prog := { (armed 0xF).prog with mismatchAt := some 0 } }.commitStopped = false
    ∧ { armed 0xF with prog := { (armed 0xF).prog with overrun := true } }.commitStopped = false := by decide +kernel

theorem test_witness_CommitDecides_ack : (armed 0x7).prog.armedC ≠ none ∧ (armed 0x7).prog.armedD ≠ none ∧ (armed 0x7).dieCounts 1 = true
    ∧ (armed 0x7).hears .frm 2 = true ∧ { (armed 0xF).prog with strobed := 3, applied := 1 }.strobed.getLsbD 1 = true
    ∧ { (armed 0xF).prog with strobed := 3, applied := 1 }.applied.getLsbD 1 = false ∧ ((armed 0xF).bar 1).fenced = false
    ∧ { (armed 0xF).prog with strobed := 3, applied := 1 }.applied.getLsbD 0 = true := by decide +kernel

/-- A strobe sent to both dies. -/
def struck (m : Strobe) : State :=
  { armed 0xF with prog := { (armed 0xF).prog with commitDone := true, strobe := m, strobed := 3 }, outs := List.replicate 64 { cmdC := true } }

theorem test_witness_StrobeApplies : (struck .full).shaped = true ∧ (struck .full).prog.strobe ≠ .none
    ∧ (struck .full).prog.strobed.getLsbD 1 = true ∧ (struck .full).prog.applied.getLsbD 1 = false ∧ ((struck .full).bar 1).chill = false
    ∧ (struck .offOnly).prog.strobe = .offOnly ∧ ({ struck .full with bars := [{}, {}] }.bar 1).chill = true := by decide +kernel

/-- The ports' permits at the end of a frame. -/
def permits : State :=
  { struck .full with
    hps := [{ refreshed := true, everRefreshed := true, timeout := 8, timedOut := false, permitLo := 5 }, {}, {}, {}] }

theorem test_witness_PermitsLatch : permits.hps.length = 4 ∧ permits.frm.running = true ∧ permits.prog.published = false
    ∧ permits.prog.commitDone = true ∧ ((permits.hp 0).refreshed = true ∧ (permits.hp 0).everRefreshed = true ∧ (permits.hp 0).timeout ≠ 0)
    ∧ (permits.hp 3).timedOut = true ∧ (permits.hp 3).everRefreshed = false ∧ run.prog.commitDone = false ∧ run.inEvalFrame = false
    ∧ (struck .full).hears (.fib 7) 9 = true ∧ ((struck .full).hp 0).timedOut = true ∧ (struck .full).noChipReset = true
    ∧ { run.frm with frameOutCfg := 0x300 }.frameOutCfg.extractLsb' 8 2 = 3 := by decide +kernel

/-- Port 0's host has missed its time; the others have timed out. -/
def permitLate : State :=
  { struck .full with hps := [{ everRefreshed := true, timeout := 8, timedOut := false, age := 7, permitLo := 5 }, {}, {}, {}] }

theorem test_witness_PermitsLatch_late : permitLate.shaped = true ∧ permitLate.noChipReset = true ∧ permitLate.frm.running = true
    ∧ permitLate.prog.published = false ∧ permitLate.prog.commitDone = true ∧ (∀ k : Fin 4, k ≠ 0 → (permitLate.hp k).timedOut = true)
    ∧ (permitLate.hp 0).timedOut = false ∧ (permitLate.hp 0).refreshed = false ∧ (permitLate.hp 0).everRefreshed = true
    ∧ (permitLate.hp 0).timeout ≤ satInc (permitLate.hp 0).age ∧ permitLate.hears (hpOf (0 : Fin 4)) 6 = true := by decide +kernel

/-- A pulse of FRAME_OUT of two ticks, begun some ticks ago. -/
def pulsing (ago : Time) : State :=
  { run with frm := { run.frm with frameOutCfg := 0x102, frameOut := true, frameOutAt := run.frm.tb - ago } }

theorem test_frame_out_ends_at_its_width : (doFrameOutEnd (pulsing 1)).frm.frameOut = true ∧ (doFrameOutEnd (pulsing 2)).frm.frameOut = false
    ∧ { pulsing 2 with frm := { (pulsing 2).frm with frameOutCfg := 0x80000102 } }.frameOutHigh = false := by decide +kernel

/-! The evaluation channels. -/

/-- One byte of a memory in both channels, DRAG's complemented. -/
theorem lone_byte (a : Nat) (v : Byte) (x : Nat) : Half.trueWord .c (Mem.readW 0 [(a, v)] x) = Half.trueWord .d (Mem.readW 0xFF [(a, ~~~v)] x) := by
  have h : ∀ y, Mem.read 0 [(a, v)] y = ~~~(Mem.read 0xFF [(a, ~~~v)] y) := by
    intro y
    simp only [Mem.read]
    split
    · simp
    · split <;> decide
  simp only [Half.trueWord, Mem.readW, h]
  have n : ∀ p q r t : Byte, ~~~(p ++ q ++ r ++ t : BitVec (8 + 8 + 8 + 8)) = ~~~p ++ ~~~q ++ ~~~r ++ ~~~t := by
    intro p q r t
    rw [BitVec.not_append, BitVec.not_append, BitVec.not_append]
  exact (n _ _ _ _).symm

/-- A channel at a program whose first word has the byte of its operation at address 3 and, as WORD 0's low byte, a count. -/
def program (h : Half) (op count : Byte) (m : ChMode) : Chan :=
  match h with
  | .c => { mode := m, icache := [(0, count), (3, op)], kcache := [(3, 0x01)] }
  | .d => { mode := m, icache := [(0, ~~~count), (3, ~~~op)], kcache := [(3, 0xFE)] }

/-- EVALUATE at a word of an operation with a count of instances. -/
def evaluating (op count : Byte) (m : ChMode) : State :=
  { committing with cope := program .c op count m, drag := program .d op count m, img := { committing.img with codeSize := 8 } }

theorem evaluating_agrees (op count : Byte) (m : ChMode) : (evaluating op count m).agree := by
  refine ⟨fun a => ?_, fun i j => lone_byte 3 1 (32 * i + 4 * j), rfl, rfl, rfl, rfl, rfl⟩
  show Half.trueWord .c (Mem.readW 0 [] a) = Half.trueWord .d (Mem.readW 0xFF [] a)
  simp only [Half.trueWord, Mem.readW, Mem.read]
  decide

theorem test_witness_EvalKeepsLockstep :
    let s := evaluating 0x10 1 .evaluating
    s.agree ∧ s.shaped = true ∧ s.memOk = true ∧ s.dev.dbgSplit = false ∧ s.cope.mode = .evaluating ∧ s.cope.refill = none
      ∧ s.prog.evaluating = true ∧ s.illegalWord .c = false ∧ opOf (s.fetch .c 0) = 1 ∧ s.trapDue = false ∧ instancesOf (s.fetch .c 0) = [0]
      ∧ s.cope.done.getLsbD 0 = false
      ∧ outputsOf ((s.constWord .c 0 0).extractLsb' 24 8).toNat ≠ 0 ∧ outputsOf ((s.constWord .d 0 0).extractLsb' 24 8).toNat ≠ 0 := by
  intro s
  exact ⟨evaluating_agrees 0x10 1 .evaluating, by decide +kernel⟩

theorem test_witness_HandlerWordsRun : (evaluating 0x20 1 .inHandler).cope.mode = .inHandler ∧ opOf ((evaluating 0x20 1 .inHandler).fetch .c 0) = 2
    ∧ opOf ((evaluating 0xF0 0 .inHandler).fetch .c 0) = 15 ∧ (evaluating 0xF0 0 .inHandler).prog.evaluating = true
    ∧ (evaluating 0x20 1 .inHandler).illegalWord .c = false ∧ (evaluating 0xF0 0 .inHandler).illegalWord .c = false := by decide +kernel

theorem test_witness_PubCopiesRecords :
    let s := evaluating 0x30 1 .evaluating
    s.agree ∧ s.shaped = true ∧ s.memOk = true ∧ s.dev.dbgSplit = false ∧ s.cope.runs = true ∧ s.cope.refill = none ∧ s.prog.evaluating = true
      ∧ s.cmp.active = true ∧ opOf (s.fetch .c 0) = 3 ∧ (s.spb 0).power = .on ∧ (s.spb 0).fenced = false
      ∧ s.illegalWord .c = false := by
  intro s
  exact ⟨evaluating_agrees 0x30 1 .evaluating, by decide +kernel⟩

theorem test_witness_EndArmsOutputs :
    let s := evaluating 0xF0 0 .evaluating
    s.agree ∧ s.shaped = true ∧ s.dev.dbgSplit = false ∧ s.cope.mode = .evaluating ∧ s.cope.refill = none ∧ s.prog.evaluating = true
      ∧ opOf (s.fetch .c 0) = 15 ∧ s.illegalWord .c = false := by
  intro s
  exact ⟨evaluating_agrees 0xF0 0 .evaluating, by decide +kernel⟩

/-- Both channels wait for a line; CODE has 8 bytes at 0x600, BLOCKS stands at 0x500. -/
def stalled (line : BitVec 17) : State :=
  let s := evaluating 0x10 1 .evaluating
  { s with cope := { s.cope with refill := some line }, drag := { s.drag with refill := some line }
           img := { s.img with codeAt := 0x600, codeSize := 8, blocksAt := 0x500 } }

theorem test_witness_CacheRefills : (stalled 0xC0).shaped = true ∧ (stalled 0xC0).memOk = true ∧ (stalled 0xC0).cope.refill = some 0xC0
    ∧ (stalled 0xC0).img.codeAt ≤ 8 * 0xC0 ∧ 8 * 0xC0 < (stalled 0xC0).img.codeAt + (stalled 0xC0).img.codeSize
    ∧ (stalled 0xBF).img.blocksAt ≤ 8 * 0xBF ∧ 8 * 0xBF < (stalled 0xBF).img.codeAt ∧ (stalled 0xC0).noChipReset = true
    ∧ (stalled 0xC0).cope.runs = true ∧ (stalled 0xC0).hears .cop 2 = true ∧ (stalled 0xC0).hears .drg 2 = true := by decide +kernel

theorem test_witness_CacheRefills_again :
    let a : State := { stalled 0xC0 with cope := { (stalled 0xC0).cope with refetched := [0xC0] } }
    (stalled 0xC0).cope.refetched.contains 0xC0 = false ∧ (stalled 0xC0).drag.refetched.contains 0xC0 = false ∧ a.shaped = true ∧ a.memOk = true
      ∧ a.noChipReset = true ∧ a.cope.refill = some 0xC0 ∧ a.cope.refetched.contains 0xC0 = true ∧ a.hears .cop 5 = true
      ∧ run.cope.refill = none ∧ run.cope.runs = false := by decide +kernel

theorem test_witness_DebugActs :
    let s : State := { evaluating 0x10 1 .evaluating with dev := (inState .commission).dev }
    let b : State := { s with cope := { s.cope with bpEn := true } }
    b.dev.state = .commission ∧ b.shaped = true ∧ b.noChipReset = true ∧ b.cope.bpEn = true ∧ b.cope.runs = true ∧ b.cope.pc = b.cope.bp
      ∧ b.dev.dbgSplit = false ∧ b.drag.mode ≠ .trapped ∧ b.hears .cop 4 = true ∧ run.dev.state ≠ .commission ∧ run.dev.state ≠ .off := by
  decide +kernel

theorem test_witness_ExchangeForms_decided : frame.prog.decidedAt = none ∧ (0 : Nat) < frame.dies := by decide +kernel

/-- A channel cause of the very cycle of COMMIT_AT, without a mismatch (R157). -/
theorem test_witness_CommitDecides_cause :
    let s := { armed 0xF with prog := { (armed 0xF).prog with channelCauseAt := some (armed 0xF).frm.tb } }
    s.causeNow = true ∧ s.prog.mismatchAt = none ∧ s.commitStopped = false ∧ s.allArmed = true ∧ s.prog.overrun = false ∧ s.publishes = false
      ∧ (armed 0xF).publishes = true ∧ ((armed 0xF).ctx 7).fenced = false ∧ s.shaped = true ∧ s.noChipReset = true ∧ s.inEvalFrame = true
      ∧ s.prog.commitDone = false := by decide +kernel

/-- The first strobe of a frame with FRAME_OUT in mode 3. -/
theorem test_witness_StrobeApplies_out :
    let s : State := { struck .full with frm := { (struck .full).frm with frameOutCfg := 0x300 } }
    s.prog.applied = 0 ∧ s.frm.frameOutCfg.extractLsb' 8 2 = 3 ∧ s.shaped = true ∧ s.prog.strobe ≠ .none := by decide +kernel

theorem test_witness_PermitsLatch_phase : permits.prog.evalFrame = true ∧ run.prog.evalFrame = false
    ∧ (pulsing 1).frm.frameOutAt.toNat + (pulsing 1).frameOutWidth > (pulsing 1).frm.tb.toNat := by
  decide +kernel

theorem test_witness_EndArmsOutputs_late :
    let s := evaluating 0xF0 0 .evaluating
    { s with prog := { s.prog with commitDone := true } }.prog.commitDone = true ∧ s.prog.commitDone = false ∧ s.prog.published = false := by
  decide +kernel

/-- COMMISSION with a channel at a program word; HALTED where it is stopped. -/
def debugged (op count : Byte) (m : ChMode) : State := { evaluating op count m with dev := (inState .commission).dev }

theorem test_witness_DebugActs_registers : (debugged 0x20 1 .halted).shaped = true ∧ (debugged 0x20 1 .halted).noChipReset = true
    ∧ (debugged 0x20 1 .halted).dev.state = .commission ∧ (debugged 0x20 1 .halted).cope.mode = .halted
    ∧ (debugged 0x20 1 .halted).illegalWord .c = false ∧ opOf ((debugged 0x20 1 .halted).fetch .c 0) = 2
    ∧ (debugged 0x20 1 .parked).drag.mode = .parked ∧ (debugged 0x20 1 .evaluating).cope.mode ≠ .halted
    ∧ (debugged 0x20 1 .evaluating).cope.mode ≠ .parked ∧ (debugged 0x20 1 .evaluating).cope.mode ≠ .trapped
    ∧ (debugged 0x20 1 .evaluating).drag.mode ≠ .trapped ∧ (debugged 0x20 1 .evaluating).dev.dbgSplit = false
    ∧ (debugged 0x20 1 .evaluating).hears .cop 4 = true ∧ (debugged 0x20 1 .evaluating).prog.decidedAt ≠ some (debugged 0x20 1 .evaluating).frm.tb
    ∧ (debugged 0x20 1 .trapped).cope.mode = .trapped := by decide +kernel

/-! Field inputs and the trip matrix. -/

/-- Input 111, configured as an input of a trip mode, with its level in both comparators; SO47 names it in its local mask. -/
def sensing (mode : Word) (level : Bool) : State :=
  { run with
    ins := run.ins.set 111 { cfg := 0xA0000000 }
    comps := List.replicate 224 { level := level }
    trp := { run.trp with tin := run.trp.tin.set 111 (mode <<< 28), tset := run.trp.tset.set 142 0x00800000 } }

theorem test_witness_LevelChange : (sensing 0 true).shaped = true ∧ (sensing 0 true).inputServed 111 = true
    ∧ ((sensing 0 true).comp 111 .c).level ≠ false ∧ (sensing 0 true).exercising 111 .c = false ∧ (sensing 0 true).isInput 111 = true
    ∧ (sensing 0 true).tripMode 111 = 0 ∧ dieOfBank (47 / 6) = dieOfInput 111 ∧ ((sensing 0 true).localMask 47).getLsbD (dieLocal 111) = true
    ∧ ((sensing 0 false).comp 111 .d).level ≠ true ∧ ((sensing 0 false).comp 111 .d).foreignZero = false
    ∧ (sensing 0 false).frm.running = true := by decide +kernel

/-- A foreign gap of slot 0 was pending on a PULSED input, and another ends 500 ns after the window of that slot. -/
def foreignGap : State :=
  { sensing 1 false with
    comps := List.replicate 224 { foreignZero := true, forPend := some 0 }, pwl := { lastSlot := some 0, windowEnd := 99950 } }

theorem test_witness_LevelChange_foreign : foreignGap.noChipReset = true ∧ foreignGap.tripMode 111 = 1 ∧ foreignGap.pwl.window = none
    ∧ foreignGap.shaped = true ∧ foreignGap.inputServed 111 = true ∧ foreignGap.exercising 111 .c = false
    ∧ (foreignGap.comp 111 .c).level ≠ true ∧ (foreignGap.comp 111 .c).foreignZero = true
    ∧ foreignGap.frm.tb.toNat ≤ foreignGap.pwl.windowEnd.toNat + 50
    ∧ (foreignGap.comp 111 .c).forPend = some (foreignGap.pwl.lastSlot.getD 0)
    ∧ foreignGap.hears (fibOf (bankOfInput 111)) 3 = true := by decide +kernel

/-- A PULSED input within its own window. -/
def ownWindow : State := { sensing 1 false with pwl := { window := some 0 } }

theorem test_witness_FiltersAndMasksEnd : run.shaped = true ∧ (run.comp 111 .d).held = none ∧ (sensing 2 false).shaped = true
    ∧ (sensing 2 false).tripMode 111 = 2 ∧ ((sensing 2 false).comp 111 .d).level = false ∧ (sensing 2 false).isInput 111 = true
    ∧ ownWindow.shaped = true ∧ ownWindow.masked 111 = true ∧ (ownWindow.comp 111 .c).level = false ∧ ownWindow.isInput 111 = true := by
  decide +kernel

/-- Bank 7's reference has failed some times; an exercise of comparators is in progress on die 1. -/
def checking (fails : BitVec 4) : State :=
  { sensing 0 true with inBanks := run.inBanks.set 7 { refFails := fails }, prog := { exercise := some 1, exDies := 2 } }

/-- Die 1's own gap of slot 63 stands at the start of the interval of R307, which begins at 99 925: the exercise starts 50 ns after the gap. -/
def exerciseAmidGap (tb : Time) : State :=
  { sensing 0 true with
    frm := { run.frm with tb := tb }
    pwl := { slotC := 63, slotD := 63, running := true, offset := 900, widths := List.replicate 64 25 } }

/-- The gap from 99 900 to 99 925 leaves the exercise of die 1 for 99 930, that of die 0 at 99 925, each at that instant only (R307). -/
theorem test_exercise_moves_away_from_the_gap : (exerciseAmidGap 99925).exerciseDue = 1 ∧ (exerciseAmidGap 99930).exerciseDue = 2
    ∧ (exerciseAmidGap 99924).exerciseDue = 0 ∧ (exerciseAmidGap 99929).exerciseDue = 0 ∧ (exerciseAmidGap 99931).exerciseDue = 0
    ∧ (exerciseAmidGap 99930).exerciseAt 1 ≠ (exerciseAmidGap 99930).exerciseFrom ∧ (exerciseAmidGap 99930).exercised 7 ≠ []
    ∧ (exerciseAmidGap 99930).shaped = true ∧ (exerciseAmidGap 99930).noChipReset = true := by decide +kernel

theorem test_witness_InputChecksLatch : (checking 9).shaped = true ∧ (checking 9).noChipReset = true ∧ (checking 9).inputServed 111 = true
    ∧ ((checking 9).inp 111).cfg.getLsbD 29 = true ∧ ((checking 9).inp 111).live.getLsbD 1 = false
    ∧ (checking 9).hears (fibOf (bankOfInput 111)) 1 = true ∧ ((checking 9).inBank 7).refFails = 9 ∧ (checking 9).hears (.fib 7) 8 = true
    ∧ ((checking 8).inBank 7).refFails.toNat < 9
    ∧ (checking 9).prog.exercise = some 1 ∧ (checking 9).prog.exDies.getLsbD (dieOfBank 7) = true ∧ 13 ∈ (checking 9).exercised 7
    ∧ (bitMask 112 (inputOf 7 13)).getLsbD (inputOf 7 13) = true
    ∧ (∀ j < 112, j ≠ inputOf 7 13 → (bitMask 112 (inputOf 7 13)).getLsbD j = false) ∧ (checking 9).hears (.fib 7) 2 = true := by decide +kernel

theorem test_witness_InputChecksLatch_live :
    ((sensing 0 true).updInp 111 fun u => { u with live := 2 }).inp 111 = { ((sensing 0 true).inp 111) with live := 2 } := by decide +kernel

theorem test_witness_LanesCarryDemand : run.shaped = true ∧ run.noChipReset = true ∧ run.linked 1 = true ∧ run.trp.laneCore.length = 4
    ∧ run.trp.laneDest.length = 4 ∧ (run.bar 1).fenced = false ∧ run.hears (.bar 1) 0 = true ∧ (run.hdr (.bar 1)).live = 0
    ∧ run.hears (.bar 1) 1 = true ∧ run.laneTesting .d = true ∧ run.prog.laneOk.getLsbD 1 = false ∧ run.hears .trp 2 = true
    ∧ run.trp.destReport = 0 ∧ (run.hdr (.bar 1)).live.getLsbD 1 = false ∧ (run.bar 0).fenced = false
    ∧ { run with trp := { run.trp with destReport := 0xF } }.trp.destReport.getLsbD 1 = true
    ∧ run.hears (barOf 0) 0 = true := by decide +kernel

/-! The pulse wheel. -/

/-- The first frame of a slot whose source gives a pulse of 100 ticks. -/
def wheelAt (slot : BitVec 6) : State := { run with pwl := { slotC := slot, slotD := slot, running := true, widths := List.replicate 64 100 } }

theorem test_witness_WheelRuns : (wheelAt 15).shaped = true ∧ (wheelAt 15).pulseDue = true ∧ (wheelAt 15).pwl.slotC.toNat < 16
    ∧ (wheelAt 16).pulseDue = true ∧ 16 ≤ (wheelAt 16).pwl.slotC.toNat ∧ (wheelAt 63).pulseDue = true ∧ (wheelAt 16).noChipReset = true
    ∧ (wheelAt 16).hears .trp 1 = true ∧ ownWindow.pwl.window = some 0 ∧ ownWindow.noChipReset = true ∧ ownWindow.shaped = true := by
  decide +kernel

theorem test_witness_PulseSources :
    let s : State := { run with pwl := { dark := some 15 } }
    s.shaped = true ∧ s.noChipReset = true ∧ s.hears .pwl 0 = true ∧ s.hears .pwl 1 = true ∧ s.psDrive 15 = .low ∧ run.psDrive 15 = .high := by
  decide +kernel

/-! Field outputs. -/

/-- Every output commanded on, and able to drive high. -/
def driving : State := { run with outs := List.replicate 64 { cfg := 0xA0000000, held := 0x20000000, cmdC := true, cmdD := true } }

theorem test_witness_OutputCausesHold : driving.shaped = true ∧ driving.noChipReset = true ∧ bankOfOutput 47 < driving.banks
    ∧ driving.drive 47 = .high ∧ driving.drive 48 = .high ∧ run.sinks 47 = true ∧ driving.standing 47 1 = false
    ∧ driving.hears (fobOf (bankOfOutput 47)) 1 = true
    ∧ run.drive 47 = .low ∧ run.standing 47 0 = false ∧ run.contenders 47 = [] ∧ run.hears (fobOf (bankOfOutput 47)) 0 = true
    ∧ driving.standing 47 4 = false ∧ driving.hears (fobOf (bankOfOutput 47)) 4 = true ∧ driving.standing 47 5 = false
    ∧ (driving.outBank 7).blank = false ∧ driving.hears (fobOf (bankOfOutput 47)) 5 = true ∧ (driving.out 47).cfg.getLsbD 29 = true
    ∧ driving.standing 47 3 = false ∧ driving.hears (fobOf (bankOfOutput 47)) 3 = true := by decide +kernel

/-- SO47 is driven high and its LS, failed closed, sinks; its OVERTEMP stands, and its bank is blanked. -/
theorem test_witness_OutputCausesHold_high :
    let s : State := { driving with outs := driving.outs.set 47 { cfg := 0xA0000000, held := 0x20000000, cmdC := true, cmdD := true
                                                                  sense := { sinkOver := true, hot := true }, latch := 0x10 }
                                    outBanks := driving.outBanks.set 7 { blank := true } }
    s.shaped = true ∧ s.noChipReset = true ∧ s.sinks 47 = true ∧ s.standing 47 0 = false ∧ s.contenders 47 = [] ∧ s.standing 47 4 = true
      ∧ s.expectHigh 47 = true ∧ (s.outBank 7).blank = true := by decide +kernel

theorem test_witness_OutputCausesHold_ls :
    let s : State := { run with outs := run.outs.set 47 { hold := true, lsDue := true } }
    s.shaped = true ∧ s.noChipReset = true ∧ (s.out 47).lsDue = true ∧ (s.out 47).hold = true := by decide +kernel

/-- SO46's source current has been above its level for exactly 1 µs. -/
theorem test_witness_OutputCausesHold_contention :
    let s : State := { run with outs := run.outs.set 46 { overSince := some 99900 } }
    s.shaped = true ∧ s.noChipReset = true ∧ s.sinks 47 = true ∧ s.contenders 47 = [46] ∧ bankOfOutput 46 < s.banks ∧ s.standing 47 2 = false
      ∧ s.standing 46 2 = false ∧ s.hears (fobOf (bankOfOutput 47)) 2 = true
      ∧ (s.freshBits (fobOf (bankOfOutput 46)) (0x140 + 4 * localOfOutput 46)).getLsbD 1 = false := by decide +kernel

theorem test_witness_SensesFollow : run.shaped = true ∧ run.pwl.window = none ∧ (run.out 63).foreignOn = false
    ∧ (run.out 63).sense.srcOver = false ∧ ({ srcOver := true } : Sense).sinkOver = false := by decide +kernel

/-- Bank 7 of RUN with a measured supply. -/
def supplied (c d : BitVec 16) : State := { run with outBanks := run.outBanks.set 7 { fvC := c, fvD := d, measured := true } }

theorem test_witness_FieldSupplyJudged : run.shaped = true ∧ run.noChipReset = true ∧ 7 < run.banks ∧ (run.bar (dieOfBank 7)).powered = true
    ∧ (run.outBank 7).trip = 1600 ∧ min 1599 1600 < (run.outBank 7).trip ∧ (run.outBank 7).trip ≤ min (min 3600 1600) (min 3600 1600)
    ∧ (run.hdr (.fob 7)).live.getLsbD 17 = false ∧ run.hears (.fob 7) 17 = true ∧ (run.hdr (.fob 7)).live.getLsbD 18 = false
    ∧ run.hears (.fob 7) 18 = true ∧ ({ blank := true } : OutBank).dip = none ∧ 3200 < ((supplied 3201 3150).outBank 7).high
    ∧ 60 < ((supplied 2461 2400).outBank 7).high - ((supplied 2461 2400).outBank 7).low
    ∧ ((supplied 2040 2100).outBank 7).trip + 440 ≤ ((supplied 2040 2100).outBank 7).low
    ∧ ((supplied 2039 2100).outBank 7).low < ((supplied 2039 2100).outBank 7).trip + 440
    ∧ ((supplied 3049 2400).outBank 7).high < 3050 ∧ (supplied 3201 3150).shaped = true ∧ (supplied 3201 3150).noChipReset = true := by
  decide +kernel

/-- Every lane takes every local input of its die. -/
def laned : State := { sensing 0 true with trp := { (sensing 0 true).trp with xsrc := List.replicate 48 Word.ones } }

theorem test_witness_LevelChange_flight : laned.shaped = true ∧ laned.linked 1 = true ∧ laned.trp.laneSent.length = 4 ∧ laned.trp.flight.length = 4
    ∧ laned.inputServed 111 = true ∧ laned.exercising 111 .c = false ∧ (laned.comp 111 .c).level ≠ false
    ∧ (doInputLevelChange 111 .c false laned).laneSource .c 1 ≠ laned.trp.laneSent.getD 2 0 := by decide +kernel

/-- FILT of 1 ms, an input that has held for it, and one that has not. -/
def filtering (since : Time) : State :=
  { sensing 0 true with ins := run.ins.set 111 { cfg := 0xA0000001 }, comps := List.replicate 224 { level := true, xAt := since } }

theorem test_witness_FilterExpiry :
    let s := (filtering 0).frm.tb
    (filtering (s - 1000)).shaped = true ∧ ((filtering (s - 1000)).comp 111 .c).xAt.toNat + (filtering (s - 1000)).filtTicks 111 ≤ s.toNat
      ∧ s.toNat < ((filtering (s - 999)).comp 111 .c).xAt.toNat + (filtering (s - 999)).filtTicks 111 := by decide +kernel

/-- Input 111 with OPEN_WIRE enabled, its readings beyond a level since a time. -/
def wired (low high : Option Time) (live : BitVec 5) : State :=
  let s := sensing 0 true
  { s with frm := { s.frm with tb := 200000, tbD := 200000 }, ins := s.ins.set 111 { cfg := 0xA0000000, lowSince := low, highSince := high, live := live } }

theorem test_witness_OpenWire : (wired (some 100000) none 0).shaped = true ∧ (wired (some 100000) none 0).noChipReset = true
    ∧ ((wired (some 100000) none 0).inp 111).cfg.getLsbD 29 = true ∧ ((wired (some 100000) none 0).inp 111).live.getLsbD 1 = false
    ∧ ((wired (some 100000) none 0).inp 111).lowSince = some 100000 ∧ (100000 : Time).toNat + 100000 ≤ (wired none none 0).frm.tb.toNat
    ∧ (wired (some 100001) none 0).wireHeld 111 true = false ∧ ((wired none (some 100000) 2).inp 111).live.getLsbD 1 = true
    ∧ ((wired none (some 100000) 2).inp 111).highSince = some 100000 ∧ (wired (some 100000) none 0).wireHeld 111 true = true
    ∧ (wired (some 100000) none 0).hears (fibOf (bankOfInput 111)) 1 = true := by decide +kernel

/-- The exercise of die 1 began 20 ns ago. -/
theorem test_witness_ExerciseEnds : (checking 9).exerciseEnds = 2 ∧ (checking 9).exerciseEnds.getLsbD (dieOfBank 7) = true
    ∧ { checking 9 with prog := { (checking 9).prog with exStart := [99999, 99999] } }.exerciseEnds = 0 := by decide +kernel

/-- A bank's fence reaches its own window. -/
theorem test_witness_WheelRuns_fenced :
    let s : State := { ownWindow with inBanks := ownWindow.inBanks.set 0 { fenced := true } }
    s.bankFenced (bankOfSlot 0) = true ∧ s.pwl.window = some 0 ∧ s.noChipReset = true ∧ s.shaped = true := by decide +kernel

/-- SO46's OVERLOAD latched in this cycle, and no CONTENTION. -/
theorem test_witness_OutputCausesHold_replaced :
    let s : State := { run with
      outs := run.outs.set 46 { overSince := some 99900, latch := 2, hold := true }
      marks := { time := run.frm.tb, bits := [(.fob 7, 0x140 + 4 * 4, 1)] } }
    s.shaped = true ∧ s.noChipReset = true ∧ s.contenders 47 = [46] ∧ (s.freshOut 46).getLsbD 1 = true ∧ (s.freshOut 46).getLsbD 2 = false
      ∧ (s.out 46).latch.getLsbD 1 = true ∧ (s.out 46).hold = true ∧ s.sinks 47 = true ∧ s.standing 47 2 = false := by decide +kernel

/-- A foreign observation of SO40 that has ended 0.5 µs after the window of slot 3, pending or not. -/
def observed (pend : Option (BitVec 6)) : State :=
  { run with outs := run.outs.set 40 { foreignOn := true, foreignHit := true, forPend := pend }
             pwl := { run.pwl with lastSlot := some 3, windowEnd := 99950 } }

theorem test_witness_SensesFollow_foreign : (observed none).shaped = true ∧ (observed none).noChipReset = true
    ∧ bankOfOutput 40 < (observed none).banks ∧ (observed none).pwl.window = none ∧ (observed none).pwl.lastSlot = some 3
    ∧ ((observed none).out 40).foreignOn = true ∧ ((observed none).out 40).foreignHit = true
    ∧ (observed none).frm.tb.toNat ≤ (observed none).pwl.windowEnd.toNat + 50 ∧ ((observed none).out 40).forPend = none
    ∧ ((observed (some 3)).out 40).forPend = some 3 ∧ (observed (some 3)).standing 40 7 = false
    ∧ (observed (some 3)).hears (fobOf (bankOfOutput 40)) 7 = true
    ∧ ({ rbC := true, rbD := true } : Sense).srcOver = false := by decide +kernel

/-- A pulse source's window in progress, SO40 judged in it. -/
theorem test_witness_SensesFollow_window :
    let s : State := { ownWindow with outs := ownWindow.outs.set 40 { judged := true } }
    s.shaped = true ∧ s.pwl.window ≠ none ∧ (s.out 40).judged = true := by decide +kernel

/-! Host ports. -/

/-- A cell with its sequence number, session tag and CRC as the port expects them. -/
def cell (s : State) (op : Nat) (ws : List Word) (c : CellHead) : CellHead :=
  let p := s.hp c.port.val
  let c := { c with seq := p.expSeq }
  let c := { c with sessTag := (p.session.getD {}).tag op c ws }
  { c with crc := s.crcField 0 c.port.val p.expSeq (cellBytes op c ws) }

theorem test_witness_CellsRefused : run.shaped = true ∧ run.portServes 3 = true ∧ run.noChipReset = true ∧ run.hears (hpOf 3) 2 = true
    ∧ (cell run 15 [] { port := 3 }).seq = (run.hp 3).expSeq
    ∧ (cell run 15 [] { port := 3 }).crc = run.crcField 0 3 (run.hp 3).expSeq (cellBytes 15 (cell run 15 [] { port := 3 }) [])
    ∧ ({ port := 3, seq := 1 } : CellHead).seq ≠ (run.hp 3).expSeq ∧ run.hears (hpOf 3) 1 = true := by decide +kernel

/-- A READ of 64 words, a WRITE of one, at the last word of a page. -/
theorem test_witness_CellsAccepted : run.hps.length = 4 ∧ run.cellCode 0 (cell run 0 [] { port := 3 }) [] = 0
    ∧ run.cellCode 1 (cell run 1 [] { port := 3, tag := 31, stream := 3, len := 63, addr := 0x40F00 }) [] = 0
    ∧ run.cellCode 2 (cell run 2 [5] { port := 3, tag := 31, addr := 0x40FFC }) [5] = 0 := by decide +kernel

/-- A response waits at port 3. -/
def answered : State := { run with hps := [{}, {}, {}, { txns := [{ resp := some {} }] }] }

theorem test_witness_CellsAccepted_fetch : answered.cellCode 3 (cell answered 3 [] { port := 3 }) [] = 0 ∧ answered.portServes 3 = true
    ∧ (answered.hp 3).txns = [{ resp := some {} }] ∧ (cell answered 3 [] { port := 3 }).addr = 0 := by decide +kernel

/-- Port 0 with a nonce and an open session, the session key loaded. -/
def session : State :=
  { run with
    hps := [{ nonce := some 7, session := some { ks := 9 } }, {}, {}, {}], otp := { sess := some 1 }
    bst := { run.bst with keysLoaded := true }, own := { run.own with workSess := 1 } }

/-- The proof for the nonce, after the host's own four words. -/
def proof : List Word := [1, 2, 3, 4] ++ wordsOf ((cmac (keyBytes (1 : BitVec 128)) (authBytes 1 0 7 [1, 2, 3, 4])).take 8)

theorem test_witness_SessionsRun : session.shaped = true ∧ session.noChipReset = true ∧ session.portServes 0 = true
    ∧ session.dev.state ≠ .start ∧ session.dev.state ≠ .shakeout ∧ (session.hp 0).txns = []
    ∧ session.cellCode 4 (cell session 4 [] { port := 0 }) [] = 0 ∧ session.cellCode 6 (cell session 6 [] { port := 0 }) [] = 0
    ∧ session.hears (.hp 0) 4 = true ∧ session.dev.state ≠ .commission ∧ session.dev.supervisor.toNat = 0 := by decide +kernel

theorem test_witness_SessionsRun_auth : proof.length = 6 ∧ session.cellCode 5 (cell session 5 proof { port := 0, len := 5 }) proof = 0
    ∧ session.proofOk 0 (txnOf 5 { port := 0, len := 5 } proof false) = true
    ∧ session.cellCode 5 (cell session 5 [1, 2, 3, 4, 5, 6] { port := 0, len := 5 }) [1, 2, 3, 4, 5, 6] = 0
    ∧ session.proofOk 0 (txnOf 5 { port := 0, len := 5 } [1, 2, 3, 4, 5, 6] false) = false := by decide +kernel

theorem test_witness_SessionsRun_tag : session.cellCode 7 (cell session 7 [] { port := 0, priv := true }) [] = 0
    ∧ session.tagValid 7 (cell session 7 [] { port := 0, priv := true }) [] = true := by decide +kernel

/-- A READ of 64 words of page 0x003 stands at the head of a stream. -/
def reading (d : DevState) (addr : BitVec 24) (len : Nat) : State :=
  { inState d with hps := [{}, {}, {}, { txns := [{ op := 1, stream := 3, addr := addr, len := len }] }] }

theorem test_witness_RefusedRead : (reading .start 0x3000 64).shaped = true ∧ (reading .start 0x3000 64).noChipReset = true
    ∧ (reading .start 0x3000 64).dev.state ≠ .off
    ∧ (reading .start 0x3000 64).headTxn 3 3 = some { op := 1, stream := 3, addr := 0x3000, len := 64 }
    ∧ (reading .start 0x3000 64).judge 3 { op := 1, stream := 3, addr := 0x3000, len := 64 } = some ⟨0x02, false⟩ := by decide +kernel

theorem test_witness_IdentityReadable : (reading .run 0x8B000 2).shaped = true ∧ (reading .run 0x8B000 2).mapped (.fob 3) = true
    ∧ (reading .run 0x8B000 2).compat = false
    ∧ (reading .run 0x8B000 2).headTxn 3 3 = some { op := 1, stream := 3, addr := 0x8B000, len := 2 }
    ∧ (0x8B000 : BitVec 24) = BitVec.ofNat 24 (4096 * (Page.fob 3).number)
    ∧ (∀ d : Fin 2, ((reading .run 0x8B000 2).bar d).fenced = false)
    ∧ (reading .run 0x8B004 1).headTxn 3 3 = some { op := 1, stream := 3, addr := 0x8B004, len := 1 }
    ∧ (0x8B004 : BitVec 24) = BitVec.ofNat 24 (4096 * (Page.fob 3).number + 4) := by decide +kernel

theorem test_witness_PortTimersEnd : run.dev.state ≠ .off ∧ ({ resetting := true } : Hp).resetting = true ∧ run.shaped = true
    ∧ run.noChipReset = true ∧ run.portServes 3 = true ∧ run.hears (.hp 3) 5 = true := by decide +kernel

theorem test_witness_OwnershipEnds :
    let s := run.updHdr (.fob 7) fun h => { h with own := { h.own with draining := true, pending := true, target := 1, dest := 3 } }
    let k (n : BitVec 2) : State := { run with own := { run.own with keyBusy := true, keyGoing := n } }
    s.shaped = true ∧ (s.hdr (.fob 7)).own.draining = true ∧ s.drainLeft (.fob 7) = 0 ∧ (s.hdr (.fob 7)).own.byAssign = false
      ∧ (k 1).own.keyBusy = true ∧ (k 1).own.keyGoing = 1 ∧ (k 2).own.keyGoing = 2 ∧ (k 2).shaped = true ∧ (k 2).noChipReset = true
      ∧ (k 2).hears .own 0 = true := by decide +kernel

/-! Scratchpad banks and check contexts. -/

/-- Context 5 reads a job of two words from bank 15 in a power state. -/
def job (p : Power) (retry : Bool) : State :=
  { run with
    ctxs := run.ctxs.set 5 { busy := true, jobBank := 15, jobLen := 2, retry := retry }, spbs := run.spbs.set 15 { power := p } }

theorem test_witness_BanksServe : (job .on false).shaped = true ∧ ((job .on false).ctx 5).busy = true
    ∧ ((job .on false).ctx 5).jobPos + 1 ≠ ((job .on false).ctx 5).jobLen ∧ ((job .on false).spb 15).power = .on
    ∧ ((job .on false).spb 15).fenced = false ∧ (job .on false).spc.borrowed = false ∧ ((job .on true).ctx 5).retry = true
    ∧ ((job .retain false).spb 15).power ≠ .on ∧ (job .on false).noChipReset = true ∧ (job .on false).hears (spbOf 15) 0 = true
    ∧ (job .on false).hears .chk (16 + 5) = true := by decide +kernel

/-- The job's last word is read next. -/
theorem test_witness_BanksServe_last :
    let s := (job .on false).updCtx 5 fun x => { x with jobPos := 1 }
    s.shaped = true ∧ (s.ctx 5).busy = true ∧ (s.ctx 5).jobPos + 1 = (s.ctx 5).jobLen ∧ (s.ctx 5).retry = false ∧ (s.ctx 5).jobCheck = false
      ∧ (s.spb 15).power = .on ∧ (s.spb 15).fenced = false ∧ s.spc.borrowed = false := by decide +kernel

/-- Bank 15 in a power state, with a request. -/
def powered (p : Power) (req : BitVec 2) : State := { run with spbs := run.spbs.set 15 { power := p, req := req } }

theorem test_witness_BanksServe_power : (powered .filling 0).shaped = true ∧ ((powered .filling 0).spb 15).fenced = false
    ∧ (powered .filling 0).jobsOn 15 = [] ∧ ((powered .filling 0).spb 15).power = .filling ∧ ((powered .on 1).spb 15).req = 1
    ∧ ((powered .on 2).spb 15).power = .on ∧ ((powered .retain 0).spb 15).power = .retain ∧ ((powered .retain 2).spb 15).req = 2 := by
  decide +kernel

/-- Port 3 at a check of R456, and a cell of an operation with CRC and SEQ right. -/
def porting (p : Hp) : State := { run with hps := [{}, {}, {}, p] }

theorem test_witness_CellsRefused_codes :
    let whole := fun (s : State) (op : Nat) (ws : List Word) (c : CellHead) => (cell s op ws c).crc = s.crcField 0 3 (s.hp 3).expSeq (cellBytes op (cell s op ws c) ws)
      ∧ (cell s op ws c).seq = (s.hp 3).expSeq ∧ formatOk op (cell s op ws c) = true ∧ s.shaped = true ∧ s.portServes 3 = true
    ({ (cell run 0 [] { port := 3 }) with crc := 0 }).crc ≠ run.crcField 0 3 (run.hp 3).expSeq (cellBytes 0 { (cell run 0 [] { port := 3 }) with crc := 0 } [])
      ∧ ({ (cell run 0 [] { port := 3 }) with crc := 0 }).seq = (run.hp 3).expSeq
      ∧ formatOk 1 { port := 3, addr := 2 } = false ∧ whole (porting { resetting := true }) 2 [7] { port := 3 }
      ∧ whole (porting { fenced := true }) 1 [] { port := 3 } ∧ (porting { fenced := true }).hears (hpOf 3) 2 = true
      ∧ whole (porting { txns := [{ tag := 4 }] }) 5 [1, 2, 3, 4, 5, 6] { port := 3, tag := 4, len := 5 }
      ∧ whole (porting { tokens := 0, txns := [{ tag := 4 }] }) 7 [] { port := 3, tag := 5, priv := true }
      ∧ (porting { tokens := 0 }).hears (hpOf 3) 3 = true ∧ (porting { resetting := true }).noChipReset = true := by decide +kernel

/-- Two responses wait at port 3, that of tag 2 ready first; a third transaction is in flight. -/
def answers : State :=
  porting { txns := [{ tag := 1, resp := some {}, order := 5 }, { tag := 2, resp := some { status := 1 }, order := 4 }, { tag := 3 }], lastFetched := some {} }

theorem test_witness_CellsAccepted_several : answers.cellCode 3 (cell answers 3 [] { port := 3 }) [] = 0 ∧ answers.hps.length = 4
    ∧ (answers.hp 3).txns.all (fun y => y.fetched || y.resp.isNone || decide (y = { tag := 2, resp := some { status := 1 }, order := 4 }) || decide (4 < y.order))
    ∧ answers.cellCode 3 (cell answers 3 [] { port := 3, addr := 0x21 }) [] = 0
    ∧ (cell answers 3 [] { port := 3, addr := 0x21 }).addr = 0x20 ||| (1 : BitVec 5).setWidth 24
    ∧ answers.cellCode 3 (cell answers 3 [] { port := 3, addr := 0x40 }) [] = 0 ∧ (answers.hp 3).lastFetched = some {}
    ∧ run.cellCode 3 (cell run 3 [] { port := 3 }) [] = 0 ∧ (run.hp 3).txns = [] := by decide +kernel

/-- An uncorrectable word of a job, with JOB_ERR of its context disabled. -/
theorem test_witness_BanksServe_ecc : (({ uncorr := true, checkBit := false } : EccErr).uncorr = true)
    ∧ (((job .on false).updHdr .chk fun h => { h with enable := 0 }).hdr .chk).enable.getLsbD (8 + 5) = false
    ∧ ((job .on false).updHdr .chk fun h => { h with enable := 0 }).shaped = true
    ∧ ((job .on false).updHdr .chk fun h => { h with enable := 0 }).noChipReset = true
    ∧ ((job .on false).updHdr .chk fun h => { h with enable := 0 }).hears (spbOf 15) 0 = true := by decide +kernel

/-- Two entries wait, the second the earlier, and three events were lost. -/
theorem test_witness_LogAndWindowsEnd_several :
    let a : LogItem := { time := 99940, w0 := 0x1000, w1 := 0x22 }
    let b : LogItem := { time := 99930, w0 := 0x1001, w1 := 0x9 }
    let s : State := { run with evl := { queue := [a, b], lost := 3 } }
    b ∈ s.evl.queue ∧ s.memOk = true ∧ s.dev.state ≠ .off ∧ b.w0.toNat < 65536 ∧ b.time.toNat + 50 ≤ s.frm.tb.toNat ∧ b.time < a.time ∧ s.evl.lost ≠ 0 := by
  decide +kernel

/-- IMG in an incident with MERGE_COUNT 0 of a MINOR reaction, its window open. -/
def merging : State :=
  run.updHdr .img fun h => { h with windowOpen := true, inWindow := 1, incident := { isOpen := true, reaction := 1, events := 1, serial := 4 } }

theorem test_witness_EventRecorded_merged : merging.shaped = true ∧ merging.hears .img 1 = true ∧ ({ page := .img, cause := 1 } : Ev).placed = true
    ∧ merging.evl.queue.length < 64 ∧ (merging.hdr .img).incident.isOpen = true ∧ merging.shadowFor { page := .img, cause := 1 } = none
    ∧ (merging.hdr .img).hist.next < 8 ∧ (merging.hdr .img).incident.events < 7
    ∧ ((({ page := .fib 7, cause := 1, unit := some 13 } : Ev).placed && ({ page := .pwl, cause := 8 } : Ev).placed
      && !({ page := .fob 0, cause := 16, unit := some 0 } : Ev).placed) = true) ∧ run.hears .pwl 8 = true ∧ run.hears (.fib 7) 1 = true := by decide +kernel

/-- A shadow of an incident of BAR 0 over an event of FIB0, and over one of BAR 0 itself. -/
def shadowed : State :=
  { run.updHdr (.bar 0) fun h => { h with incident := { isOpen := true, serial := 9 } } with
    shadows := [{ sets := [(.fib 0, 2, none), (.bar 0, 1, none)], origin := .bar 0, serial := 9, opened := 99990 }] }

theorem test_witness_EventRecorded_consequential : shadowed.shaped = true ∧ shadowed.hears (.fib 0) 1 = true
    ∧ (shadowed.shadowFor { page := .fib 0, cause := 1, unit := some 2 }).isSome = true
    ∧ (shadowed.shadowFor { page := .bar 0, cause := 0 }).isSome = true ∧ (shadowed.hdr (.bar 0)).incident.isOpen = true
    ∧ (shadowed.hdr (.bar 0)).incident.serial = 9 ∧ shadowed.evl.queue.length < 64 ∧ (shadowed.hdr (.fib 0)).incident.isOpen = false := by decide +kernel

/-! Faults and the event log. -/

/-- No cause of DEV or SUP is enabled. -/
def deaf : State := (run.updHdr .dev fun h => { h with enable := 0 }).updHdr .sup fun h => { h with enable := 0 }

theorem test_witness_DisabledCauseSilent : deaf.shaped = true ∧ (deaf.hdr .dev).enable.getLsbD 0 = false ∧ (run.hdr .dev).enable.getLsbD 31 = false
    ∧ deaf.dev.errDiff = 0 ∧ (deaf.hdr .sup).enable.getLsbD (railNum .bar) = false ∧ deaf.sup.ovLive.getLsbD (railNum .bar) = false := by decide +kernel

theorem test_witness_EventRecorded :
    let s := run.updHdr .img fun h => { h with fltN := 2 }
    s.shaped = true ∧ s.hears .img 1 = true ∧ s.shadows = [] ∧ (s.hdr .img).incident.isOpen = false
      ∧ ((s.hdr .img).classify.2 &&& 7).toNat ≤ 1 ∧ s.evl.queue.length < 64 := by decide +kernel

theorem test_witness_LogAndWindowsEnd :
    let w := run.updHdr .img fun h => { h with windowOpen := true, inWindow := 1 }
    let it : LogItem := { time := 99950, w0 := 0xFFFF }
    let l : State := { run with evl := { queue := [it] } }
    w.dev.state ≠ .off ∧ w.received .img = true ∧ (w.hdr .img).windowOpen = true
      ∧ l.memOk = true ∧ l.evl.queue = [it] ∧ l.evl.lost = 0 ∧ it.w0.toNat < 65536 ∧ it.time.toNat + 50 ≤ l.frm.tb.toNat := by decide +kernel

/-- SAFE at the end of an evaluated frame, with SAFE_RESET reading 1. -/
def safe : State := { run with dev := (inState .safe).dev, prog := { evalEnded := true, safeReset := true } }

theorem test_witness_SafeEnteredAndLeft : run.shaped = true ∧ run.dev.state = .run ∧ run.hears .cmp 10 = true ∧ run.shadows = []
    ∧ (run.hdr .cmp).incident.isOpen = false ∧ ((run.hdr .cmp).classify.2 &&& 7) = 5 ∧ run.isR36 .cmp 10 = true
    ∧ run.hears .img 1 = true ∧ ((run.hdr .img).classify.2 &&& 7) = 5 ∧ run.isR36 .img 1 = false
    ∧ safe.frm.running = true ∧ safe.syncOn = false ∧ safe.dev.state = .safe ∧ safe.prog.evalEnded = true ∧ safe.dev.safeR36 = false
    ∧ safe.stopOpen = false ∧ safe.prog.safeReset = true ∧ { safe.dev with safeR36 := true }.safeR36 = true
    ∧ { safe with prog := { safe.prog with evalEnded := false } }.prog.evalEnded = false := by decide +kernel

/-- A WRITE of one word, in a session. -/
def writes (p : Page) (off : Nat) (w : Word) : Txn :=
  { op := 2, addr := BitVec.ofNat 24 (4096 * p.number + off), priv := true, tagOk := true, payload := [w] }

/-- It stands at the head of a stream of port n. -/
def writing (s : State) (n : Fin 4) (p : Page) (off : Nat) (w : Word) : State := s.updHp n fun q => { q with txns := [writes p off w] }

/-- The WRITE passes every check of R46, and the state has its shape. -/
def allowed (n : Fin 4) (p : Page) (off : Nat) (w : Word) (s : State) : Bool :=
  let t := writing s n p off w
  let x := writes p off w
  t.shaped && t.noChipReset && t.dev.state != .off && t.headTxn n 0 == some x && t.txnPage x == p.number && x.off == off && t.judge n x == none
    && t.mapped p && !t.frozenPage p && t.img.asked == none

theorem allowed_puts {n : Fin 4} {p : Page} {off : Nat} {w : Word} {s : State} (h : allowed n p off w s = true) :
    (writing s n p off w).puts n 0 (writes p off w) p off w := by
  simp only [allowed, Bool.and_eq_true, beq_iff_eq, bne_iff_ne, ne_eq, Bool.not_eq_true'] at h
  obtain ⟨⟨⟨⟨⟨⟨⟨⟨⟨_, _⟩, h3⟩, h4⟩, h5⟩, h6⟩, h7⟩, h8⟩, h9⟩, h10⟩ := h
  exact ⟨⟨h3, h4, rfl, h5, h6, h7, h8, h9, h10⟩, rfl, rfl⟩

/-- A READ of port 0 for an offset of a page. -/
def asking (s : State) (p : Page) (off : Nat) (op : BitVec 4) (ok : Bool) : State :=
  s.updHp 0 fun q => { q with txns := [{ writes p off 7 with op := op, tagOk := ok }] }

theorem test_witness_RegisterWritesTakeEffect : allowed 0 .img 0x18 1 run = true ∧ allowed 0 .img 0x1C 0xFFFFFFFF run = true
    ∧ allowed 0 .cop 0x24 0x1600 run = true ∧ allowed 3 (.hp 3) 0x1C 2 run = true ∧ allowed 0 (.spb 9) 0x28 2 run = true
    ∧ allowed 0 (.fob 7) 0x2C 9 run = true ∧ allowed 0 .clk 0x00 7 run = true
    ∧ (asking run .img 0x18 2 false).judge 0 { writes .img 0x18 7 with tagOk := false } = some ⟨0x05, true⟩
    ∧ (asking (inState .shakeout) .img 0x18 2 true).judge 0 (writes .img 0x18 7) = some ⟨0x01, false⟩
    ∧ (asking run .img 0x18 2 false).headTxn 0 0 = some { writes .img 0x18 7 with tagOk := false } ∧ run.hears (hpOf 0) 0 = true
    ∧ (asking run .img 0x18 1 true).judge 0 { writes .img 0x18 7 with op := 1 } = none ∧ (asking run .img 0x18 1 true).mapped .img = true := by
  decide +kernel

/-- SUP with WARN counted, IMG with two causes latched, an output of bank 7 with its PARTNER. -/
def latched : State :=
  let s := run.updHdr .img fun h => { h with latch := 3, incident := { isOpen := true } }
  let s := { s with sup := { s.sup with events := 0x1F }
                    outs := (s.outs.set 42 { cfg := 0x102B0000, latch := 0x200, hold := true }).set 43 { cfg := 0x102A0000, latch := 2, hold := true } }
  s.updHdr .trp fun h => { h with latch := 1 }

theorem test_witness_FaultRegistersTakeEffect : allowed 0 .img 0x14 2 latched = true ∧ allowed 0 .img 0x14 3 latched = true
    ∧ (latched.hdr .img).incident.isOpen = true ∧ (latched.liveOf .img).getLsbD 1 = false ∧ latched.marks.bits = []
    ∧ (latched.setLive .img 0 true).liveOf .img = 1 ∧ allowed 0 .img 0x14 1 (latched.setLive .img 0 true) = true ∧ allowed 0 (.fob 7) 0x14 0x202 latched = true
    ∧ latched.partner (outputOf 7 0) = some 43 ∧ bankOfOutput 43 = 7 ∧ latched.ownLive 43 &&& 0x1F7 = 0 ∧ (latched.out 43).latch &&& 0x1F7 &&& ~~~0x202 = 0
    ∧ (latched.hdr (.fob 7)).latch.getLsbD 20 = false ∧ allowed 0 .cop 0x0C 1 run = true ∧ allowed 0 .frm 0x13C 1 run = true ∧ allowed 0 .crb 0x104 1 run = true
    ∧ allowed 0 .sup 0x108 3 latched = true := by decide +kernel

theorem test_witness_FaultRegisters_locked :
    let s := run.updHdr .cop fun h => { h with own := { h.own with locked := true } }
    (s.hdr .cop).own.locked = true ∧ s.mapped .cop = true ∧ allowed 0 .cop 0x2C 1 s = false ∧ s.txnPage (writes .cop 0x2C 1) = Page.cop.number
      ∧ (writes .cop 0x2C 1).off = 0x2C := by decide +kernel

/-- A job of bank 15 runs; ports 1 and bank 14 and context 2 are fenced, bank 13 is marked unusable; key 1 is set. -/
def owned : State :=
  let s := job .on false
  { s with hps := [{}, { fenced := true }, {}, {}], otp := { sess := some 1 }
           spbs := (s.spbs.set 14 { fenced := true }).set 13 { fenced := true, unusable := true }
           ctxs := s.ctxs.set 2 { fenced := true } }

theorem test_witness_OwnershipRegistersTakeEffect : allowed 0 (.fob 7) 0x08 3 owned = true ∧ allowed 0 (.fob 7) 0x08 0x103 owned = true
    ∧ (owned.hdr (.fob 7)).own.pending = false ∧ fixedOwner (.fob 7) = false ∧ (owned.hdr (.fob 7)).own.nohand = false ∧ (owned.hp 3).fenced = false
    ∧ (owned.hdr (.fob 7)).own.flask = 0 ∧ allowed 0 (.fob 7) 0x08 0x100 owned = true ∧ allowed 0 (.fob 7) 0x08 0x104 owned = true
    ∧ allowed 0 (.fob 7) 0x08 0x101 owned = true ∧ (owned.hp 1).fenced = true ∧ allowed 0 .dev 0x08 0x102 owned = true ∧ fixedOwner .dev = true
    ∧ allowed 0 (.spb 15) 0x08 0x102 owned = true ∧ 5 ∈ owned.jobsOn 15 ∧ allowed 0 (.spb 12) 0x08 0x102 owned = true
    ∧ owned.jobsOn 12 = [] := by decide +kernel

theorem test_witness_OwnershipRegisters_drain :
    let s := owned.updHdr (.fob 7) fun h => { h with own := { h.own with pending := true, draining := true, dest := 2 } }
    let d := owned.updHdr .chk fun h => { h with enable := 0 }
    allowed 2 (.fob 7) 0x08 0x103 s = false ∧ (s.hdr (.fob 7)).own.draining = true ∧ (s.hdr (.fob 7)).own.pending = true
      ∧ (∀ j < 8, (d.hdr .chk).enable.getLsbD (8 + j) = false) ∧ allowed 0 (.spb 15) 0x08 0x102 d = true := by decide +kernel

theorem test_witness_OwnershipRegisters_assign :
    let owned := { owned with dev := (inState .load).dev }
    allowed 0 .own 0x10C 0x08B00002 owned = true ∧ allowed 0 .own 0x10C 0x08B80002 owned = true
    ∧ pageOf 0xFFF = none ∧ allowed 0 .own 0x10C 0xFFF80002 owned = true ∧ (Page.fob 3).number = 0x08B ∧ owned.mapped (.fob 3) = true
    ∧ (Page.fob 3).assignable = true ∧ (owned.hdr (.fob 3)).own.draining = false ∧ (owned.hdr (.fob 3)).own.flask ≠ 2
    ∧ allowed 0 .own 0x10C 0x08B80000 owned = true
    ∧ Page.assignable .dev = false ∧ allowed 0 .own 0x10C 0x08B80004 owned = true := by decide +kernel

theorem test_witness_OwnershipRegisters_keys :
    let k := { owned with dev := (inState .commission).dev }
    allowed 0 .own 0x110 2 k = true ∧ allowed 0 .own 0x110 5 k = true ∧ allowed 0 .own 0x110 6 k = true
    ∧ owned.otp.sess.isSome = true ∧ owned.otp.img = none ∧ owned.own.keyBusy = false ∧ allowed 2 (.hp 2) 0x118 9 owned = true
    ∧ allowed 2 (.hp 2) 0x11C 9 owned = true ∧ allowed 0 .own 0x108 2 owned = true ∧ bitMask 32 1 = 2 ∧ allowed 0 .spc 0x110 0x4000 owned = true
    ∧ (owned.spb 14).fenced = true ∧ (owned.spb 14).unusable = false ∧ allowed 0 .spc 0x110 0x2000 owned = true ∧ (owned.spb 13).unusable = true
    ∧ allowed 0 .spc 0x110 1 owned = true ∧ (owned.spb 0).fenced = false ∧ allowed 0 .chk 0x104 0x400 owned = true ∧ (owned.ctx 2).fenced = true
    ∧ allowed 0 .chk 0x104 0x800 owned = true ∧ (owned.ctx 3).fenced = false := by decide +kernel

/-- SAFE for a cause of R36; LOAD in which the host loads. -/
def stopped : State := { inState .safe with dev := { (inState .safe).dev with safeR36 := true } }
def hostLoads : State := { inState .load with img := { phase := .waitingHost } }

theorem test_witness_ControlRegisters_img : allowed 0 .img 0x104 0xF0400 run = true ∧ allowed 0 .img 0x104 0x301 run = true
    ∧ allowed 0 .img 0x104 0x501 run = true
    ∧ run.dev.state.reloads = true ∧ allowed 0 .img 0x104 0x101 stopped = true ∧ stopped.dev.state = .safe ∧ stopped.dev.state.reloads = true
    ∧ allowed 0 .img 0x104 0xF0401 run = true ∧ (run.spb 15).power = .on ∧ (run.spb 15).fenced = false ∧ run.spc.borrowed = false
    ∧ allowed 0 .img 0x104 0xF0401 (powered .retain 1) = true ∧ ((powered .retain 1).spb 15).power ≠ .on ∧ (0xF0401 : Word).extractLsb' 8 3 = 4
    ∧ allowed 0 .img 0x104 2 hostLoads = true ∧ hostLoads.windowOpen = true ∧ allowed 0 .img 0x104 2 (inState .load) = true ∧ (inState .load).windowOpen = false
    ∧ hostLoads.dev.state ≠ .commission := by decide +kernel

theorem test_witness_ControlRegisters_spb : allowed 0 (.spb 15) 0x108 3 run = true ∧ allowed 0 (.spb 15) 0x108 1 run = true
    ∧ allowed 0 (.spb 14) 0x108 1 owned = true ∧ (run.spb 15).publish = false ∧ (run.spb 15).fenced = false ∧ (run.spb 15).unusable = false
    ∧ { run with spbs := run.spbs.set 15 { publish := true } }.spb 15 = { publish := true } := by decide +kernel

/-- Context 5 checks, its EXPECT the VALUE or not. -/
def expecting (x : Word) : State := { run with ctxs := run.ctxs.set 5 { expect := x, jobBank := 15, jobLen := 2 } }

theorem test_witness_ControlRegisters_chk : allowed 0 .chk 0x358 1 (expecting 0) = true ∧ allowed 0 .chk 0x358 2 (expecting 0) = true
    ∧ ((expecting 0).ctx 5).busy = false ∧ ((expecting 0).ctx 5).fenced = false
    ∧ ((expecting 0).ctx 5).fit 0 = ((expecting 0).ctx 5).result ∧ ((expecting 1).ctx 5).fit 1 ≠ ((expecting 1).ctx 5).result
    ∧ allowed 0 .chk 0x358 2 (expecting 1) = true := by
  decide +kernel

theorem test_witness_ControlRegisters_jobs :
    let s := expecting 0
    let d := s.updHdr .chk fun h => { h with enable := 0 }
    let f : State := { s with ctxs := s.ctxs.set 5 { jobBank := 15, jobOffset := 0x1FFF, jobLen := 2 } }
    allowed 0 .chk 0x358 4 s = true ∧ (s.hdr (spbOf 15)).own.flask = (s.hdr .chk).own.flask
      ∧ 4 * (s.ctx 5).jobOffset.toNat + 4 * (s.ctx 5).jobLen.toNat ≤ 0x8000 ∧ allowed 0 .chk 0x358 4 f = true
      ∧ 0x8000 < 4 * (f.ctx 5).jobOffset.toNat + 4 * (f.ctx 5).jobLen.toNat ∧ s.hears .chk 13 = true ∧ s.hears .chk 5 = true
      ∧ (d.hdr .chk).enable.getLsbD 5 = false ∧ (d.hdr .chk).enable.getLsbD 13 = false ∧ allowed 0 .chk 0x358 2 d = true
      ∧ allowed 0 .chk 0xD00 9 s = true ∧ (s.ctx 5).feeder = none ∧ allowed 0 .chk 0x354 9 s = true ∧ allowed 0 .chk 0x344 9 s = true
      ∧ allowed 0 .chk 0x340 9 (job .on false) = true ∧ ((job .on false).ctx 5).busy = true ∧ allowed 3 (.hp 3) 0x104 2 run = true := by decide +kernel

/-! Function blocks. -/

/-- A record of a type in a state, and inputs under which every reference reads a value. -/
def record (type st : Nat) : List Word := BitVec.ofNat 32 (type * 2 ^ 24 + st * 2 ^ 20 + 9) :: List.replicate 15 0
def seen (run safeFirst fenced v : Bool) : BlockIn :=
  { sref := fun _ => v, qual := fun _ => true, p := fun _ => 0, now := 2000, frame := 2, forced := false, run := run, safeFirst := safeFirst
    fenced := fenced, fresh := false, oqual := fun _ => v, runStart := 0, compat := false, permit := fun _ => (1, true), counted := fun _ _ => (0, 0) }

theorem test_witness_BlocksKeepTheirPromises :
    let q := fun (t st : Nat) (i : BlockIn) => ((evalBlock (record t st) i).1.getD 1 0).getLsbD 0
    q 0x01 1 (seen true false false true) = true ∧ q 0x01 1 (seen true false true true) = false ∧ q 0x01 4 (seen true false false true) = true
      ∧ q 0x01 4 (seen false false false true) = false ∧ q 0x01 1 (seen false true false true) = false ∧ q 0x0C 1 (seen true false false true) = true
      ∧ q 0x0C 1 (seen true false false false) = false ∧ q 0x0B 3 (seen true false false false) = false ∧ q 0x1A 0 (seen true false false true) = true
      ∧ q 0x12 0 (seen true false false false) = true ∧ (record 0x01 4).getD 1 0 = 0 := by decide +kernel

/-! Reactions. -/

theorem test_witness_ReactionsTaken : (4 : BitVec 4) &&& 7 = 4 ∧ (run.hp 3).fenced = false ∧ (run.spb 15).fenced = false ∧ run.jobsOn 15 = []
    ∧ (job .on false).jobsOn 15 = [5] ∧ (job .on false).noChipReset = true ∧ run.bankFenced 7 = false ∧ (run.bar 1).fenced = false
    ∧ (∀ i < 8, (run.ctx i).busy = false) ∧ run.otpFails = false ∧ (inState .shakeout).dev.stateTime ≠ { (inState .shakeout).frm with tb := 9 }.tb
    ∧ (owned.hp 1).fenced = true ∧ (owned.spb 14).fenced = true := by decide +kernel

theorem test_witness_ReactionsTaken_ctx :
    let s := run.updHdr .chk fun h => { h with latch := 0x20 }
    5 ∈ s.latchedCtxs ∧ 4 ∉ s.latchedCtxs ∧ (s.ctx 5).fenced = false := by decide +kernel

/-! The test access port. -/

theorem test_witness_Jtag : run.dev.state ≠ .off ∧ (inState .commission).shaped = true ∧ (inState .commission).noChipReset = true
    ∧ (inState .commission).dev.state = .commission ∧ (inState .commission).bst.scanCleared = false
    ∧ (inState .commission).hears .bst 1 = true ∧ run.dev.state ≠ .commission := by decide +kernel

/-! The two statements of where events complete: states beside those above. -/

theorem test_witness_CoreEventsTakeEffect : off.shaped = true ∧ off.noChipReset = true ∧ (stalled 0xC0).cope.refill = some 0xC0
    ∧ (armed 0xF).shaped = true ∧ (armed 0xF).noChipReset = true ∧ (armed 0xF).inEvalFrame = true ∧ (struck .full).noChipReset = true
    ∧ (sensing 0 true).noChipReset = true ∧ (sensing 2 false).noChipReset = true ∧ ownWindow.noChipReset = true ∧ run.linked 1 = true
    ∧ run.trp.laneCore.length = 4 ∧ run.trp.laneDest.length = 4 ∧ (exerciseAmidGap 99930).exerciseDue.getLsbD 1 = true ∧ (checking 9).prog.exercise ≠ none
    ∧ (pulsing 2).shaped = true ∧ (pulsing 2).noChipReset = true ∧ (pulsing 2).frm.frameOutCfg.extractLsb' 8 2 = 1
    ∧ (pulsing 2).frm.frameOutAt.toNat + (pulsing 2).frameOutWidth ≤ (pulsing 2).frm.tb.toNat := by decide +kernel

theorem test_witness_FieldEventsTakeEffect :
    let p : State := { run with hps := [{}, {}, {}, { resetting := true, tokens := 31 }] }
    let q : State := { run with evl := { queue := [{ time := 99950 }] }, own := { run.own with keyBusy := true } }
    let r := run.updHdr (.fob 7) fun h => { h with own := { h.own with draining := true, dest := 3 }, windowOpen := true }
    p.shaped = true ∧ p.noChipReset = true ∧ (p.hp 3).resetting = true ∧ p.portServes 2 = true ∧ (p.hp 3).tokens.toNat < (p.hp 3).bucket.toNat
      ∧ q.shaped = true ∧ q.noChipReset = true ∧ q.evl.lost = 0 ∧ (99950 : Time).toNat + 50 ≤ q.frm.tb.toNat ∧ q.own.keyBusy = true
      ∧ r.shaped = true ∧ r.noChipReset = true ∧ (r.hdr (.fob 7)).own.draining = true ∧ r.drainLeft (.fob 7) = 0
      ∧ (r.hdr (.fob 7)).own.byAssign = false ∧ r.received (.fob 7) = true ∧ (r.hdr (.fob 7)).windowOpen = true
      ∧ (job .on true).noChipReset = true ∧ (powered .filling 0).noChipReset = true := by decide +kernel

/-! Worked examples of the spec. -/

/-- R51: "FIB3 reads 0x8080_3001"; 13: "0x8040_C001 on SPB12". -/
theorem test_page_ids : pageId (.fib 3) = 0x80803001 ∧ pageId (.spb 12) = 0x8040C001 := by decide +kernel

/-- 14, example: FOLD_BASE 0x42_8000 with FOLD_ADDR begins at VALUE 0xFFBD_7FFF. -/
theorem test_job_init_folds_the_address : ({ cfg := 0x10, foldBase := 0x428000 } : Ctx).init.value = 0xFFBD7FFF := by decide

/-- 10, example: IN63_GAP after a foreign gap of slot 10 reads 0x800A_0000. -/
theorem test_gap_register : ({ fValid := true, fSlot := 10 } : GapReg).word false false = 0x800A0000 := by decide

/-- 06, example: emergency stop 10 with both contacts open goes from ENABLED to DEMAND with OPENED 1 and all outputs but Q3 at 0 (R244). -/
theorem test_estop_demand :
    let i : BlockIn :=
      { sref := fun _ => false, qual := fun _ => true, p := fun k => [0x10091008, 0x201001F4, 1].getD (k - 1) 0, now := 2000, frame := 2, forced := false, run := true
        safeFirst := false, fenced := false, fresh := false, oqual := fun _ => true, runStart := 0, compat := false
        permit := fun _ => (0, true), counted := fun _ _ => (0, 0) }
    let r := (evalBlock ([0x0110000A, 1] ++ List.replicate 14 0) i).1
    r.getD 0 0 = 0x0130000A ∧ r.getD 1 0 &&& 0xFF = 8 ∧ (r.getD 9 0).getLsbD 8 = true ∧ r.getD 3 0 = 2 ∧ r.getD 7 0 = 1 := by
  decide +kernel

/-- The check values that the CRC catalogues give for "123456789" (R519 names the three CRCs). -/
theorem test_crc_check_values :
    let m : List Byte := [0x31, 0x32, 0x33, 0x34, 0x35, 0x36, 0x37, 0x38, 0x39]
    crc32cOf Word.ones m = 0xE3069283 ∧ crc32 Word.ones m ^^^ Word.ones = 0xCBF43926 ∧ crc16 0xFFFF m = 0x29B1 := by decide +kernel

/-- AES-128 CMAC of the empty message under the key of the standard's examples (NIST SP 800-38B). -/
theorem test_cmac_example :
    cmac [0x2b, 0x7e, 0x15, 0x16, 0x28, 0xae, 0xd2, 0xa6, 0xab, 0xf7, 0x15, 0x88, 0x09, 0xcf, 0x4f, 0x3c] []
      = [0xbb, 0x1d, 0x69, 0x29, 0xe9, 0x59, 0x37, 0x28, 0x7f, 0xa3, 0x7d, 0x12, 0x9b, 0x75, 0x67, 0x46] := by decide +kernel

/-- R648, through a step. -/
theorem test_idcode_step : ∃ t, step { run with pending := [.idcode] } = .next t ∧ t.jtag.data = 0x1489616B ∧ t.pending = [] :=
  ⟨_, rfl, by decide +kernel, rfl⟩

end Sys2Proof.Tests
end

section
/-! What every command keeps, and when the strap pins are sampled. -/

namespace Sys2Proof.Machine

/-! A command's outcome is the state its operation gives; WRITE and AUTH test their payload's length first (R452). -/

theorem Keeps.of_next {s t u : State} (h : (.next u : Host.Outcome State Fault Refusal) = .next t) (k : Keeps s u) : Keeps s t := by
  injection h with e
  exact e ▸ k

theorem Keeps.of_guarded_next {s t u : State} {b : Prop} [Decidable b] {r : Fault}
    (h : (if b then .next u else .fault r : Host.Outcome State Fault Refusal) = .next t) (k : Keeps s u) : Keeps s t := by
  split at h
  · exact .of_next h k
  · cases h

/-- Every command but RESET_RELEASE (R612) and KEY_PROGRAM_DONE (R484) keeps all that Keeps names. -/
theorem keeps_exec {c : Instr} {s t : State} (hr : ∀ p, c ≠ .resetRelease p) (hk : ∀ ok, c ≠ .keyProgramDone ok)
    (h : exec c s = .next t) : Keeps s t := by
  cases c with
  | resetNAssert => exact .of_next h (keeps_doResetNAssert ..)
  | resetRelease => exact absurd rfl (hr _)
  | supplyLoss => exact .of_next h (keeps_doSupplyLoss ..)
  | supplyOv => exact .of_next h (keeps_doSupplyOv ..)
  | supplyWarn => exact .of_next h (keeps_doSupplyWarn ..)
  | pwrFailNAssert => exact .of_next h (keeps_doPwrFailNAssert ..)
  | pfHoldEnd => exact .of_next h (keeps_doPfHoldEnd ..)
  | refLost => exact .of_next h (keeps_doRefLost ..)
  | pllUnlock => exact .of_next h (keeps_doPllUnlock ..)
  | coreClockLost => exact .of_next h (keeps_doCoreClockLost ..)
  | errPin => exact .of_next h (keeps_doErrPin ..)
  | timebaseTick => exact .of_next h (keeps_doTimebaseTick ..)
  | barrierTrainingDone => exact .of_next h (keeps_doBarrierTrainingDone ..)
  | trainFail => exact .of_next h (keeps_doTrainFail ..)
  | recordReadDone => exact .of_next h (keeps_doRecordReadDone ..)
  | sliceDone => exact .of_next h (keeps_doSliceDone ..)
  | sliceBudgetExpiry => exact .of_next h (keeps_doSliceBudgetExpiry ..)
  | startExit => exact .of_next h (keeps_doStartExit ..)
  | slotCopyDone => exact .of_next h (keeps_doSlotCopyDone ..)
  | stagedCopyDone => exact .of_next h (keeps_doStagedCopyDone ..)
  | verifyDone => exact .of_next h (keeps_doVerifyDone ..)
  | recordStampDone => exact .of_next h (keeps_doRecordStampDone ..)
  | stampTimeout => exact .of_next h (keeps_doStampTimeout ..)
  | frameBoundary => exact .of_next h (keeps_doFrameBoundary ..)
  | syncInEdge => exact .of_next h (keeps_doSyncInEdge ..)
  | earliestBoundary => exact .of_next h (keeps_doEarliestBoundary ..)
  | syncWindowEnd => exact .of_next h (keeps_doSyncWindowEnd ..)
  | rawVectorArrival => exact .of_next h (keeps_doRawVectorArrival ..)
  | exchangeRawTimeout => exact .of_next h (keeps_doExchangeRawTimeout ..)
  | xchgTimeout => exact .of_next h (keeps_doXchgTimeout ..)
  | exercisePair => exact .of_next h (keeps_doExercisePair ..)
  | agreeCompare => exact .of_next h (keeps_doAgreeCompare ..)
  | evaluateStart => exact .of_next h (keeps_doEvaluateStart ..)
  | eval => exact .of_next h (keeps_doEval ..)
  | force => exact .of_next h (keeps_doForce ..)
  | pub => exact .of_next h (keeps_doPub ..)
  | endWord => exact .of_next h (keeps_doEndWord ..)
  | armAck => exact .of_next h (keeps_doArmAck ..)
  | cacheFill => exact .of_next h (keeps_doCacheFill ..)
  | stallTimeout => exact .of_next h (keeps_doStallTimeout ..)
  | overrun => exact .of_next h (keeps_doOverrun ..)
  | commitAt => exact .of_next h (keeps_doCommitAt ..)
  | strobeApply => exact .of_next h (keeps_doStrobeApply ..)
  | commitSplit => exact .of_next h (keeps_doCommitSplit ..)
  | permitLatch => exact .of_next h (keeps_doPermitLatch ..)
  | frameOutEnd => exact .of_next h (keeps_doFrameOutEnd ..)
  | inputLevelChange => exact .of_next h (keeps_doInputLevelChange ..)
  | tripTolExpiry => exact .of_next h (keeps_doTripTolExpiry ..)
  | ownMaskEnd => exact .of_next h (keeps_doOwnMaskEnd ..)
  | tripMessage => exact .of_next h (keeps_doTripMessage ..)
  | heartbeat => exact .of_next h (keeps_doHeartbeat ..)
  | hbMiss => exact .of_next h (keeps_doHbMiss ..)
  | chill => exact .of_next h (keeps_doChill ..)
  | laneTestEcho => exact .of_next h (keeps_doLaneTestEcho ..)
  | laneFail => exact .of_next h (keeps_doLaneFail ..)
  | darkPulseStart => exact .of_next h (keeps_doDarkPulseStart ..)
  | darkPulseEnd => exact .of_next h (keeps_doDarkPulseEnd ..)
  | ownWindowEnd => exact .of_next h (keeps_doOwnWindowEnd ..)
  | psShortHi => exact .of_next h (keeps_doPsShortHi ..)
  | psOverload => exact .of_next h (keeps_doPsOverload ..)
  | inputExercise => exact .of_next h (keeps_doInputExercise ..)
  | inputExerciseEnd => exact .of_next h (keeps_doInputExerciseEnd ..)
  | filterExpiry => exact .of_next h (keeps_doFilterExpiry ..)
  | currentMeasure => exact .of_next h (keeps_doCurrentMeasure ..)
  | openWire => exact .of_next h (keeps_doOpenWire ..)
  | refCheck => exact .of_next h (keeps_doRefCheck ..)
  | shortHi => exact .of_next h (keeps_doShortHi ..)
  | lsOpenDelay => exact .of_next h (keeps_doLsOpenDelay ..)
  | overload => exact .of_next h (keeps_doOverload ..)
  | openLoad => exact .of_next h (keeps_doOpenLoad ..)
  | overtemp => exact .of_next h (keeps_doOvertemp ..)
  | rbMismatch => exact .of_next h (keeps_doRbMismatch ..)
  | fvMeasure => exact .of_next h (keeps_doFvMeasure ..)
  | fvHigh => exact .of_next h (keeps_doFvHigh ..)
  | fvMeas => exact .of_next h (keeps_doFvMeas ..)
  | fvRecovery => exact .of_next h (keeps_doFvRecovery ..)
  | fvHighRecovery => exact .of_next h (keeps_doFvHighRecovery ..)
  | fvBlankEnd => exact .of_next h (keeps_doFvBlankEnd ..)
  | blockResetEnd => exact .of_next h (keeps_doBlockResetEnd ..)
  | classificationWindowEnd => exact .of_next h (keeps_doClassificationWindowEnd ..)
  | shadowEnd => exact .of_next h (keeps_doShadowEnd ..)
  | logEntryWrite => exact .of_next h (keeps_doLogEntryWrite ..)
  | cellAborted => exact .of_next h (keeps_doCellAborted ..)
  | nop => exact .of_next h (keeps_doNop ..)
  | read => exact .of_next h (keeps_doRead ..)
  | write => exact .of_guarded_next h (keeps_doWrite ..)
  | fetch => exact .of_next h (keeps_doFetch ..)
  | challenge => exact .of_next h (keeps_doChallenge ..)
  | auth => exact .of_guarded_next h (keeps_doAuth ..)
  | close => exact .of_next h (keeps_doClose ..)
  | shutdown => exact .of_next h (keeps_doShutdown ..)
  | takeEffect => exact .of_next h (keeps_doTakeEffect ..)
  | portBRetry => exact .of_next h (keeps_doPortBRetry ..)
  | tokenRefill => exact .of_next h (keeps_doTokenRefill ..)
  | handoverDrainDone => exact .of_next h (keeps_doHandoverDrainDone ..)
  | keyProgramDone => exact absurd rfl (hk _)
  | jobWordRead => exact .of_next h (keeps_doJobWordRead ..)
  | bankPowerChange => exact .of_next h (keeps_doBankPowerChange ..)
  | breakpointHit => exact .of_next h (keeps_doBreakpointHit ..)
  | scratchSegmentStart => exact .of_next h (keeps_doScratchSegmentStart ..)
  | scratchSegmentDone => exact .of_next h (keeps_doScratchSegmentDone ..)
  | arbiterAging => exact .of_next h (keeps_doArbiterAging ..)
  | cruciblePatrolRead => exact .of_next h (keeps_doCruciblePatrolRead ..)
  | lsmPatrolRead => exact .of_next h (keeps_doLsmPatrolRead ..)
  | recordWriteDone => exact .of_next h (keeps_doRecordWriteDone ..)
  | shakeoutAgeTick => exact .of_next h (keeps_doShakeoutAgeTick ..)
  | extest => exact .of_next h (keeps_doExtest ..)
  | samplePreload => exact .of_next h (keeps_doSamplePreload ..)
  | idcode => exact .of_next h (keeps_doIdcode ..)
  | clamp => exact .of_next h (keeps_doClamp ..)
  | highz => exact .of_next h (keeps_doHighz ..)
  | dbgAccess => exact .of_next h (keeps_doDbgAccess ..)
  | scanEn => exact .of_next h (keeps_doScanEn ..)
  | bypass => exact .of_next h (keeps_doBypass ..)
  | pllLock => exact .of_next h (keeps_doPllLock ..)
  | supplyReturn => exact .of_next h (keeps_doSupplyReturn ..)
  | refclkReturn => exact .of_next h (keeps_doRefclkReturn ..)
  | pwrFailNRise => exact .of_next h (keeps_doPwrFailNRise ..)
  | unusedOp => exact .of_next h (keeps_doUnusedOp ..)
  | busyNPulseEnd => exact .of_next h (keeps_doBusyNPulseEnd ..)
  | outputSenseChange => exact .of_next h (keeps_doOutputSenseChange ..)

/-! The sample at the release of RESET_N (R34). -/

/-- Where the release takes effect, nothing after the sample touches it: not the log, START, the trip latches or step 1. -/
theorem doResetRelease_straps (p : Straps) {s : State} (hoff : s.dev.state = .off) (hv : s.sup.valid = 0xF) (hl : s.clk.locked = true) :
    (doResetRelease p s).dev.straps = p := by
  unfold doResetRelease
  rw [if_pos (by simp [hoff, hv, hl])]
  extract_lets d u f e s1 s2
  have log : s2.dev.straps = p := (keeps_log ..).straps
  have start : (s2.enterStart s2.dev.offCause 0 0).dev.straps = p := (enterStart_straps ..).trans log
  exact (keeps_step1End _).straps.trans ((keeps_updateTrips _).straps.trans start)

theorem doResetRelease_of_ne_off (p : Straps) {s : State} (hoff : s.dev.state ≠ .off) : doResetRelease p s = s := by
  unfold doResetRelease
  exact if_neg (by simp [hoff])

/-- No command but a release in OFF changes the sample. -/
theorem exec_straps {c : Instr} {s t : State} (hc : (∀ p, c ≠ .resetRelease p) ∨ s.dev.state ≠ .off) (h : exec c s = .next t) :
    t.dev.straps = s.dev.straps := by
  by_cases hr : ∃ p, c = .resetRelease p
  · obtain ⟨p, rfl⟩ := hr
    have hoff : s.dev.state ≠ .off := hc.resolve_left fun hne => hne p rfl
    have e : doResetRelease p s = t := Host.Outcome.next.inj h
    rw [← e, doResetRelease_of_ne_off p hoff]
  by_cases hk : ∃ ok, c = .keyProgramDone ok
  · obtain ⟨ok, rfl⟩ := hk
    have e : doKeyProgramDone ok s = t := Host.Outcome.next.inj h
    obtain ⟨-, -, straps⟩ := kept_doKeyProgramDone ok s
    exact e ▸ straps
  · exact (keeps_exec (not_exists.1 hr) (not_exists.1 hk) h).straps

/-- Settles O6: the release in OFF writes the sample and nothing after it does; of the other commands only KEY_PROGRAM_DONE is not
covered by keeps_exec, and it sets a key and leaves the sample. -/
theorem strapsSampledAtRelease : Obligations.StrapsSampledAtRelease :=
  ⟨fun p _ hoff hv hl => ⟨_, rfl, doResetRelease_straps p hoff hv hl⟩, fun _ _ _ hc h => exec_straps hc h⟩

end Sys2Proof.Machine
end

section
/-! What a refused transaction is answered, and that no reaction of its port's page takes the answer back. -/

namespace Sys2Proof.Machine

/-- Every transaction that has its response stands as it was, on every port. -/
def KeepsAnswered (s t : State) : Prop := ∀ m, ∀ y ∈ (s.hp m).txns, y.resp.isSome = true → y ∈ (t.hp m).txns

theorem KeepsAnswered.refl (s : State) : KeepsAnswered s s := fun _ _ hy _ => hy

theorem KeepsAnswered.trans {s t u : State} (h : KeepsAnswered s t) (k : KeepsAnswered t u) : KeepsAnswered s u :=
  fun m y hy hr => k m y (h m y hy hr) hr

theorem KeepsAnswered.of_hps {s t : State} (h : t.hps = s.hps) : KeepsAnswered s t := fun m y hy _ => by
  unfold State.hp at hy ⊢
  rwa [h]

theorem keepsAnswered_updHp (s : State) (n : Nat) (f : Hp → Hp)
    (h : ∀ y ∈ (s.hp n).txns, y.resp.isSome = true → y ∈ (f (s.hp n)).txns) : KeepsAnswered s (s.updHp n f) := fun m y hy hr => by
  show y ∈ ((upd s.hps n f).getD m {}).txns
  rw [getD_upd]
  split
  · next hm =>
    obtain ⟨rfl, -⟩ := hm
    exact h y hy hr
  · exact hy

/-- An abort passes over the transactions that have their response (R470). -/
theorem mem_abortList {sel : Txn → Bool} {tb : Time} {y : Txn} (hr : y.resp.isSome = true) {l : List Txn} (hy : y ∈ l) (order : Nat)
    (hit : BitVec 4) : y ∈ (abortList sel tb order hit l).1 := by
  induction l generalizing order hit with
  | nil => cases hy
  | cons t ts ih =>
    unfold abortList
    rcases List.mem_cons.1 hy with rfl | hts
    · rw [if_pos hr]
      exact List.mem_cons_self
    · split
      · exact List.mem_cons_of_mem _ (ih hts ..)
      split
      · exact List.mem_cons_of_mem _ (ih hts ..)
      split
      · exact List.mem_cons_of_mem _ (ih hts ..)
      · exact List.mem_cons_of_mem _ (ih hts ..)

theorem keepsAnswered_abortPort (s : State) (n : Nat) (sel : Txn → Bool) : KeepsAnswered s (s.abortPort n sel) := by
  unfold State.abortPort
  extract_lets p r s1
  have h : KeepsAnswered s s1 := keepsAnswered_updHp s n _ fun y hy hr => mem_abortList hr hy ..
  exact h.trans (.of_hps (addCounter_hps ..))

theorem keepsAnswered_resetPort (s : State) (n : Nat) : KeepsAnswered s (s.resetPort n) :=
  (keepsAnswered_abortPort s n _).trans (keepsAnswered_updHp _ n _ fun _ hy _ => hy)

theorem keepsAnswered_fencePort (s : State) (n : Nat) (key : Option LogKey) : KeepsAnswered s (s.fencePort n key) := by
  unfold State.fencePort
  extract_lets s1
  have h : KeepsAnswered s s1 := (keepsAnswered_resetPort s n).trans (keepsAnswered_updHp _ n _ fun _ hy _ => hy)
  exact h.trans (.of_hps (log_hps ..))

/-- No reaction of a port's page but CHIP_RESET takes a response back: TRAP, BLOCK_RESET, FENCE, SAFE_STOP, and those that act on no unit
(R539). -/
theorem keepsAnswered_react_hp (s : State) (n : Fin 4) (c : Nat) (taken : BitVec 4) (origin : Page) (serial : Nat)
    (ht : (taken &&& 7).toNat ≠ 6) : KeepsAnswered s (s.react (.hp n) c taken origin serial) := by
  unfold State.react
  extract_lets key
  -- Another page's branch contradicts the page, and CHIP_RESET's contradicts `ht`.
  split <;> try contradiction
  · exact .of_hps (trapPending_hps ..)
  · split
    · exact .refl s
    · exact (keepsAnswered_resetPort s _).trans (.of_hps (openShadow_hps ..))
  · split
    · exact .refl s
    · exact (keepsAnswered_fencePort s _ key).trans (.of_hps (openShadow_hps ..))
  · exact .of_hps (reactStop_hps _ _ _ _ _ _ ht)
  · exact .refl s

theorem dieLatch_hps (s : State) (e : Ev) : (s.dieLatch e).hps = s.hps := by
  unfold State.dieLatch
  extract_lets on
  split
  · exact setLatch_hps ..
  · rfl

theorem recordLate_hps (s : State) (e : Ev) : (s.recordLate e).hps = s.hps := by
  unfold State.recordLate
  extract_lets b
  split <;> rfl

theorem keepsAnswered_raise_hp {s : State} (hn : s.noChipReset = true) (n : Fin 4) (c : Nat) :
    KeepsAnswered s (s.raise { page := .hp n, cause := c }) := by
  unfold State.raise
  split
  · exact .of_hps (dieLatch_hps ..)
  split
  · exact .refl s
  split
  · exact .of_hps (recordLate_hps ..)
  split
  · exact .refl s
  · exact (KeepsAnswered.of_hps (record_hps ..)).trans (keepsAnswered_react_hp _ n c _ _ _ (record_taken hn _ (by simp)))

theorem keepsAnswered_violation {s : State} (hn : s.noChipReset = true) (n : Nat) : KeepsAnswered s (s.violation n) := by
  unfold State.violation
  have counts : Grows s ((s.bump (hpOf n) 0x48).bump .own (0x44 + 4 * n)) := (grows_bump ..).trans (grows_bump ..)
  have ports : KeepsAnswered s ((s.bump (hpOf n) 0x48).bump .own (0x44 + 4 * n)) := .of_hps rfl
  exact ports.trans (keepsAnswered_raise_hp (counts.chip hn) _ 0)

/-! The response to a refusal. -/

theorem hps_length {s : State} (h : s.shaped = true) : s.hps.length = 4 := by
  simp only [State.shaped, Bool.and_eq_true, beq_iff_eq] at h
  obtain ⟨⟨⟨-, ports⟩, -⟩, -⟩ := h
  exact ports

theorem headTxn_waits {s : State} {n stream : Nat} {x : Txn} (h : s.headTxn n stream = some x) : x ∈ (s.hp n).txns ∧ x.resp = none := by
  have head := List.find?_some h
  exact ⟨List.mem_of_find?_eq_some h, by simpa using (Bool.and_eq_true_iff.1 head).2⟩

theorem finish_mem_answer {s : State} {n : Nat} {x : Txn} (hn : n < s.hps.length) (hx : x ∈ (s.hp n).txns) (hr : x.resp = none)
    (status : Byte) (words : List Word) :
    x.finish status words s.frm.tb (s.hp n).readyCount ∈ ((s.answer n x status words).hp n).txns := by
  unfold State.answer
  show _ ∈ ((upd s.hps n _).getD n {}).txns
  rw [getD_upd, if_pos ⟨rfl, hn⟩]
  exact List.mem_map.2 ⟨x, hx, by simp [hr, State.hp]⟩

theorem keepsAnswered_refuse {s : State} (hc : s.noChipReset = true) (n : Nat) (x : Txn) (r : Refused) :
    KeepsAnswered (s.answer n x r.status x.zeros) (s.refuse n x r) := by
  unfold State.refuse
  extract_lets u v
  have hv : v.noChipReset = true := by
    unfold v
    split <;> exact hc
  have nonce : KeepsAnswered u v := by
    unfold v
    split
    · exact keepsAnswered_updHp u n _ fun _ hy _ => hy
    · exact .refl u
  split
  · exact nonce.trans (keepsAnswered_violation hv n)
  · exact nonce

/-- A refused transaction stands in its port's list with the status of its refusal and with its zeros (R46, R47). -/
theorem finish_mem_refuse {s : State} (hs : s.shaped = true) (hc : s.noChipReset = true) {n stream : Fin 4} {x : Txn}
    (hx : s.headTxn n stream = some x) (r : Refused) :
    x.finish r.status x.zeros s.frm.tb (s.hp n).readyCount ∈ ((s.refuse n x r).hp n).txns := by
  obtain ⟨hmem, hnone⟩ := headTxn_waits hx
  have hn : n.val < s.hps.length := by rw [hps_length hs]; exact n.isLt
  exact keepsAnswered_refuse hc n x r n _ (finish_mem_answer hn hmem hnone ..) rfl

/-- A READ or WRITE that R46 refuses takes effect as its refusal. -/
theorem doTakeEffect_refused {n stream : Fin 4} {s : State} {x : Txn} {r : Refused} (hoff : s.dev.state ≠ .off)
    (hx : s.headTxn n stream = some x) (hop : x.op = 1 ∨ x.op = 2) (hj : s.judge n x = some r) (ties : List Tie)
    (ecc : List (BitVec 17 × EccErr)) (ok : Bool) : doTakeEffect n stream ties ecc ok s = s.refuse n x r := by
  have access : (x.op == 1 || x.op == 2) = true := by simpa using hop
  simp only [doTakeEffect, beq_iff_eq, hoff, if_false, hx, State.takeTxn, access, if_true, State.access, hj]

theorem zeros_of_read {x : Txn} (hop : x.op = 1) : x.zeros = List.replicate x.len 0 := by
  simp [Txn.zeros, hop]

/-- Settles O44: the refusal answers the read with its zeros, and of the reactions to the violation it may count, a reset and a fence of the
port keep the responses that are ready, and the others touch no port. -/
theorem refusedReadReturnsZeros : Obligations.RefusedReadReturnsZeros := by
  intro n stream ties ecc ok s x r hs hc hoff hx hop hj
  have effect : exec (.takeEffect n stream ties ecc ok) s = .next (s.refuse n x r) :=
    congrArg Host.Outcome.next (doTakeEffect_refused hoff hx (.inl hop) hj ties ecc ok)
  exact ⟨_, _, _, effect, finish_mem_refuse hs hc hx r, rfl, rfl, rfl, zeros_of_read hop⟩

end Sys2Proof.Machine
end

section
/-! An event of FRM or TRP leaves the outputs' commands, the frame in progress and FRM's registers alone, whatever its reaction but CHIP_RESET;
so a frame that OVERRUN has latched in sends no strobe at its COMMIT_AT. -/

namespace Sys2Proof.Machine

/-- What the commit of a frame decides and acts on: the outputs' commands, the frame in progress, FRM's own registers. -/
structure CommitView where
  commands : List (Bool × Bool)
  prog : Progress
  frm : Frm

def State.commitView (s : State) : CommitView := ⟨s.outs.map fun u => (u.cmdC, u.cmdD), s.prog, s.frm⟩

theorem commitView_of {s t : State} (ho : t.outs.map (fun u => (u.cmdC, u.cmdD)) = s.outs.map fun u => (u.cmdC, u.cmdD))
    (hp : t.prog = s.prog) (hf : t.frm = s.frm) : t.commitView = s.commitView := by
  unfold State.commitView
  rw [ho, hp, hf]

theorem CommitView.fields {s t : State} (h : t.commitView = s.commitView) :
    t.outs.map (fun u => (u.cmdC, u.cmdD)) = s.outs.map (fun u => (u.cmdC, u.cmdD)) ∧ t.prog = s.prog ∧ t.frm = s.frm :=
  ⟨congrArg CommitView.commands h, congrArg CommitView.prog h, congrArg CommitView.frm h⟩

/-! What the shared operations do to it. -/

theorem logPush_commitView (s : State) (it : LogItem) : (s.logPush it).commitView = s.commitView :=
  commitView_of (by rw [logPush_outs]) (logPush_prog ..) (logPush_frm ..)

theorem updOut_commitView (s : State) (o : Nat) (f : Output → Output) (hf : ∀ u, ((f u).cmdC, (f u).cmdD) = (u.cmdC, u.cmdD)) :
    (s.updOut o f).commitView = s.commitView :=
  commitView_of (map_upd _ _ _ _ hf) rfl rfl

theorem settleOuts_commitView (s : State) : s.settleOuts.commitView = s.commitView := by
  refine commitView_of ?_ rfl rfl
  refine List.ext_getElem (by simp [State.settleOuts]) fun o _ _ => ?_
  simp only [State.settleOuts, List.getElem_map, List.getElem_mapIdx]
  split <;> rfl

theorem updateTrips_commitView (s : State) : s.updateTrips.commitView = s.commitView := by
  obtain ⟨a, b, k⟩ := setTrips_form s
  unfold State.updateTrips
  rw [settleOuts_commitView, sendLanes_frame, k]
  rfl

theorem stopTrap_commitView (s : State) : s.stopTrap.commitView = s.commitView := by
  obtain ⟨a, c, d, m, h⟩ := stopTrap_form s
  rw [h]
  rfl

/-- A change of STATE to one with boundaries. -/
theorem changeState_commitView (s : State) (st : DevState) (page : BitVec 12) (key : Option LogKey) (hb : st.hasBoundaries = true) :
    (s.changeState st page key).commitView = s.commitView := by
  unfold State.changeState
  rw [if_pos hb]
  extract_lets old s1 d c p s2 s3 s4
  have h3 : s3.commitView = s2.commitView := by
    unfold s3
    split <;> rfl
  have h4 : s4.commitView = s3.commitView := by
    unfold s4
    split
    · rfl
    · exact logPush_commitView ..
  exact (updateTrips_commitView _).trans (h4.trans h3)

theorem setDev_commitView (s : State) (d : Dev) : ({ s with dev := d }).commitView = s.commitView := rfl

theorem safeStop_commitView (s : State) (p : Page) (c : Nat) : (s.safeStop p c).commitView = s.commitView := by
  unfold State.safeStop
  extract_lets key r36 a x1 d b
  have ha : a.commitView = s.commitView := changeState_commitView s .safe p.num12 key rfl
  clear_value a
  have hb : b.commitView = s.commitView := (setDev_commitView a _).trans ha
  clear_value b
  split
  · exact (setDev_commitView a.stopTrap _).trans ((stopTrap_commitView a).trans ha)
  · split
    · exact (stopTrap_commitView b).trans hb
    · exact hb
  · split
    · exact (setDev_commitView s.stopTrap _).trans (stopTrap_commitView s)
    · rfl
  · split
    · exact stopTrap_commitView s
    · rfl
  · rfl

theorem reactStop_commitView (s : State) (p : Page) (c : Nat) (taken : BitVec 4) (origin : Page) (serial : Nat)
    (ht : (taken &&& 7).toNat ≠ 6) : (s.reactStop p c taken origin serial).commitView = s.commitView := by
  unfold State.reactStop
  split
  · show State.commitView (if _ then _ else _) = _
    split
    · rfl
    · exact safeStop_commitView s.stopTaken p c
  · next w => exact absurd w ht
  · rfl

theorem setLatch_commitView (s : State) (e : Ev) : (s.setLatch e).commitView = s.commitView := by
  unfold State.setLatch
  extract_lets s1
  have h1 : s1.commitView = s.commitView := by
    unfold s1
    split <;> rfl
  split
  · exact h1
  · refine (updOut_commitView s1 _ _ ?_).trans h1
    exact fun _ => rfl
  · exact h1
  · exact h1

/-! Events of FRM and TRP. -/

/-- The record of an event that is no channel cause (R154, R155). -/
theorem record_commitView (s : State) (e : Ev) (hp : e.page = .frm ∨ e.page = .trp) : (s.record e).1.commitView = s.commitView := by
  unfold State.record
  extract_lets p h sh cl r wasOpen cls taken origin inc serial conseq shown s1 s2 s3 unit w s4 sn s5 src' s6
  have h3 : s3.commitView = s2.commitView := by
    unfold s3
    split <;> rfl
  have h4 : s4.commitView = s3.commitView := logPush_commitView ..
  have hn : sn.commitView = s4.commitView := by
    unfold sn State.noteFv
    split
    · split <;> rfl
    · rfl
  have h5 : s5.commitView = sn.commitView := by
    have other : (p == .cop || p == .drg || p == .cmp) = false := by
      unfold p
      rcases hp with hp | hp <;> rw [hp] <;> rfl
    unfold s5
    rw [other]
    rfl
  have h6 : s6.commitView = s5.commitView := by
    unfold s6
    split <;> rfl
  calc s6.commitView = s5.commitView := h6
    _ = s2.commitView := h5.trans (hn.trans (h4.trans h3))
    _ = s.commitView := setLatch_commitView s e

/-- FRM and TRP have no unit that a block reset or a fence acts on: of their reactions TRAP and SAFE_STOP remain (R539). -/
theorem react_commitView (s : State) {p : Page} (hp : p = .frm ∨ p = .trp) (c : Nat) (taken : BitVec 4) (origin : Page) (serial : Nat)
    (ht : (taken &&& 7).toNat ≠ 6) : (s.react p c taken origin serial).commitView = s.commitView := by
  have stop := reactStop_commitView s p c taken origin serial ht
  rcases hp with rfl | rfl
  all_goals
    unfold State.react
    extract_lets key
    -- Another page's branch contradicts the page, and CHIP_RESET's contradicts `ht`.
    split <;> try contradiction
    · rfl
    · exact stop
    · rfl

theorem dieLatch_commitView (s : State) (e : Ev) : (s.dieLatch e).commitView = s.commitView := by
  unfold State.dieLatch
  extract_lets on
  split
  · exact setLatch_commitView ..
  · rfl

theorem recordLate_commitView (s : State) (e : Ev) : (s.recordLate e).commitView = s.commitView := by
  unfold State.recordLate
  extract_lets b
  split <;> rfl

theorem raise_commitView {s : State} (hn : s.noChipReset = true) (e : Ev) (hp : e.page = .frm ∨ e.page = .trp)
    (hf : ∀ r, e.fixed = some r → (r &&& 7).toNat ≠ 6) : (s.raise e).commitView = s.commitView := by
  unfold State.raise
  split
  · exact dieLatch_commitView ..
  split
  · rfl
  split
  · exact recordLate_commitView ..
  split
  · rfl
  · exact (react_commitView _ hp _ _ _ _ (record_taken hn e hf)).trans (record_commitView s e hp)

theorem tripFault_commitView {s : State} (hn : s.noChipReset = true) (c bank : Nat) (info : Word) :
    (s.tripFault c bank info).commitView = s.commitView := by
  unfold State.tripFault
  extract_lets t1 s1
  have h1 : s1.noChipReset = true ∧ s1.commitView = s.commitView := by
    unfold s1
    split <;> exact ⟨hn, rfl⟩
  obtain ⟨chip, view⟩ := h1
  exact (raise_commitView chip _ (.inr rfl) (by simp)).trans view

/-! OVERRUN and the commit after it. -/

/-- A fold of an operation that leaves CHIP_RESET unselected. -/
theorem foldl_commitView {α : Type} {f : State → α → State}
    (hf : ∀ s a, s.noChipReset = true → (f s a).noChipReset = true ∧ (f s a).commitView = s.commitView) (l : List α) {s : State}
    (hn : s.noChipReset = true) : (l.foldl f s).commitView = s.commitView := by
  induction l generalizing s with
  | nil => rfl
  | cons a l ih =>
    obtain ⟨chip, view⟩ := hf s a hn
    exact (ih chip).trans view

/-- The latch check of a commit instant raises events of TRP only (R200, R201). -/
theorem latchCheck_commitView {s : State} (hn : s.noChipReset = true) : s.latchCheck.commitView = s.commitView := by
  unfold State.latchCheck
  extract_lets diff twice new t s1
  refine (foldl_commitView (fun u n hu => ?_) _ (show s1.noChipReset = true from hn)).trans rfl
  split
  · extract_lets w
    have chip : w.2.noChipReset = true := hu
    exact ⟨(grows_tripFault w.2 4 _ _ chip).chip chip, tripFault_commitView chip ..⟩
  · exact ⟨hu, rfl⟩

/-- The late frame with OVERRUN noted, before the event (R84). -/
def State.overran (s : State) : State := { s with prog := { s.prog with overrun := true } }

theorem doOverrun_late {s : State} (hf : s.inEvalFrame = true) (he : s.evaluates = true) (hl : s.prog.late = true) :
    doOverrun s = s.overran.raise { page := .frm, cause := 0 } := by
  unfold doOverrun
  rw [if_pos (by rw [hf, he, hl]; rfl)]
  rfl

/-- After an overrun the first row of R88 that holds is STATE's or the overrun's own, and either withholds the strobe. -/
theorem commitRow_of_overrun {s : State} (ho : s.prog.overrun = true) :
    s.commitRow.strobe = .none ∧ s.commitRow.result = 3 ∧ (s.commitRow == .armFail) = false := by
  have row : s.commitRow = .stopped ∨ s.commitRow = .overrun := by
    by_cases stopped : s.commitStopped = true
    · exact .inl (if_pos stopped)
    · exact .inr ((if_neg stopped).trans (if_pos ho))
  rcases row with h | h <;> (rw [h]; exact ⟨rfl, rfl, rfl⟩)

/-- The state of a withheld commit whose frame's EVALUATE has not ended: nothing is sent and nothing is published (R88, R93, R112). -/
def State.withheld (s : State) : State :=
  { s with
    free := s.free + 1
    frm := { s.frm with result := 3, evalEnd := (Config.freeWord s.free).setWidth 17, commitFrame := s.frm.frameNum, phase := 5 }
    prog := { s.prog with commitDone := true, decidedAt := some s.frm.tb, strobe := .none, strobed := 0 } }

theorem doCommitAt_overrun {s : State} (hf : s.inEvalFrame = true) (hd : s.prog.commitDone = false) (he : s.prog.evalEnded = false)
    (ho : s.prog.overrun = true) : doCommitAt s = s.withheld.latchCheck := by
  unfold doCommitAt
  rw [if_pos (by rw [hf, hd]; rfl)]
  have shown : s.evalEndShown = ((Config.freeWord s.free).setWidth 17, { s with free := s.free + 1 }) := by
    unfold State.evalEndShown
    rw [if_neg (by rw [he]; decide)]
    rfl
  have unpublished : s.withheld.publishes = false := by
    unfold State.publishes State.withheld
    rw [he]
    rfl
  obtain ⟨strobe, result, armed⟩ := commitRow_of_overrun ho
  rw [shown]
  extract_lets row e u f p s1 s2
  have h1 : s1 = s.withheld := by
    unfold s1 f p row
    rw [strobe, result]
    rfl
  have h2 : s2 = s.withheld := by
    unfold s2
    rw [h1, unpublished]
    rfl
  rw [show (row == CommitRow.armFail) = false from armed, h2]
  rfl

/-- A strobe that was not sent applies nothing. -/
theorem doStrobeApply_of_none (d : Fin 2) {s : State} (h : s.prog.strobe = .none) : doStrobeApply d s = s := by
  unfold doStrobeApply
  rw [h]
  rfl

/-- Settles O24: OVERRUN's event leaves the commands alone and shows its cause; the commit of the late frame is withheld, its latch check
sends no strobe, and a die without a strobe applies nothing. -/
theorem overrunLatches : Obligations.OverrunLatches := by
  intro s hs hn hf he hend hdone
  refine ⟨fun hover => ?_, fun hover => ?_⟩
  · have late : s.prog.late = true := by
      unfold Progress.late
      rw [hend, hover, hdone]
      rfl
    have effect := doOverrun_late hf he late
    have chip : s.overran.noChipReset = true := hn
    obtain ⟨commands, prog, -⟩ := CommitView.fields (raise_commitView chip { page := .frm, cause := 0 } (.inl rfl) (by simp))
    refine ⟨_, congrArg Host.Outcome.next effect, ?_, fun hh => ?_, commands⟩
    · rw [prog]
      rfl
    · have shaped : s.overran.shaped = true := hs
      exact raise_shows shaped chip { page := .frm, cause := 0 } hh (by decide) (by simp) (by simp) (by simp) (by simp)
  · have effect := doCommitAt_overrun hf hdone hend hover
    obtain ⟨-, prog, frm⟩ := CommitView.fields (latchCheck_commitView (s := s.withheld) hn)
    have unsent : s.withheld.latchCheck.prog.strobe = .none := by rw [prog]; rfl
    refine ⟨_, congrArg Host.Outcome.next effect, ?_, unsent, ?_, ?_, fun d => ?_⟩
    · rw [prog]; rfl
    · rw [prog]; rfl
    · rw [frm]; rfl
    · exact congrArg Host.Outcome.next (doStrobeApply_of_none d unsent)

end Sys2Proof.Machine
end

section
/-! The identification register (R648). -/

namespace Sys2Proof.Machine

/-- Out of OFF an instruction enters the instruction register, and nothing but the port changes. -/
theorem jtagInstr_of_ne_off {s : State} (hoff : s.dev.state ≠ .off) (ir : Byte) (f : Jtag → Jtag) :
    s.jtagInstr ir f = { s with jtag := { f s.jtag with ir := ir } } := by
  unfold State.jtagInstr
  exact if_neg (by simpa using hoff)

/-- The part number that R648 names for each part. -/
def partNumber : Part → BitVec 16
  | .slc4896 => 0x4896
  | .slc2448 => 0x2448

/-- The code's four fields, from the top: version 1, the part number, manufacturer code 0x0B5, and bit 0 set (R648). -/
theorem idCode_fields (p : Part) : (idCode p).extractLsb' 28 4 = 1 ∧ (idCode p).extractLsb' 12 16 = partNumber p
    ∧ (idCode p).extractLsb' 1 11 = 0x0B5 ∧ (idCode p).getLsbD 0 = true := by
  cases p with
  | slc4896 => decide
  | slc2448 => decide

/-- Settles O57: out of OFF the instruction leaves the part's code in the register that it selects, and both codes have R648's fields. -/
theorem idcodeReads : Obligations.IdcodeReads := by
  intro s hoff
  have effect : doIdcode s = { s with jtag := { s.jtag with ir := 0x02, data := idCode s.ident.part } } := jtagInstr_of_ne_off hoff ..
  obtain ⟨version, number, manufacturer, marker⟩ := idCode_fields s.ident.part
  exact ⟨_, congrArg Host.Outcome.next effect, rfl, rfl, congrArg idCode, congrArg idCode, version, manufacturer, marker,
    fun h => number.trans (congrArg partNumber h), fun h => number.trans (congrArg partNumber h)⟩

end Sys2Proof.Machine
end
